-- ==== Sys2Proof/Word.lean ====
section
/-! DEFINITION. The words the manual treats as bits: bytes, 32-bit vector elements and 64-bit
scalars, little-endian throughout (R8). -/

namespace Sys2Proof

/-- One byte of memory. -/
abbrev Byte := BitVec 8
/-- A vector register's element, an accumulator word, a 32-bit special register. -/
abbrev W32 := BitVec 32
/-- A scalar register, a PC, a virtual address. -/
abbrev W64 := BitVec 64

end Sys2Proof
end

