-- ==== Sys2Proof/Config.lean ====
section
/-! DEFINITION. What the manual leaves open: free values, constants without a body, which no proof
can see. Each is applied to a counter of State or to the thing it concerns (log 4). -/

namespace Sys2Proof.Config

/-- How many pending writes of a register a hazard read has seen return, for each choice (R104). -/
opaque hazardPick : Nat → Nat
/-- The step from which a group sees an unfinished update of an accumulator word by another, by the update, the group and
the word (R224). -/
opaque rowSeen : Nat → Nat → Nat → Nat
/-- Whether an access of a lane is performed later than its issue, for each choice (R240, R248). -/
opaque defers : Nat → Bool
/-- What an atomic to a package without a route returns (R396). -/
opaque lostAtomic : Nat → Nat
/-- Core clock cycles that pass between two readings of `$cyc` (R6). -/
opaque cycles : Nat → Nat
/-- Bytes of an attestation report after the nonce and the measurements, where the manual places nothing: a function of
what the report tells, the draw of its signature and the place (R399). -/
opaque sealedByte : List (BitVec 8) → Nat → Nat → BitVec 8
/-- The key stream of a context's sealed images (R304). -/
opaque keyStream : Nat → Nat → BitVec 8
/-- Whether an image that this part did not seal passes the authentication of a context (R304). -/
opaque authentic : Nat → List (BitVec 8) → Bool
/-- How a byte of HBM that was written under one key reads under another, by the two keys and the address (R397). -/
opaque veil : Nat → Nat → Nat → BitVec 8
/-- Whether a walk that runs while entries change takes the old entry at a level, by the step and the entry's address
(R346). -/
opaque walkOld : Nat → Nat → Bool
/-- The steps that a TLB takes to confirm a shootdown, for each change of a mapping and each TLB entry (R347). -/
opaque confirms : Nat → Nat → Nat
/-- NCNT of a sieve record with STATUS 2 (R374). -/
opaque nanCount : Nat → BitVec 32
/-- Whether a fixed-latency interlock (1) or a bank conflict (2) holds a group, for each sample (R383). -/
opaque interlock : Nat → Nat
/-- The cycle counts that a block of the package adds between two snapshot triggers, by the trigger's draw and the block
(R388). -/
opaque blockCycles : Nat → Nat → Nat
/-- REASON and BLAME of a stall sample of a group that waits for something the manual gives no code (R383). -/
opaque stallReason : Nat → BitVec 8
opaque stallBlame : Nat → BitVec 64
/-- Whether the package is the card RLF9-P, whose power cap ends at BRDLIM, rather than the RLF9-M (R400). -/
opaque isCard : Bool
/-- COUNT of a type-3 record whose count does not fit its 24 bits (R356). -/
opaque countBits : Nat → BitVec 24
/-- Whether a snapshot trigger finds that some block has not confirmed the one before (R388). -/
opaque snapBusy : Nat → Bool

/-- Whether the host provides a service of the numbers from 2,048 (R206). -/
opaque hostServes : Nat → Bool
/-- Whether an in-field test agrees with its signature, by the step and the partition (R368). -/
opaque testPasses : Nat → Nat → Bool
/-- Array cycles that an in-field test draws, for each choice (R368). -/
opaque testCycles : Nat → Nat
/-- Which of the lines that it may replace a full cache gives up, for each choice (R238, R322). -/
opaque victim : Nat → Nat
/-- Which dirty bytes of a line a write-back takes, for each choice (R240). -/
opaque writeBack : Nat → BitVec 128
/-- Which of its two HBM stacks a die holds a frame in (R369). -/
opaque stackOf : Nat → Nat
/-- The accesses to a vault page below which the Memory core may move it out, for each choice (R311). -/
opaque demoteBelow : Nat → Nat

end Sys2Proof.Config
end

