-- ==== Sys2Proof/Machine/Flags.lean ====
section
/-! DEFINITION. The sticky flags of `$gsw` (R61, R80): what an operation raises, and what a write of the
register clears. -/

namespace Sys2Proof.Machine

/-- The sticky flags of `$gsw` (R61, R80). -/
structure Flags where
  nv   : Bool := false
  dz   : Bool := false
  ov   : Bool := false
  uf   : Bool := false
  nx   : Bool := false
  sat  : Bool := false
  asat : Bool := false
deriving DecidableEq, Repr

/-- The flags that either operation raised. -/
def Flags.or (a b : Flags) : Flags :=
  ⟨a.nv || b.nv, a.dz || b.dz, a.ov || b.ov, a.uf || b.uf, a.nx || b.nx, a.sat || b.sat,
    a.asat || b.asat⟩

/-- The bits of the flags in `$gsw` (R61). -/
def Flags.mask (f : Flags) : Nat :=
  (if f.nx then 1 else 0) + (if f.uf then 2 else 0) + (if f.ov then 4 else 0) +
  (if f.dz then 8 else 0) + (if f.nv then 16 else 0) + (if f.sat then 32 else 0) +
  (if f.asat then 64 else 0)

/-- A result and the flags its computation raises. -/
structure Res where
  bits  : Nat
  flags : Flags := {}
deriving DecidableEq, Repr

/-- `$gsw` after a program's write of `x` (R61, R210): TM and HC take the written bits, a 1 clears a
sticky flag, and every other bit ignores what is written. -/
def gswWrite (old x : W64) : W64 :=
  (old &&& ~~~0xA00000#64 &&& ~~~(x &&& 0x7F#64)) ||| (x &&& 0xA00000#64)

/-- `$cause` after a program's write (R62, R210): DETAIL and CODE are written, reserved bits stay. -/
def causeWrite (old x : W32) : W32 := (old &&& ~~~0xFFF#32) ||| (x &&& 0xFFF#32)

end Sys2Proof.Machine
end

