-- ==== Sys2Proof/Syntax.lean ====
section
/-! DEFINITION. The instructions of the Relfen 9 and the whole, indivisible events of its table:
one constructor of `Instr` per row of spec/opcode_table.json. -/

namespace Sys2Proof

/-- Integer element types, in the order of their codes (R118). -/
inductive IntTy | s8 | s16 | s32 | s64 | z8 | z16 | z32 | z64
deriving DecidableEq, Repr

/-- Floating-point formats, in the order of their codes (R71, R137). -/
inductive FpFmt | f32 | f16 | bf16 | e5m2 | e4m3 | e3m2 | e2m3 | e2m1
deriving DecidableEq, Repr

/-- Rounding modes, in the order of their codes (R77, R98). -/
inductive Rnd | rn | rz | rd | ru
deriving DecidableEq, Repr

/-- Scopes, in the order of their codes (R98, R243). -/
inductive Scope | thr | grp | tem | clu | die | dev | sys
deriving DecidableEq, Repr

/-- Conditions of `cmp` and `fcmp`, in the order of their codes (R126, R133). `un` is `fcmp`'s alone. -/
inductive Cond | eq | ne | lt | le | gt | ge | un
deriving DecidableEq, Repr

/-- Operations of `plog` (R129). -/
inductive PlogOp | and | or | xor | andn
deriving DecidableEq, Repr

/-- Modes of `xlane` (R140). -/
inductive XlaneMode | pick | rotu | rotd | flip
deriving DecidableEq, Repr

/-- Modes of `lpoll` (R141). -/
inductive PollMode | every | some | mask | count
deriving DecidableEq, Repr

/-- Fold operations of `lfold` (R142). `ffold` takes the first three and `scan` the first three. -/
inductive FoldOp | add | min | max | and | or | xor
deriving DecidableEq, Repr

/-- Size codes of loads and stores (R149). -/
inductive Size | s8 | z8 | s16 | z16 | s32 | z32 | d64 | q128
deriving DecidableEq, Repr

/-- Ordering fields of atomics (R164). `fence` takes all but `relaxed` (R177). -/
inductive Order | relaxed | acq | rel | ar
deriving DecidableEq, Repr

/-- Full/empty behaviour of `ldl` (plain, `.wf`, `.wc`) (R158). -/
inductive LoadFe | plain | wf | wc
deriving DecidableEq, Repr

/-- Full/empty behaviour of `stl` and `ast` (plain, `.sf`, `.se`) (R158, R214). -/
inductive StoreFe | plain | sf | se
deriving DecidableEq, Repr

/-- Formats of `mma`, in the order of their codes (R216). -/
inductive MmaFmt | bf16 | f16 | e4m3 | e5m2 | e3m2 | e2m3 | e2m1 | s8
deriving DecidableEq, Repr

/-- Activation formats of `mmq` (R219). -/
inductive ActFmt | bf16 | f16 | e4m3 | e5m2 | s8
deriving DecidableEq, Repr

/-- Group sizes of `mmq` along K (R214). -/
inductive QGroup | g32 | g64 | g128
deriving DecidableEq, Repr

/-- Row images of `mlda` (R221). -/
inductive RowW | w16 | w32 | w64
deriving DecidableEq, Repr

/-- A vector operand's sub-field, by the form its opcode accepts (R96). `sel` is a byte select and
also holds the raw sub-field where R164 and R214 give it another meaning. -/
inductive Sub
  | plain
  | neg
  | abs
  | negAbs
  | sel (n : Nat)
  | swz (n : Nat)
  | ln (n : Nat)
deriving DecidableEq, Repr

/-- An operand (R15, R94). A long immediate (R95) is one operand: its upper half, which field B
carries, belongs to it and B is then `none`. -/
inductive Opnd
  | v (i : Nat) (sub : Sub)
  | s (i : Nat)
  | imm (x : Int)
  | limm (x : Nat)
  | acc (t : Nat) (rows : Option Nat)
  | sp (i : Nat) (sub : Nat)
  | p (i : Nat)
  | none
deriving DecidableEq, Repr

/-- The guard and the hints of an instruction word (R97, R99). -/
structure Ctl where
  neg   : Bool
  pred  : Nat
  mark  : Bool
  keepD : Bool
  keepA : Bool
  keepB : Bool
  latch : Bool
  yield : Bool
  pair  : Nat
  stall : Nat
deriving DecidableEq, Repr

/-- No hints, guard `p7`. -/
def Ctl.plain : Ctl := ⟨false, 7, false, false, false, false, false, false, 0, 0⟩

/-- The three operand fields (R92). -/
structure Ops where
  d : Opnd
  a : Opnd
  b : Opnd
deriving DecidableEq, Repr

/-- Where an error of R362 was found. -/
inductive CachePlace | l1Data | l2Data | l1Tag | l2Tag
deriving DecidableEq, Repr

/-- Where a dirty byte is held (R240): the L1 of a core, or a line of a die's L2. -/
inductive DirtyPlace | l1 | l2
deriving DecidableEq, Repr

/-- What a host access to BAR 0 without a row of its own reaches (R390), and the watchpoint and
sampling registers the debugger writes (R383, R384). -/
inductive HostReg
  | ctxtab
  | debug (off : Nat)
  | wctl (part k : Nat)
  | wlo (part k : Nat)
  | whi (part k : Nat)
  | samplePeriod (part : Nat)
  | singleStep (g : Nat)
  | snapEnable (ctx : Nat)
  /-- A write at a read-only or reserved offset of BAR 0, which is ignored (R10). -/
  | fixed (off : Nat)
  /-- A read at an offset of BAR 0. -/
  | read (off : Nat)
deriving DecidableEq, Repr

/-- A peer package's access (R257): an atomic by its number in R163, with the value compared by `cas`. -/
inductive PeerOp
  | read
  | write
  | atomic (op : Nat) (sgn : Bool) (c : W64)
deriving DecidableEq, Repr

/-- A host access through BAR 2 (R395), the AtomicOps of R169 among them. -/
inductive HostOp
  | read
  | write
  | fetchAdd
  | swap
  | cas (c : W64)
deriving DecidableEq, Repr

/-- The arrays whose errors are corrected in place (R362): a way of a die's L2 slice, a way of a core's L1, or a 64 KiB
region of memory. -/
inductive ErrArray
  | l2 | l1 | memory
deriving DecidableEq, Repr

/-- What bring-up finds and sets (R4, R396, R398): the measurements, save slots and estate-store
bytes of cores, the package's domain number, and the ports that lead to each package. -/
structure Boot where
  meas   : List Byte
  vaults : List (Nat × Nat × Nat)
  domain : Nat
  routes : List (Nat × List Nat)
deriving DecidableEq, Repr

/-- The instructions and events of the Relfen 9. Program instructions carry their mod fields, then
guard and hints, then operands; events carry the agent or thing they concern. -/
inductive Instr
  -- integer, bit, address, compare, select, move, predicate (R118 to R129)
  | add (t : IntTy) (sat : Bool) (c : Ctl) (o : Ops)
  | sub (t : IntTy) (sat : Bool) (c : Ctl) (o : Ops)
  | mul (t : IntTy) (sat : Bool) (c : Ctl) (o : Ops)
  | mulhi (t : IntTy) (c : Ctl) (o : Ops)
  | mulw (t : IntTy) (c : Ctl) (o : Ops)
  | mad (t : IntTy) (sat : Bool) (c : Ctl) (o : Ops)
  | div (t : IntTy) (c : Ctl) (o : Ops)
  | rem (t : IntTy) (c : Ctl) (o : Ops)
  | min (t : IntTy) (c : Ctl) (o : Ops)
  | max (t : IntTy) (c : Ctl) (o : Ops)
  | abs (t : IntTy) (sat : Bool) (c : Ctl) (o : Ops)
  | neg (t : IntTy) (sat : Bool) (c : Ctl) (o : Ops)
  | and (w64 : Bool) (c : Ctl) (o : Ops)
  | or (w64 : Bool) (c : Ctl) (o : Ops)
  | xor (w64 : Bool) (c : Ctl) (o : Ops)
  | not (w64 : Bool) (c : Ctl) (o : Ops)
  | shl (t : IntTy) (c : Ctl) (o : Ops)
  | shr (t : IntTy) (c : Ctl) (o : Ops)
  | rotl (w64 : Bool) (c : Ctl) (o : Ops)
  | popc (w64 : Bool) (c : Ctl) (o : Ops)
  | clz (w64 : Bool) (c : Ctl) (o : Ops)
  | brev (w64 : Bool) (c : Ctl) (o : Ops)
  | bfx (t : IntTy) (c : Ctl) (o : Ops)
  | bfi (w64 : Bool) (c : Ctl) (o : Ops)
  | lea (z : Bool) (sh : Nat) (c : Ctl) (o : Ops)
  | cmp (cc : Cond) (t : IntTy) (c : Ctl) (o : Ops)
  | sel (w64 : Bool) (inv : Bool) (k : Nat) (c : Ctl) (o : Ops)
  | mov (w64 : Bool) (c : Ctl) (o : Ops)
  | plog (op : PlogOp) (c : Ctl) (o : Ops)
  -- floating point (R130 to R136)
  | fadd (ftz : Bool) (f : FpFmt) (r : Rnd) (c : Ctl) (o : Ops)
  | fsub (ftz : Bool) (f : FpFmt) (r : Rnd) (c : Ctl) (o : Ops)
  | fmul (ftz : Bool) (f : FpFmt) (r : Rnd) (c : Ctl) (o : Ops)
  | fma (ftz : Bool) (f : FpFmt) (r : Rnd) (c : Ctl) (o : Ops)
  | fdiv (ftz : Bool) (f : FpFmt) (r : Rnd) (c : Ctl) (o : Ops)
  | fsqrt (ftz : Bool) (f : FpFmt) (r : Rnd) (c : Ctl) (o : Ops)
  | fmin (ftz : Bool) (f : FpFmt) (c : Ctl) (o : Ops)
  | fmax (ftz : Bool) (f : FpFmt) (c : Ctl) (o : Ops)
  | frnd (ftz : Bool) (f : FpFmt) (r : Rnd) (c : Ctl) (o : Ops)
  | fcmp (cc : Cond) (ftz : Bool) (c : Ctl) (o : Ops)
  | fclass (c : Ctl) (o : Ops)
  | fdp2 (ftz : Bool) (f : FpFmt) (r : Rnd) (c : Ctl) (o : Ops)
  | frcp (ftz : Bool) (c : Ctl) (o : Ops)
  | frsq (ftz : Bool) (c : Ctl) (o : Ops)
  | fex2 (ftz : Bool) (c : Ctl) (o : Ops)
  | flg2 (ftz : Bool) (c : Ctl) (o : Ops)
  | fsinpi (ftz : Bool) (c : Ctl) (o : Ops)
  | fcospi (ftz : Bool) (c : Ctl) (o : Ops)
  | ftanh (ftz : Bool) (c : Ctl) (o : Ops)
  -- conversions (R137 to R139)
  | cvtFloatToFloat (t s : FpFmt) (nsat : Bool) (r : Rnd) (c : Ctl) (o : Ops)
  | cvtFloatToInt (t : IntTy) (s : FpFmt) (r : Rnd) (c : Ctl) (o : Ops)
  | cvtIntToFloat (t : FpFmt) (s : IntTy) (nsat : Bool) (r : Rnd) (c : Ctl) (o : Ops)
  | cvtIntWrap (t s : IntTy) (c : Ctl) (o : Ops)
  | cvtIntSat (t s : IntTy) (c : Ctl) (o : Ops)
  | cvtQuantise (q8 : Bool) (s : FpFmt) (r : Rnd) (c : Ctl) (o : Ops)
  | cvtDequantise (q8 : Bool) (c : Ctl) (o : Ops)
  -- cross-lane (R140 to R144)
  | xlane (m : XlaneMode) (w64 : Bool) (c : Ctl) (o : Ops)
  | lpoll (m : PollMode) (c : Ctl) (o : Ops)
  | lfold (op : FoldOp) (t : IntTy) (c : Ctl) (o : Ops)
  | ffold (op : FoldOp) (r : Rnd) (c : Ctl) (o : Ops)
  | scan (op : FoldOp) (excl : Bool) (z : Bool) (c : Ctl) (o : Ops)
  | pk6 (c : Ctl) (o : Ops)
  | upk6 (c : Ctl) (o : Ops)
  -- loads, stores, prefetch (R149 to R162)
  | ld (z : Size) (c : Ctl) (o : Ops)
  | st (z : Size) (c : Ctl) (o : Ops)
  | ldAcq (sc : Scope) (z : Size) (c : Ctl) (o : Ops)
  | stRel (sc : Scope) (z : Size) (c : Ctl) (o : Ops)
  | ldl (fe : LoadFe) (z : Size) (c : Ctl) (o : Ops)
  | stl (fe : StoreFe) (z : Size) (c : Ctl) (o : Ops)
  | pref (l2 : Bool) (c : Ctl) (o : Ops)
  -- atomics, compare-and-swap, transactions (R163 to R176)
  | atomAdd (w64 sgn : Bool) (ord : Order) (sc : Scope) (c : Ctl) (o : Ops)
  | atomMin (w64 sgn : Bool) (ord : Order) (sc : Scope) (c : Ctl) (o : Ops)
  | atomMax (w64 sgn : Bool) (ord : Order) (sc : Scope) (c : Ctl) (o : Ops)
  | atomAnd (w64 : Bool) (ord : Order) (sc : Scope) (c : Ctl) (o : Ops)
  | atomOr (w64 : Bool) (ord : Order) (sc : Scope) (c : Ctl) (o : Ops)
  | atomXor (w64 : Bool) (ord : Order) (sc : Scope) (c : Ctl) (o : Ops)
  | atomXchg (w64 : Bool) (ord : Order) (sc : Scope) (c : Ctl) (o : Ops)
  | atomAddF32 (ord : Order) (sc : Scope) (c : Ctl) (o : Ops)
  | cas (w64 : Bool) (ord : Order) (sc : Scope) (c : Ctl) (o : Ops)
  | txb (c : Ctl) (o : Ops)
  | txe (c : Ctl) (o : Ops)
  | txa (c : Ctl) (o : Ops)
  -- fences and cache, record and tile control (R177 to R182)
  | fence (k : Order) (sc : Scope) (c : Ctl) (o : Ops)
  | publ (sc : Scope) (c : Ctl) (o : Ops)
  | rcfence (sc : Scope) (c : Ctl) (o : Ops)
  | icinv (sc : Scope) (c : Ctl) (o : Ops)
  | invalidationConfirmed (g : Nat)
  | sweep (c : Ctl) (o : Ops)
  | tmov (c : Ctl) (o : Ops)
  -- control (R184 to R203)
  | bra (c : Ctl) (o : Ops)
  | brx (c : Ctl) (o : Ops)
  | call (c : Ctl) (o : Ops)
  | callx (c : Ctl) (o : Ops)
  | ret (c : Ctl) (o : Ops)
  | rejoin (c : Ctl) (o : Ops)
  | exit (c : Ctl) (o : Ops)
  | beq (tiles : Nat) (c : Ctl) (o : Ops)
  | estq (c : Ctl) (o : Ops)
  | estdrop (c : Ctl) (o : Ops)
  | spawn (c : Ctl) (o : Ops)
  | post (c : Ctl) (o : Ops)
  | bar (c : Ctl) (o : Ops)
  | donateGive (c : Ctl) (o : Ops)
  | donateTake (c : Ctl) (o : Ops)
  | donationRendezvous (g : Nat)
  | ralloc (c : Ctl) (o : Ops)
  | yield (c : Ctl) (o : Ops)
  | nop (c : Ctl) (o : Ops)
  -- system (R204 to R210)
  | trap (c : Ctl) (o : Ops)
  | sys (c : Ctl) (o : Ops)
  | sysReply (ctx slot : Nat)
  | sigw (c : Ctl) (o : Ops)
  | tret (c : Ctl) (o : Ops)
  | tretSkip (c : Ctl) (o : Ops)
  | tretExit (c : Ctl) (o : Ops)
  | snap (c : Ctl) (o : Ops)
  | mfsr (c : Ctl) (o : Ops)
  | mtsr (c : Ctl) (o : Ops)
  -- matrix array, copy engine, stage rings (R213 to R235)
  | mma (blk : Nat) (f : MmaFmt) (c : Ctl) (o : Ops)
  | mmq (q8 : Bool) (f : ActFmt) (g : QGroup) (c : Ctl) (o : Ops)
  | mlda (n : RowW) (c : Ctl) (o : Ops)
  | ald (c : Ctl) (o : Ops)
  | ast (fe : StoreFe) (c : Ctl) (o : Ops)
  | aclr (c : Ctl) (o : Ops)
  | drain (c : Ctl) (o : Ops)
  | cpin (c : Ctl) (o : Ops)
  | cpout (c : Ctl) (o : Ops)
  | gath (c : Ctl) (o : Ops)
  | engineCommandComplete (core : Nat)
  | racq (c : Ctl) (o : Ops)
  | rput (c : Ctl) (o : Ops)
  | rget (c : Ctl) (o : Ops)
  | rrel (c : Ctl) (o : Ops)
  -- events of groups
  | resultReturn (g k : Nat)
  | dirtyWriteback (pl : DirtyPlace) (unit line : Nat)
  | handlerEntry (g : Nat)
  | groupEnd (g : Nat)
  | scoutEnd (g : Nat)
  | tokenPeriodStart (core : Nat)
  | thermalLimit (die : Nat)
  -- queues, commands and launches
  | queueWake (ctx q : Nat) (v : W64)
  | packetParse (ctx q : Nat)
  | cmdNop (ctx q : Nat)
  | cmdLaunch (ctx q : Nat)
  | cmdGraph (ctx q : Nat)
  | graphNodeNext (ctx q : Nat)
  | cmdWrite (ctx q : Nat)
  | cmdWait (ctx q : Nat)
  | waitRepoll (ctx q : Nat)
  | cmdSignal (ctx q : Nat)
  | teamAdmission (launch core : Nat)
  | phaseEnd (slot : Nat)
  | cqrdWrite (ctx : Nat) (v : W64)
  | cqWriteRetry (ctx : Nat)
  | callRingRetry (g : Nat)
  | mailboxTake (fw : Nat)
  -- preemption
  | timeSliceEnd (ctx : Nat)
  | preemptionSave (team : Nat)
  | maskedHandlerOverrun (team : Nat)
  | teamRestore (team core : Nat)
  -- movable tiles and Memory-core services
  | policyMove (ctx f t : Nat)
  | moveDrainComplete (m : Nat)
  | moveCopyComplete (m : Nat)
  | moveShootdownConfirmed (m : Nat)
  | markRetarget (ctx f t : Nat)
  | markRetire (ctx slot : Nat)
  | markHitCount (ctx slot : Nat)
  | pageIn (ctx slot : Nat)
  | estateExport (ctx slot : Nat)
  | estateImport (ctx slot : Nat)
  | stepTriggerArm (ctx slot : Nat)
  | stepTriggerFire (trig : Nat)
  | attestation (ctx slot : Nat)
  | sieveArm (win : Nat)
  | sievePass (win : Nat)
  -- kill and containment
  | killRequest (v : W64)
  | kill (ctx : Nat)
  | killWrapResume (ctx : Nat)
  | orphanedResponse (ctx : Nat)
  | reclaim (ctx : Nat)
  | teamRelaunch (team core : Nat)
  | uncorrectableCacheError (pl : CachePlace) (unit line way : Nat)
  | correctedError (a : ErrArray) (unit slice way : Nat)
  | memoryPoison (line : Nat)
  | regionRetire (region spare : Nat)
  | stateArrayError (g : Nat)
  | pipelineError (g : Nat) (array : Bool)
  | infieldTest (part : Nat) (array pass : Bool)
  -- debug
  | partitionStop (part : Nat)
  | partitionResume (part : Nat)
  | laneStop (g lane : Nat)
  | laneResume (g lane : Nat)
  | singleStep (g : Nat)
  | stallSample (part : Nat)
  | snapshotTrigger (src tag ctx : Nat)
  -- host, peers, bring-up
  | feataccWrite (v : W64)
  | ctxCreate (ctx : Nat)
  | ctxDestroy (ctx : Nat)
  | pwrcapWrite (v : W64)
  | brdlimWrite (v : W64)
  | registerWrite (r : HostReg) (v : W64)
  | hostWindowAccess (ctx off : Nat) (op : HostOp) (bytes : List Byte)
  | peerAccess (ctx inc pa : Nat) (op : PeerOp) (bytes : List Byte)
  | linkPortFailure (port : Nat)
  | resetBoot (failed : Option Nat) (b : Boot)
  | mappingChange (ctx va len : Nat) (writes : List (Nat × W64)) (backing : Bool)
  | wayMaskWrite (die q : Nat) (ways : BitVec 16)
  | thermalLimitClear (die : Nat)
  | commitComplete (g : Nat)
  | swapTakenEffect (g : Nat)
deriving DecidableEq, Repr

end Sys2Proof
end

