-- ==== Sys2Proof/WellFormed.lean ====
section
/-! DEFINITION. Which instructions are well formed: the operand kinds, ranges and sub-fields that
each opcode accepts (R94 to R96, R110 to R114, R118 to R144, R149 to R184, R214), for a group of
width `w`. An ill-formed word takes cause 1, detail 0x00 at decode step 3 (R107). -/

namespace Sys2Proof

/-! ### Types -/

/-- Width in bits of an integer type (R118). -/
def IntTy.bits : IntTy → Nat
  | .s8 | .z8 => 8
  | .s16 | .z16 => 16
  | .s32 | .z32 => 32
  | .s64 | .z64 => 64

/-- Whether an integer type is signed (R73). -/
def IntTy.signed : IntTy → Bool
  | .s8 | .s16 | .s32 | .s64 => true
  | .z8 | .z16 | .z32 | .z64 => false

/-- Whether a type is 32 or 64 bits wide, so that a scalar form accepts it (R112). -/
def IntTy.wide (t : IntTy) : Bool := decide (t.bits ≥ 32)

/-- Bits of an element of a floating-point format (R71). -/
def FpFmt.bits : FpFmt → Nat
  | .f32 => 32
  | .f16 | .bf16 => 16
  | .e5m2 | .e4m3 => 8
  | .e3m2 | .e2m3 => 6
  | .e2m1 => 4

/-- Element slots of a 32-bit register (R74): an FP6 element takes a slot of 8 bits. -/
def FpFmt.slots : FpFmt → Nat
  | .f32 => 1
  | .f16 | .bf16 => 2
  | .e5m2 | .e4m3 | .e3m2 | .e2m3 => 4
  | .e2m1 => 8

/-- Element slots of a 32-bit register for an integer type (R74). -/
def IntTy.slots (t : IntTy) : Nat := if t.bits = 8 then 4 else if t.bits = 16 then 2 else 1

/-- Bytes of a load or store (R149). -/
def Size.bytes : Size → Nat
  | .s8 | .z8 => 1
  | .s16 | .z16 => 2
  | .s32 | .z32 => 4
  | .d64 => 8
  | .q128 => 16

/-- Registers of a vector operand of that size (R149). -/
def Size.regs : Size → Nat
  | .d64 => 2
  | .q128 => 4
  | _ => 1

/-- K and slot width of an `mma` format (R216). -/
def MmaFmt.depth : MmaFmt → Nat
  | .bf16 | .f16 => 32
  | .e4m3 | .e5m2 | .s8 => 64
  | .e3m2 | .e2m3 | .e2m1 => 128

/-- Slot width in bits of an `mma` format (R216). -/
def MmaFmt.slot : MmaFmt → Nat
  | .bf16 | .f16 => 16
  | .e4m3 | .e5m2 | .e3m2 | .e2m3 | .s8 => 8
  | .e2m1 => 4

/-- Slot width in bits of an activation format (R219). -/
def ActFmt.slot : ActFmt → Nat
  | .bf16 | .f16 => 16
  | .e4m3 | .e5m2 | .s8 => 8

/-- K of a quantised multiply (R214). -/
def QGroup.size : QGroup → Nat
  | .g32 => 32
  | .g64 => 64
  | .g128 => 128

/-- Registers per row of `mlda` (R221). -/
def RowW.regs : RowW → Nat
  | .w16 => 16
  | .w32 => 32
  | .w64 => 64

/-! ### What a field accepts -/

/-- The sub-field form an opcode accepts on a vector operand (R96). -/
inductive VForm
  | plain
  | negabs
  | lane
  | swz
  | sel (limit : Nat)
deriving DecidableEq, Repr

/-- The kinds a field accepts (R94). `vec` gives the sub-field form and the registers the operand
spans, to which its index is aligned (R55, R149). `acc` holds whether a row group is accepted. -/
structure Accept where
  vec  : Option (VForm × Nat) := none
  sca  : Option Nat := none
  imm  : Option (Int × Int) := none
  limm : Bool := false
  acc  : Option Bool := none
  sp   : Bool := false
  prd  : Bool := false
  non  : Bool := false
deriving DecidableEq, Repr

/-- The range of a short immediate (R15). -/
def shortImm : Option (Int × Int) := some (-65536, 65535)

def Accept.nothing : Accept := { non := true }
def Accept.scalar : Accept := { sca := some 63 }
def Accept.pred : Accept := { prd := true }
def Accept.vector (f : VForm) (n : Nat) : Accept := { vec := some (f, n) }
def Accept.immIn (lo hi : Int) : Accept := { imm := some (lo, hi) }
def Accept.scalarOrImm (lo hi : Int) : Accept := { sca := some 63, imm := some (lo, hi) }
/-- A destination of a lane or scalar form (R110). -/
def Accept.dest (n : Nat) : Accept := { vec := some (.plain, n), sca := some 63 }
/-- A source of a lane or scalar form (R110). -/
def Accept.src (f : VForm) (n : Nat) : Accept := { vec := some (f, n), sca := some 63, imm := shortImm }

/-- Whether a sub-field is of the accepted form, in a group of width `w` (R96). -/
def VForm.ok (w : Nat) : VForm → Sub → Bool
  | .plain, .plain => true
  | .negabs, .plain | .negabs, .neg | .negabs, .abs | .negabs, .negAbs => true
  | .lane, .plain => true
  | .lane, .ln n => decide (n < w ∧ n < 128)
  | .swz, .swz n => decide (n < 256)
  | .sel lim, .sel n => decide (n < lim ∧ n < 256)
  | _, _ => false

/-- Whether a field accepts an operand (R94). -/
def Accept.ok (w : Nat) (a : Accept) : Opnd → Bool
  | .v i sub =>
    match a.vec with
    | some (f, n) => f.ok w sub && decide (i < 256 ∧ i % n = 0)
    | none => false
  | .s i => match a.sca with
    | some m => decide (i ≤ m)
    | none => false
  | .imm x => match a.imm with
    | some (lo, hi) => decide (lo ≤ x ∧ x ≤ hi)
    | none => false
  | .limm x => a.limm && decide (x < 4294967296)
  | .acc t rows => match a.acc with
    | some rowOk => decide (t < 4) && (match rows with
      | none => true
      | some k => rowOk && decide (k < 16))
    | none => false
  | .sp i sub => a.sp && decide (i < 512 ∧ sub < 256)
  | .p i => a.prd && decide (i < 8)
  | .none => a.non

/-- The three fields' acceptance. -/
structure Shape where
  d : Accept
  a : Accept
  b : Accept
deriving DecidableEq, Repr

/-- Registers of an element of an integer type (R112). -/
def IntTy.regs (t : IntTy) : Nat := if t.bits = 64 then 2 else 1
/-- Registers of a bit instruction's operand. -/
def regsOf (w64 : Bool) : Nat := if w64 then 2 else 1

/-- Two-source integer shape with lane selectors (R110, R114). -/
def Shape.int2 (n : Nat) : Shape := ⟨.dest n, .src .lane n, .src .lane n⟩
def Shape.int1 (n : Nat) : Shape := ⟨.dest n, .src .lane n, .nothing⟩
/-- Two-source bit shape: swizzle on A, lane selector on B (R114). -/
def Shape.bit2 (n : Nat) : Shape := ⟨.dest n, .src .swz n, .src .lane n⟩
def Shape.fp2 : Shape := ⟨.dest 1, .src .negabs 1, .src .negabs 1⟩
def Shape.fp1 : Shape := ⟨.dest 1, .src .negabs 1, .nothing⟩
def Shape.sfu : Shape := ⟨.vector .plain 1, .src .negabs 1, .nothing⟩
def Shape.none : Shape := ⟨.nothing, .nothing, .nothing⟩

/-- D of a conversion (R138): a narrow target is a vector register's slot. -/
def cvtDst (bits slots : Nat) : Accept :=
  if bits < 32 then .vector (.sel slots) 1 else .dest (if bits = 64 then 2 else 1)
/-- A of a conversion (R138). -/
def cvtSrc (bits slots : Nat) : Accept :=
  if bits < 32 then .vector (.sel slots) 1
  else { vec := some (.plain, if bits = 64 then 2 else 1), sca := some 63, imm := shortImm }

/-- The base of a global access (R151): an even pair or a scalar. -/
def baseGlobal : Accept := { vec := some (.plain, 2), sca := some 63 }
/-- The base of a local access: one register or a scalar. -/
def baseLocal : Accept := { vec := some (.plain, 1), sca := some 63 }
/-- The offset of a load or store (R151). -/
def offset : Accept := .scalarOrImm (-65536) 65535
/-- D of a load (R151). -/
def loadDst (z : Size) : Accept :=
  { vec := some (.plain, z.regs), sca := if z = .q128 then Option.none else some 63 }
/-- D of a store (R151). -/
def storeSrc (z : Size) : Accept :=
  if z = .q128 then .vector .plain 4
  else { vec := some (.plain, z.regs), sca := some 63, imm := shortImm }
/-- The shape of an atomic (R164). -/
def Shape.atom (n : Nat) (imm : Bool) : Shape :=
  ⟨{ vec := some (.plain, n), sca := some 63, non := true },
   { vec := some (.sel 256, 2), sca := some 63 },
   { vec := some (.plain, n), sca := some 63, imm := if imm then shortImm else Option.none }⟩
/-- The estate domain of `beq`, `estq` and `estdrop` (R184). -/
def domain : Accept := .scalarOrImm 0 255
/-- The shape of an engine command (R214). -/
def Shape.engine : Shape := ⟨.scalar, .scalar, { sca := some 61 }⟩

/-- The operand kinds of each instruction. Events have no word; their shape is never used. DESIGN CHOICE (log 58): B of the
dequantising form 0x19B takes a lane selector, as that of 0x19A does, and `lfold` and `ffold` take every kind of A that R110
lists, a scalar or an immediate being one value for every lane. -/
def Instr.shape : Instr → Shape
  | .add t .. | .sub t .. | .mul t .. | .mulhi t .. | .mad t .. | .div t .. | .rem t ..
  | .min t .. | .max t .. | .shl t .. | .shr t .. => .int2 t.regs
  | .abs t .. | .neg t .. => .int1 t.regs
  | .mulw .. => ⟨.dest 2, .src .lane 1, .src .lane 1⟩
  | .and b .. | .or b .. | .xor b .. | .rotl b .. => .bit2 (regsOf b)
  | .not b .. | .brev b .. => ⟨.dest (regsOf b), .src .swz (regsOf b), .nothing⟩
  | .popc b .. | .clz b .. => ⟨.dest 1, .src .swz (regsOf b), .nothing⟩
  | .bfx t .. => ⟨.dest t.regs, .src .lane t.regs, .src .lane 1⟩
  | .bfi b .. => ⟨.dest (regsOf b), .src .lane (regsOf b), .src .lane 1⟩
  | .lea .. => ⟨.dest 2, .src .lane 2, .src .lane 1⟩
  | .cmp _ t .. => ⟨.pred, .src .lane t.regs, .src .lane t.regs⟩
  | .sel b .. => ⟨.vector .plain (regsOf b), .src .lane (regsOf b), .src .lane (regsOf b)⟩
  | .mov b .. => ⟨.dest (regsOf b), { Accept.src .lane (regsOf b) with limm := true }, .nothing⟩
  | .plog .. => ⟨.pred, .pred, .pred⟩
  | .fadd .. | .fsub .. | .fmul .. | .fma .. | .fdiv .. | .fmin .. | .fmax .. => .fp2
  | .fsqrt .. | .frnd .. => .fp1
  | .fcmp .. => ⟨.pred, .src .negabs 1, .src .negabs 1⟩
  | .fclass .. => ⟨.dest 1, .src .plain 1, .nothing⟩
  | .fdp2 .. => ⟨.vector .plain 1, .src .negabs 1, .src .negabs 1⟩
  | .frcp .. | .frsq .. | .fex2 .. | .flg2 .. | .fsinpi .. | .fcospi .. | .ftanh .. => .sfu
  | .cvtFloatToFloat t s .. => ⟨cvtDst t.bits t.slots, cvtSrc s.bits s.slots, .nothing⟩
  | .cvtFloatToInt t s .. => ⟨cvtDst t.bits t.slots, cvtSrc s.bits s.slots, .nothing⟩
  | .cvtIntToFloat t s .. => ⟨cvtDst t.bits t.slots, cvtSrc s.bits s.slots, .nothing⟩
  | .cvtIntWrap t s .. | .cvtIntSat t s .. => ⟨cvtDst t.bits t.slots, cvtSrc s.bits s.slots, .nothing⟩
  | .cvtQuantise q8 s .. =>
    ⟨.vector (.sel (if q8 then 4 else 8)) 1, cvtSrc s.bits s.slots, .src .lane 1⟩
  | .cvtDequantise q8 .. =>
    ⟨.vector .plain 1, .vector (.sel (if q8 then 4 else 8)) 1, .src .lane 1⟩
  | .xlane _ b .. => ⟨.vector .plain (regsOf b), .src .lane (regsOf b), .src .lane 1⟩
  | .lpoll m .. =>
    ⟨match m with | .every | .some => .pred | .mask | .count => .scalar, .pred, .nothing⟩
  | .lfold _ t .. => ⟨.scalar, .src .lane t.regs, .nothing⟩
  | .ffold .. => ⟨.scalar, .src .negabs 1, .nothing⟩
  | .scan .. => ⟨.vector .plain 1, .src .lane 1, .nothing⟩
  | .pk6 .. | .upk6 .. => ⟨.vector .plain 1, .src .plain 1, .nothing⟩
  | .ld z .. | .ldAcq _ z .. => ⟨loadDst z, baseGlobal, offset⟩
  | .st z .. | .stRel _ z .. => ⟨storeSrc z, baseGlobal, offset⟩
  | .ldl _ z .. => ⟨loadDst z, baseLocal, offset⟩
  | .stl _ z .. => ⟨storeSrc z, baseLocal, offset⟩
  | .pref .. => ⟨.nothing, baseGlobal, offset⟩
  | .atomAdd b .. | .atomMin b .. | .atomMax b .. | .atomAnd b .. | .atomOr b .. | .atomXor b ..
  | .atomXchg b .. => .atom (regsOf b) true
  | .atomAddF32 .. => .atom 1 false
  | .cas b .. => { Shape.atom (regsOf b) true with d := .dest (regsOf b) }
  | .txb .. => ⟨.vector .plain 1, .immIn (-65536) 65535, .nothing⟩
  | .txe .. => .none
  | .txa .. => ⟨.nothing, .immIn 0 255, .nothing⟩
  | .fence .. => .none
  | .publ .. => ⟨{ sca := some 63, non := true }, .scalar, .nothing⟩
  | .rcfence .. => ⟨.nothing, { sca := some 63, non := true }, .nothing⟩
  | .icinv .. => ⟨.nothing, .scalar, .scalarOrImm (-65536) 65535⟩
  | .sweep .. => ⟨.scalar, .scalar, .scalarOrImm (-65536) 65535⟩
  | .tmov .. => ⟨.scalar, .scalar, .scalar⟩
  | .bra .. | .call .. => ⟨.nothing, .immIn (-65536) 65535, .nothing⟩
  | .brx .. | .callx .. => ⟨.nothing, baseGlobal, .nothing⟩
  | .ret .. | .rejoin .. | .exit .. | .bar .. | .nop .. | .tret .. | .tretSkip .. | .tretExit .. => .none
  | .beq .. => ⟨domain, .vector .plain 1, .immIn 0 32⟩
  | .estq .. => ⟨.vector .plain 1, domain, .nothing⟩
  | .estdrop .. => ⟨.scalar, domain, .nothing⟩
  | .spawn .. => ⟨.scalar, .scalar, .nothing⟩
  | .post .. => ⟨.nothing, .scalarOrImm (-65536) 65535, .nothing⟩
  | .donateGive .. | .donateTake .. =>
    ⟨.scalar, .scalarOrImm (-65536) 65535, .scalarOrImm (-65536) 65535⟩
  | .ralloc .. => ⟨.scalar, .scalarOrImm (-65536) 65535, .nothing⟩
  | .yield .. => ⟨.nothing, .immIn 0 4095, .nothing⟩
  | .trap .. => ⟨.nothing, .immIn 0 127, .nothing⟩
  | .sys .. => ⟨.vector .plain 1, .vector .plain 2, .immIn 0 4095⟩
  | .sigw .. => ⟨.nothing, .scalarOrImm (-65536) 65535, .scalarOrImm (-65536) 65535⟩
  | .snap .. => ⟨.nothing, .immIn 0 255, .nothing⟩
  | .mfsr .. => ⟨.dest 1, { sp := true }, .nothing⟩
  | .mtsr .. => ⟨{ sp := true }, .src .plain 1, .nothing⟩
  | .mma .. => ⟨{ acc := some false }, .vector .plain 1, .scalar⟩
  | .mmq .. => ⟨{ acc := some false }, .vector (.sel 64) 1, .vector (.sel 256) 1⟩
  | .mlda .. => ⟨.vector .plain 1, .scalar, .nothing⟩
  | .ald .. | .ast .. => ⟨{ acc := some true }, .scalar, .nothing⟩
  | .aclr .. => ⟨{ acc := some true }, .nothing, .nothing⟩
  | .drain .. => ⟨{ acc := some true }, .scalar, { sca := some 61 }⟩
  | .cpin .. | .cpout .. | .gath .. => .engine
  | .racq .. | .rget .. => ⟨.scalar, .scalar, .nothing⟩
  | .rput .. | .rrel .. => ⟨.nothing, .scalar, .scalar⟩
  | _ => .none

/-! ### Parts of an instruction -/

/-- Whether a constructor is an event and has no instruction word. -/
def Instr.isEvent : Instr → Bool
  | .invalidationConfirmed .. | .donationRendezvous .. | .sysReply .. | .engineCommandComplete ..
  | .resultReturn .. | .dirtyWriteback .. | .handlerEntry .. | .groupEnd .. | .scoutEnd ..
  | .tokenPeriodStart .. | .thermalLimit .. | .queueWake .. | .packetParse .. | .cmdNop ..
  | .cmdLaunch .. | .cmdGraph .. | .graphNodeNext .. | .cmdWrite .. | .cmdWait .. | .waitRepoll ..
  | .cmdSignal .. | .teamAdmission .. | .phaseEnd .. | .cqrdWrite .. | .cqWriteRetry ..
  | .callRingRetry .. | .mailboxTake .. | .timeSliceEnd .. | .preemptionSave ..
  | .maskedHandlerOverrun .. | .teamRestore .. | .policyMove .. | .moveDrainComplete ..
  | .moveCopyComplete .. | .moveShootdownConfirmed .. | .markRetarget .. | .markRetire ..
  | .markHitCount .. | .pageIn .. | .estateExport .. | .estateImport .. | .stepTriggerArm ..
  | .stepTriggerFire .. | .attestation .. | .sieveArm .. | .sievePass .. | .killRequest ..
  | .kill .. | .killWrapResume .. | .orphanedResponse .. | .reclaim .. | .teamRelaunch ..
  | .uncorrectableCacheError .. | .correctedError .. | .memoryPoison .. | .regionRetire ..
  | .stateArrayError .. | .pipelineError .. | .infieldTest .. | .partitionStop ..
  | .partitionResume .. | .laneStop .. | .laneResume .. | .singleStep .. | .stallSample ..
  | .snapshotTrigger .. | .feataccWrite .. | .ctxCreate .. | .ctxDestroy .. | .pwrcapWrite ..
  | .brdlimWrite .. | .registerWrite .. | .hostWindowAccess .. | .peerAccess ..
  | .linkPortFailure .. | .resetBoot .. | .mappingChange .. | .wayMaskWrite ..
  | .thermalLimitClear .. | .commitComplete .. | .swapTakenEffect .. => true
  | _ => false

/-- The guard and hints of a program instruction. -/
def Instr.ctl : Instr → Ctl
  | .fclass c _ | .pk6 c _ | .upk6 c _ | .txb c _ | .txe c _ | .txa c _ | .sweep c _ | .tmov c _
  | .bra c _ | .brx c _ | .call c _ | .callx c _ | .ret c _ | .rejoin c _ | .exit c _ | .estq c _
  | .estdrop c _ | .spawn c _ | .post c _ | .bar c _ | .donateGive c _ | .donateTake c _
  | .ralloc c _ | .yield c _ | .nop c _ | .trap c _ | .sys c _ | .sigw c _ | .tret c _
  | .tretSkip c _ | .tretExit c _ | .snap c _ | .mfsr c _ | .mtsr c _ | .ald c _ | .aclr c _
  | .drain c _ | .cpin c _ | .cpout c _ | .gath c _ | .racq c _ | .rput c _ | .rget c _ | .rrel c _ => c
  | .mulhi _ c _ | .mulw _ c _ | .div _ c _ | .rem _ c _ | .min _ c _ | .max _ c _ | .and _ c _
  | .or _ c _ | .xor _ c _ | .not _ c _ | .shl _ c _ | .shr _ c _ | .rotl _ c _ | .popc _ c _
  | .clz _ c _ | .brev _ c _ | .bfx _ c _ | .bfi _ c _ | .mov _ c _ | .plog _ c _ | .frcp _ c _
  | .frsq _ c _ | .fex2 _ c _ | .flg2 _ c _ | .fsinpi _ c _ | .fcospi _ c _ | .ftanh _ c _
  | .cvtDequantise _ c _ | .lpoll _ c _ | .ld _ c _ | .st _ c _ | .pref _ c _ | .publ _ c _
  | .rcfence _ c _ | .icinv _ c _ | .beq _ c _ | .mlda _ c _ | .ast _ c _ => c
  | .add _ _ c _ | .sub _ _ c _ | .mul _ _ c _ | .mad _ _ c _ | .abs _ _ c _ | .neg _ _ c _
  | .lea _ _ c _ | .cmp _ _ c _ | .fmin _ _ c _ | .fmax _ _ c _ | .fcmp _ _ c _
  | .cvtIntWrap _ _ c _ | .cvtIntSat _ _ c _ | .xlane _ _ c _ | .lfold _ _ c _ | .ffold _ _ c _
  | .ldAcq _ _ c _ | .stRel _ _ c _ | .ldl _ _ c _ | .stl _ _ c _ | .atomAddF32 _ _ c _
  | .fence _ _ c _ | .mma _ _ c _ => c
  | .sel _ _ _ c _ | .fadd _ _ _ c _ | .fsub _ _ _ c _ | .fmul _ _ _ c _ | .fma _ _ _ c _
  | .fdiv _ _ _ c _ | .fsqrt _ _ _ c _ | .frnd _ _ _ c _ | .fdp2 _ _ _ c _
  | .cvtFloatToInt _ _ _ c _ | .cvtQuantise _ _ _ c _ | .scan _ _ _ c _ | .atomAnd _ _ _ c _
  | .atomOr _ _ _ c _ | .atomXor _ _ _ c _ | .atomXchg _ _ _ c _ | .cas _ _ _ c _ | .mmq _ _ _ c _ => c
  | .cvtFloatToFloat _ _ _ _ c _ | .cvtIntToFloat _ _ _ _ c _ | .atomAdd _ _ _ _ c _
  | .atomMin _ _ _ _ c _ | .atomMax _ _ _ _ c _ => c
  | _ => .plain

/-- The operand fields of a program instruction. -/
def Instr.ops : Instr → Ops
  | .fclass _ o | .pk6 _ o | .upk6 _ o | .txb _ o | .txe _ o | .txa _ o | .sweep _ o | .tmov _ o
  | .bra _ o | .brx _ o | .call _ o | .callx _ o | .ret _ o | .rejoin _ o | .exit _ o | .estq _ o
  | .estdrop _ o | .spawn _ o | .post _ o | .bar _ o | .donateGive _ o | .donateTake _ o
  | .ralloc _ o | .yield _ o | .nop _ o | .trap _ o | .sys _ o | .sigw _ o | .tret _ o
  | .tretSkip _ o | .tretExit _ o | .snap _ o | .mfsr _ o | .mtsr _ o | .ald _ o | .aclr _ o
  | .drain _ o | .cpin _ o | .cpout _ o | .gath _ o | .racq _ o | .rput _ o | .rget _ o | .rrel _ o => o
  | .mulhi _ _ o | .mulw _ _ o | .div _ _ o | .rem _ _ o | .min _ _ o | .max _ _ o | .and _ _ o
  | .or _ _ o | .xor _ _ o | .not _ _ o | .shl _ _ o | .shr _ _ o | .rotl _ _ o | .popc _ _ o
  | .clz _ _ o | .brev _ _ o | .bfx _ _ o | .bfi _ _ o | .mov _ _ o | .plog _ _ o | .frcp _ _ o
  | .frsq _ _ o | .fex2 _ _ o | .flg2 _ _ o | .fsinpi _ _ o | .fcospi _ _ o | .ftanh _ _ o
  | .cvtDequantise _ _ o | .lpoll _ _ o | .ld _ _ o | .st _ _ o | .pref _ _ o | .publ _ _ o
  | .rcfence _ _ o | .icinv _ _ o | .beq _ _ o | .mlda _ _ o | .ast _ _ o => o
  | .add _ _ _ o | .sub _ _ _ o | .mul _ _ _ o | .mad _ _ _ o | .abs _ _ _ o | .neg _ _ _ o
  | .lea _ _ _ o | .cmp _ _ _ o | .fmin _ _ _ o | .fmax _ _ _ o | .fcmp _ _ _ o
  | .cvtIntWrap _ _ _ o | .cvtIntSat _ _ _ o | .xlane _ _ _ o | .lfold _ _ _ o | .ffold _ _ _ o
  | .ldAcq _ _ _ o | .stRel _ _ _ o | .ldl _ _ _ o | .stl _ _ _ o | .atomAddF32 _ _ _ o
  | .fence _ _ _ o | .mma _ _ _ o => o
  | .sel _ _ _ _ o | .fadd _ _ _ _ o | .fsub _ _ _ _ o | .fmul _ _ _ _ o | .fma _ _ _ _ o
  | .fdiv _ _ _ _ o | .fsqrt _ _ _ _ o | .frnd _ _ _ _ o | .fdp2 _ _ _ _ o
  | .cvtFloatToInt _ _ _ _ o | .cvtQuantise _ _ _ _ o | .scan _ _ _ _ o | .atomAnd _ _ _ _ o
  | .atomOr _ _ _ _ o | .atomXor _ _ _ _ o | .atomXchg _ _ _ _ o | .cas _ _ _ _ o | .mmq _ _ _ _ o => o
  | .cvtFloatToFloat _ _ _ _ _ o | .cvtIntToFloat _ _ _ _ _ o | .atomAdd _ _ _ _ _ o
  | .atomMin _ _ _ _ _ o | .atomMax _ _ _ _ _ o => o
  | _ => ⟨.none, .none, .none⟩

/-! ### Checks beyond a single field -/

def Opnd.isVec : Opnd → Bool
  | .v .. => true
  | _ => false
def Opnd.isSca : Opnd → Bool
  | .s _ => true
  | _ => false
def Opnd.isAcc : Opnd → Bool
  | .acc .. => true
  | _ => false
/-- A vector source that a scalar form accepts carries a lane selector (R111). -/
def Opnd.scalarSrcOk : Opnd → Bool
  | .v _ (.ln _) => true
  | .v _ _ => false
  | _ => true

/-- In a scalar form, sources are scalars, immediates or vectors with a lane selector (R111). -/
def Ops.scalarFormOk (o : Ops) : Bool := !o.d.isSca || (o.a.scalarSrcOk && o.b.scalarSrcOk)

/-- Whether a special register is lane-scope (R59). -/
def srLane (i : Nat) : Bool := i == 0 || i == 5 || i == 6 || i == 7 || i == 8 || i == 9 || i == 11
/-- Whether a special register is 64 bits wide (R59). -/
def srWide (i : Nat) : Bool := i == 5 || i == 8 || i == 10 || (12 ≤ i && i ≤ 15)
/-- Whether a special register is `$heir` or `$heirmask`. -/
def srHeir (i : Nat) : Bool := i == 6 || i == 7

/-- The sub-field and destination of `mfsr` (R59, R60, R209). -/
def mfsrOk (w : Nat) (o : Ops) : Bool :=
  match o.a with
  | .sp i sub =>
    decide (i < 16) &&
    (match o.d with
     | .v n _ => (!srWide i || n % 2 == 0) &&
        (if srHeir i then decide (sub < 3) else sub == 0)
     | .s _ => if srLane i then decide (128 ≤ sub ∧ sub < 128 + w) else sub == 0
     | _ => false)
  | _ => false

/-- The register and source of `mtsr` (R210). -/
def mtsrOk (o : Ops) : Bool :=
  match o.d with
  | .sp i sub => sub == 0 && ((i == 10 && !o.a.isVec) || i == 11)
  | _ => false

/-- Registers of `mma`'s A block (R218). -/
def mmaBlock (w : Nat) (f : MmaFmt) : Nat := 128 / w * (f.depth * f.slot / 32)
/-- Registers of `mmq`'s A block (R219). -/
def mmqBlock (w : Nat) (f : ActFmt) (g : QGroup) : Nat := 128 / w * (g.size * f.slot / 32)
/-- Registers that `mlda` writes (R221). -/
def mldaBlock (w : Nat) (n : RowW) : Nat := 128 / w * n.regs

/-- The last register of a block from a vector operand stays below 256 (R218, R219, R221). -/
def Opnd.blockOk (n : Nat) : Opnd → Bool
  | .v i _ => decide (i + n ≤ 256)
  | _ => false

/-- Mod values a row excludes, and checks that join fields (R111, R112, R119, R127, R130, R137,
R149, R151, R164, R178, R179, R209, R210, R214, R218, R219, R221). -/
def Instr.crossOk (w : Nat) : Instr → Bool
  | .add t _ _ o | .sub t _ _ o | .mul t _ _ o | .mad t _ _ o | .min t _ o | .max t _ o
  | .shl t _ o | .shr t _ o => o.scalarFormOk && (!o.d.isSca || t.wide)
  | .abs t _ _ o | .neg t _ _ o => t.signed && o.scalarFormOk && (!o.d.isSca || t.wide)
  | .mulhi t _ o | .div t _ o | .rem t _ o => t.wide && o.scalarFormOk
  | .mulw t _ o => t.bits == 32 && o.scalarFormOk
  | .bfx t _ o => t.wide && o.scalarFormOk
  | .and _ _ o | .or _ _ o | .xor _ _ o | .not _ _ o | .rotl _ _ o | .popc _ _ o | .clz _ _ o
  | .brev _ _ o | .bfi _ _ o | .mov _ _ o => o.scalarFormOk
  | .lea _ sh _ o => decide (sh < 8) && o.scalarFormOk
  | .cmp cc t _ _ => cc != .un && t.wide
  | .sel _ inv k _ _ => decide (k < 8) && !(inv && k == 7)
  | .fadd _ f _ _ o | .fsub _ f _ _ o | .fmul _ f _ _ o | .fma _ f _ _ o | .fdiv _ f _ _ o
  | .fsqrt _ f _ _ o | .frnd _ f _ _ o | .fmin _ f _ o | .fmax _ f _ o =>
    decide (f.bits ≥ 16) && o.scalarFormOk && (!o.d.isSca || f == .f32)
  | .fclass _ o => o.scalarFormOk
  | .fdp2 _ f _ _ _ => f.bits == 16
  | .cvtFloatToFloat t s nsat _ _ o =>
    (!nsat || t == .e4m3) && (!o.d.isSca || (!o.a.isVec && s.bits == 32))
  | .cvtFloatToInt _ _ _ _ o => !o.d.isSca || !o.a.isVec
  | .cvtIntToFloat t _ nsat _ _ o => (!nsat || t == .e4m3) && (!o.d.isSca || !o.a.isVec)
  | .cvtIntWrap _ _ _ o | .cvtIntSat _ _ _ o => !o.d.isSca || !o.a.isVec
  | .cvtQuantise _ s _ _ _ => decide (s.bits ≥ 16)
  | .lfold _ t _ _ => t.wide
  | .ffold op r _ _ => (op == .add) || ((op == .min || op == .max) && r == .rn)
  | .scan op _ _ _ _ => op == .add || op == .min || op == .max
  | .ld _ _ o | .ldAcq _ _ _ o | .ldl _ _ _ o => !o.d.isSca || o.a.isSca
  | .st z _ _ | .stRel _ z _ _ | .stl _ z _ _ => !(z == .s8 || z == .s16 || z == .s32)
  | .atomAdd _ _ _ _ _ o | .atomMin _ _ _ _ _ o | .atomMax _ _ _ _ _ o | .atomAnd _ _ _ _ o
  | .atomOr _ _ _ _ o | .atomXor _ _ _ _ o | .atomXchg _ _ _ _ o | .atomAddF32 _ _ _ o
  | .cas _ _ _ _ o => !o.d.isSca || (o.a.isSca && !o.b.isVec)
  | .fence k _ _ _ => k != .relaxed
  | .publ sc _ _ => sc != .thr
  | .rcfence sc _ _ => sc != .sys
  | .beq tiles _ _ => decide (tiles < 16)
  | .mfsr _ o => mfsrOk w o
  | .mtsr _ o => mtsrOk o
  | .mma blk f _ o => decide (blk < 8) && o.a.blockOk (mmaBlock w f)
  | .mmq _ f g _ o => o.a.blockOk (mmqBlock w f g)
  | .mlda n _ o => o.d.blockOk (mldaBlock w n)
  | _ => true

/-- Whether the A-latch flag is accepted (R214). -/
def Instr.latchOk : Instr → Bool
  | .mma .. | .mmq .. => true
  | _ => false

/-- Guard and hint fields (R97, R99, R100). -/
def Ctl.ok (c : Ctl) : Bool :=
  decide (c.pred < 8 ∧ c.pair < 3 ∧ c.stall < 16) && !(c.neg && c.pred == 7)

/-- A well-formed program instruction of a group of width `w`: what decode steps 2 and 3 accept. -/
def Instr.wf (w : Nat) (i : Instr) : Bool :=
  !i.isEvent && i.ctl.ok && (!i.ctl.latch || i.latchOk) &&
  i.shape.d.ok w i.ops.d && i.shape.a.ok w i.ops.a && i.shape.b.ok w i.ops.b && i.crossOk w

end Sys2Proof
end

