-- ==== Sys2Proof/Machine/Float.lean ====
section
/-! DEFINITION. The number formats and arithmetic of spec/05: decoding of a code (R71), `Round` (R77),
overflow (R78), signed zeros (R79), flags (R80), `.ftz` (R81) and generated NaNs (R82, R83). -/

namespace Sys2Proof.Machine

/-! ### Formats -/

end Sys2Proof.Machine

namespace Sys2Proof

/-- Exponent bits (R71). -/
def FpFmt.ebits : FpFmt → Nat
  | .f32 | .bf16 => 8
  | .f16 | .e5m2 => 5
  | .e4m3 => 4
  | .e3m2 => 3
  | .e2m3 | .e2m1 => 2

/-- Fraction bits (R71). -/
def FpFmt.mbits : FpFmt → Nat
  | .f32 => 23
  | .f16 => 10
  | .bf16 => 7
  | .e5m2 | .e3m2 => 2
  | .e4m3 | .e2m3 => 3
  | .e2m1 => 1

/-- Bias (R71). -/
def FpFmt.bias : FpFmt → Nat
  | .f32 | .bf16 => 127
  | .f16 | .e5m2 => 15
  | .e4m3 => 7
  | .e3m2 => 3
  | .e2m3 | .e2m1 => 1

/-- Whether the format has an infinity (R71). -/
def FpFmt.hasInf : FpFmt → Bool
  | .f32 | .f16 | .bf16 | .e5m2 => true
  | _ => false

/-- Code of the largest finite magnitude (R71). -/
def FpFmt.maxFinite : FpFmt → Nat
  | .f32 => 0x7F7FFFFF
  | .f16 => 0x7BFF
  | .bf16 => 0x7F7F
  | .e5m2 => 0x7B
  | .e4m3 => 0x7E
  | .e3m2 | .e2m3 => 0x1F
  | .e2m1 => 0x7

/-- The sign bit's weight. -/
def FpFmt.signBit (f : FpFmt) : Nat := 2 ^ (f.bits - 1)

/-- Exponent of the last place of the smallest binade: a code below `2 ^ mbits` counts units of it. -/
def FpFmt.qmin (f : FpFmt) : Int := 1 - (f.bias : Int) - (f.mbits : Int)

/-- The generated NaN of a cause (R82). Formats without a NaN code never ask for it. -/
def FpFmt.nan (f : FpFmt) (cause : Nat) : Nat :=
  match f with
  | .f32 => 0x7FC00000 + cause
  | .f16 => 0x7E00 + cause
  | .bf16 => 0x7FC0 + cause
  | .e5m2 => 0x7E
  | _ => 0x7F

end Sys2Proof

namespace Sys2Proof.Machine

/-- A floating-point datum. `fin neg m e` is (−1)^neg × m × 2^e, zeros included. -/
inductive FVal
  | nan (neg : Bool)
  | inf (neg : Bool)
  | fin (neg : Bool) (m : Nat) (e : Int)
deriving DecidableEq, Repr

/-- Reads a code of a format (R71). -/
def FVal.ofBits (f : FpFmt) (x : Nat) : FVal :=
  let neg := decide (f.signBit ≤ x % 2 ^ f.bits)
  let mag := x % f.signBit
  let ex := mag / 2 ^ f.mbits
  let fr := mag % 2 ^ f.mbits
  if f.hasInf && ex == 2 ^ f.ebits - 1 then
    if fr = 0 then .inf neg else .nan neg
  else if f = .e4m3 ∧ mag = 0x7F then .nan neg
  else if ex = 0 then .fin neg fr f.qmin
  else .fin neg (2 ^ f.mbits + fr) (f.qmin + (ex : Int) - 1)

def FVal.isNan : FVal → Bool
  | .nan _ => true
  | _ => false
def FVal.isInf : FVal → Bool
  | .inf _ => true
  | _ => false
def FVal.isZero : FVal → Bool
  | .fin _ 0 _ => true
  | _ => false
def FVal.sign : FVal → Bool
  | .nan n | .inf n | .fin n _ _ => n

/-- A code with its sign. -/
def withSign (f : FpFmt) (neg : Bool) (mag : Nat) : Nat := if neg then f.signBit + mag else mag
/-- A zero of a sign. -/
def zeroBits (f : FpFmt) (neg : Bool) : Nat := withSign f neg 0
/-- The infinity of a sign, in a format that has one. -/
def infBits (f : FpFmt) (neg : Bool) : Nat := withSign f neg (f.maxFinite + 1)

/-- Reads an input under `.ftz` (R81): a subnormal is a zero of its sign. -/
def readFtz (f : FpFmt) (ftz : Bool) (x : Nat) : FVal :=
  let mag := x % f.signBit
  if ftz && decide (0 < mag ∧ mag < 2 ^ f.mbits) then .fin (decide (f.signBit ≤ x % 2 ^ f.bits)) 0 f.qmin
  else FVal.ofBits f x

/-! ### Round -/

/-- Floor of the base-2 logarithm of a positive number; 0 for 0. -/
def ilog2 (n : Nat) : Nat := Nat.log2 n

/-- The code, before overflow, that R77 chooses for the positive real `m × 2^e`, plus less than
`2^e` more when `sticky`. Its second part says the choice was inexact, its third that the real lies
below the smallest normal magnitude. When `sticky`, `m` carries at least two bits more than the
format's fraction. -/
def roundMag (f : FpFmt) (r : Rnd) (neg : Bool) (m : Nat) (e : Int) (sticky : Bool) :
    Nat × Bool × Bool :=
  let top := (ilog2 m : Int) + e
  let q := max (top - (f.mbits : Int)) f.qmin
  let sh := q - e
  let sig := if 0 < sh then m / 2 ^ sh.toNat else m * 2 ^ (-sh).toNat
  let rem := if 0 < sh then m % 2 ^ sh.toNat else 0
  let half := if 0 < sh then 2 ^ (sh.toNat - 1) else 1
  let inexact := sticky || rem != 0
  let up := match r with
    | .rn => if rem = half then (if sticky then true else sig % 2 == 1) else decide (half < rem)
    | .rz => false
    | .rd => neg && inexact
    | .ru => !neg && inexact
  let sig' := if up then sig + 1 else sig
  ((q - f.qmin).toNat * 2 ^ f.mbits + sig', inexact, decide (top < 1 - (f.bias : Int)))

/-- The overflow result of R78, for a format with an infinity. -/
def overflowMag (f : FpFmt) (r : Rnd) (neg : Bool) : Nat :=
  match r with
  | .rn => f.maxFinite + 1
  | .rz => f.maxFinite
  | .rd => if neg then f.maxFinite + 1 else f.maxFinite
  | .ru => if neg then f.maxFinite else f.maxFinite + 1

/-- `Round` of a nonzero real with the flags of R80 and the flush of R81. -/
def finish (f : FpFmt) (r : Rnd) (ftz : Bool) (neg : Bool) (m : Nat) (e : Int) (sticky : Bool) : Res :=
  let c := roundMag f r neg m e sticky
  if f.maxFinite < c.1 then
    ⟨withSign f neg (overflowMag f r neg), { ov := true, nx := true }⟩
  else if ftz && decide (0 < c.1 ∧ c.1 < 2 ^ f.mbits) then
    ⟨zeroBits f neg, { uf := true, nx := true }⟩
  else ⟨withSign f neg c.1, { uf := c.2.1 && c.2.2, nx := c.2.1 }⟩

/-- A generated NaN (R82), with NV when no operand is NaN. -/
def nanRes (f : FpFmt) (cause : Nat) : Res := ⟨f.nan cause, { nv := decide (3 ≤ cause) }⟩

/-! ### Exact sums and products -/

/-- A signed dyadic number `m × 2^e`. -/
structure Dyad where
  m : Int
  e : Int
deriving DecidableEq, Repr

/-- Exact sum. -/
def Dyad.add (a b : Dyad) : Dyad :=
  let e := min a.e b.e
  ⟨a.m * 2 ^ (a.e - e).toNat + b.m * 2 ^ (b.e - e).toNat, e⟩

/-- Exact value of a finite datum; 0 of the others. -/
def FVal.dyad : FVal → Dyad
  | .fin neg m e => ⟨if neg then -(m : Int) else m, e⟩
  | _ => ⟨0, 0⟩

/-- Exact product of two data (R79): NaN and 0 × ∞ are reported by `mulCause`. -/
def FVal.mul (a b : FVal) : FVal :=
  match a, b with
  | .fin s m e, .fin t n k => .fin (s != t) (m * n) (e + k)
  | .inf s, y => .inf (s != y.sign)
  | x, .inf t => .inf (x.sign != t)
  | x, _ => x

/-- Cause of a product that is NaN: 1 for a NaN operand, 4 for 0 × ∞, else 0. -/
def mulCause (a b : FVal) : Nat :=
  if a.isNan || b.isNan then 1
  else if (a.isZero && b.isInf) || (a.isInf && b.isZero) then 4
  else 0

/-- Whether infinities of both signs stand among the terms. -/
def infClash (ts : List FVal) : Bool := ts.contains (.inf true) && ts.contains (.inf false)

/-- Rounds the exact sum of terms none of which is NaN and whose infinities agree (R77 to R79). -/
def sumRound (f : FpFmt) (r : Rnd) (ftz : Bool) (ts : List FVal) : Res :=
  if ts.contains (.inf true) then ⟨infBits f true, {}⟩
  else if ts.contains (.inf false) then ⟨infBits f false, {}⟩
  else
    let d : Dyad := ts.foldl (fun (a : Dyad) t => a.add t.dyad) ⟨0, 0⟩
    if d.m = 0 then
      let neg := if ts.all (fun t => t.isZero && t.sign) then true
        else if ts.all (fun t => t.isZero && !t.sign) then false
        else decide (r = .rd)
      ⟨zeroBits f neg, {}⟩
    else finish f r ftz (decide (d.m < 0)) d.m.natAbs d.e false

/-! ### Arithmetic (R131, R132) -/

def negF : FVal → FVal
  | .nan n => .nan (!n)
  | .inf n => .inf (!n)
  | .fin n m e => .fin (!n) m e

/-- `fadd`. -/
def fAdd (f : FpFmt) (r : Rnd) (ftz : Bool) (x y : Nat) : Res :=
  let a := readFtz f ftz x
  let b := readFtz f ftz y
  if a.isNan || b.isNan then nanRes f 1
  else if infClash [a, b] then nanRes f 3
  else sumRound f r ftz [a, b]

/-- `fsub`. -/
def fSub (f : FpFmt) (r : Rnd) (ftz : Bool) (x y : Nat) : Res :=
  let a := readFtz f ftz x
  let b := negF (readFtz f ftz y)
  if a.isNan || b.isNan then nanRes f 1
  else if infClash [a, b] then nanRes f 3
  else sumRound f r ftz [a, b]

/-- `fmul`. -/
def fMul (f : FpFmt) (r : Rnd) (ftz : Bool) (x y : Nat) : Res :=
  let a := readFtz f ftz x
  let b := readFtz f ftz y
  if mulCause a b ≠ 0 then nanRes f (mulCause a b)
  else sumRound f r ftz [a.mul b]

/-- `fma`: A × B + D. -/
def fMa (f : FpFmt) (r : Rnd) (ftz : Bool) (x y d : Nat) : Res :=
  let a := readFtz f ftz x
  let b := readFtz f ftz y
  let c := readFtz f ftz d
  if a.isNan || b.isNan || c.isNan then nanRes f 1
  else if mulCause a b ≠ 0 then nanRes f 4
  else if infClash [a.mul b, c] then nanRes f 3
  else sumRound f r ftz [a.mul b, c]

/-- The quotient of two positive dyads, rounded. -/
def divRound (f : FpFmt) (r : Rnd) (ftz neg : Bool) (m : Nat) (e : Int) (n : Nat) (k : Int) : Res :=
  let sh := ilog2 n + f.mbits + 4
  let q := m * 2 ^ sh / n
  finish f r ftz neg q (e - k - sh) (m * 2 ^ sh % n != 0)

/-- `fdiv`. -/
def fDiv (f : FpFmt) (r : Rnd) (ftz : Bool) (x y : Nat) : Res :=
  let a := readFtz f ftz x
  let b := readFtz f ftz y
  if a.isNan || b.isNan then nanRes f 1
  else if (a.isZero && b.isZero) || (a.isInf && b.isInf) then nanRes f 5
  else
    let neg := a.sign != b.sign
    match a, b with
    | .inf _, _ => ⟨infBits f neg, {}⟩
    | _, .inf _ => ⟨zeroBits f neg, {}⟩
    | .fin _ m e, .fin _ n k =>
      if n = 0 then ⟨infBits f neg, { dz := true }⟩
      else if m = 0 then ⟨zeroBits f neg, {}⟩
      else divRound f r ftz neg m e n k
    | _, _ => nanRes f 1

/-- The square root of a positive dyad, rounded. -/
def sqrtRound (f : FpFmt) (r : Rnd) (ftz : Bool) (m : Nat) (e : Int) : Res :=
  let odd := e % 2 = 1
  let m' := if odd then 2 * m else m
  let e' := if odd then e - 1 else e
  let m'' := m' * 4 ^ (f.mbits + 4)
  let s := Nat.sqrt m''
  finish f r ftz false s (e' / 2 - (f.mbits + 4 : Nat)) (s * s != m'')

/-- `fsqrt`. -/
def fSqrt (f : FpFmt) (r : Rnd) (ftz : Bool) (x : Nat) : Res :=
  match readFtz f ftz x with
  | .nan _ => nanRes f 1
  | .inf neg => if neg then nanRes f 5 else ⟨infBits f false, {}⟩
  | .fin neg m e =>
    if m = 0 then ⟨zeroBits f neg, {}⟩
    else if neg then nanRes f 5
    else sqrtRound f r ftz m e

/-- Rounds the positive real `m × 2^e` to an integer under a mode, with its inexactness. -/
def roundInt (r : Rnd) (neg : Bool) (m : Nat) (e : Int) : Nat × Bool :=
  if 0 ≤ e then (m * 2 ^ e.toNat, false)
  else
    let d := 2 ^ (-e).toNat
    let q := m / d
    let rem := m % d
    let up := match r with
      | .rn => if 2 * rem = d then q % 2 == 1 else decide (d < 2 * rem)
      | .rz => false
      | .rd => neg && rem != 0
      | .ru => !neg && rem != 0
    (if up then q + 1 else q, rem != 0)

/-- `frnd` (R131): to an integral value in its own format; no flag. -/
def fRnd (f : FpFmt) (r : Rnd) (ftz : Bool) (x : Nat) : Res :=
  match readFtz f ftz x with
  | .nan _ => ⟨f.nan 1, {}⟩
  | .inf neg => ⟨infBits f neg, {}⟩
  | .fin neg m e =>
    let k := (roundInt r neg m e).1
    if k = 0 then ⟨zeroBits f neg, {}⟩
    else ⟨(finish f .rz false neg k 0 false).bits, {}⟩

/-- Whether `a` lies strictly below `b`, −0 below +0; neither is NaN (R132). -/
def fLess (a b : FVal) : Bool :=
  match a, b with
  | .inf s, .inf t => s && !t
  | .inf s, _ => s
  | _, .inf t => !t
  | .fin s m e, .fin t n k =>
    let d := (FVal.fin s m e).dyad.add ⟨-(FVal.fin t n k).dyad.m, k⟩
    if d.m = 0 then s && !t && m == 0 else decide (d.m < 0)
  | _, _ => false

/-- The code delivered for an input read under `.ftz`. -/
def ftzBits (f : FpFmt) (ftz : Bool) (x : Nat) : Nat :=
  let x := x % 2 ^ f.bits
  if ftz && decide (0 < x % f.signBit ∧ x % f.signBit < 2 ^ f.mbits) then zeroBits f (decide (f.signBit ≤ x))
  else x

/-- `fmin` and `fmax` (R132). -/
def fMinMax (f : FpFmt) (ftz isMax : Bool) (x y : Nat) : Res :=
  let a := readFtz f ftz x
  let b := readFtz f ftz y
  if a.isNan && b.isNan then ⟨f.nan 1, {}⟩
  else if a.isNan then ⟨ftzBits f ftz y, {}⟩
  else if b.isNan then ⟨ftzBits f ftz x, {}⟩
  else if (if isMax then fLess a b else fLess b a) then ⟨ftzBits f ftz y, {}⟩
  else ⟨ftzBits f ftz x, {}⟩

/-- Whether two data, neither NaN, are equal; +0 equals −0. -/
def fEqual (a b : FVal) : Bool := (a.isZero && b.isZero) || (!fLess a b && !fLess b a)

/-- `fcmp` on FP32 (R133). -/
def fCmp (cc : Cond) (ftz : Bool) (x y : Nat) : Bool :=
  let a := readFtz .f32 ftz x
  let b := readFtz .f32 ftz y
  if a.isNan || b.isNan then (cc == .ne || cc == .un)
  else
    let lt := fLess a b && !fEqual a b
    match cc with
    | .eq => fEqual a b
    | .ne => !fEqual a b
    | .lt => lt
    | .le => lt || fEqual a b
    | .gt => !lt && !fEqual a b
    | .ge => !lt
    | .un => false

/-- `fclass` on FP32 (R134). -/
def fClass (x : Nat) : Nat :=
  match FVal.ofBits .f32 x with
  | .nan _ => 256
  | .inf neg => if neg then 1 else 128
  | .fin neg m _ =>
    if m = 0 then (if neg then 8 else 16)
    else if m < 2 ^ 23 then (if neg then 4 else 32)
    else (if neg then 2 else 64)

/-! ### Sums of products in order (R88) -/

/-- The first invalid event of a sum of products, in ascending index (R88): the cause, or 0. `seen`
are the infinities that stand earlier. -/
def firstEvent : List FVal → List (FVal × FVal) → Nat
  | _, [] => 0
  | seen, (a, b) :: ps =>
    let c := mulCause a b
    if c ≠ 0 then c
    else
      let p := a.mul b
      if p.isInf && seen.contains (negF p) then 3
      else firstEvent (if p.isInf then p :: seen else seen) ps

/-- `fdp2` (R135): FP32 accumulator, two products, one rounding. DESIGN CHOICE (log 58): NV is raised when no operand is NaN,
also where the first event is cause 3 or 4 and a later operand is a NaN. -/
def fDp2 (f : FpFmt) (r : Rnd) (ftz : Bool) (d x y : Nat) : Res :=
  let c := readFtz .f32 ftz d
  let el := fun n j => readFtz f ftz (n / 65536 ^ j % 65536)
  let ps := [(el x 0, el y 0), (el x 1, el y 1)]
  let cause := if c.isNan then 1 else firstEvent (if c.isInf then [c] else []) ps
  if cause ≠ 0 then
    let anyNan := c.isNan || ps.any (fun p => p.1.isNan || p.2.isNan)
    ⟨FpFmt.f32.nan cause, { nv := !anyNan }⟩
  else sumRound .f32 r ftz (c :: ps.map (fun p => p.1.mul p.2))

/-! ### Integer value of a scalar or immediate -/

/-- The exact conversion of an integer into a format, as an immediate is read (R113): `Round` under
`.rn`, no flag. -/
def immFloat (f : FpFmt) (x : Int) : Nat :=
  if x = 0 then 0 else (finish f .rn false (decide (x < 0)) x.natAbs 0 false).bits

end Sys2Proof.Machine
end

