-- ==== Sys2Proof/Decode.lean ====
section
/-! DEFINITION. The instruction word (R91 to R101), the opcode map (R109) and the layouts of the
mod field, decoded and encoded. Decoding is total: what no instruction encodes is rejected by name. -/

namespace Sys2Proof

/-- Why a word is no instruction: decode steps 2 and 3 of R107. Both take cause 1, detail 0x00. -/
inductive Reject
  | undefinedOpcode
  | badMod
  | badGuardOrHints
  | badOperand
  | badLongImmediate
  | illFormed
deriving DecidableEq, Repr

/-! ### Codes of the mod field -/

/-- A flag as a bit. -/
def bitOf (b : Bool) : Nat := if b then 1 else 0
/-- Bit `k` of a number. -/
def bitAt (m k : Nat) : Bool := m / 2 ^ k % 2 == 1

/-- Type codes (R118). -/
def IntTy.code : IntTy → Nat
  | .s8 => 0
  | .s16 => 1
  | .s32 => 2
  | .s64 => 3
  | .z8 => 4
  | .z16 => 5
  | .z32 => 6
  | .z64 => 7
/-- The member of a code; the decoder asks for defined codes only. -/
def IntTy.ofCode : Nat → IntTy
  | 0 => .s8
  | 1 => .s16
  | 2 => .s32
  | 3 => .s64
  | 4 => .z8
  | 5 => .z16
  | 6 => .z32
  | _ => .z64

/-- Float format codes (R137). -/
def FpFmt.code : FpFmt → Nat
  | .f32 => 0
  | .f16 => 1
  | .bf16 => 2
  | .e5m2 => 3
  | .e4m3 => 4
  | .e3m2 => 5
  | .e2m3 => 6
  | .e2m1 => 7
/-- The member of a code; the decoder asks for defined codes only. -/
def FpFmt.ofCode : Nat → FpFmt
  | 0 => .f32
  | 1 => .f16
  | 2 => .bf16
  | 3 => .e5m2
  | 4 => .e4m3
  | 5 => .e3m2
  | 6 => .e2m3
  | _ => .e2m1

/-- Rounding codes (R98). -/
def Rnd.code : Rnd → Nat
  | .rn => 0
  | .rz => 1
  | .rd => 2
  | .ru => 3
/-- The member of a code; the decoder asks for defined codes only. -/
def Rnd.ofCode : Nat → Rnd
  | 0 => .rn
  | 1 => .rz
  | 2 => .rd
  | _ => .ru

/-- Scope codes (R98). -/
def Scope.code : Scope → Nat
  | .thr => 0
  | .grp => 1
  | .tem => 2
  | .clu => 3
  | .die => 4
  | .dev => 5
  | .sys => 6
/-- The member of a code; the decoder asks for defined codes only. -/
def Scope.ofCode : Nat → Scope
  | 0 => .thr
  | 1 => .grp
  | 2 => .tem
  | 3 => .clu
  | 4 => .die
  | 5 => .dev
  | _ => .sys

/-- Condition codes (R126, R133). -/
def Cond.code : Cond → Nat
  | .eq => 0
  | .ne => 1
  | .lt => 2
  | .le => 3
  | .gt => 4
  | .ge => 5
  | .un => 6
/-- The member of a code; the decoder asks for defined codes only. -/
def Cond.ofCode : Nat → Cond
  | 0 => .eq
  | 1 => .ne
  | 2 => .lt
  | 3 => .le
  | 4 => .gt
  | 5 => .ge
  | _ => .un

/-- Codes of `plog` (R129). -/
def PlogOp.code : PlogOp → Nat
  | .and => 0
  | .or => 1
  | .xor => 2
  | .andn => 3
/-- The member of a code; the decoder asks for defined codes only. -/
def PlogOp.ofCode : Nat → PlogOp
  | 0 => .and
  | 1 => .or
  | 2 => .xor
  | _ => .andn

/-- Codes of `xlane` (R140). -/
def XlaneMode.code : XlaneMode → Nat
  | .pick => 0
  | .rotu => 1
  | .rotd => 2
  | .flip => 3
/-- The member of a code; the decoder asks for defined codes only. -/
def XlaneMode.ofCode : Nat → XlaneMode
  | 0 => .pick
  | 1 => .rotu
  | 2 => .rotd
  | _ => .flip

/-- Codes of `lpoll` (R141). -/
def PollMode.code : PollMode → Nat
  | .every => 0
  | .some => 1
  | .mask => 2
  | .count => 3
/-- The member of a code; the decoder asks for defined codes only. -/
def PollMode.ofCode : Nat → PollMode
  | 0 => .every
  | 1 => .some
  | 2 => .mask
  | _ => .count

/-- Codes of `lfold` (R142). -/
def FoldOp.code : FoldOp → Nat
  | .add => 0
  | .min => 1
  | .max => 2
  | .and => 3
  | .or => 4
  | .xor => 5
/-- The member of a code; the decoder asks for defined codes only. -/
def FoldOp.ofCode : Nat → FoldOp
  | 0 => .add
  | 1 => .min
  | 2 => .max
  | 3 => .and
  | 4 => .or
  | _ => .xor

/-- Size codes (R149). -/
def Size.code : Size → Nat
  | .s8 => 0
  | .z8 => 1
  | .s16 => 2
  | .z16 => 3
  | .s32 => 4
  | .z32 => 5
  | .d64 => 6
  | .q128 => 7
/-- The member of a code; the decoder asks for defined codes only. -/
def Size.ofCode : Nat → Size
  | 0 => .s8
  | 1 => .z8
  | 2 => .s16
  | 3 => .z16
  | 4 => .s32
  | 5 => .z32
  | 6 => .d64
  | _ => .q128

/-- Ordering codes (R164, R177). -/
def Order.code : Order → Nat
  | .relaxed => 0
  | .acq => 1
  | .rel => 2
  | .ar => 3
/-- The member of a code; the decoder asks for defined codes only. -/
def Order.ofCode : Nat → Order
  | 0 => .relaxed
  | 1 => .acq
  | 2 => .rel
  | _ => .ar

/-- Full/empty codes of `ldl` (R158). -/
def LoadFe.code : LoadFe → Nat
  | .plain => 0
  | .wf => 1
  | .wc => 2
/-- The member of a code; the decoder asks for defined codes only. -/
def LoadFe.ofCode : Nat → LoadFe
  | 0 => .plain
  | 1 => .wf
  | _ => .wc

/-- Full/empty codes of `stl` and `ast` (R158, R214). -/
def StoreFe.code : StoreFe → Nat
  | .plain => 0
  | .sf => 1
  | .se => 2
/-- The member of a code; the decoder asks for defined codes only. -/
def StoreFe.ofCode : Nat → StoreFe
  | 0 => .plain
  | 1 => .sf
  | _ => .se

/-- Format codes of `mma` (R216). -/
def MmaFmt.code : MmaFmt → Nat
  | .bf16 => 0
  | .f16 => 1
  | .e4m3 => 2
  | .e5m2 => 3
  | .e3m2 => 4
  | .e2m3 => 5
  | .e2m1 => 6
  | .s8 => 7
/-- The member of a code; the decoder asks for defined codes only. -/
def MmaFmt.ofCode : Nat → MmaFmt
  | 0 => .bf16
  | 1 => .f16
  | 2 => .e4m3
  | 3 => .e5m2
  | 4 => .e3m2
  | 5 => .e2m3
  | 6 => .e2m1
  | _ => .s8

/-- Activation codes of `mmq` (R219). -/
def ActFmt.code : ActFmt → Nat
  | .bf16 => 0
  | .f16 => 1
  | .e4m3 => 2
  | .e5m2 => 3
  | .s8 => 4
/-- The member of a code; the decoder asks for defined codes only. -/
def ActFmt.ofCode : Nat → ActFmt
  | 0 => .bf16
  | 1 => .f16
  | 2 => .e4m3
  | 3 => .e5m2
  | _ => .s8

/-- Group-size codes of `mmq` (R214). -/
def QGroup.code : QGroup → Nat
  | .g32 => 0
  | .g64 => 1
  | .g128 => 2
/-- The member of a code; the decoder asks for defined codes only. -/
def QGroup.ofCode : Nat → QGroup
  | 0 => .g32
  | 1 => .g64
  | _ => .g128

/-- Row codes of `mlda` (R214). -/
def RowW.code : RowW → Nat
  | .w16 => 0
  | .w32 => 1
  | .w64 => 2
/-- The member of a code; the decoder asks for defined codes only. -/
def RowW.ofCode : Nat → RowW
  | 0 => .w16
  | 1 => .w32
  | _ => .w64

/-! ### The opcode map -/

/-- The cells of block `0x000` (R110 to R129). -/
def cellInteger (op m : Nat) : Except Reject (Ctl → Ops → Instr) :=
  if op = 0x000 then
    if m < 16 then .ok (Instr.add (.ofCode (m % 8)) (bitAt m 3)) else .error .badMod
  else if op = 0x001 then
    if m < 16 then .ok (Instr.sub (.ofCode (m % 8)) (bitAt m 3)) else .error .badMod
  else if op = 0x002 then
    if m < 16 then .ok (Instr.mul (.ofCode (m % 8)) (bitAt m 3)) else .error .badMod
  else if op = 0x003 then
    if m < 8 then .ok (Instr.mulhi (.ofCode m)) else .error .badMod
  else if op = 0x004 then
    if m < 8 then .ok (Instr.mulw (.ofCode m)) else .error .badMod
  else if op = 0x005 then
    if m < 16 then .ok (Instr.mad (.ofCode (m % 8)) (bitAt m 3)) else .error .badMod
  else if op = 0x006 then
    if m < 8 then .ok (Instr.div (.ofCode m)) else .error .badMod
  else if op = 0x007 then
    if m < 8 then .ok (Instr.rem (.ofCode m)) else .error .badMod
  else if op = 0x008 then
    if m < 8 then .ok (Instr.min (.ofCode m)) else .error .badMod
  else if op = 0x009 then
    if m < 8 then .ok (Instr.max (.ofCode m)) else .error .badMod
  else if op = 0x00A then
    if m < 16 then .ok (Instr.abs (.ofCode (m % 8)) (bitAt m 3)) else .error .badMod
  else if op = 0x00B then
    if m < 16 then .ok (Instr.neg (.ofCode (m % 8)) (bitAt m 3)) else .error .badMod
  else if op = 0x00C then
    if m < 2 then .ok (Instr.and (bitAt m 0)) else .error .badMod
  else if op = 0x00D then
    if m < 2 then .ok (Instr.or (bitAt m 0)) else .error .badMod
  else if op = 0x00E then
    if m < 2 then .ok (Instr.xor (bitAt m 0)) else .error .badMod
  else if op = 0x00F then
    if m < 2 then .ok (Instr.not (bitAt m 0)) else .error .badMod
  else if op = 0x010 then
    if m < 8 then .ok (Instr.shl (.ofCode m)) else .error .badMod
  else if op = 0x011 then
    if m < 8 then .ok (Instr.shr (.ofCode m)) else .error .badMod
  else if op = 0x012 then
    if m < 2 then .ok (Instr.rotl (bitAt m 0)) else .error .badMod
  else if op = 0x013 then
    if m < 2 then .ok (Instr.popc (bitAt m 0)) else .error .badMod
  else if op = 0x014 then
    if m < 2 then .ok (Instr.clz (bitAt m 0)) else .error .badMod
  else if op = 0x015 then
    if m < 2 then .ok (Instr.brev (bitAt m 0)) else .error .badMod
  else if op = 0x016 then
    if m < 8 then .ok (Instr.bfx (.ofCode m)) else .error .badMod
  else if op = 0x017 then
    if m < 2 then .ok (Instr.bfi (bitAt m 0)) else .error .badMod
  else if op = 0x018 then
    if m % 8 = 2 ∨ m % 8 = 6 then .ok (Instr.lea (bitAt m 2) (m / 8)) else .error .badMod
  else if op = 0x019 then
    if m / 8 < 6 then .ok (Instr.cmp (.ofCode (m / 8)) (.ofCode (m % 8))) else .error .badMod
  else if op = 0x01A then
    if m < 32 then .ok (Instr.sel (bitAt m 4) (bitAt m 3) (m % 8)) else .error .badMod
  else if op = 0x01B then
    if m < 2 then .ok (Instr.mov (bitAt m 0)) else .error .badMod
  else if op = 0x01C then
    if m < 4 then .ok (Instr.plog (.ofCode m)) else .error .badMod
  else .error .undefinedOpcode

/-- The cells of block `0x040` (R140 to R144). -/
def cellLane (op m : Nat) : Except Reject (Ctl → Ops → Instr) :=
  if op = 0x040 then
    if m < 8 then .ok (Instr.xlane (.ofCode (m % 4)) (bitAt m 2)) else .error .badMod
  else if op = 0x041 then
    if m < 4 then .ok (Instr.lpoll (.ofCode m)) else .error .badMod
  else if op = 0x042 then
    if m / 8 < 6 then .ok (Instr.lfold (.ofCode (m / 8)) (.ofCode (m % 8))) else .error .badMod
  else if op = 0x043 then
    if m / 8 < 3 ∧ m % 8 < 4 then .ok (Instr.ffold (.ofCode (m / 8)) (.ofCode (m % 8))) else .error .badMod
  else if op = 0x044 then
    if m / 16 < 3 ∧ (m % 8 = 2 ∨ m % 8 = 6) then .ok (Instr.scan (.ofCode (m / 16)) (bitAt m 3) (bitAt m 2)) else .error .badMod
  else if op = 0x045 then
    if m = 0 then .ok Instr.pk6 else .error .badMod
  else if op = 0x046 then
    if m = 0 then .ok Instr.upk6 else .error .badMod
  else .error .undefinedOpcode

/-- The cells of block `0x100` (R130 to R136). -/
def cellFloat (op m : Nat) : Except Reject (Ctl → Ops → Instr) :=
  if op = 0x100 then
    if m < 32 ∧ m / 4 % 4 < 3 then .ok (Instr.fadd (bitAt m 4) (.ofCode (m / 4 % 4)) (.ofCode (m % 4))) else .error .badMod
  else if op = 0x101 then
    if m < 32 ∧ m / 4 % 4 < 3 then .ok (Instr.fsub (bitAt m 4) (.ofCode (m / 4 % 4)) (.ofCode (m % 4))) else .error .badMod
  else if op = 0x102 then
    if m < 32 ∧ m / 4 % 4 < 3 then .ok (Instr.fmul (bitAt m 4) (.ofCode (m / 4 % 4)) (.ofCode (m % 4))) else .error .badMod
  else if op = 0x103 then
    if m < 32 ∧ m / 4 % 4 < 3 then .ok (Instr.fma (bitAt m 4) (.ofCode (m / 4 % 4)) (.ofCode (m % 4))) else .error .badMod
  else if op = 0x104 then
    if m < 32 ∧ m / 4 % 4 < 3 then .ok (Instr.fdiv (bitAt m 4) (.ofCode (m / 4 % 4)) (.ofCode (m % 4))) else .error .badMod
  else if op = 0x105 then
    if m < 32 ∧ m / 4 % 4 < 3 then .ok (Instr.fsqrt (bitAt m 4) (.ofCode (m / 4 % 4)) (.ofCode (m % 4))) else .error .badMod
  else if op = 0x106 then
    if m < 32 ∧ m / 4 % 4 < 3 ∧ m % 4 = 0 then .ok (Instr.fmin (bitAt m 4) (.ofCode (m / 4 % 4))) else .error .badMod
  else if op = 0x107 then
    if m < 32 ∧ m / 4 % 4 < 3 ∧ m % 4 = 0 then .ok (Instr.fmax (bitAt m 4) (.ofCode (m / 4 % 4))) else .error .badMod
  else if op = 0x108 then
    if m < 32 ∧ m / 4 % 4 < 3 then .ok (Instr.frnd (bitAt m 4) (.ofCode (m / 4 % 4)) (.ofCode (m % 4))) else .error .badMod
  else if op = 0x109 then
    if m < 16 ∧ m % 8 < 7 then .ok (Instr.fcmp (.ofCode (m % 8)) (bitAt m 3)) else .error .badMod
  else if op = 0x10A then
    if m = 0 then .ok Instr.fclass else .error .badMod
  else if op = 0x10B then
    if m < 32 ∧ (m / 4 % 4 = 1 ∨ m / 4 % 4 = 2) then .ok (Instr.fdp2 (bitAt m 4) (.ofCode (m / 4 % 4)) (.ofCode (m % 4))) else .error .badMod
  else if op = 0x110 then
    if m = 0 ∨ m = 16 then .ok (Instr.frcp (bitAt m 4)) else .error .badMod
  else if op = 0x111 then
    if m = 0 ∨ m = 16 then .ok (Instr.frsq (bitAt m 4)) else .error .badMod
  else if op = 0x112 then
    if m = 0 ∨ m = 16 then .ok (Instr.fex2 (bitAt m 4)) else .error .badMod
  else if op = 0x113 then
    if m = 0 ∨ m = 16 then .ok (Instr.flg2 (bitAt m 4)) else .error .badMod
  else if op = 0x114 then
    if m = 0 ∨ m = 16 then .ok (Instr.fsinpi (bitAt m 4)) else .error .badMod
  else if op = 0x115 then
    if m = 0 ∨ m = 16 then .ok (Instr.fcospi (bitAt m 4)) else .error .badMod
  else if op = 0x116 then
    if m = 0 ∨ m = 16 then .ok (Instr.ftanh (bitAt m 4)) else .error .badMod
  else .error .undefinedOpcode

/-- The cells of block `0x180` (R137). -/
def cellConvert (op m : Nat) : Except Reject (Ctl → Ops → Instr) :=
  if 0x180 ≤ op ∧ op < 0x188 then
    .ok (Instr.cvtFloatToFloat (.ofCode (op - 0x180)) (.ofCode (m / 8)) (bitAt m 2) (.ofCode (m % 4)))
  else if 0x188 ≤ op ∧ op < 0x190 then
    if m % 8 < 4 then .ok (Instr.cvtFloatToInt (.ofCode (op - 0x188)) (.ofCode (m / 8)) (.ofCode (m % 4))) else .error .badMod
  else if 0x190 ≤ op ∧ op < 0x198 then
    .ok (Instr.cvtIntToFloat (.ofCode (op - 0x190)) (.ofCode (m / 8)) (bitAt m 2) (.ofCode (m % 4)))
  else if op = 0x198 then
    .ok (Instr.cvtIntWrap (.ofCode (m % 8)) (.ofCode (m / 8)))
  else if op = 0x199 then
    .ok (Instr.cvtIntSat (.ofCode (m % 8)) (.ofCode (m / 8)))
  else if op = 0x19A then
    if m / 8 < 3 then .ok (Instr.cvtQuantise (bitAt m 2) (.ofCode (m / 8)) (.ofCode (m % 4))) else .error .badMod
  else if op = 0x19B then
    if m = 0 ∨ m = 4 then .ok (Instr.cvtDequantise (bitAt m 2)) else .error .badMod
  else .error .undefinedOpcode

/-- The cells of block `0x200` (R150, R162). -/
def cellMemory (op m : Nat) : Except Reject (Ctl → Ops → Instr) :=
  if op = 0x200 then
    if m < 8 then .ok (Instr.ld (.ofCode m)) else .error .badMod
  else if op = 0x201 then
    if m < 8 then .ok (Instr.st (.ofCode m)) else .error .badMod
  else if op = 0x202 then
    if m / 8 < 7 then .ok (Instr.ldAcq (.ofCode (m / 8)) (.ofCode (m % 8))) else .error .badMod
  else if op = 0x203 then
    if m / 8 < 7 then .ok (Instr.stRel (.ofCode (m / 8)) (.ofCode (m % 8))) else .error .badMod
  else if op = 0x204 then
    if m / 8 < 3 then .ok (Instr.ldl (.ofCode (m / 8)) (.ofCode (m % 8))) else .error .badMod
  else if op = 0x205 then
    if m / 8 < 3 then .ok (Instr.stl (.ofCode (m / 8)) (.ofCode (m % 8))) else .error .badMod
  else if op = 0x206 then
    if m < 2 then .ok (Instr.pref (bitAt m 0)) else .error .badMod
  else .error .undefinedOpcode

/-- The cells of block `0x280` (R163, R164, R170). -/
def cellAtomic (op m : Nat) : Except Reject (Ctl → Ops → Instr) :=
  if 0x280 ≤ op ∧ op < 0x282 then
    if m / 8 < 7 then .ok (Instr.atomAdd (bitAt (op - 0x280) 0) (bitAt m 0) (.ofCode (m / 2 % 4)) (.ofCode (m / 8))) else .error .badMod
  else if 0x282 ≤ op ∧ op < 0x284 then
    if m / 8 < 7 then .ok (Instr.atomMin (bitAt (op - 0x282) 0) (bitAt m 0) (.ofCode (m / 2 % 4)) (.ofCode (m / 8))) else .error .badMod
  else if 0x284 ≤ op ∧ op < 0x286 then
    if m / 8 < 7 then .ok (Instr.atomMax (bitAt (op - 0x284) 0) (bitAt m 0) (.ofCode (m / 2 % 4)) (.ofCode (m / 8))) else .error .badMod
  else if 0x286 ≤ op ∧ op < 0x288 then
    if m / 8 < 7 ∧ m % 2 = 0 then .ok (Instr.atomAnd (bitAt (op - 0x286) 0) (.ofCode (m / 2 % 4)) (.ofCode (m / 8))) else .error .badMod
  else if 0x288 ≤ op ∧ op < 0x28A then
    if m / 8 < 7 ∧ m % 2 = 0 then .ok (Instr.atomOr (bitAt (op - 0x288) 0) (.ofCode (m / 2 % 4)) (.ofCode (m / 8))) else .error .badMod
  else if 0x28A ≤ op ∧ op < 0x28C then
    if m / 8 < 7 ∧ m % 2 = 0 then .ok (Instr.atomXor (bitAt (op - 0x28A) 0) (.ofCode (m / 2 % 4)) (.ofCode (m / 8))) else .error .badMod
  else if 0x28C ≤ op ∧ op < 0x28E then
    if m / 8 < 7 ∧ m % 2 = 0 then .ok (Instr.atomXchg (bitAt (op - 0x28C) 0) (.ofCode (m / 2 % 4)) (.ofCode (m / 8))) else .error .badMod
  else if op = 0x28E then
    if m / 8 < 7 ∧ m % 2 = 0 then .ok (Instr.atomAddF32 (.ofCode (m / 2 % 4)) (.ofCode (m / 8))) else .error .badMod
  else if 0x290 ≤ op ∧ op < 0x292 then
    if m / 8 < 7 ∧ m % 2 = 0 then .ok (Instr.cas (bitAt (op - 0x290) 0) (.ofCode (m / 2 % 4)) (.ofCode (m / 8))) else .error .badMod
  else if op = 0x292 then
    if m = 0 then .ok Instr.txb else .error .badMod
  else if op = 0x293 then
    if m = 0 then .ok Instr.txe else .error .badMod
  else if op = 0x294 then
    if m = 0 then .ok Instr.txa else .error .badMod
  else .error .undefinedOpcode

/-- The cells of block `0x2C0` (R177 to R182). -/
def cellSync (op m : Nat) : Except Reject (Ctl → Ops → Instr) :=
  if op = 0x2C0 then
    if m < 32 ∧ m / 4 < 7 then .ok (Instr.fence (.ofCode (m % 4)) (.ofCode (m / 4))) else .error .badMod
  else if op = 0x2C1 then
    if m < 7 then .ok (Instr.publ (.ofCode m)) else .error .badMod
  else if op = 0x2C2 then
    if m < 7 then .ok (Instr.rcfence (.ofCode m)) else .error .badMod
  else if op = 0x2C3 then
    if m < 7 then .ok (Instr.icinv (.ofCode m)) else .error .badMod
  else if op = 0x2C4 then
    if m = 0 then .ok Instr.sweep else .error .badMod
  else if op = 0x2C5 then
    if m = 0 then .ok Instr.tmov else .error .badMod
  else .error .undefinedOpcode

/-- The cells of block `0x300` (R184). -/
def cellControl (op m : Nat) : Except Reject (Ctl → Ops → Instr) :=
  if op = 0x300 then
    if m = 0 then .ok Instr.bra else .error .badMod
  else if op = 0x301 then
    if m = 0 then .ok Instr.brx else .error .badMod
  else if op = 0x302 then
    if m = 0 then .ok Instr.call else .error .badMod
  else if op = 0x303 then
    if m = 0 then .ok Instr.callx else .error .badMod
  else if op = 0x304 then
    if m = 0 then .ok Instr.ret else .error .badMod
  else if op = 0x305 then
    if m = 0 then .ok Instr.rejoin else .error .badMod
  else if op = 0x306 then
    if m = 0 then .ok Instr.exit else .error .badMod
  else if op = 0x307 then
    if m < 16 then .ok (Instr.beq m) else .error .badMod
  else if op = 0x308 then
    if m = 0 then .ok Instr.estq else .error .badMod
  else if op = 0x309 then
    if m = 0 then .ok Instr.estdrop else .error .badMod
  else if op = 0x30A then
    if m = 0 then .ok Instr.spawn else .error .badMod
  else if op = 0x30B then
    if m = 0 then .ok Instr.post else .error .badMod
  else if op = 0x30C then
    if m = 0 then .ok Instr.bar else .error .badMod
  else if op = 0x30D then
    if m = 0 then .ok Instr.donateGive else if m = 1 then .ok Instr.donateTake else .error .badMod
  else if op = 0x30E then
    if m = 0 then .ok Instr.ralloc else .error .badMod
  else if op = 0x30F then
    if m = 0 then .ok Instr.yield else .error .badMod
  else if op = 0x310 then
    if m = 0 then .ok Instr.nop else .error .badMod
  else .error .undefinedOpcode

/-- The cells of block `0x380` (R184). -/
def cellSystem (op m : Nat) : Except Reject (Ctl → Ops → Instr) :=
  if op = 0x380 then
    if m = 0 then .ok Instr.trap else .error .badMod
  else if op = 0x381 then
    if m = 0 then .ok Instr.sys else .error .badMod
  else if op = 0x382 then
    if m = 0 then .ok Instr.sigw else .error .badMod
  else if op = 0x383 then
    if m = 0 then .ok Instr.tret else if m = 1 then .ok Instr.tretSkip else if m = 2 then .ok Instr.tretExit else .error .badMod
  else if op = 0x384 then
    if m = 0 then .ok Instr.snap else .error .badMod
  else if op = 0x385 then
    if m = 0 then .ok Instr.mfsr else .error .badMod
  else if op = 0x386 then
    if m = 0 then .ok Instr.mtsr else .error .badMod
  else .error .undefinedOpcode

/-- The cells of block `0x3C0` (R213, R214). -/
def cellMatrix (op m : Nat) : Except Reject (Ctl → Ops → Instr) :=
  if op = 0x3C0 then
    .ok (Instr.mma (m / 8) (.ofCode (m % 8)))
  else if op = 0x3C1 then
    if m % 4 < 3 ∧ m / 4 % 8 < 5 then .ok (Instr.mmq (bitAt m 5) (.ofCode (m / 4 % 8)) (.ofCode (m % 4))) else .error .badMod
  else if op = 0x3C2 then
    if m < 3 then .ok (Instr.mlda (.ofCode m)) else .error .badMod
  else if op = 0x3C3 then
    if m = 0 then .ok Instr.ald else .error .badMod
  else if op = 0x3C4 then
    if m % 8 = 0 ∧ m < 24 then .ok (Instr.ast (.ofCode (m / 8))) else .error .badMod
  else if op = 0x3C5 then
    if m = 0 then .ok Instr.aclr else .error .badMod
  else if op = 0x3C6 then
    if m = 0 then .ok Instr.drain else .error .badMod
  else .error .undefinedOpcode

/-- The cells of block `0x3E0` (R213, R214). -/
def cellEngine (op m : Nat) : Except Reject (Ctl → Ops → Instr) :=
  if op = 0x3E0 then
    if m = 0 then .ok Instr.cpin else .error .badMod
  else if op = 0x3E1 then
    if m = 0 then .ok Instr.cpout else .error .badMod
  else if op = 0x3E2 then
    if m = 0 then .ok Instr.gath else .error .badMod
  else if op = 0x3F0 then
    if m = 0 then .ok Instr.racq else .error .badMod
  else if op = 0x3F1 then
    if m = 0 then .ok Instr.rput else .error .badMod
  else if op = 0x3F2 then
    if m = 0 then .ok Instr.rget else .error .badMod
  else if op = 0x3F3 then
    if m = 0 then .ok Instr.rrel else .error .badMod
  else .error .undefinedOpcode

/-- The opcode map (R109): every cell outside the blocks is illegal. -/
def cell (op m : Nat) : Except Reject (Ctl → Ops → Instr) :=
  if op < 0x040 then cellInteger op m
  else if 0x040 ≤ op ∧ op < 0x060 then cellLane op m
  else if 0x100 ≤ op ∧ op < 0x140 then cellFloat op m
  else if 0x180 ≤ op ∧ op < 0x1A0 then cellConvert op m
  else if 0x200 ≤ op ∧ op < 0x240 then cellMemory op m
  else if 0x280 ≤ op ∧ op < 0x2A0 then cellAtomic op m
  else if 0x2C0 ≤ op ∧ op < 0x2E0 then cellSync op m
  else if 0x300 ≤ op ∧ op < 0x340 then cellControl op m
  else if 0x380 ≤ op ∧ op < 0x3A0 then cellSystem op m
  else if 0x3C0 ≤ op ∧ op < 0x3E0 then cellMatrix op m
  else if 0x3E0 ≤ op ∧ op < 0x3F4 then cellEngine op m
  else .error .undefinedOpcode

/-! ### Operand fields -/

/-- A vector operand's sub-field under the form its opcode accepts (R96). -/
def Sub.ofField : VForm → Nat → Option Sub
  | .plain, n => if n = 0 then some .plain else none
  | .negabs, n =>
    if n = 0 then some .plain else if n = 1 then some .neg
    else if n = 2 then some .abs else if n = 3 then some .negAbs else none
  | .lane, n => if n = 0 then some .plain else if 128 ≤ n then some (.ln (n - 128)) else none
  | .swz, n => some (.swz n)
  | .sel _, n => some (.sel n)

/-- The sub-field of R96. -/
def Sub.field : Sub → Nat
  | .plain => 0
  | .neg => 1
  | .abs => 2
  | .negAbs => 3
  | .sel n => n
  | .swz n => n
  | .ln n => 128 + n

/-- A 17-bit two's-complement value (R94). -/
def signed17 (n : Nat) : Int := if n < 65536 then n else (n : Int) - 131072

/-- Reads one operand field (R94) of a position that accepts `a`. A long immediate is not read here. -/
def Opnd.ofField (a : Accept) (f : Nat) : Option Opnd :=
  let kind := f / 131072
  let idx := f / 256 % 512
  let sub := f % 256
  if kind = 0 then a.vec.bind fun v => (Sub.ofField v.1 sub).map (Opnd.v idx)
  else if kind = 1 then if sub = 0 then some (.s idx) else Option.none
  else if kind = 2 then some (.imm (signed17 (f % 131072)))
  else if kind = 3 then
    let t := idx % 4
    let k := idx / 8 % 16
    let g := idx / 128
    if sub ≠ 0 ∨ idx / 4 % 2 ≠ 0 then Option.none
    else if g = 0 then if k = 0 then some (.acc t Option.none) else Option.none
    else if g = 1 then some (.acc t (some k))
    else Option.none
  else if kind = 4 then some (.sp idx sub)
  else if kind = 5 then if sub = 0 then some (.p idx) else Option.none
  else if kind = 7 then if f % 131072 = 0 then some .none else Option.none
  else Option.none

/-- The operand field of R94. The half of a long immediate in field B is laid by `encodeOps`. -/
def Opnd.field : Opnd → Nat
  | .v i sub => i * 256 + sub.field
  | .s i => 131072 + i * 256
  | .imm x => 2 * 131072 + (if 0 ≤ x then x.toNat else (x + 131072).toNat)
  | .limm x => 6 * 131072 + x % 65536
  | .acc t Option.none => 3 * 131072 + t * 256
  | .acc t (some k) => 3 * 131072 + (128 + k * 8 + t) * 256
  | .sp i sub => 4 * 131072 + i * 256 + sub
  | .p i => 5 * 131072 + i * 256
  | .none => 7 * 131072

/-- Whether a field carries kind 110 with bit 16 zero (R95). -/
def isLongField (f : Nat) : Bool := decide (6 * 131072 ≤ f ∧ f < 6 * 131072 + 65536)

/-- The three operands (R94, R95). No instruction accepts a long immediate in field D. -/
def Ops.ofFields (sh : Shape) (d a b : Nat) : Except Reject Ops :=
  match Opnd.ofField sh.d d with
  | none => .error .badOperand
  | some od =>
    if isLongField a then
      if isLongField b then .ok ⟨od, .limm (a % 65536 + 65536 * (b % 65536)), .none⟩
      else .error .badLongImmediate
    else
      match Opnd.ofField sh.a a, Opnd.ofField sh.b b with
      | some oa, some ob => .ok ⟨od, oa, ob⟩
      | _, _ => .error .badOperand

/-- Field B: the upper half of a long immediate in A, or B's own operand (R95). -/
def Ops.fieldB (o : Ops) : Nat :=
  match o.a with
  | .limm x => 6 * 131072 + x / 65536 % 65536
  | _ => o.b.field

/-! ### Guard and hints -/

/-- Guard (R97) and hints (R99). PAIR 11 and nonzero reserved bits are illegal. -/
def Ctl.ofFields (g h : Nat) : Except Reject Ctl :=
  if h % 16 = 0 ∧ h / 256 % 4 < 3 ∧ g ≠ 15 then
    .ok ⟨bitAt g 3, g % 8, bitAt h 15, bitAt h 14, bitAt h 13, bitAt h 12, bitAt h 11, bitAt h 10,
      h / 256 % 4, h / 16 % 16⟩
  else .error .badGuardOrHints

/-- The guard field (R97). -/
def Ctl.guard (c : Ctl) : Nat := c.pred + 8 * bitOf c.neg

/-- The hint field (R99). -/
def Ctl.hints (c : Ctl) : Nat :=
  16 * c.stall + 256 * c.pair + 1024 * bitOf c.yield + 2048 * bitOf c.latch + 4096 * bitOf c.keepB +
  8192 * bitOf c.keepA + 16384 * bitOf c.keepD + 32768 * bitOf c.mark

/-! ### The word -/

/-- Decodes the 96-bit word `n` for a group of width `w`: steps 2 and 3 of R107. -/
def decodeWord (w n : Nat) : Except Reject Instr :=
  match cell (n / 2 ^ 86 % 1024) (n / 2 ^ 80 % 64) with
  | .error e => .error e
  | .ok mk =>
    match Ctl.ofFields (n / 2 ^ 76 % 16) (n % 65536) with
    | .error e => .error e
    | .ok c =>
      let sh := (mk c ⟨.none, .none, .none⟩).shape
      match Ops.ofFields sh (n / 2 ^ 56 % 1048576) (n / 2 ^ 36 % 1048576) (n / 2 ^ 16 % 1048576) with
      | .error e => .error e
      | .ok o =>
        let i := mk c o
        if i.wf w then .ok i else .error .illFormed

/-- Opcode and mod of each program instruction. Events have no word. -/
def Instr.opMod : Instr → Nat × Nat
  | .add t sat _ _ => (0x000, t.code + 8 * bitOf sat)
  | .sub t sat _ _ => (0x001, t.code + 8 * bitOf sat)
  | .mul t sat _ _ => (0x002, t.code + 8 * bitOf sat)
  | .mulhi t _ _ => (0x003, t.code)
  | .mulw t _ _ => (0x004, t.code)
  | .mad t sat _ _ => (0x005, t.code + 8 * bitOf sat)
  | .div t _ _ => (0x006, t.code)
  | .rem t _ _ => (0x007, t.code)
  | .min t _ _ => (0x008, t.code)
  | .max t _ _ => (0x009, t.code)
  | .abs t sat _ _ => (0x00A, t.code + 8 * bitOf sat)
  | .neg t sat _ _ => (0x00B, t.code + 8 * bitOf sat)
  | .and b _ _ => (0x00C, bitOf b)
  | .or b _ _ => (0x00D, bitOf b)
  | .xor b _ _ => (0x00E, bitOf b)
  | .not b _ _ => (0x00F, bitOf b)
  | .shl t _ _ => (0x010, t.code)
  | .shr t _ _ => (0x011, t.code)
  | .rotl b _ _ => (0x012, bitOf b)
  | .popc b _ _ => (0x013, bitOf b)
  | .clz b _ _ => (0x014, bitOf b)
  | .brev b _ _ => (0x015, bitOf b)
  | .bfx t _ _ => (0x016, t.code)
  | .bfi b _ _ => (0x017, bitOf b)
  | .lea z sh _ _ => (0x018, (if z then 6 else 2) + 8 * sh)
  | .cmp cc t _ _ => (0x019, t.code + 8 * cc.code)
  | .sel b inv k _ _ => (0x01A, k + 8 * bitOf inv + 16 * bitOf b)
  | .mov b _ _ => (0x01B, bitOf b)
  | .plog op _ _ => (0x01C, op.code)
  | .xlane md b _ _ => (0x040, md.code + 4 * bitOf b)
  | .lpoll md _ _ => (0x041, md.code)
  | .lfold op t _ _ => (0x042, t.code + 8 * op.code)
  | .ffold op rr _ _ => (0x043, rr.code + 8 * op.code)
  | .scan op x z _ _ => (0x044, (if z then 6 else 2) + 8 * bitOf x + 16 * op.code)
  | .pk6 _ _ => (0x045, 0)
  | .upk6 _ _ => (0x046, 0)
  | .fadd z f rr _ _ => (0x100, rr.code + 4 * f.code + 16 * bitOf z)
  | .fsub z f rr _ _ => (0x101, rr.code + 4 * f.code + 16 * bitOf z)
  | .fmul z f rr _ _ => (0x102, rr.code + 4 * f.code + 16 * bitOf z)
  | .fma z f rr _ _ => (0x103, rr.code + 4 * f.code + 16 * bitOf z)
  | .fdiv z f rr _ _ => (0x104, rr.code + 4 * f.code + 16 * bitOf z)
  | .fsqrt z f rr _ _ => (0x105, rr.code + 4 * f.code + 16 * bitOf z)
  | .fmin z f _ _ => (0x106, 4 * f.code + 16 * bitOf z)
  | .fmax z f _ _ => (0x107, 4 * f.code + 16 * bitOf z)
  | .frnd z f rr _ _ => (0x108, rr.code + 4 * f.code + 16 * bitOf z)
  | .fcmp cc z _ _ => (0x109, cc.code + 8 * bitOf z)
  | .fclass _ _ => (0x10A, 0)
  | .fdp2 z f rr _ _ => (0x10B, rr.code + 4 * f.code + 16 * bitOf z)
  | .frcp z _ _ => (0x110, 16 * bitOf z)
  | .frsq z _ _ => (0x111, 16 * bitOf z)
  | .fex2 z _ _ => (0x112, 16 * bitOf z)
  | .flg2 z _ _ => (0x113, 16 * bitOf z)
  | .fsinpi z _ _ => (0x114, 16 * bitOf z)
  | .fcospi z _ _ => (0x115, 16 * bitOf z)
  | .ftanh z _ _ => (0x116, 16 * bitOf z)
  | .cvtFloatToFloat f g ns rr _ _ => (0x180 + f.code, rr.code + 4 * bitOf ns + 8 * g.code)
  | .cvtFloatToInt t g rr _ _ => (0x188 + t.code, rr.code + 8 * g.code)
  | .cvtIntToFloat f t ns rr _ _ => (0x190 + f.code, rr.code + 4 * bitOf ns + 8 * t.code)
  | .cvtIntWrap t u _ _ => (0x198, t.code + 8 * u.code)
  | .cvtIntSat t u _ _ => (0x199, t.code + 8 * u.code)
  | .cvtQuantise q f rr _ _ => (0x19A, rr.code + 4 * bitOf q + 8 * f.code)
  | .cvtDequantise q _ _ => (0x19B, 4 * bitOf q)
  | .ld z _ _ => (0x200, z.code)
  | .st z _ _ => (0x201, z.code)
  | .ldAcq sc z _ _ => (0x202, z.code + 8 * sc.code)
  | .stRel sc z _ _ => (0x203, z.code + 8 * sc.code)
  | .ldl fe z _ _ => (0x204, z.code + 8 * fe.code)
  | .stl fe z _ _ => (0x205, z.code + 8 * fe.code)
  | .pref b _ _ => (0x206, bitOf b)
  | .atomAdd b sg od sc _ _ => (0x280 + bitOf b, bitOf sg + 2 * od.code + 8 * sc.code)
  | .atomMin b sg od sc _ _ => (0x282 + bitOf b, bitOf sg + 2 * od.code + 8 * sc.code)
  | .atomMax b sg od sc _ _ => (0x284 + bitOf b, bitOf sg + 2 * od.code + 8 * sc.code)
  | .atomAnd b od sc _ _ => (0x286 + bitOf b, 2 * od.code + 8 * sc.code)
  | .atomOr b od sc _ _ => (0x288 + bitOf b, 2 * od.code + 8 * sc.code)
  | .atomXor b od sc _ _ => (0x28A + bitOf b, 2 * od.code + 8 * sc.code)
  | .atomXchg b od sc _ _ => (0x28C + bitOf b, 2 * od.code + 8 * sc.code)
  | .atomAddF32 od sc _ _ => (0x28E, 2 * od.code + 8 * sc.code)
  | .cas b od sc _ _ => (0x290 + bitOf b, 2 * od.code + 8 * sc.code)
  | .txb _ _ => (0x292, 0)
  | .txe _ _ => (0x293, 0)
  | .txa _ _ => (0x294, 0)
  | .fence od sc _ _ => (0x2C0, od.code + 4 * sc.code)
  | .publ sc _ _ => (0x2C1, sc.code)
  | .rcfence sc _ _ => (0x2C2, sc.code)
  | .icinv sc _ _ => (0x2C3, sc.code)
  | .sweep _ _ => (0x2C4, 0)
  | .tmov _ _ => (0x2C5, 0)
  | .bra _ _ => (0x300, 0)
  | .brx _ _ => (0x301, 0)
  | .call _ _ => (0x302, 0)
  | .callx _ _ => (0x303, 0)
  | .ret _ _ => (0x304, 0)
  | .rejoin _ _ => (0x305, 0)
  | .exit _ _ => (0x306, 0)
  | .beq k _ _ => (0x307, k)
  | .estq _ _ => (0x308, 0)
  | .estdrop _ _ => (0x309, 0)
  | .spawn _ _ => (0x30A, 0)
  | .post _ _ => (0x30B, 0)
  | .bar _ _ => (0x30C, 0)
  | .donateGive _ _ => (0x30D, 0)
  | .donateTake _ _ => (0x30D, 1)
  | .ralloc _ _ => (0x30E, 0)
  | .yield _ _ => (0x30F, 0)
  | .nop _ _ => (0x310, 0)
  | .trap _ _ => (0x380, 0)
  | .sys _ _ => (0x381, 0)
  | .sigw _ _ => (0x382, 0)
  | .tret _ _ => (0x383, 0)
  | .tretSkip _ _ => (0x383, 1)
  | .tretExit _ _ => (0x383, 2)
  | .snap _ _ => (0x384, 0)
  | .mfsr _ _ => (0x385, 0)
  | .mtsr _ _ => (0x386, 0)
  | .mma k f _ _ => (0x3C0, f.code + 8 * k)
  | .mmq q f g _ _ => (0x3C1, g.code + 4 * f.code + 32 * bitOf q)
  | .mlda n _ _ => (0x3C2, n.code)
  | .ald _ _ => (0x3C3, 0)
  | .ast fe _ _ => (0x3C4, 8 * fe.code)
  | .aclr _ _ => (0x3C5, 0)
  | .drain _ _ => (0x3C6, 0)
  | .cpin _ _ => (0x3E0, 0)
  | .cpout _ _ => (0x3E1, 0)
  | .gath _ _ => (0x3E2, 0)
  | .racq _ _ => (0x3F0, 0)
  | .rput _ _ => (0x3F1, 0)
  | .rget _ _ => (0x3F2, 0)
  | .rrel _ _ => (0x3F3, 0)
  | _ => (0x1C0, 0)

/-- The 96-bit word of a program instruction (R91). -/
def encode (i : Instr) : Nat :=
  i.ctl.hints + 2 ^ 16 * i.ops.fieldB + 2 ^ 36 * i.ops.a.field + 2 ^ 56 * i.ops.d.field +
  2 ^ 76 * i.ctl.guard + 2 ^ 80 * i.opMod.2 + 2 ^ 86 * i.opMod.1

/-! ### Bytes -/

/-- The number that little-endian bytes hold (R8). -/
def leNat : List Byte → Nat
  | [] => 0
  | b :: bs => b.toNat + 256 * leNat bs

/-- The `k` little-endian bytes of a number (R8). -/
def leBytes : Nat → Nat → List Byte
  | 0, _ => []
  | k + 1, n => BitVec.ofNat 8 n :: leBytes k (n / 256)

/-- Decodes the 12 bytes at a PC (R91): three little-endian 32-bit words, the first at the lowest
address. Fewer bytes are no instruction. -/
def decodeBytes (w : Nat) (bs : List Byte) : Except Reject Instr :=
  if bs.length < 12 then .error .illFormed else decodeWord w (leNat (bs.take 12))

/-- The 12 bytes of an instruction, in memory order (R91). -/
def encodeBytes (i : Instr) : List Byte := leBytes 12 (encode i)

/-- What the decoder reads from an instruction whose bits, numbered from bit 0 of word 0, are `n`, in
a group of width 64. The bits above `nbits` are zero. -/
def decodeTableWord (nbits n : Nat) : Option Instr :=
  match decodeBytes 64 (leBytes 12 (n % 2 ^ nbits)) with
  | .ok i => some i
  | .error _ => none

end Sys2Proof
end

