-- ==== Sys2Proof/Machine/Map.lean ====
section
/-! DEFINITION. Finite maps as plain data: a list of key and value pairs, keys rising, no entry equal
to what an absent key reads as. -/

namespace Sys2Proof.Machine

/-- A map from numbers to values. What an absent key reads as is the reader's argument. -/
abbrev FMap (V : Type) := List (Nat × V)

/-- Inserts a pair in key order. -/
def FMap.insert {V : Type} (k : Nat) (v : V) : FMap V → FMap V
  | [] => [(k, v)]
  | (j, w) :: m => if k ≤ j then (k, v) :: (j, w) :: m else (j, w) :: FMap.insert k v m

/-- The value of a key; `d` when the key is absent. -/
def FMap.get {V : Type} (d : V) : FMap V → Nat → V
  | [], _ => d
  | (j, w) :: m, k => if j = k then w else FMap.get d m k

/-- The map without a key. -/
def FMap.erase {V : Type} : FMap V → Nat → FMap V
  | [], _ => []
  | (j, w) :: m, k => if j = k then FMap.erase m k else (j, w) :: FMap.erase m k

/-- The map with a key set; a value equal to the default leaves no entry. -/
def FMap.set {V : Type} [DecidableEq V] (d : V) (m : FMap V) (k : Nat) (v : V) : FMap V :=
  if v = d then m.erase k else FMap.insert k v (m.erase k)

/-- The map with the value of a key changed. -/
def FMap.modify {V : Type} [DecidableEq V] (d : V) (m : FMap V) (k : Nat) (f : V → V) : FMap V :=
  m.set d k (f (m.get d k))

/-- The keys that hold an entry. -/
def FMap.keys {V : Type} (m : FMap V) : List Nat := m.map Prod.fst

/-- Whether a key holds an entry. -/
def FMap.has {V : Type} : FMap V → Nat → Bool
  | [], _ => false
  | (j, _) :: m, k => if j = k then true else FMap.has m k

/-- The first number from `n` on, within `fuel`, that is no key. -/
def FMap.freshFrom {V : Type} (m : FMap V) : Nat → Nat → Nat
  | 0, n => n
  | fuel + 1, n => if m.has n then FMap.freshFrom m fuel (n + 1) else n

/-- A number that is no key of the map, when one exists below its length plus `n` plus 1. -/
def FMap.fresh {V : Type} (m : FMap V) (n : Nat) : Nat := m.freshFrom (m.length + 1) n

/-- The canonical form: keys strictly rising, no entry equal to the default. -/
def FMap.wf {V : Type} [DecidableEq V] (d : V) (m : FMap V) : Bool :=
  decide (m.Pairwise (fun a b => a.1 < b.1)) && m.all (fun p => decide (p.2 ≠ d))

end Sys2Proof.Machine
end

