-- ==== Sys2Proof/Machine/State.lean ====
section
/-! DEFINITION. What the spec gives the machine to hold, as plain data, and the machine after reset. -/

namespace Sys2Proof.Machine

/-! ### Lanes -/

/-- Lane states, in the order of their codes (R37). -/
inductive LState | running | waiting | parked | exited
deriving DecidableEq, Repr

/-- A domain of a will (R193): register names in order and a tile mask. -/
structure Bequest where
  domain : Nat
  regs   : List Nat
  tiles  : Nat
deriving DecidableEq, Repr

/-- An open transaction of a lane (R171 to R174). Bytes are by physical address: `reads` holds every byte
that a load of it returned from an owning point, one entry a load. `doomed` says that a line of its sets
belongs to a tile that entered transit (cause 6). -/
structure Tx where
  dreg   : Nat
  target : W64
  rlines : List Nat
  wlines : List Nat
  reads  : List (Nat × Byte)
  writes : List (Nat × Byte)
  /-- Its stores in an arrival window: virtual and physical address (R287). -/
  arr    : List (Nat × Nat)
  doomed : Bool
deriving DecidableEq, Repr

/-- A lane of a group. -/
structure Lane where
  /-- Entry of `$pcv` (R37). -/
  pc      : W64 := 0
  lst     : LState := .running
  /-- The granule a waiting lane waits for (R40). -/
  gran    : Nat := 0
  /-- v0 to v255 (R54). -/
  v       : FMap W32 := []
  /-- p0 to p6 (R54). -/
  p       : BitVec 7 := 0
  /-- `$cause` (R62). -/
  cause   : W32 := 0
  /-- ADDR of the trap frame (R327). -/
  addr    : W64 := 0
  wid     : W64 := 0
  /-- `$heir` and `$heirmask` for each `.inherit` (R60). -/
  heir    : List (W32 × W32) := []
  /-- The on-chip entries of the return stack, newest first, and the depth (R188). -/
  stack   : List W64 := []
  depth   : Nat := 0
  /-- The fault of a refill, with its code, detail and address, held for the next `call` or `ret` (R190). -/
  refill  : Option (Nat × Nat × W64) := none
  will    : List Bequest := []
  tx      : Option Tx := none
  /-- Instructions issued for the lane since its birth, for "no later instruction" (R401). -/
  issued  : Nat := 0
  /-- Stopped by the debugger, with the state before the stop, and the stopped partition (R381). -/
  dbgStop : Option LState := none
  dbgPart : Nat := 0
deriving DecidableEq, Repr

/-! ### Groups -/

/-- A register that a variable-latency result is pending into (R103, R104). -/
inductive PUnit
  | vec (lane reg : Nat)
  | pred (lane k : Nat)
  | sca (reg : Nat)
  | acc (tile rg : Nat)
deriving DecidableEq, Repr

/-- What an access does at its place (R149, R162, R163). A prefetch reads a byte into the L1, or into the L2 alone. -/
inductive MemOp
  | load (z : Size)
  | store (z : Size)
  | pref (l2 : Bool)
  | atom (op : Nat) (w64 sgn : Bool) (v c : W64)
deriving DecidableEq, Repr

/-- An access that has issued and is not performed: it waits at a tile in transit (R314), or it is on its
way, a store in its lane's store buffer (R244, R248, R251). It holds the address it has reached, the address
first named, the hops taken, the bytes to store, the destination of a load or atomic, the base it may rewrite
with the base's value, and the scope levels of its acquire and of its release. -/
structure Access where
  op     : MemOp
  va     : W64
  va0    : W64
  hops   : Nat
  data   : List Byte
  dst    : Opnd
  base   : Option (Opnd × W64)
  acq    : Option Nat
  rel    : Option Nat
  /-- The physical address it has reached; none while it waits at a tile in transit. -/
  pa     : Option Nat := none
  /-- The lanes that it acts for in an open transaction (R171). -/
  tx     : List Nat := []
deriving DecidableEq, Repr

/-- A sweep that is not done (R181): the address of the next word, the words left, and the COUNT, CHAIN, TRUNC and
POISON reached so far. `reached` holds the address that the next word's access has reached and the hops taken, when it
waits at a tile in transit. `stays` says that the issue found a page that faults, so that the lanes wait at the
instruction until it ends. -/
structure SweepRun where
  d      : Nat
  next   : Nat
  left   : Nat
  count  : Nat := 0
  chain  : Bool := false
  trunc  : Bool := false
  poison : Bool := false
  stays  : Bool := false
  reached : Option (Nat × Nat) := none
deriving DecidableEq, Repr

/-- A variable-latency result on its way (R102, R103): the PC of its producer, the lane of a lane form,
the lanes it acts for with the count of instructions each had issued, and the units it writes. A write of
`none` is one that a fault will not deliver. -/
structure Pend where
  pc     : W64
  lane   : Option Nat
  lanes  : List (Nat × Nat)
  writes : List (PUnit × Option W64)
  flags  : Nat := 0
  fault  : Option (Nat × Nat × W64) := none
  access : Option Access := none
  /-- A sweep in progress, whose D is to come. -/
  sweep  : Option SweepRun := none
  /-- Held by a serving agent: the reply of `sys`, the status of `tmov`, the D of a `sweep` (R106). -/
  held   : Bool := false
  /-- For the status of a move, the tile's address. -/
  tag    : Nat := 0
  /-- The line whose response of the memory system it awaits (R351). -/
  resp   : Option Nat := none
  /-- Accumulator rows that the update changed, as they were before it (R224). -/
  old    : List (Nat × List W32) := []
deriving DecidableEq, Repr

/-- Why a group that has issued is not ready (R46, R183). -/
inductive Wait
  | none
  | bar (min : List Nat)
  | donate (give : Bool) (d partner k : Nat) (min : List Nat)
  | ralloc (n : Nat)
  | ring (op : Nat) (d : Option Nat) (header : Nat) (value : W64) (min : List Nat)
  | engineQueue
  | sys (slot : Nat) (d : Nat) (act : List Nat)
  | callRing (pc : W64) (svc d : Nat) (req : List W64) (act : List Nat)
  | txe (act : List Nat)
  | publ (d : Option Nat) (base : W64) (scope : Scope) (act : List Nat)
  | sweep (act : List Nat)
  | confirm
  | shadowTransit
  /-- The fetch at `pc` waits at a tile in transit: for each part of it the address reached and the hops taken. -/
  | fetch (pc : W64) (reached : List (Nat × Nat × Nat))
  | killed
  | token (c : Nat)
deriving DecidableEq, Repr

/-- The A latch (R67): the operand's register, sub-field and block size, and the values of every lane,
lane after lane. -/
structure Latch where
  reg    : Nat
  sub    : Nat
  size   : Nat
  vals   : List W32
deriving DecidableEq, Repr

/-- Roles (R43, R44). -/
inductive Role | copy | matrix | vector | general
deriving DecidableEq, Repr

/-- A resident or saved group. -/
structure Group where
  ctx     : Nat := 0
  inc     : Nat := 0
  launch  : Nat := 0
  team    : Nat := 0
  gid     : Nat := 0
  width   : Nat := 0
  role    : Role := .general
  /-- The partition it is resident in, 4 to a core. -/
  part    : Nat := 0
  resident : Bool := false
  prio    : Nat := 0
  /-- `.regs` of the kernel and the current allocation (R57, R58). -/
  regs    : Nat := 0
  alloc   : Nat := 0
  lanes   : FMap Lane := []
  sregs   : FMap W64 := []
  /-- `$gsw` without CSUM, which is computed (R61). -/
  gsw     : W64 := 0
  latch   : Option Latch := none
  /-- The registers the operand cache holds, for fields D, A and B (R66). -/
  opcache : List (Option Nat) := [none, none, none]
  pend    : List Pend := []
  marker  : Bool := false
  /-- Step from which the stall count of the last issue no longer holds it (R101). -/
  stall   : Nat := 0
  /-- Whether its last instruction had a yield, and in which cycle of its partition it issued (R47). -/
  yielded : Bool := false
  yieldTurn : Nat := 0
  /-- PC of the instruction it issued last. -/
  lastPc  : W64 := 0
  /-- The fixed-latency results of its latest issues, newest first: PC and registers (R46, R383). -/
  made    : List (W64 × List PUnit) := []
  /-- Step of its last issue, admission, handler entry or restore (R47). -/
  lastIssue : Nat := 0
  wait    : Wait := .none
  /-- For a wait of an instruction that has not issued, its address and the lanes that stood there (R46). -/
  heldAt  : W64 × List Nat := (0, [])
  /-- The entry image while a handler is active (R205). -/
  handler : Option (List (W64 × LState)) := none
  /-- A `rejoin` that met a parked lane (R191). -/
  rejoin  : Bool := false
  /-- Return-stack segment and capacity (R188), trap frame (R327). -/
  seg     : W64 := 0
  segCap  : Nat := 0
  frame   : W64 := 0
  /-- Instructions issued with TM set since a preemption request (R338). -/
  maskedIssues : Nat := 0
  /-- With TM set, it has been found in a wait that the save keeps, and issues no more before the save (R338). -/
  halted  : Bool := false
  /-- Debugger stop, single step in progress (R381, R386). -/
  dbgStop : Bool := false
  ended   : Bool := false
  /-- Scout fields (R51 to R53): whether the group is a scout, its end address and issue count. -/
  scout   : Bool := false
  scoutTo : W64 := 0
  scoutIssues : Nat := 0
deriving DecidableEq, Repr

/-- What a map of groups reads where no group is: a group of no lanes. -/
def Group.empty : Group := {}
/-- What a map of lanes reads where no lane is. -/
def Lane.birth : Lane := {}

/-! ### Cores, dies, memory hierarchy -/

/-- A cache line or part of one (R237 to R240): its bytes, which of them it holds, which are dirty,
the context and incarnation it is tagged with (R350), its way, the CPOL under which it was allocated (R225) and the step of
its latest use (R322). -/
structure Line where
  data  : BitVec 1024 := 0
  held  : BitVec 128 := 0
  dirty : BitVec 128 := 0
  ctx   : Nat := 0
  inc   : Nat := 0
  way   : Nat := 0
  cpol  : Nat := 0
  used  : Nat := 0
  /-- Addresses of stores of lanes in an arrival window that wait here for their owning point (R287). -/
  arr   : List Nat := []
deriving DecidableEq, Repr

/-- A line that holds nothing. -/
def Line.none : Line := {}

/-- The bytes of a line in a core's L1 that stand under the relaunch quota of a team, all of them dirty (R360). -/
structure QuotaLine where
  core : Nat
  team : Nat
  line : Nat
  data : Line
  /-- Which of its bytes a release of the team at cluster scope has made visible to the other core of its cluster. -/
  shared : BitVec 128 := 0
deriving DecidableEq, Repr

/-- Where a cached translation is kept (R345). -/
inductive TlbPlace | data (core : Nat) | instr (core : Nat) | shared (die : Nat) | walk (die level : Nat)
deriving DecidableEq, Repr

/-- A cached translation or walk entry: tagged with context and incarnation, for the virtual range
`base` to `base + size − 1` (R345). One that a shootdown is to remove is used until its TLB confirms, at step `dies`
(R347). -/
structure TlbEntry where
  place : TlbPlace
  ctx   : Nat
  inc   : Nat
  base  : Nat
  size  : Nat
  entry : W64
  dies  : Option Nat := none
deriving DecidableEq, Repr

/-- A 64-byte instruction-cache line (R180). -/
structure ICLine where
  core : Nat
  ctx  : Nat
  inc  : Nat
  line : Nat
  /-- Physical address over 64 of the bytes. -/
  pa   : Nat
  data : BitVec 512
deriving DecidableEq, Repr

/-- A shape record as the engine's record cache holds it (R226). -/
structure RecEntry where
  ctx   : Nat
  inc   : Nat
  addr  : Nat
  bytes : List Byte
deriving DecidableEq, Repr

/-- What an engine command does (R214, R230). -/
inductive EngKind | cpin | cpout | gath | drain
deriving DecidableEq, Repr

/-- A queued or running engine command (R232), with the operands read at issue. -/
structure EngCmd where
  kind   : EngKind
  group  : Nat
  team   : Nat
  ctx    : Nat
  inc    : Nat
  loc    : W64
  record : List Byte
  coord  : List Byte
  /-- Rows of a drain's box, and the rows read from the tile at issue (R223, R230). -/
  rows   : Option Nat
  data   : List (List W32)
  /-- Pages of 4 KiB through which the fetch of its record has gone, so that a mark counts the command once (R315). -/
  chased : List Nat := []
deriving DecidableEq, Repr

/-- A core. -/
structure Core where
  /-- Rows of acc0 to acc3, 128 words each; key tile × 128 + row (R54, R63). -/
  acc     : FMap (List W32) := []
  cyc     : W64 := 0
  /-- GRANT, AVAIL and CREDIT of `$ptok` (R49, R292). -/
  grant   : Nat := 0
  avail   : Nat := 0
  credit  : Nat := 0
  records : List RecEntry := []
  queue   : List EngCmd := []
  /-- Vault save slots and estate store bytes (R4, R335). -/
  slots   : Nat := 2
  store   : Nat := 2097152
  arrayOut : Bool := false
  /-- Quarantined ways of its L1, and the steps of the corrected errors of each (R362, R363). -/
  l1Out   : List Nat := []
  l1Errs  : FMap (List Nat) := []
  partsOut : List Nat := []
  /-- Partitions of it, or its array (1,024), taken out of service and not tested since (R368). -/
  testDue : List Nat := []
deriving DecidableEq, Repr

/-- A core as reset leaves it. -/
def Core.init : Core := {}

/-- A phase slot of a die: the phase that holds it, its arrivals to come and those beyond (R287). -/
structure Phase where
  used   : Bool := false
  ctx    : Nat := 0
  inc    : Nat := 0
  phnum  : Nat := 0
  count  : Nat := 0
  extra  : Nat := 0
deriving DecidableEq, Repr

/-! ### Launches, trees, teams, queues -/

/-- A kernel descriptor as read at the start of a launch (R274, R295). -/
structure Kernel where
  code    : W64 := 0
  width   : Nat := 16
  groups  : Nat := 1
  regs    : Nat := 8
  loc     : Nat := 0
  nargs   : Nat := 0
  hasAcc  : Bool := false
  relaunch : Bool := false
  slice   : Bool := false
  phase   : Bool := false
  rquota  : Nat := 0
  roles   : Nat := 0
  sfrom   : Nat := 0
  sto     : Nat := 0
  phnum   : Nat := 0
  arr     : List Nat := []
  ninstr  : Nat := 0
  /-- The 128 bytes of the `.inherit` table. -/
  inherit : List Byte := []
deriving DecidableEq, Repr

/-- A launch in progress or queued (R276, R283). -/
structure Launch where
  live    : Bool := false
  ctx     : Nat := 0
  inc     : Nat := 0
  queue   : Nat := 0
  tree    : Nat := 0
  kernel  : Kernel := {}
  args    : W64 := 0
  teams   : Nat := 0
  /-- Teams admitted so far, in `$team` order (R277). -/
  admitted : Nat := 0
  stackE  : Nat := 0
  keyed   : Bool := false
  keys    : W64 := 0
  awBase  : Nat := 0
  awLen   : Nat := 0
  /-- Its phase slot, and whether it waits for one (R288). -/
  phaseSlot : Option Nat := none
  waiting : Bool := false
  /-- A child made by `spawn`, or a launch made by a step trigger, which is admitted only to die 0. -/
  spawned : Bool := false
  trigger : Option Nat := none
  /-- Number of estates made before its first admission's first lookup (R302). -/
  lookupAt : Option Nat := none
deriving DecidableEq, Repr

/-- A spawn tree (R282, R284). -/
structure Tree where
  live    : Bool := false
  ctx     : Nat := 0
  inc     : Nat := 0
  queue   : Nat := 0
  tag     : Nat := 0
  count   : Nat := 0
  result  : W64 := 0
  surplus : Nat := 0
  /-- OVER of its phase, summed over dies (R289). -/
  extra   : Nat := 0
  /-- What it is the tree of: 0 a LAUNCH entry, 1 a graph node, 2 a step trigger's launch. -/
  kind    : Nat := 0
  complete : Bool := false
deriving DecidableEq, Repr

/-- A team (R31, R34). -/
structure Team where
  live    : Bool := false
  launch  : Nat := 0
  num     : Nat := 0
  ctx     : Nat := 0
  inc     : Nat := 0
  core    : Nat := 0
  cluster : Bool := false
  /-- Keys of its groups in State, by `$gid`. -/
  groups  : List Nat := []
  /-- Local memory bytes and full granules (R157 to R161); an absent byte is 0. -/
  loc     : FMap Byte := []
  locLen  : Nat := 0
  full    : List Nat := []
  holdsAcc : Bool := false
  /-- Barrier arrivals (R200): the groups that have arrived and wait. -/
  arrived : List Nat := []
  /-- Relaunch: still relaunchable, times relaunched (R360, R361). -/
  relaunch : Bool := false
  relaunched : Bool := false
  /-- Slots and rows that its lanes claimed at birth, lost at a relaunch (R361). -/
  claimed : Nat := 0
  /-- The identities of its lanes and its arguments, as its admission read them (R277, R278, R361). -/
  wids    : List W64 := []
  args    : List W64 := []
  /-- A preemption request (R331), and the saved state: whether it is saved, the cores whose vaults hold it, with the
  number of the slot and the bytes that stand in it, and when it was saved (R335), its accumulator tiles and its quota lines
  (R333). -/
  preempt : Bool := false
  saved   : Bool := false
  savedIn : List (Nat × Nat × Nat) := []
  /-- Bytes of its save that stand in the context's HBM save area. -/
  savedOut : Nat := 0
  savedStep : Nat := 0
  savedAcc : FMap (List W32) := []
  savedQuota : FMap Line := []
  /-- Stack-region blocks it holds: base and length (R279, R327). -/
  blocks  : List (Nat × Nat) := []
  scout   : Option Nat := none
  scoutDone : Bool := false
deriving DecidableEq, Repr

/-- Where an entry of a command queue stands (R271, R272). A graph holds bytes 56 to 65 of the node that
runs, and its tree (R285). -/
inductive EntryState
  | idle
  | ready
  | launch (tree : Nat)
  | graph (gtab : W64) (tail : List Byte) (tree : Nat)
  | wait
deriving DecidableEq, Repr

/-- A queue's run state: the packet's entries not yet completed, oldest first, and the spawn list
(R270, R283). -/
structure Queue where
  packet  : List (List Byte) := []
  state   : EntryState := .idle
  /-- Keys of the launches in the spawn list, oldest first. -/
  spawns  : List Nat := []
deriving DecidableEq, Repr

/-! ### Contexts -/

/-- A buffer with a shadow destination (R178, R231, R261): virtual base and length, and the shadow bytes
written since the last publish, by offset. -/
structure Shadow where
  base    : Nat
  len     : Nat
  /-- Where each 64 KiB page of the buffer now stands: its virtual address over 65,536, in order (R314, R321). -/
  pages   : List Nat
  bytes   : FMap Byte := []
  pending : Bool := false
deriving DecidableEq, Repr

/-- A call-ring slot in use (R291): the waiting group, its lanes, the service and the request words, a reply whose write
has faulted, and whether it is free but for a write of STATE that has faulted. -/
structure CallSlot where
  used    : Bool := false
  group   : Nat := 0
  inc     : Nat := 0
  svc     : Nat := 0
  act     : List Nat := []
  d       : Nat := 0
  req     : List W64 := []
  hold    : List W32 := []
  freeing : Bool := false
deriving DecidableEq, Repr

/-- A page the Memory core can make present (R330): its virtual address and the entries it writes. -/
structure Backing where
  va      : Nat
  len     : Nat
  writes  : List (Nat × W64)
deriving DecidableEq, Repr

/-- A kill taken by the Fault core (R354): reason and CAUSE image. -/
structure KillReq where
  reason  : Nat
  cause   : W32
deriving DecidableEq, Repr

/-- A context (R349, R393): the fields copied from its descriptor and what the device keeps for it. -/
structure Context where
  used    : Bool := false
  desc    : Nat := 0
  root    : W64 := 0
  handler : W64 := 0
  stack   : W64 := 0
  stackLen : W64 := 0
  cq      : W64 := 0
  callRing : W64 := 0
  spill   : W64 := 0
  spillLen : W64 := 0
  save    : W64 := 0
  saveLen : W64 := 0
  pool    : W64 := 0
  poolLen : W64 := 0
  trace   : W64 := 0
  traceLen : W64 := 0
  hwin    : W64 := 0
  hro     : W64 := 0
  hroLen  : W64 := 0
  slice   : Nat := 0
  part    : Nat := 0
  debug   : Bool := false
  conf    : Bool := false
  inc     : Nat := 0
  isOpen  : Bool := false
  /-- REASON, KSEQ, RSEQ, LASTREC and ORPH of R352. -/
  reason  : Nat := 0
  kseq    : Nat := 0
  rseq    : Nat := 0
  lastRec : Nat := 0
  orph    : Nat := 0
  /-- A kill held for wrap-around (STATE 2): the responses still on their way, and the records that it will
  write for each queue (R357). -/
  held    : Option (Nat × List (Nat × List (List Byte))) := none
  kills   : List KillReq := []
  /-- Old incarnations whose reclaim has not completed, oldest first, with the responses of each that are
  still on their way (R351, R358). -/
  reclaims : List (Nat × Nat) := []
  destroying : Bool := false
  queues  : FMap Queue := []
  /-- Records written, and those held (R289). -/
  cqCount : Nat := 0
  heldRecs : List (List Byte) := []
  cqFault : Bool := false
  slots   : FMap CallSlot := []
  /-- Whether the context holds its time slice, from which step, and its queues in the order of their latest admission
  (R273). -/
  running : Bool := true
  sliceFrom : Nat := 0
  served  : List Nat := []
  traceNext : Nat := 0
  snapOn  : Bool := false
  backing : List Backing := []
  shadows : List Shadow := []
  /-- Free pages of the relocation pool are those of POOL not in this list (R311). -/
  poolUsed : List Nat := []
  /-- Hit counts of marks (R315). -/
  hits    : FMap Nat := []
  /-- Accesses to each 64 KiB page by each core; key page × 512 + core, and 256 more for one that goes to the L2 or a vault
  port (R311). -/
  uses    : FMap Nat := []
  /-- Images that the device has sealed (R304). -/
  images  : List (List Byte) := []
deriving DecidableEq, Repr

/-! ### Estates (R293 to R301) -/

/-- Where an estate is held. -/
inductive EstPlace | store (core : Nat) | spill
deriving DecidableEq, Repr

/-- An estate (R293): its key, slots, the rows it holds with tiles and rows ascending, the queue of the
launch that made it, its age, and the order of its making. `inArray` says that the rows occupy the tiles
of `arrayCore`. -/
structure Estate where
  ctx     : Nat
  inc     : Nat
  domain  : Nat
  wid     : W64
  slots   : List W32
  tiles   : Nat
  r       : Nat
  rows    : List (List W32)
  inArray : Bool
  arrayCore : Nat
  queue   : Nat
  age     : Nat
  made    : Nat
  place   : EstPlace
deriving DecidableEq, Repr

/-! ### Relocation, sieve windows, step triggers, debug -/

/-- A move in progress (R313): `stage` counts the steps completed; 0 waits for a channel. -/
structure MoveRec where
  die     : Nat
  ctx     : Nat
  inc     : Nat
  f       : Nat
  t       : Nat
  fpa     : Nat
  tpa     : Nat
  stage   : Nat
  group   : Option Nat
  fromPool : Bool
  abandoned : Bool
deriving DecidableEq, Repr

/-- A sieve window (R371): armed pass with SEQ, header as read, and the vector bytes written. -/
structure Sieve where
  ctx     : Nat := 0
  inc     : Nat := 0
  /-- Virtual base, and the physical base of each 64 KiB page of the window. -/
  base    : Nat := 0
  pages   : List (Nat × Nat) := []
  /-- A write of ARM that has not yet armed or disarmed the window. -/
  armReq  : Bool := false
  armed   : Bool := false
  seq     : Nat := 0
  len     : Nat := 0
  k       : Nat := 0
  bf16    : Bool := false
  sum     : W64 := 0
  written : List Nat := []
deriving DecidableEq, Repr

/-- A step trigger (R377). -/
structure Trigger where
  live    : Bool := false
  armed   : Bool := false
  ctx     : Nat := 0
  inc     : Nat := 0
  /-- The trigger word: its physical address, and bits 31:0 of its address. -/
  word    : Nat := 0
  tag     : Nat := 0
  record  : List Byte := []
  queue   : Nat := 0
  rearm   : Bool := false
  phnum   : Nat := 65535
  /-- Values written with bit 63 set while armed, awaiting the firing. -/
  fired   : List W64 := []
deriving DecidableEq, Repr

/-- A partition (R33, R381 to R384). -/
structure Partition where
  /-- Comparators 0 to 7: WCTL, WLO, WHI. -/
  wctl    : List W64 := [0, 0, 0, 0, 0, 0, 0, 0]
  wlo     : List W64 := [0, 0, 0, 0, 0, 0, 0, 0]
  whi     : List W64 := [0, 0, 0, 0, 0, 0, 0, 0]
  period  : Nat := 0
  stopped : Bool := false
  sampleNext : Nat := 0
  /-- Round-robin order: groups that issued, latest last (R47). -/
  order   : List Nat := []
  /-- Issue cycles begun, and the cycle that is open (R33, R100): the datapath lanes left, the launch and PAIR of its
  lead, and the groups that have issued in it. -/
  turns   : Nat := 0
  /-- Issues that joined an open cycle, so that no cycle passed with them (R100, R101). -/
  joined  : Nat := 0
  left    : Nat := 0
  /-- The clock of the partition at which the open cycle began (R101). -/
  leadAt  : Nat := 0
  lead    : Nat × Nat := (0, 0)
  now     : List Nat := []
  /-- The group last sampled (R383). -/
  sampled : Nat := 0
  /-- The resident groups as the latest stop found them (R382). -/
  dump    : List (Nat × Group) := []
deriving DecidableEq, Repr

/-- A die. -/
structure Die where
  /-- WAYS and VALID of the sixteen partition masks (R322). -/
  ways    : FMap (BitVec 16) := []
  valid   : BitVec 16 := 0xFFFF
  /-- Quarantined ways; slice × 16 + way (R363). -/
  quarantined : List Nat := []
  /-- Steps of the corrected errors of a way; key slice × 16 + way (R363). -/
  corrected : FMap (List Nat) := []
  phases  : FMap Phase := []
  /-- Events of a phase that came before the die armed its count: context, incarnation, number, and for an access in the
  window of a waiting launch that launch (R287). -/
  early   : List (Nat × Nat × Nat × Option Nat) := []
  hot     : Bool := false
deriving DecidableEq, Repr

/-- A mailbox entry (R266): value, sender's context and incarnation, kind (0 group, 1 host). -/
structure Mail where
  value   : W64
  ctx     : Nat
  inc     : Nat
  kind    : Nat
  group   : Nat
deriving DecidableEq, Repr

/-- A firmware core's mailbox, and the writes held at its port. -/
structure Mailbox where
  entries : List Mail := []
  held    : List Mail := []
deriving DecidableEq, Repr

/-- A latched snapshot header (R388). -/
structure Snap where
  ssn     : Nat := 0
  tag     : Nat := 0
  src     : Nat := 0
  cyc     : W64 := 0
deriving DecidableEq, Repr

/-! ### The machine's own bookkeeping -/

/-- The next thing to happen: a partition issues, or an event takes place. -/
inductive Move
  | issue (part : Nat)
  | event (i : Instr)
deriving DecidableEq, Repr

/-- What makes a step stop without a next state. -/
inductive Fault
  /-- An event of the table that is not possible in the state: no agent has it to do. Raised by the
  meanings of events. Safe: the device never takes such a step. -/
  | notEnabled (event : String)
deriving DecidableEq, Repr

/-- What the model declines to give a meaning. -/
inductive Refusal
  /-- An instruction whose meaning is not written. Raised by `exec` alone. Safe. -/
  | notModelled (mnemonic : String)
deriving DecidableEq, Repr

/-- The machine: one package (log 47). -/
structure State where
  /-- The group for which an instruction is executed. -/
  cur     : Nat
  groups  : FMap Group
  teams   : FMap Team
  launches : FMap Launch
  trees   : FMap Tree
  ctxs    : FMap Context
  cores   : FMap Core
  parts   : FMap Partition
  dies    : FMap Die
  /-- Bytes at the owning points, below the L2 (R237). -/
  mem     : List Host.Cell
  /-- The key under which a byte of HBM stands encrypted, by physical address: 1 + context × 4,096 + incarnation of a
  confidential context, else absent (R397). -/
  seals   : FMap Nat
  /-- L1 lines; key line × 256 + core. Bytes under a relaunch quota stand apart. -/
  l1      : FMap Line
  quota   : List QuotaLine
  /-- L2 lines, home and visitor; key line × 8 + die. -/
  l2      : FMap Line
  tlb     : List TlbEntry
  /-- Words of page tables that the Memory core has changed: the address, the old word, and the step up to which a walk
  that runs may still take it (R346). -/
  stale   : List (Nat × W64 × Nat)
  /-- Leaf words of mappings that have been removed, each with the step up to which their end is not confirmed (R347). -/
  unmapped : List (W64 × Nat)
  icache  : List ICLine
  /-- Poisoned lines with the mask of bytes written since (R364). -/
  poison  : FMap (Option (BitVec 128))
  /-- Corrected errors of each 64 KiB region, the regions in which errors have called for a retirement, and retired regions
  (R364). -/
  regionErrs : FMap Nat
  due     : List Nat
  retired : List Nat
  /-- PROT mode of each mapped frame (R344). -/
  frameProt : FMap (Option Nat)
  estates : List Estate
  moving  : List MoveRec
  sieves  : FMap Sieve
  triggers : FMap Trigger
  mail    : FMap Mailbox
  /-- Registers of BAR 0 (R390). -/
  featAcc : Nat
  featWritten : Bool
  ctxTab  : Nat
  ctxStat : Nat
  bootStat : Nat
  pwrCap  : Nat
  brdLim  : Nat
  brdWritten : Bool
  errLog  : Nat
  meas    : List Byte
  /-- Entries logged in the error log, oldest first. -/
  errors  : List (Nat × Nat)
  /-- MSI-X messages sent, by vector (R390). -/
  msix    : FMap Nat
  /-- Groups for which a step event has been posted, in order (R386). -/
  stepEvents : List Nat
  /-- What the latest read or atomic of the host or of a peer returned; nothing for a poison read (R257, R390, R395). -/
  hostData : List Byte
  /-- Bytes of the DEBUG window of BAR 0 (R390). -/
  debugWin : FMap Byte
  /-- Snapshot numbering, the latest latched header of each core, and the draws of the triggers taken, from which the
  counters of the other blocks follow (R388). -/
  ssn     : Nat
  snapDropped : Nat
  snaps   : FMap Snap
  snapDraws : List Nat
  /-- Adeivo Link ports removed from routing, the domain number, and the ports that lead to each package, where the domain
  table names them (R396). -/
  portsDown : List Nat
  domainNo : Nat
  routes  : FMap (List Nat)
  /-- Owning die of each HBM frame of 2 MiB; the manual leaves the map open (log 5). -/
  hbmDie  : FMap Nat
  /-- Moves already determined, the steps taken, and the counter of free values (logs 3, 4). -/
  moves   : List Move
  steps   : Nat
  free    : Nat
  /-- Estates made so far, the order of their making (R300, R302). -/
  madeCount : Nat
deriving DecidableEq, Repr

/-- The machine right after reset. Where the manual gives no reset value, log 2 names it. -/
def State.reset : State where
  cur := 0
  groups := []
  teams := []
  launches := []
  trees := []
  ctxs := []
  cores := []
  parts := []
  dies := []
  mem := []
  seals := []
  l1 := []
  quota := []
  l2 := []
  tlb := []
  stale := []
  unmapped := []
  icache := []
  poison := []
  regionErrs := []
  due := []
  retired := []
  frameProt := []
  estates := []
  moving := []
  sieves := []
  triggers := []
  mail := []
  featAcc := 0
  featWritten := false
  ctxTab := 0
  ctxStat := 0
  bootStat := 0
  pwrCap := 2100
  brdLim := 2100
  brdWritten := false
  errLog := 0
  meas := List.replicate 256 0
  errors := []
  msix := []
  stepEvents := []
  hostData := []
  debugWin := []
  ssn := 1
  snapDropped := 0
  snaps := []
  snapDraws := []
  portsDown := []
  domainNo := 0
  routes := []
  hbmDie := []
  moves := []
  steps := 0
  free := 0
  madeCount := 0

/-! ### Map defaults -/

def Team.none : Team := {}
def Launch.none : Launch := {}
def Tree.none : Tree := {}
def Context.none : Context := {}
def Partition.init : Partition := {}
def Die.init : Die := {}
def Queue.none : Queue := {}
def CallSlot.none : CallSlot := {}
def Phase.none : Phase := {}
def Sieve.none : Sieve := {}
def Trigger.none : Trigger := {}
def Mailbox.none : Mailbox := {}
def Snap.none : Snap := {}

end Sys2Proof.Machine
end

