-- ==== Sys2Proof/Machine/Base.lean ====
section
/-! DEFINITION. Reading and changing the parts of State: groups, lanes, registers, results on their
way. -/

namespace Sys2Proof.Machine

/-! ### Parts of the state -/

def State.group (s : State) (k : Nat) : Group := s.groups.get Group.empty k
def State.setGroup (s : State) (k : Nat) (g : Group) : State :=
  { s with groups := s.groups.set Group.empty k g }
def State.modGroup (s : State) (k : Nat) (f : Group → Group) : State := s.setGroup k (f (s.group k))
def State.team (s : State) (k : Nat) : Team := s.teams.get Team.none k
def State.modTeam (s : State) (k : Nat) (f : Team → Team) : State :=
  { s with teams := s.teams.set Team.none k (f (s.team k)) }
def State.launch (s : State) (k : Nat) : Launch := s.launches.get Launch.none k
def State.modLaunch (s : State) (k : Nat) (f : Launch → Launch) : State :=
  { s with launches := s.launches.set Launch.none k (f (s.launch k)) }
def State.tree (s : State) (k : Nat) : Tree := s.trees.get Tree.none k
def State.modTree (s : State) (k : Nat) (f : Tree → Tree) : State :=
  { s with trees := s.trees.set Tree.none k (f (s.tree k)) }
def State.ctx (s : State) (k : Nat) : Context := s.ctxs.get Context.none k
def State.modCtx (s : State) (k : Nat) (f : Context → Context) : State :=
  { s with ctxs := s.ctxs.set Context.none k (f (s.ctx k)) }
def State.core (s : State) (k : Nat) : Core := s.cores.get Core.init k
def State.modCore (s : State) (k : Nat) (f : Core → Core) : State :=
  { s with cores := s.cores.set Core.init k (f (s.core k)) }
def State.part (s : State) (k : Nat) : Partition := s.parts.get Partition.init k
def State.modPart (s : State) (k : Nat) (f : Partition → Partition) : State :=
  { s with parts := s.parts.set Partition.init k (f (s.part k)) }
def State.die (s : State) (k : Nat) : Die := s.dies.get Die.init k
def State.modDie (s : State) (k : Nat) (f : Die → Die) : State :=
  { s with dies := s.dies.set Die.init k (f (s.die k)) }

/-- Draws a number for a free value (log 4). -/
def State.tick (s : State) : State := { s with free := s.free + 1 }

/-! ### Places -/

/-- Core of a partition: four partitions to a core. -/
def coreOfPart (part : Nat) : Nat := part / 4
/-- Die of a core: thirty-two cores to a die. -/
def dieOfCore (core : Nat) : Nat := core / 32
/-- Core on which a group resides. -/
def Group.core (g : Group) : Nat := coreOfPart g.part
/-- Die on which a group resides. -/
def Group.die (g : Group) : Nat := dieOfCore g.core

/-- Waits of an instruction that has not issued. -/
def Wait.unissued : Wait → Bool
  | .ralloc _ | .engineQueue | .shadowTransit | .fetch .. | .token _ => true
  | _ => false
/-- The group without the wait of an instruction that has not issued: its lanes have left that instruction (R46). -/
def Group.unwait (g : Group) : Group := { g with wait := if g.wait.unissued then .none else g.wait }

/-- Issue cycles that have passed for a partition: a step is one, but for an issue that joins the cycle of the one before
(R100, R101). -/
def State.partClock (s : State) (part : Nat) : Nat := s.steps - (s.part part).joined

/-! ### Lanes -/

def Group.lane (g : Group) (i : Nat) : Lane := g.lanes.get Lane.birth i
def Group.setLane (g : Group) (i : Nat) (l : Lane) : Group := { g with lanes := g.lanes.set Lane.birth i l }
def Group.modLane (g : Group) (i : Nat) (f : Lane → Lane) : Group := g.setLane i (f (g.lane i))
/-- Numbers of the lanes of a group (R32). -/
def Group.ids (g : Group) : List Nat := List.range g.width
def State.modLane (s : State) (k i : Nat) (f : Lane → Lane) : State := s.modGroup k (fun g => g.modLane i f)

/-- Running lanes (R37). -/
def Group.running (g : Group) : List Nat := g.ids.filter (fun i => (g.lane i).lst == .running)
/-- Lanes of a state. -/
def Group.inState (g : Group) (st : LState) : List Nat := g.ids.filter (fun i => (g.lane i).lst == st)

/-- The smaller of two addresses. -/
def minPc (a b : W64) : W64 := if b.toNat < a.toNat then b else a

/-- The issue address: the smallest PC over the running lanes (R38). -/
def Group.issuePc (g : Group) : Option W64 :=
  (g.running.map (fun i => (g.lane i).pc)).foldl
    (fun m pc => match m with
      | none => some pc
      | some a => some (minPc a pc)) none

/-- The lanes at the minimum (R38). -/
def Group.atMin (g : Group) (pc : W64) : List Nat := g.running.filter (fun i => (g.lane i).pc == pc)

/-- The issue address and the lanes at it. -/
def Group.front (g : Group) : W64 × List Nat :=
  match g.issuePc with
  | some pc => (pc, g.atMin pc)
  | none => (0, [])
/-- The group waits before the instruction at its issue address, which has not issued. -/
def Group.hold (g : Group) (w : Wait) : Group := { g with wait := w, heldAt := g.front }
/-- Whether the instruction that a group waits before is no more the one that it would issue: its lanes have gone elsewhere
since (R46). -/
def Group.stray (g : Group) : Bool := g.wait.unissued && g.heldAt != g.front

/-! ### Registers (R54 to R56) -/

def Lane.vreg (l : Lane) (r : Nat) : W32 := l.v.get 0 r
/-- A predicate; p7 reads true (R56). -/
def Lane.pred (l : Lane) (k : Nat) : Bool := if k = 7 then true else l.p.getLsbD k
def Group.sreg (g : Group) (r : Nat) : W64 := g.sregs.get 0 r
/-- A 64-bit value of an aligned pair (R55). -/
def Lane.vpair (l : Lane) (r : Nat) : W64 := (l.vreg (r + 1)) ++ (l.vreg r)

def Lane.setV (l : Lane) (r : Nat) (x : W32) : Lane := { l with v := l.v.set 0 r x }
/-- Writes a predicate; a write to p7 is discarded (R56). -/
def Lane.setPred (l : Lane) (k : Nat) (b : Bool) : Lane :=
  if k < 7 then
    { l with p := if b then l.p ||| (1#7 <<< k) else l.p &&& ~~~(1#7 <<< k) }
  else l
def Group.setS (g : Group) (r : Nat) (x : W64) : Group := { g with sregs := g.sregs.set 0 r x }

/-- Writes one unit of the register file. A write to a vector register empties an operand-cache entry
that holds it (R66). Accumulators are written by the array's own operations. -/
def Group.setUnit (g : Group) (u : PUnit) (x : W64) : Group :=
  match u with
  | .vec i r =>
    { g.modLane i (fun l => l.setV r (x.setWidth 32)) with
      opcache := g.opcache.map (fun e => if e = some r then none else e) }
  | .pred i k => g.modLane i (fun l => l.setPred k (x.getLsbD 0))
  | .sca r => g.setS r x
  | .acc .. => g

/-- What a unit of the register file holds. -/
def Group.unit (g : Group) (u : PUnit) : W64 :=
  match u with
  | .vec i r => ((g.lane i).vreg r).setWidth 64
  | .pred i k => if (g.lane i).pred k then 1 else 0
  | .sca r => g.sreg r
  | .acc .. => 0

/-- Units of a value of `n` registers at operand `d` for lane `i`, each with its part of the value. -/
def destUnits (d : Opnd) (n i : Nat) (x : W64) : List (PUnit × W64) :=
  match d with
  | .v r _ => (List.range n).map (fun k => (.vec i (r + k), (x >>> (32 * k)).extractLsb' 0 32 |>.setWidth 64))
  | .s r => [(.sca r, x)]
  | .p k => [(.pred i k, x)]
  | _ => []

/-! ### Sticky flags (R61, R80) -/

/-- Sets sticky flags of `$gsw`. A scout's group status is never changed (R52). -/
def Group.raise (g : Group) (mask : Nat) : Group :=
  if g.scout then g else { g with gsw := g.gsw ||| BitVec.ofNat 64 mask }
def State.raise (s : State) (k mask : Nat) : State := s.modGroup k (fun g => g.raise mask)

/-- TM, SS and HC of `$gsw` (R61). -/
def Group.tm (g : Group) : Bool := g.gsw.getLsbD 23
def Group.ss (g : Group) : Bool := g.gsw.getLsbD 22
def Group.hc (g : Group) : Bool := g.gsw.getLsbD 21
def Group.setTm (g : Group) (b : Bool) : Group :=
  { g with gsw := if b then g.gsw ||| 0x800000 else g.gsw &&& ~~~0x800000#64 }
def Group.setSs (g : Group) (b : Bool) : Group :=
  { g with gsw := if b then g.gsw ||| 0x400000 else g.gsw &&& ~~~0x400000#64 }

/-- CODE of `$cause` (R62). -/
def Lane.code (l : Lane) : Nat := l.cause.toNat % 16
/-- CSUM: lowest cause code over the parked lanes, 0 when none is parked (R61). -/
def Group.csum (g : Group) : Nat :=
  (((g.inState .parked).map (fun i => (g.lane i).code)).foldl
    (fun m c => match m with
      | none => some c
      | some a => some (min a c)) (none : Option Nat)).getD 0
/-- `$gsw` as a program reads it. -/
def Group.gswRead (g : Group) : W64 := g.gsw ||| (BitVec.ofNat 64 g.csum <<< 28)

/-! ### Results on their way (R102 to R104) -/

/-- Whether an entry awaits anything more. -/
def Pend.done (e : Pend) : Bool :=
  e.writes.isEmpty && e.access.isNone && e.sweep.isNone && e.fault.isNone && !e.held

/-- Whether an access that is not performed reads what it returns. -/
def Access.reads (a : Access) : Bool :=
  match a.op with
  | .store _ | .pref _ => false
  | _ => true

/-- Whether an access is a prefetch (R162). -/
def Access.isPref (a : Access) : Bool :=
  match a.op with
  | .pref _ => true
  | _ => false

/-- Whether an entry is a variable-latency result, for which a switch marker waits: a store is none, but for the base
that it may rewrite (R102, R148, R183). -/
def Pend.isResult (e : Pend) : Bool := !e.writes.isEmpty || e.held || e.fault.isSome || e.access.any Access.reads

/-- Whether a group has variable-latency results outstanding (R46, R102). -/
def Group.outstanding (g : Group) : Bool := g.pend.any Pend.isResult

/-- Drops a unit from the writes of an entry. -/
def Pend.drop (e : Pend) (u : PUnit) : Pend := { e with writes := e.writes.filter (fun w => w.1 != u) }

/-- Forgets every older pending write of a unit: a result that returns after a later write of the
register is discarded (R103). -/
def Group.discard (g : Group) (u : PUnit) : Group := { g with pend := g.pend.map (fun e => e.drop u) }

/-- A fixed-latency write: the register takes the value, and older results into it are discarded. -/
def Group.write (g : Group) (u : PUnit) (x : W64) : Group := (g.discard u).setUnit u x
def Group.writes (g : Group) (us : List (PUnit × W64)) : Group :=
  us.foldl (fun g p => g.write p.1 p.2) g
def State.writes (s : State) (k : Nat) (us : List (PUnit × W64)) : State := s.modGroup k (fun g => g.writes us)

/-- Enters a variable-latency result in the scoreboard. -/
def Group.push (g : Group) (e : Pend) : Group := { g with pend := g.pend ++ [e] }
def State.push (s : State) (k : Nat) (e : Pend) : State := s.modGroup k (fun g => g.push e)

/-- Whether a variable-latency write of a unit is pending. -/
def Group.pending (g : Group) (u : PUnit) : Bool := g.pend.any (fun e => e.writes.any (fun w => w.1 == u))

/-- Entry `k` of the scoreboard returns: its values are written, its flags set, and older results into
the same registers are discarded (R61, R103); of accumulator rows that it updated, no read sees what they held before an
older update (R104). -/
def Group.deliver (g : Group) (k : Nat) : Group :=
  match g.pend[k]? with
  | none => g
  | some e =>
    let us := e.writes.filterMap (fun w => w.2.map (fun x => (w.1, x)))
    let old := (g.pend.take k).map (fun o => { us.foldl (fun o p => match p.1 with
      | .acc .. => o
      | u => o.drop u) o with old := o.old.filter (fun r => !e.old.any (fun q => q.1 == r.1)) })
    let g := us.foldl (fun g p => g.setUnit p.1 p.2) g
    let g := if us.isEmpty then g else g.raise e.flags
    { g with pend := old ++ g.pend.drop (k + 1) }

/-- Number of pending writes of a unit whose values are known. -/
def Group.choices (g : Group) (u : PUnit) : Nat :=
  (g.pend.filter (fun e => e.writes.any (fun w => w.1 == u && w.2.isSome))).length

/-- The first `n` pending writes of a unit whose values are known, in issue order, have returned (R104): the register
holds the last of their values, every older write of it is discarded (R103), and entries left with nothing to write
have set their flags. -/
def Group.returned (g : Group) (u : PUnit) (n : Nat) : Group :=
  let step := fun (a : List Pend × Option W64 × Nat × Nat) (e : Pend) =>
    let (kept, v, left, fl) := a
    match e.writes.find? (fun w => w.1 == u) with
    | some (_, x) =>
      if left = 0 then (kept ++ [e], v, 0, fl)
      else
        let e' := e.drop u
        let left := if x.isSome then left - 1 else left
        let v := if x.isSome then x else v
        if e'.done then (kept, v, left, fl ||| e'.flags) else (kept ++ [e'], v, left, fl)
    | none => (kept ++ [e], v, left, fl)
  let r := g.pend.foldl step ([], none, min n (g.choices u), 0)
  match r.2.1 with
  | none => g
  | some x => { (g.setUnit u x).raise r.2.2.2 with pend := r.1 }

/-- Resolves a hazard read of a unit (R104) with a free value: how many of its pending writes it sees
returned. A register with no pending write is left alone. DEDUCED (log 43). -/
def State.settle (s : State) (k : Nat) (u : PUnit) : State :=
  let c := (s.group k).choices u
  if c = 0 then s
  else (s.modGroup k (fun g => g.returned u (Config.hazardPick s.free % (c + 1)))).tick

end Sys2Proof.Machine
end

