-- ==== Sys2Proof/Machine/Convert.lean ====
section
/-! DEFINITION. The conversions of R84 and the quantised codes of R75, R76 and R139, on codes. -/

namespace Sys2Proof

/-- Least value of an integer type (R73). -/
def IntTy.lo (t : IntTy) : Int := if t.signed then -(2 ^ (t.bits - 1) : Nat) else 0
/-- Greatest value of an integer type (R73). -/
def IntTy.hi (t : IntTy) : Int :=
  if t.signed then ((2 ^ (t.bits - 1) : Nat) : Int) - 1 else ((2 ^ t.bits : Nat) : Int) - 1
/-- The value of bits read in an integer type (R73). -/
def IntTy.val (t : IntTy) (x : Nat) : Int :=
  let y := x % 2 ^ t.bits
  if t.signed && decide (2 ^ (t.bits - 1) ≤ y) then (y : Int) - (2 ^ t.bits : Nat) else y
/-- The low bits of an integer, in the width of a type (R120). -/
def IntTy.wrap (t : IntTy) (x : Int) : Nat := (x % (2 ^ t.bits : Nat)).toNat

end Sys2Proof

namespace Sys2Proof.Machine

/-- A nonzero finite value into a float format (R84): overflow by R78 where the format has an
infinity, else the largest magnitude, or a NaN of the source's sign for E4M3 under `.nsat`. -/
def cvtFinite (t : FpFmt) (nsat : Bool) (r : Rnd) (neg : Bool) (m : Nat) (e : Int) : Res :=
  if t.hasInf then finish t r false neg m e false
  else
    let c := roundMag t r neg m e false
    if t.maxFinite < c.1 then
      ⟨withSign t neg (if t == .e4m3 && nsat then 0x7F else t.maxFinite), { ov := true, nx := true }⟩
    else ⟨withSign t neg c.1, { uf := c.2.1 && c.2.2, nx := c.2.1 }⟩

/-- Float to float (R84). The same format is a move. -/
def cvtFF (t s : FpFmt) (nsat : Bool) (r : Rnd) (x : Nat) : Res :=
  if t = s then ⟨x % 2 ^ s.bits, {}⟩
  else
    match FVal.ofBits s x with
    | .nan neg =>
      if t.hasInf then ⟨t.nan 1, {}⟩
      else if t = .e4m3 then ⟨withSign t neg 0x7F, {}⟩
      else ⟨withSign t neg t.maxFinite, { nv := true }⟩
    | .inf neg =>
      if t.hasInf then ⟨infBits t neg, {}⟩
      else ⟨withSign t neg (if t == .e4m3 && nsat then 0x7F else t.maxFinite), { nv := true }⟩
    | .fin neg m e =>
      if m = 0 then ⟨zeroBits t neg, {}⟩ else cvtFinite t nsat r neg m e

/-- Float to integer (R84). -/
def cvtFI (t : IntTy) (s : FpFmt) (r : Rnd) (x : Nat) : Res :=
  match FVal.ofBits s x with
  | .nan _ => ⟨0, { nv := true }⟩
  | .inf neg => ⟨t.wrap (if neg then t.lo else t.hi), { nv := true }⟩
  | .fin neg m e =>
    let c := roundInt r neg m e
    let v : Int := if neg then -(c.1 : Int) else c.1
    if v < t.lo then ⟨t.wrap t.lo, { nv := true }⟩
    else if t.hi < v then ⟨t.wrap t.hi, { nv := true }⟩
    else ⟨t.wrap v, { nx := c.2 }⟩

/-- Integer to float (R84). -/
def cvtIF (t : FpFmt) (s : IntTy) (nsat : Bool) (r : Rnd) (x : Nat) : Res :=
  let v := s.val x
  if v = 0 then ⟨0, {}⟩ else cvtFinite t nsat r (decide (v < 0)) v.natAbs 0

/-- Integer to integer, wrapping (R84): low bits, or extended by the source's type. -/
def cvtIIwrap (t s : IntTy) (x : Nat) : Res := ⟨t.wrap (s.val x), {}⟩

/-- Clamps to a type's range, with SAT when it clamps. -/
def clampTo (t : IntTy) (v : Int) : Res :=
  if t.hi < v then ⟨t.wrap t.hi, { sat := true }⟩
  else if v < t.lo then ⟨t.wrap t.lo, { sat := true }⟩
  else ⟨t.wrap v, {}⟩

/-- Integer to integer under `.sat` (R84). -/
def cvtIIsat (t s : IntTy) (x : Nat) : Res := clampTo t (s.val x)

/-- Zero point of a scale entry (R76). -/
def zeroPoint (q8 : Bool) (entry : Nat) : Nat := entry / 65536 % (if q8 then 256 else 16)
/-- Top code of a quantised type (R75). -/
def topCode (q8 : Bool) : Nat := if q8 then 255 else 15

/-- The quotient of two positive dyads rounded to an integer, with its inexactness. -/
def divRoundInt (r : Rnd) (neg : Bool) (m : Nat) (e : Int) (n : Nat) (k : Int) : Nat × Bool :=
  let d := e - k
  let num := if 0 ≤ d then m * 2 ^ d.toNat else m
  let den := if 0 ≤ d then n else n * 2 ^ (-d).toNat
  let q := num / den
  let rem := num % den
  let up := match r with
    | .rn => if 2 * rem = den then q % 2 == 1 else decide (den < 2 * rem)
    | .rz => false
    | .rd => neg && rem != 0
    | .ru => !neg && rem != 0
  (if up then q + 1 else q, rem != 0)

/-- Quantisation (R84, R139): z + Round(x/s), clamped to the code range.
A clamp delivers a result that differs from the exact one, so it sets NX too (R80; DEDUCED, log 14). -/
def quantise (q8 : Bool) (s : FpFmt) (r : Rnd) (x entry : Nat) : Res :=
  let z := zeroPoint q8 entry
  match FVal.ofBits s x, FVal.ofBits .f16 (entry % 65536) with
  | .nan _, _ => ⟨z, { nv := true }⟩
  | _, .nan _ => ⟨z, { nv := true }⟩
  | _, .inf _ => ⟨z, { nv := true }⟩
  | .inf neg, .fin sneg n _ =>
    if n = 0 then ⟨z, { nv := true }⟩
    else ⟨if neg != sneg then 0 else topCode q8, { nv := true }⟩
  | .fin neg m e, .fin sneg n k =>
    if n = 0 then ⟨z, { nv := true }⟩
    else
      let c := divRoundInt r (neg != sneg) m e n k
      let v : Int := (z : Int) + (if neg != sneg then -(c.1 : Int) else c.1)
      if v < 0 then ⟨0, { sat := true, nx := true }⟩
      else if (topCode q8 : Int) < v then ⟨topCode q8, { sat := true, nx := true }⟩
      else ⟨v.toNat, { nx := c.2 }⟩

/-- Dequantisation (R139): s × (q − z) as FP32, exact; no flag. -/
def dequantise (q8 : Bool) (code entry : Nat) : Res :=
  let d : Int := ((code % (if q8 then 256 else 16) : Nat) : Int) - zeroPoint q8 entry
  match FVal.ofBits .f16 (entry % 65536) with
  | .nan _ => ⟨FpFmt.f32.nan 2, {}⟩
  | .inf neg => if d = 0 then ⟨FpFmt.f32.nan 4, {}⟩ else ⟨infBits .f32 (neg != decide (d < 0)), {}⟩
  | .fin neg m e =>
    let sg := neg != decide (d < 0)
    if m * d.natAbs = 0 then ⟨zeroBits .f32 sg, {}⟩
    else ⟨(finish .f32 .rn false sg (m * d.natAbs) e false).bits, {}⟩

end Sys2Proof.Machine
end

