-- ==== Sys2Proof/Machine/Operands.lean ====
section
/-! DEFINITION. Operands: what an instruction reads and names, its class and feature (R43, R44, R58,
R66, R67, R103, R116, R391), and the values of operands with their sub-fields (R96, R111 to R113). -/

namespace Sys2Proof.Machine

/-! ### Classes, roles, features -/

/-- The classes of role checking (R43). -/
inductive Class | scalar | vector | control | matrix | engine | ring
deriving DecidableEq, Repr

/-- The class of an instruction, by opcode and operand kinds (R43). -/
def classOf (i : Instr) : Class :=
  let op := i.opMod.1
  let vec := fun (o : Opnd) => o.isVec || o.isAcc
  if op < 0x1C0 then
    if vec i.ops.d || vec i.ops.a || vec i.ops.b then .vector else .scalar
  else if op < 0x300 then .vector
  else if op < 0x3C0 then .control
  else if op < 0x3E0 then .matrix
  else if op < 0x3F0 then .engine
  else .ring

/-- Which classes a role may issue (R44). -/
def Role.allows : Role → Class → Bool
  | .general, _ => true
  | .copy, .vector | .copy, .matrix => false
  | .matrix, .vector | .matrix, .engine => false
  | .vector, .matrix | .vector, .engine => false
  | _, _ => true

/-- Whether a float format is FP6 or FP4. -/
def FpFmt.tiny (f : FpFmt) : Bool := f.bits < 8

/-- The feature bit that an opcode or form stands behind (R391). -/
def featureOf : Instr → Option Nat
  | .mmq .. | .cvtQuantise .. | .cvtDequantise .. => some 0
  | .pk6 .. | .upk6 .. => some 1
  | .mma _ f .. =>
    match f with
    | .e3m2 | .e2m3 | .e2m1 => some 1
    | _ => none
  | .cvtFloatToFloat t s .. => if FpFmt.tiny t || FpFmt.tiny s then some 1 else none
  | .cvtFloatToInt _ s .. => if FpFmt.tiny s then some 1 else none
  | .cvtIntToFloat t .. => if FpFmt.tiny t then some 1 else none
  | .txb .. | .txe .. | .txa .. => some 2
  | .beq .. | .estq .. | .estdrop .. => some 3
  | .tmov .. | .sweep .. => some 4
  | .racq .. | .rput .. | .rget .. | .rrel .. => some 9
  | _ => none

/-- Whether the accepted feature set holds what an instruction needs (R107 step 4). -/
def featureOk (acc : Nat) (i : Instr) : Bool :=
  match featureOf i with
  | none => true
  | some b => acc.testBit b

/-! ### Registers that an instruction names -/

/-- The vector registers from `r` on that operand `o` of a field spans: first index and count (R58). -/
def extent (a : Accept) (o : Opnd) : List (Nat × Nat) :=
  match o, a.vec with
  | .v r _, some (_, n) => [(r, n)]
  | _, _ => []

/-- Number that a byte-select sub-field holds. -/
def Sub.num : Sub → Nat
  | .sel n => n
  | _ => 0

/-- Index of a vector operand. -/
def Opnd.idx : Opnd → Nat
  | .v i _ | .s i | .p i => i
  | .sp i _ => i
  | .acc t _ => t
  | _ => 0
/-- Sub-field of a vector operand. -/
def Opnd.sub : Opnd → Sub
  | .v _ s => s
  | _ => .plain

/-- Blocks that an instruction reads or writes beyond the registers its fields span (R76, R193, R218,
R219, R221). -/
def blocks (w : Nat) : Instr → List (Nat × Nat)
  | .mma _ f _ o => [(Opnd.idx o.a, mmaBlock w f)]
  | .mmq _ f g _ o =>
    [(Opnd.idx o.a, mmqBlock w f g), (Opnd.idx o.b + Sub.num (Opnd.sub o.b) * (128 / w), 128 / w)]
  | .mlda n _ o => [(Opnd.idx o.d, mldaBlock w n)]
  | .beq _ _ o =>
    match o.b with
    | .imm n => [(Opnd.idx o.a, max 1 n.toNat)]
    | _ => []
  | _ => []

/-- Whether every vector register named lies within the allocation (R58). -/
def allocOk (w alloc : Nat) (i : Instr) : Bool :=
  (extent i.shape.d i.ops.d ++ extent i.shape.a i.ops.a ++ extent i.shape.b i.ops.b ++ blocks w i).all
    (fun e => decide (e.1 + e.2 ≤ alloc))

/-! ### Sources -/

/-- Units that an operand of `n` registers reads for a lane. -/
def readUnits (o : Opnd) (n lane : Nat) : List PUnit :=
  match o with
  | .v r (.ln k) => (List.range n).map (fun j => .vec k (r + j))
  | .v r _ => (List.range n).map (fun j => .vec lane (r + j))
  | .s r => [.sca r]
  | .p k => if k < 7 then [.pred lane k] else []
  | _ => []

/-- Registers that a vector operand of a field spans. -/
def spanOf (a : Accept) : Nat :=
  match a.vec with
  | some (_, n) => n
  | none => 1

/-- Whether field D is read as a source. -/
def readsD : Instr → Bool
  | .mad .. | .bfi .. | .fma .. | .fdp2 .. | .st .. | .stRel .. | .stl .. | .cas .. | .beq ..
  | .ast .. | .drain .. | .cpin .. | .cpout .. | .gath .. => true
  | .cvtFloatToFloat t .. | .cvtIntToFloat t .. => decide (t.bits < 32)
  | .cvtFloatToInt t .. | .cvtIntWrap t .. | .cvtIntSat t .. => decide (t.bits < 32)
  | .cvtQuantise .. => true
  | _ => false

/-- The lane that `xlane` reads for lane `i` (R140). -/
def xlaneFrom (m : XlaneMode) (w i : Nat) (b : Nat) : Nat :=
  match m with
  | .pick => b % w
  | .rotu => (i + (w - b % w)) % w
  | .rotd => (i + b) % w
  | .flip => i ^^^ (b % w)

/-- Registers of a block for every lane of a group. -/
def blockUnits (first n : Nat) (lanes : List Nat) : List PUnit :=
  lanes.flatMap (fun l => (List.range n).map (fun j => PUnit.vec l (first + j)))

/-- Whether the A latch supplies an A block of `n` registers (R67). -/
def Group.latched (g : Group) (a : Opnd) (n : Nat) : Bool :=
  match g.latch with
  | some l => l.reg == Opnd.idx a && l.sub == Sub.num (Opnd.sub a) && l.size == n
  | none => false

/-- Registers that an A block of `n` registers reads for a lane: none when the latch supplies it, those of
every lane when the instruction latches it (R67). -/
def aSources (g : Group) (c : Ctl) (a : Opnd) (n lane : Nat) : List PUnit :=
  if g.latched a n then [] else blockUnits (Opnd.idx a) n (if c.latch then g.ids else [lane])

/-- The value of a plain scalar, vector or immediate source, as 64 bits. -/
def Group.value (g : Group) (i : Nat) (o : Opnd) (n : Nat) : W64 :=
  match o with
  | .v r sub =>
    let l := g.lane (match sub with
      | .ln k => k
      | _ => i)
    if n = 2 then l.vpair r else (l.vreg r).setWidth 64
  | .s r => g.sreg r
  | .imm x => BitVec.ofInt 64 x
  | .limm x => (BitVec.ofNat 32 x).signExtend 64
  | _ => 0

/-- Sources of field B. -/
def sourcesB (i : Instr) (lane : Nat) : List PUnit := readUnits i.ops.b (spanOf i.shape.b) lane

/-- Sources that are read before the lanes of the others are known: field B of `xlane` (R140). -/
def earlySources (i : Instr) (lane : Nat) : List PUnit :=
  match i with
  | .xlane .. => sourcesB i lane
  | _ => []

/-- Every source that an active lane reads at issue, the guard apart (R103, R116). The registers that `beq` names are
not read (R193). -/
def sources (i : Instr) (g : Group) (act : List Nat) (lane : Nat) : List PUnit :=
  let o := i.ops
  let na := spanOf i.shape.a
  let d := if readsD i then readUnits o.d (spanOf i.shape.d) lane else []
  let b := sourcesB i lane
  match i with
  | .xlane m w64 _ _ =>
    let j := xlaneFrom m g.width lane (g.value lane o.b 1).toNat
    b ++ (match o.a with
      | .v r (.ln k) => readUnits (.v r (.ln k)) (regsOf w64) lane
      | a => readUnits a (regsOf w64) j)
  | .lpoll .. => act.flatMap (fun j => readUnits o.a 1 j)
  | .lfold .. | .ffold .. => act.flatMap (fun j => readUnits o.a na j)
  | .scan _ excl .. =>
    (act.filter (fun j => if excl then decide (j < lane) else decide (j ≤ lane))).flatMap
      (fun j => readUnits o.a na j)
  | .pk6 .. | .upk6 .. => ([0, 1, 2, 3].map (fun k => lane / 4 * 4 + k)).flatMap (fun j => readUnits o.a na j)
  | .sel _ _ k _ _ => readUnits o.a na lane ++ b ++ readUnits (.p k) 1 lane
  | .mma _ f c _ => b ++ aSources g c o.a (mmaBlock g.width f) lane
  | .mmq _ f q c _ =>
    [.sca (Sub.num (Opnd.sub o.a))] ++ aSources g c o.a (mmqBlock g.width f q) lane ++
      blockUnits (Opnd.idx o.b + Sub.num (Opnd.sub o.b) * (128 / g.width)) (128 / g.width) g.ids
  | .cpin .. | .cpout .. | .gath .. | .drain .. =>
    d ++ readUnits o.a 1 lane ++ [.sca (Opnd.idx o.b), .sca (Opnd.idx o.b + 1), .sca (Opnd.idx o.b + 2)]
  | .beq .. => d ++ b
  | _ => d ++ readUnits o.a na lane ++ b

/-- Offset of a vector base of an atomic: the byte-select sub-field times the access size (R164). -/
def atomOffset (w64 : Bool) (a : Opnd) : W64 := BitVec.ofNat 64 (Sub.num (Opnd.sub a) * (if w64 then 8 else 4))

/-- The base of an access that may rewrite it (R316), with its value and the address of the access. -/
def rewriteBase (i : Instr) (g : Group) (lane : Nat) : Option (Opnd × W64 × W64) :=
  let b := g.value lane i.ops.a 2
  let at_ := fun (off : W64) => some (i.ops.a, b, b + off)
  match i with
  | .ld .. | .st .. | .ldAcq .. | .stRel .. => at_ (g.value lane i.ops.b 2)
  | .atomAdd w .. | .atomMin w .. | .atomMax w .. | .atomAnd w .. | .atomOr w .. | .atomXor w .. | .atomXchg w ..
  | .cas w .. => at_ (atomOffset w i.ops.a)
  | .atomAddF32 .. => at_ (atomOffset false i.ops.a)
  | _ => none

/-- The predicate that guards an instruction, for a lane. -/
def guardUnits (c : Ctl) (lane : Nat) : List PUnit := readUnits (.p c.pred) 1 lane

/-- Whether a lane's guard is true (R97). -/
def Group.guard (g : Group) (c : Ctl) (i : Nat) : Bool := (g.lane i).pred c.pred != c.neg

/-! ### Values of operands -/

/-- Bits of an integer source for lane `i`, in the width of the type: scalar sources of narrow types give
their low 32 bits, immediates are taken whole (R112, R113). -/
def srcInt (g : Group) (i : Nat) (t : IntTy) (o : Opnd) : Nat :=
  let v := g.value i o t.regs
  if t.bits = 64 then v.toNat else v.toNat % 4294967296

/-- Element `j` of a source of a packed or plain integer type (R74, R113): an immediate stands in every
element. -/
def srcElem (g : Group) (i : Nat) (t : IntTy) (o : Opnd) (j : Nat) : Nat :=
  match o with
  | .imm x => t.wrap x
  | _ => srcInt g i t o / 2 ^ (t.bits * j) % 2 ^ t.bits

/-- A byte swizzle on each 32-bit half (R96). -/
def swizzle (n x : Nat) : Nat :=
  let half := fun y => ((List.range 4).map (fun j => y / 256 ^ (n / 4 ^ j % 4) % 256 * 256 ^ j)).sum
  half (x % 4294967296) + 4294967296 * half (x / 4294967296)

/-- Bits of a source of a bit instruction (R96, R112). -/
def srcBit (g : Group) (i : Nat) (w64 : Bool) (o : Opnd) : Nat :=
  let v := (g.value i o (regsOf w64)).toNat
  let v := if w64 then v else v % 4294967296
  match o with
  | .v _ (.swz n) => swizzle n v
  | _ => v

/-- Sign operation of the negate and absolute-value form on one element (R96). -/
def signOp (f : FpFmt) (s : Sub) (x : Nat) : Nat :=
  let m := x % f.signBit
  let neg := decide (f.signBit ≤ x)
  match s with
  | .neg => withSign f (!neg) m
  | .abs => m
  | .negAbs => withSign f true m
  | _ => x

/-- Element `j` of a floating-point source in its own format (R96, R113). -/
def srcFp (g : Group) (i : Nat) (f : FpFmt) (o : Opnd) (j : Nat) : Nat :=
  match o with
  | .imm x => immFloat f x
  | .v _ sub => signOp f sub ((g.value i o 1).toNat / 2 ^ (f.bits * j) % 2 ^ f.bits)
  | _ => (g.value i o 1).toNat / 2 ^ (f.bits * j) % 2 ^ f.bits

/-- Joins the elements of a register, element 0 lowest (R74). -/
def joinElems (w : Nat) : List Nat → Nat
  | [] => 0
  | x :: xs => x + 2 ^ w * joinElems w xs

/-- Joins element results with the union of their flags (R117). -/
def joinRes (w : Nat) (rs : List Res) : Res :=
  ⟨joinElems w (rs.map Res.bits), rs.foldl (fun f r => f.or r.flags) {}⟩

/-- A 32-bit result of a signed type is sign-extended into a scalar register, else zero-extended (R112). -/
def extendTo64 (signed : Bool) (x : Nat) : W64 :=
  if signed then (BitVec.ofNat 32 x).signExtend 64 else (BitVec.ofNat 32 x).setWidth 64

end Sys2Proof.Machine
end

