-- ==== Sys2Proof/Machine/Memory.lean ====
section
/-! DEFINITION. Memory at the owning points, L1 and L2 lines, poison, releases and acquires (spec/13,
R155, R156, R165, R237 to R240, R350, R364). -/

namespace Sys2Proof

/-- The scopes that reach the die, the package and the host (R155). -/
def Scope.level : Scope → Nat
  | .thr | .grp | .tem => 0
  | .clu | .die => 1
  | .dev => 2
  | .sys => 3

end Sys2Proof

namespace Sys2Proof.Machine

/-! ### The list of cells -/

/-- What a byte that nothing has written reads as. DESIGN CHOICE (log 1). -/
def memDefault : Byte := 0

/-- A list of cells. -/
abbrev Memory := List Host.Cell

/-- Reads a byte. -/
def Memory.get (m : Memory) (a : Nat) : Byte := FMap.get memDefault m a
/-- Writes a byte, keeping the canonical form. -/
def Memory.set (m : Memory) (a : Nat) (b : Byte) : Memory := FMap.set memDefault m a b
/-- Writes consecutive bytes. -/
def Memory.setBytes (m : Memory) : Nat → List Byte → Memory
  | _, [] => m
  | a, b :: bs => Memory.setBytes (m.set a b) (a + 1) bs
/-- The canonical form: addresses strictly rising, no entry equal to `memDefault`. -/
def Memory.wf (m : Memory) : Bool := FMap.wf memDefault m

/-! ### The physical address space (R343) -/

/-- Space of a physical address: 0 HBM, 1 vault, 2 host, 3 peer. -/
def paSpace (pa : Nat) : Nat := pa / 2 ^ 50 % 4
def isHbm (pa : Nat) : Bool := paSpace pa == 0
def isVault (pa : Nat) : Bool := paSpace pa == 1
/-- Host or peer memory. -/
def isFar (pa : Nat) : Bool := decide (2 ≤ paSpace pa)

/-- The core whose vault holds an address of vault space. DESIGN CHOICE (log 5): the vaults stand 16 MiB apart, in order. -/
def vaultCore (pa : Nat) : Nat := pa % 2 ^ 50 / 16777216 % 256

/-- The die that owns a physical address: that of its vault, or the one whose stacks hold its frame (R237). DESIGN CHOICE
(log 5): the dies hold 128 GiB of HBM each, in order, but for frames that `hbmDie` lists. -/
def State.ownerDie (s : State) (pa : Nat) : Nat :=
  if isVault pa then vaultCore pa / 32 else s.hbmDie.get (pa / 2 ^ 37 % 8) (pa / 2097152) % 8

/-- Number of a context's key at its incarnation; 0 for one that is not confidential (R397). -/
def State.keyOf (s : State) (ctx : Nat) : Nat := if (s.ctx ctx).conf then ctx * 4096 + (s.ctx ctx).inc + 1 else 0
/-- A byte of memory below the L2, in the clear. -/
def State.memByte (s : State) (pa : Nat) : Byte := Memory.get s.mem pa
/-- Writes a byte of memory below the L2 under a key. -/
def State.putMem (s : State) (key pa : Nat) (b : Byte) : State :=
  { s with
    mem := Memory.set s.mem pa b
    seals := if isHbm pa then s.seals.set 0 pa key else s.seals }
/-- A byte of memory below the L2 as a context reads it: one that stands under another key than its own reads as a free value
(R397). DESIGN CHOICE (log 39). -/
def State.memSeen (s : State) (ctx pa : Nat) : Byte :=
  let k := s.seals.get 0 pa
  if isHbm pa && k != s.keyOf ctx then s.memByte pa ^^^ Config.veil k (s.keyOf ctx) pa else s.memByte pa

/-! ### Lines -/

def Line.byte (l : Line) (j : Nat) : Byte := l.data.extractLsb' (8 * j) 8
def Line.has (l : Line) (j : Nat) : Bool := l.held.getLsbD j
def Line.isDirty (l : Line) (j : Nat) : Bool := l.dirty.getLsbD j
/-- Sets a byte, dirty or clean. -/
def Line.put (l : Line) (j : Nat) (b : Byte) (dirty : Bool) : Line :=
  { l with
    data := (l.data &&& ~~~(255#1024 <<< (8 * j))) ||| (b.setWidth 1024 <<< (8 * j))
    held := l.held ||| (1#128 <<< j)
    dirty := if dirty then l.dirty ||| (1#128 <<< j) else l.dirty }
/-- Sets consecutive bytes. -/
def Line.puts (l : Line) (dirty : Bool) : Nat → List Byte → Line
  | _, [] => l
  | j, b :: bs => Line.puts (l.put j b dirty) dirty (j + 1) bs
/-- The line with its dirty bytes only. -/
def Line.dropClean (l : Line) : Line := if l.dirty = 0 then Line.none else { l with held := l.dirty }
/-- The dirty bytes, by offset. -/
def Line.dirtyBytes (l : Line) : List (Nat × Byte) :=
  ((List.range 128).filter l.isDirty).map (fun j => (j, l.byte j))

/-- Whether a line's owner pair is current and open (R350). -/
def State.lineLive (s : State) (l : Line) : Bool :=
  let c := s.ctx l.ctx
  c.used && c.isOpen && c.inc == l.inc

def l1Key (core line : Nat) : Nat := line * 256 + core
def l2Key (die line : Nat) : Nat := line * 8 + die

/-- The L1 line that a lookup finds; a line whose owner is not current is treated as invalid. -/
def State.l1Line (s : State) (core line : Nat) : Line :=
  let l := s.l1.get Line.none (l1Key core line)
  if s.lineLive l then l else Line.none
def State.setL1 (s : State) (core line : Nat) (l : Line) : State :=
  { s with l1 := s.l1.set Line.none (l1Key core line) l }
def State.l2Line (s : State) (die line : Nat) : Line :=
  let l := s.l2.get Line.none (l2Key die line)
  if s.lineLive l then l else Line.none
def State.setL2 (s : State) (die line : Nat) (l : Line) : State :=
  { s with l2 := s.l2.set Line.none (l2Key die line) l }

/-! ### The owning point -/

/-- A byte at its owning point: the home line in the owning die's L2, or memory below it. -/
def State.ownByte (s : State) (pa : Nat) : Byte :=
  if isHbm pa then
    let l := s.l2Line (s.ownerDie pa) (pa / 128)
    if l.has (pa % 128) then l.byte (pa % 128) else s.memByte pa
  else s.memByte pa

def State.ownBytes (s : State) (pa n : Nat) : List Byte := (List.range n).map (fun k => s.ownByte (pa + k))

/-- A byte at its owning point as a context reads it (R397). -/
def State.ownSeen (s : State) (ctx pa : Nat) : Byte :=
  if isHbm pa then
    let l := s.l2Line (s.ownerDie pa) (pa / 128)
    if l.has (pa % 128) then l.byte (pa % 128) else s.memSeen ctx pa
  else s.memByte pa

def State.seenBytes (s : State) (ctx pa n : Nat) : List Byte := (List.range n).map (fun k => s.ownSeen ctx (pa + k))

/-- The target package of a peer address: its bits [49:42] (R396). -/
def peerOf (pa : Nat) : Nat := pa / 2 ^ 42 % 256

/-- The Adeivo Link ports over which a package is reached. PRESUMED (log 36): all, where the domain table names none. -/
def State.portsTo (s : State) (pkg : Nat) : List Nat := s.routes.get (List.range 24) pkg

/-- Whether a peer address has no route left: every port to its package is down, or the links are not accepted (R391,
R396). -/
def State.noRoute (s : State) (pa : Nat) : Bool :=
  paSpace pa == 3 && (!s.featAcc.testBit 7 || (s.portsTo (peerOf pa)).all (fun p => s.portsDown.contains p))

/-- Whether a read of an address is a poison read at its owning point (R364, R396). -/
def State.poisoned (s : State) (pa : Nat) : Bool :=
  (s.poison.get Option.none (pa / 128)).isSome || s.noRoute pa

/-- Marks a byte of a poisoned line as written; the last of the 128 clears the poison (R364). -/
def State.unpoison (s : State) (pa : Nat) : State :=
  match s.poison.get Option.none (pa / 128) with
  | Option.none => s
  | some m =>
    let m' := m ||| (1#128 <<< (pa % 128))
    { s with poison := s.poison.set Option.none (pa / 128) (if m' = BitVec.allOnes 128 then Option.none else some m') }

/-- Writes dirty bytes of a live home line to memory, under its owner's key; the line is dropped. -/
def State.homeToMem (s : State) (die line : Nat) : State :=
  let l := s.l2Line die line
  let key := s.keyOf l.ctx
  let s := l.dirtyBytes.foldl (fun s p => s.putMem key (line * 128 + p.1) p.2) s
  s.setL2 die line Line.none

/-- A byte reaches its owning point without taking a place in the L2: a line that is held there takes it (R238, R364). A line
of another owner gives up its dirty bytes first. -/
def State.ownPutByte (s : State) (ctx pa : Nat) (b : Byte) : State :=
  let s := s.unpoison pa
  let die := s.ownerDie pa
  let line := pa / 128
  let l := s.l2Line die line
  if isHbm pa && l.held != 0 then
    let s := if l.ctx ≠ ctx ∧ l.dirty ≠ 0 then s.homeToMem die line else s
    let l := s.l2Line die line
    if l.held = 0 then s.putMem (s.keyOf ctx) pa b
    else s.setL2 die line { (l.put (pa % 128) b true) with ctx := ctx, inc := (s.ctx ctx).inc }
  else s.putMem (s.keyOf ctx) pa b

/-! ### Things that watch writes at the owning point -/

/-- The sieve window that holds a physical address, with its key and the offset in the window (R369). -/
def State.sieveAt (s : State) (pa : Nat) : Option (Nat × Sieve × Nat) :=
  s.sieves.findSome? (fun w =>
    (w.2.pages.find? (fun q => q.2 == pa / 65536 * 65536)).map (fun q => (w.1, w.2, q.1 * 65536 + pa % 65536)))

/-- Bytes of a vector entry of a sieve window. -/
def Sieve.entryBytes (w : Sieve) : Nat := if w.bf16 then 2 else 4

/-- Notes a write of bytes in a sieve window (R371): a store or direct-mode write to the vector marks its
bytes; any write of ARM asks for a SIEVE_ARM step. Atomics set no bit. -/
def State.sieveWrite (s : State) (mark : Bool) (pa n : Nat) : State :=
  match s.sieveAt pa with
  | Option.none => s
  | some (k, w, o) =>
    let w := if o < 0x20 ∧ 0x18 < o + n then { w with armReq := true } else w
    let fresh := if mark && w.armed then
        ((List.range n).map (fun j => o + j)).filter (fun j =>
          decide (4096 ≤ j ∧ j < 4096 + w.len * w.entryBytes) && !w.written.contains j)
      else []
    { s with sieves := s.sieves.set Sieve.none k { w with written := w.written ++ fresh } }

/-- Notes an 8-byte write with bit 63 set at an armed trigger word (R378); a trigger of an old incarnation
fires no more. -/
def State.triggerWrite (s : State) (pa : Nat) (bs : List Byte) : State :=
  if bs.length = 8 ∧ 2 ^ 63 ≤ leNat bs then
    { s with triggers := s.triggers.map (fun p =>
        if p.2.live && p.2.armed && p.2.word == pa && (s.ctx p.2.ctx).isOpen && (s.ctx p.2.ctx).inc == p.2.inc then
          (p.1, { p.2 with fired := p.2.fired ++ [BitVec.ofNat 64 (leNat bs)], armed := false })
        else p) }
  else s

/-- Counts an arrival on a die for a context's phase (R287): at zero, further events add to OVER; an event
that comes before the count is armed is kept for it, and so is one of a launch that waits for its phase. -/
def State.arrive (s : State) (die ctx phnum : Nat) (waits : Option Nat := none) : State :=
  let mine := fun (p : Phase) => p.used && p.ctx == ctx && p.inc == (s.ctx ctx).inc && p.phnum == phnum
  s.modDie die (fun d =>
    if waits.isNone && d.phases.any (fun p => mine p.2) then
      { d with phases := d.phases.map (fun p =>
        if mine p.2 then
          (p.1, if p.2.count = 0 then { p.2 with extra := p.2.extra + 1 } else { p.2 with count := p.2.count - 1 })
        else p) }
    else { d with early := d.early ++ [(ctx, (s.ctx ctx).inc, phnum, waits)] })

/-- The phases of a context's launches that `hit` names, each by its number, with the launch that waits for it (R287, R288). -/
def State.phasesOf (s : State) (ctx : Nat) (hit : Launch → Bool) : List (Nat × Option Nat) :=
  ((s.launches.filter (fun l => l.2.live && l.2.ctx == ctx && l.2.kernel.phase && (l.2.phaseSlot.isSome || l.2.waiting) &&
    hit l.2)).map (fun l => (l.2.kernel.phnum, if l.2.phaseSlot.isSome then none else some l.1))).dedup

/-- Counts an access of a context performed at an owning point inside an arrival window (R287), given
the virtual address it reached: once for each phase whose window it lies in. DEDUCED (log 26). -/
def State.arriveAt (s : State) (ctx va pa : Nat) : State :=
  let die := if isFar pa then 0 else s.ownerDie pa
  (s.phasesOf ctx (fun l => decide (l.awBase ≤ va ∧ va < l.awBase + l.awLen))).foldl (fun s n => s.arrive die ctx n.1 n.2) s

/-- A write to a package without a route is dropped and logged (R396). -/
def State.dropWrite (s : State) (pa : Nat) : State := { s with errors := s.errors ++ [(3, pa)] }

/-! ### Places in the L2 (R3, R239, R322, R363) -/

/-- Slice of a die's L2 that a line belongs to, and its set there. DESIGN CHOICE (log 50): consecutive lines stand in
consecutive slices. -/
def sliceOf (line : Nat) : Nat := line % 512
def setOf (line : Nat) : Nat := line / 512 % 64

/-- Ways of a line's slice that a context's partition may use in a die: those of its mask that are not quarantined
(R322). -/
def State.usableWays (s : State) (die ctx line : Nat) : List Nat :=
  let d := s.die die
  let m := d.ways.get 0xFFFF (s.ctx ctx).part
  (List.range 16).filter (fun w => m.getLsbD w && !d.quarantined.contains (sliceOf line * 16 + w))

/-- The other lines of a line's set in a die, each with its number. -/
def State.mates (s : State) (die line : Nat) : List (Nat × Line) :=
  (s.l2.filter (fun p => p.1 % 8 == die && p.1 / 8 != line && sliceOf (p.1 / 8) == sliceOf line &&
    setOf (p.1 / 8) == setOf line && s.lineLive p.2)).map (fun p => (p.1 / 8, p.2))

/-- Rank of a line among victims: streaming lines first, keep lines last (R225). -/
def Line.rank (l : Line) : Nat :=
  match l.cpol with
  | 1 => 0
  | 2 => 2
  | _ => 1

/-- Whether a line is replaced before another: by CPOL, then the one not used for longer (R225, R322). DESIGN CHOICE
(log 45): CPOL comes before recency. -/
def Line.before (a b : Line) : Bool := decide (a.rank < b.rank ∨ (a.rank = b.rank ∧ a.used < b.used))

/-- The line of a list that is replaced first. -/
def victimOf : List (Nat × Line) → Option (Nat × Line)
  | [] => none
  | a :: rest =>
    match victimOf rest with
    | none => some a
    | some b => some (if b.2.before a.2 then b else a)

/-- Runs of consecutive dirty bytes, so that a word written whole reaches the owning point whole. -/
def runs : List (Nat × Byte) → List (Nat × List Byte)
  | [] => []
  | (j, b) :: ps =>
    match runs ps with
    | (k, bs) :: rs => if k = j + 1 ∧ k % 8 ≠ 0 then (j, b :: bs) :: rs else (j, [b]) :: (k, bs) :: rs
    | [] => [(j, [b])]

/-- A line leaves a die's L2: its dirty bytes go to memory, or to their owning point. -/
def State.evictL2 (s : State) (die line : Nat) : State :=
  if s.ownerDie (line * 128) = die then s.homeToMem die line
  else
    let v := s.l2Line die line
    let s := (runs v.dirtyBytes).foldl (fun s r =>
      let pa := line * 128 + r.1
      let s := (r.2.zipIdx).foldl (fun s b => s.ownPutByte v.ctx (pa + b.2) b.1) s
      (s.sieveWrite true pa r.2.length).triggerWrite pa r.2) (s.setL2 die line Line.none)
    v.arr.foldl (fun s va => s.arriveAt v.ctx va (line * 128)) s

/-- The way that an access of a context gives a line in a die: that of a line already held; else a free one among those
it may use, or that of the victim among their lines, which leaves (R322). None when it may use none. -/
def State.takeWay (s : State) (die ctx line : Nat) : State × Option Nat :=
  let l := s.l2Line die line
  if l.held ≠ 0 then (s, some l.way)
  else
    let ways := s.usableWays die ctx line
    let ms := s.mates die line
    match ways.find? (fun w => !ms.any (fun m => m.2.way == w)) with
    | some w => (s, some w)
    | none =>
      match victimOf (ms.filter (fun m => ways.contains m.2.way)) with
      | none => (s, none)
      | some v => ((ms.filter (fun m => m.2.way == v.2.way)).foldl (fun s m => s.evictL2 die m.1) s, some v.2.way)

/-- Writes one byte at its owning point for a context (R244, R350, R364). In HBM the home line takes it;
a line of another owner gives up its dirty bytes first; a slice without ways goes uncached (R363). -/
def State.ownWriteByte (s : State) (ctx pa : Nat) (b : Byte) : State :=
  let s := s.unpoison pa
  if isHbm pa then
    let die := s.ownerDie pa
    let line := pa / 128
    let l := s.l2Line die line
    let s := if l.ctx ≠ ctx ∧ l.dirty ≠ 0 then s.homeToMem die line else s
    match s.takeWay die ctx line with
    | (s, none) => s.putMem (s.keyOf ctx) pa b
    | (s, some w) =>
      let l := { ((s.l2Line die line).put (pa % 128) b true) with
        ctx := ctx
        inc := (s.ctx ctx).inc
        way := w
        used := s.steps }
      s.setL2 die line l
  else s.putMem (s.keyOf ctx) pa b

/-- Writes bytes at their owning point, and lets the watchers of the owning point see them. -/
def State.ownWrite (s : State) (ctx : Nat) (mark : Bool) (pa : Nat) (bs : List Byte) : State :=
  if s.noRoute pa then s.dropWrite pa else
  let s := (bs.zipIdx).foldl (fun s b => s.ownWriteByte ctx (pa + b.2) b.1) s
  (s.sieveWrite mark pa bs.length).triggerWrite pa bs

/-- Writes bytes with a release at `.sys`: they reach the memory below the L2 (R155), under a key. DEDUCED (log 8). -/
def State.sysWrite (s : State) (pa : Nat) (bs : List Byte) (key : Nat := 0) : State :=
  if s.noRoute pa then s.dropWrite pa else
  let lines := ((List.range (bs.length / 128 + 2)).map (fun k => pa / 128 + k)).filter (fun l =>
    isHbm pa && decide (l * 128 < pa + bs.length))
  let s := lines.foldl (fun s l => s.homeToMem (s.ownerDie (l * 128)) l) s
  let s := (bs.zipIdx).foldl (fun s b => (s.unpoison (pa + b.2)).putMem key (pa + b.2) b.1) s
  (s.sieveWrite false pa bs.length).triggerWrite pa bs

/-! ### Moving dirty bytes (R155, R240, R255) -/

/-- Writes dirty bytes of a line to their owning points, and counts the arrivals that waited in it. -/
def State.toOwner (s : State) (ctx line : Nat) (bs : List (Nat × Byte)) (arr : List Nat) : State :=
  let s := (runs bs).foldl (fun s r => s.ownWrite ctx true (line * 128 + r.1) r.2) s
  arr.foldl (fun s va => s.arriveAt ctx va (line * 128)) s

/-- Writes the dirty bytes of an L1 line below: to the visitor line of the die when another die owns the
line, the die may hold it and `far` is not asked for, else to the owning point. The bytes stay, clean. -/
def State.flushL1 (s : State) (core line : Nat) (far : Bool) : State :=
  let l := s.l1Line core line
  if l.dirty = 0 then s
  else
    let die := dieOfCore core
    let pa := line * 128
    let s := s.setL1 core line { l with dirty := 0, arr := [] }
    let near := isHbm pa && s.ownerDie pa != die && !far
    let p := if near then s.takeWay die l.ctx line else (s, Option.none)
    let s := p.1
    match p.2 with
    | some w =>
      let v := s.l2Line die line
      let s := if v.ctx ≠ l.ctx ∧ v.dirty ≠ 0 then s.toOwner v.ctx line v.dirtyBytes v.arr else s
      let v := if v.ctx ≠ l.ctx then { v with dirty := 0, arr := [] } else v
      let v := l.dirtyBytes.foldl (fun v p => v.put p.1 p.2 true) v
      s.setL2 die line { v with
        ctx := l.ctx
        inc := l.inc
        way := w
        used := s.steps
        arr := v.arr ++ l.arr }
    | Option.none =>
      let v := s.l2Line die line
      let s :=
        if isHbm pa && s.ownerDie pa != die && v != Line.none then
          let s := if v.ctx ≠ l.ctx ∧ v.dirty ≠ 0 then s.toOwner v.ctx line v.dirtyBytes v.arr else s
          let v := if v.ctx ≠ l.ctx then { v with dirty := 0, arr := [] } else v
          let v := { v with held := v.held &&& ~~~l.dirty, dirty := v.dirty &&& ~~~l.dirty }
          s.setL2 die line (if v.held = 0 then Line.none else v)
        else s
      s.toOwner l.ctx line l.dirtyBytes l.arr

/-- Writes the dirty bytes of a visitor line to their owning points. -/
def State.flushVisitor (s : State) (die line : Nat) : State :=
  let v := s.l2Line die line
  if v.dirty = 0 ∨ s.ownerDie (line * 128) = die then s
  else (s.setL2 die line { v with dirty := 0, arr := [] }).toOwner v.ctx line v.dirtyBytes v.arr

/-- A team's quota bytes become ordinary dirty bytes (R360). Those that a release at cluster scope had made visible to the
other core of the cluster reach the die's L2 with it (R155). -/
def State.endRelaunch (s : State) (team : Nat) : State :=
  if (s.team team).relaunch then
    let mine := s.quota.filter (fun q => q.team == team)
    let ctx := (s.team team).ctx
    mine.foldl (fun s q =>
      let l := s.l1Line q.core q.line
      let s := if l.dirty ≠ 0 ∧ l.ctx ≠ ctx then s.flushL1 q.core q.line true else s
      let l := s.l1Line q.core q.line
      let s := s.setL1 q.core q.line { (q.data.dirtyBytes.foldl (fun l p => l.put p.1 p.2 true) l) with
        ctx := ctx
        inc := (s.ctx ctx).inc
        way := if l.held = 0 then q.data.way else l.way
        arr := l.arr ++ q.data.arr }
      if q.shared = 0 then s else s.flushL1 q.core q.line false)
      { s.modTeam team (fun t => { t with relaunch := false }) with quota := s.quota.filter (fun q => q.team != team) }
  else s

/-- Lines of a core's L1 with dirty bytes of a context; those under a relaunch quota stand apart, and never go below L1
(R155, R240, R360). -/
def State.dirtyL1 (s : State) (core ctx : Nat) : List Nat :=
  ((s.l1.filter (fun p => p.1 % 256 == core && p.2.dirty != 0 && p.2.ctx == ctx)).map (fun p => p.1 / 256))

/-- Lines of a die's L2 with dirty bytes of a context. -/
def State.dirtyL2 (s : State) (die ctx : Nat) : List Nat :=
  ((s.l2.filter (fun p => p.1 % 8 == die && p.2.dirty != 0 && p.2.ctx == ctx)).map (fun p => p.1 / 8))

/-- The flush of a release at a level on a core (R155, R255). DESIGN CHOICE (log 54): all of the context. -/
def State.releaseAt (s : State) (core ctx lvl : Nat) : State :=
  if lvl = 0 then s
  else
    let die := dieOfCore core
    let s := (s.dirtyL1 core ctx).foldl (fun s l => s.flushL1 core l (decide (2 ≤ lvl))) s
    let s := if 2 ≤ lvl then (s.dirtyL2 die ctx).foldl (fun s l => s.flushVisitor die l) s else s
    if 3 ≤ lvl then
      (List.range 8).foldl (fun s d =>
        (s.dirtyL2 d ctx).foldl (fun s l => if s.ownerDie (l * 128) = d then s.homeToMem d l else s) s) s
    else s

/-- The invalidation of an acquire at a level (R156, R255). -/
def State.acquireAt (s : State) (core ctx lvl : Nat) : State :=
  if lvl = 0 then s
  else
    let die := dieOfCore core
    let clean := fun (q : FMap Line) (f : Nat → Line → Bool) =>
      ((q.map (fun p => if f p.1 p.2 then (p.1, p.2.dropClean) else p)).filter
        (fun p => p.2 != Line.none) : FMap Line)
    let s := { s with l1 := clean s.l1 (fun k _ => k % 256 == core) }
    if 2 ≤ lvl then
      { s with l2 := clean s.l2 (fun k l => k % 8 == die && l.ctx == ctx &&
          s.ownerDie (k / 8 * 128) != die) }
    else s

/-- Scope level of a team's release or acquire: within a cluster team, group and team scope act as
cluster scope (R154). -/
def State.scopeLevel (s : State) (team : Nat) (sc : Scope) : Nat :=
  if (s.team team).cluster && (sc == .grp || sc == .tem) then 1 else sc.level

/-- Whether a release at a scope ends a team's relaunchability: wider than team scope, or than cluster
scope in a cluster team (R360). -/
def State.widerThanTeam (s : State) (team : Nat) (sc : Scope) : Bool :=
  match sc with
  | .thr | .grp | .tem => false
  | .clu => !(s.team team).cluster
  | _ => true

/-- The other core of a core's cluster (R35). -/
def partnerOf (core : Nat) : Nat := if core % 2 = 0 then core + 1 else core - 1

/-- A release at cluster scope of a team that spans a cluster: the quota bytes that its core has stored since the last become
visible to the other core, and stand over what that core held of them, though none leaves L1 (R154, R155, R240, R360).
DEDUCED (log 25). -/
def State.publish (s : State) (team core : Nat) : State :=
  let fresh := fun (line : Nat) => (s.quota.find? (fun q => q.core == core && q.team == team && q.line == line)).elim 0
    (fun q => q.data.held &&& ~~~q.shared)
  { s with quota := s.quota.filterMap (fun q =>
      if q.team = team ∧ q.core = core then some { q with shared := q.data.held }
      else if q.team = team ∧ q.core = partnerOf core then
        let keep := ~~~(fresh q.line)
        let d := { q.data with held := q.data.held &&& keep, dirty := q.data.dirty &&& keep }
        if d.held == 0 then Option.none else some { q with data := d, shared := q.shared &&& keep }
      else some q) }

/-- A release of a group at a scope (R155, R360). -/
def State.release (s : State) (g : Group) (sc : Scope) : State :=
  let s := if s.widerThanTeam g.team sc then s.endRelaunch g.team else s
  let lvl := s.scopeLevel g.team sc
  let s := if (s.team g.team).relaunch && decide (1 ≤ lvl) then s.publish g.team g.core else s
  s.releaseAt g.core g.ctx lvl

/-- An acquire of a group at a scope. -/
def State.acquire (s : State) (g : Group) (sc : Scope) : State :=
  s.acquireAt g.core g.ctx (s.scopeLevel g.team sc)

/-! ### Loads and stores through L1 -/

/-- A line of a die's L2 is used (R322). -/
def State.touch (s : State) (die line : Nat) : State :=
  let l := s.l2Line die line
  if l.held = 0 then s else s.setL2 die line { l with used := s.steps }

/-- A read of a context reaches the owning point of a line: a line of HBM that is not whole in its die's L2 takes a place
there, in a way of the context's partition, under a CPOL (R225, R322). One that the context does not read in the clear takes
none (R397). -/
def State.homeFill (s : State) (ctx line cpol : Nat) : State :=
  let pa := line * 128
  let die := s.ownerDie pa
  if !isHbm pa then s
  else if (s.l2Line die line).held = BitVec.allOnes 128 || s.poisoned pa ||
      (List.range 128).any (fun j => s.seals.get 0 (pa + j) != s.keyOf ctx) then s.touch die line
  else
    match s.takeWay die ctx line with
    | (s, Option.none) => s
    | (s, some w) =>
      let h := s.l2Line die line
      s.setL2 die line { h with
        data := BitVec.ofNat 1024 (leNat (s.seenBytes ctx pa 128))
        held := BitVec.allOnes 128
        ctx := if h.dirty = 0 then ctx else h.ctx
        inc := if h.dirty = 0 then (s.ctx ctx).inc else h.inc
        way := w
        cpol := if h.held = 0 then cpol else h.cpol
        used := s.steps }

/-- What an access below L1 returns for a line: its bytes and whether it is poisoned; the line takes its place in the owning
die's L2 and, as a visitor, in the core's own, under a CPOL (R225, R237, R239, R322). A copy that is not whole gives its dirty
bytes only, so that every word is read at one place (R246). -/
def State.belowL1 (s : State) (die ctx line : Nat) (cpol : Nat := 0) : State × List Byte × Bool :=
  let pa := line * 128
  if isHbm pa && s.ownerDie pa != die then
    let v := s.l2Line die line
    if v.held = BitVec.allOnes 128 then (s.touch die line, (List.range 128).map v.byte, false)
    else
      let bs := (List.range 128).map (fun j => if v.isDirty j then v.byte j else s.ownSeen ctx (pa + j))
      if s.poisoned pa then (s, bs, true)
      else
        match (s.homeFill ctx line cpol).takeWay die ctx line with
        | (s, Option.none) => (s, bs, false)
        | (s, some w) =>
          let v := { ((s.l2Line die line).puts false 0 bs) with
            dirty := v.dirty
            ctx := if v.dirty = 0 then ctx else v.ctx
            inc := if v.dirty = 0 then (s.ctx ctx).inc else v.inc
            way := w
            cpol := if (s.l2Line die line).held = 0 then cpol else v.cpol
            used := s.steps }
          (s.setL2 die line v, bs, false)
  else (s.homeFill ctx line cpol, s.seenBytes ctx pa 128, s.poisoned pa)

/-- The byte under a relaunch quota that a core reads: one in its own L1, or else one that the other core of its cluster has
made visible to it (R155, R360). -/
def State.quotaByte (s : State) (core pa : Nat) : Option Byte :=
  let byte := fun (q : QuotaLine) => q.data.byte (pa % 128)
  match s.quota.find? (fun q => q.core == core && q.line == pa / 128 && q.data.has (pa % 128)) with
  | some q => some (byte q)
  | Option.none => (s.quota.find? (fun q => q.core == partnerOf core && q.line == pa / 128 && q.shared.getLsbD (pa % 128))).map byte

/-- The lines that a core's L1 holds, but for one, each with its way: ordinary ones and those under a quota. -/
def State.l1Held (s : State) (core line : Nat) : List (Nat × Nat) :=
  let own := (s.l1.filter (fun p => p.1 % 256 == core && p.1 / 256 != line)).map (fun p => (p.1 / 256, p.2.way))
  own ++ (((s.quota.filter (fun q => q.core == core && q.line != line && !own.any (fun p => p.1 == q.line))).map
    (fun q => (q.line, q.data.way))).dedup)

/-- A line leaves a core's L1, its dirty bytes first; quota bytes that must leave with it end the relaunchability of their
team (R238, R360). -/
def State.evictL1 (s : State) (core line : Nat) : State :=
  let s := ((s.quota.filter (fun q => q.core == core && q.line == line)).map QuotaLine.team).foldl State.endRelaunch s
  (s.flushL1 core line false).setL1 core line Line.none

/-- The way of a core's L1 that takes a line: that of the line, else one with room, else that of another line, which leaves;
one with quota bytes only when no other can, and for a scout never (R3, R52, R238, R360). None when no way is left. DESIGN
CHOICE (log 50): the victim is a free value. PRESUMED (log 37): sixteen ways of 128 lines. -/
def State.l1Room (s : State) (core line : Nat) (scout : Bool := false) : State × Option Nat :=
  let l := s.l1Line core line
  if l.held ≠ 0 then (s, some l.way)
  else
    match s.quota.find? (fun q => q.core == core && q.line == line) with
    | some q => (s, some q.data.way)
    | Option.none =>
      let held := s.l1Held core line
      let ways := (List.range 16).filter (fun w => !(s.core core).l1Out.contains w)
      match ways.find? (fun w => decide ((held.filter (fun p => p.2 == w)).length < 128)) with
      | some w => (s, some w)
      | Option.none =>
        let may := held.filter (fun p => ways.contains p.2)
        let free := may.filter (fun p => !s.quota.any (fun q => q.core == core && q.line == p.1))
        let may := if free.isEmpty && !scout then may else free
        match may[Config.victim s.free % may.length]? with
        | Option.none => (s, Option.none)
        | some v => (s.tick.evictL1 core v.1, some v.2)

/-- Whether a core's L1 holds every byte of an access within one line. -/
def State.l1Hit (s : State) (core pa n : Nat) : Bool :=
  (List.range n).all (fun k => (s.l1Line core (pa / 128)).has (pa % 128 + k) || (s.quotaByte core (pa + k)).isSome)

/-- A load of `n` bytes within one line by a core (R238): the bytes and whether the read is poison. A line that is not held
whole where the load reads is fetched, and only its dirty bytes stay (R246). -/
def State.l1Read (s : State) (core ctx pa n : Nat) (scout : Bool := false) : State × List Byte × Bool :=
  let line := pa / 128
  let l := s.l1Line core line
  let js := (List.range n).map (fun k => pa % 128 + k)
  let top := fun (j : Nat) (b : Byte) => (s.quotaByte core (line * 128 + j)).getD b
  if s.l1Hit core pa n then (s, js.map (fun j => top j (l.byte j)), false)
  else
    let (s, bs, bad) := s.belowL1 (dieOfCore core) ctx line
    if bad then (s, js.map (fun j => top j (if l.has j then l.byte j else bs.getD j 0)), true)
    else
      let full := bs.zipIdx.foldl (fun m b => if l.isDirty b.2 then m else m.put b.2 b.1 false) l
      let full := if l.dirty = 0 then { full with ctx := ctx, inc := (s.ctx ctx).inc } else full
      let r := s.l1Room core line scout
      (match r.2 with
        | some w => r.1.setL1 core line { full with way := w }
        | Option.none => r.1, js.map (fun j => top j (full.byte j)), false)

/-- Brings a line's dirty bytes of the core and of its die's visitor copy to the owning point, and drops
both copies: before an atomic, and before a transactional load (R165, R171). -/
def State.gather (s : State) (core line : Nat) : State :=
  let s := s.flushL1 core line true
  let die := dieOfCore core
  let s := s.flushVisitor die line
  let s := if isHbm (line * 128) && s.ownerDie (line * 128) != die then s.setL2 die line Line.none else s
  s.setL1 core line Line.none

/-- Lines that hold a team's quota bytes, in bytes (R360). -/
def State.quotaBytes (s : State) (team : Nat) : Nat := 128 * (s.quota.filter (fun q => q.team == team)).length

/-- The mask of `n` bytes of a line from byte `j` on. -/
def byteMask (j n : Nat) : BitVec 128 := (BitVec.allOnes 128 >>> (128 - n)) <<< j

/-- Bytes of a line stand under the relaunch quota no more, in the quota lines that `which` names. -/
def State.dropQuota (s : State) (which : QuotaLine → Bool) (line : Nat) (m : BitVec 128) : State :=
  { s with quota := s.quota.filterMap (fun q =>
      if which q && q.line == line then
        let keep := ~~~m
        let d := { q.data with held := q.data.held &&& keep, dirty := q.data.dirty &&& keep }
        if d.held == 0 then Option.none else some { q with data := d, shared := q.shared &&& keep }
      else some q) }

/-- A team's store of bytes of a line on a core: no byte of another team under a quota stands over it, neither in the core's L1
nor as one that the other core of its cluster has made visible (R155, R263, R360). -/
def State.overQuota (s : State) (core team line : Nat) (m : BitVec 128) : State :=
  let s := s.dropQuota (fun q => q.core == core && q.team != team) line m
  { s with quota := s.quota.map (fun q =>
      if q.core = partnerOf core ∧ q.team ≠ team ∧ q.line = line then { q with shared := q.shared &&& ~~~m } else q) }

/-- A store of a context into a line of a core's L1: dirty bytes of another context there first reach their owning point, and
the line takes the new owner (R350). -/
def State.ownLine (s : State) (core ctx line : Nat) : State :=
  let l := s.l1Line core line
  if l.dirty != 0 && l.ctx != ctx then
    let t := s.flushL1 core line true
    t.setL1 core line { t.l1Line core line with ctx := ctx, inc := (s.ctx ctx).inc }
  else s

/-- Stores bytes under the quota of a team (R360). -/
def State.quotaPut (s : State) (core team line way : Nat) (j : Nat) (bs : List Byte) (arr : List Nat) : State :=
  let mine := fun (q : QuotaLine) => q.core == core && q.team == team && q.line == line
  let d := ((s.quota.find? mine).map QuotaLine.data).getD Line.none
  let sh := ((s.quota.find? mine).map QuotaLine.shared).getD 0
  let q : QuotaLine := ⟨core, team, line, { (d.puts true j bs) with
    ctx := (s.team team).ctx
    inc := (s.team team).inc
    way := way
    arr := d.arr ++ arr }, sh &&& ~~~(byteMask j bs.length)⟩
  { s with quota := s.quota.filter (fun q => !mine q) ++ [q] }

/-- A store of bytes within one line by a team on a core: dirty in L1 (R238), under the team's quota
while it is relaunchable (R360). Dirty bytes of another context in the line reach their owning point first, and the line takes
the new owner (R350). `arr` holds the address of a lane's store that may count in an arrival window
(R287). -/
def State.l1Write (s : State) (core ctx team pa : Nat) (bs : List Byte) (arr : List Nat) : State :=
  let line := pa / 128
  let beyond := (s.team team).relaunch && !s.quota.any (fun q => q.core == core && q.team == team && q.line == line) &&
    decide ((s.launch (s.team team).launch).kernel.rquota * 1024 < s.quotaBytes team + 128)
  let s := if beyond then s.endRelaunch team else s
  let s := (s.overQuota core team line (byteMask (pa % 128) bs.length)).ownLine core ctx line
  let r := s.l1Room core line
  let s := r.1
  match r.2 with
  | some w =>
    if (s.team team).relaunch then s.quotaPut core team line w (pa % 128) bs arr
    else
      let l := s.l1Line core line
      s.setL1 core line { (l.puts true (pa % 128) bs) with
        ctx := ctx
        inc := (s.ctx ctx).inc
        way := w
        arr := l.arr ++ arr }
  | Option.none => arr.foldl (fun s va => s.arriveAt ctx va pa) (((s.endRelaunch team).gather core line).ownWrite ctx true pa bs)

/-- A write by an engine (R258): at the owning point, and the lines it writes are invalidated in the
issuing core's L1 and in its die's visitor copies, once their dirty bytes have been written. Lines that it allocates take the
CPOL of its record (R225). -/
def State.engineWrite (s : State) (core ctx : Nat) (mark : Bool) (pa : Nat) (bs : List Byte) (cpol : Nat) : State :=
  let lines := (List.range (bs.length / 128 + 2)).map (fun k => pa / 128 + k)
  let lines := lines.filter (fun l => decide (l * 128 < pa + bs.length))
  let fresh := lines.filter (fun l => (s.l2Line (s.ownerDie (l * 128)) l).held = 0)
  let s := lines.foldl (fun s l => s.gather core l) s
  let s := s.ownWrite ctx mark pa bs
  fresh.foldl (fun s l =>
    let h := s.l2Line (s.ownerDie (l * 128)) l
    if h.held = 0 then s else s.setL2 (s.ownerDie (l * 128)) l { h with cpol := cpol }) s

/-- A read by an engine for a context, through the issuing die's L2 (R258): bytes, and whether any is poison. Lines that it
brings take the CPOL of its record, and those that it finds are used (R225, R322). A visitor copy that is not whole gives its
dirty bytes only (R246). -/
def State.engineRead (s : State) (die ctx pa n cpol : Nat) : State × List Byte × Bool :=
  let bad := (List.range n).any (fun k =>
    let a := pa + k
    let v := s.l2Line die (a / 128)
    s.poisoned a && !(isHbm a && s.ownerDie a != die && (v.held == BitVec.allOnes 128 || v.isDirty (a % 128))))
  let lines := ((List.range (n / 128 + 2)).map (fun k => pa / 128 + k)).filter (fun l => decide (l * 128 < pa + n))
  let r := lines.foldl (fun (a : State × List Byte) l =>
    let b := a.1.belowL1 die ctx l cpol
    (b.1, a.2 ++ b.2.1)) (s, [])
  (r.1, (r.2.drop (pa % 128)).take n, bad)

end Sys2Proof.Machine
end

