-- ==== Sys2Proof/Machine/Translate.lean ====
section
/-! DEFINITION. Address translation: entries, walks, cached translations, forwarding chains, usable bytes
(spec/22, R310, R315, R344), and the accesses the device makes on a context's behalf. -/

namespace Sys2Proof.Machine

/-! ### Entries (R341, R342) -/

/-- Fields of a page-table entry. -/
def pteV (e : W64) : Bool := e.getLsbD 0
def pteTbl (e : W64) : Bool := e.getLsbD 1
def pteR (e : W64) : Bool := e.getLsbD 2
def pteW (e : W64) : Bool := e.getLsbD 3
def pteX (e : W64) : Bool := e.getLsbD 4
def pteRsv (e : W64) : Nat := (e.extractLsb' 5 7).toNat
def pteAddr (e : W64) : Nat := (e.extractLsb' 12 40).toNat
def pteFwd (e : W64) : Bool := e.getLsbD 52
def pteProt (e : W64) : Nat := (e.extractLsb' 53 2).toNat
def pteSieve (e : W64) : Bool := e.getLsbD 55
def pteMov (e : W64) : Bool := e.getLsbD 56
def pteRes (e : W64) : Nat := (e.extractLsb' 57 3).toNat
def pteSize (e : W64) : Nat := (e.extractLsb' 60 4).toNat

/-- Bytes of a leaf page, by SIZE. -/
def pageBytes (sz : Nat) : Nat :=
  if sz < 5 then 4096 * 4 ^ sz else if sz < 10 then 2097152 * 4 ^ (sz - 5) else 1073741824 * 4 ^ (sz - 10)

/-- Level of a leaf, by SIZE; 5 for an invalid size. -/
def pageLevel (sz : Nat) : Nat := if sz < 5 then 0 else if sz < 10 then 1 else if sz < 12 then 2 else 5

/-- What a walk finds in an entry (R342). -/
inductive Entry
  | absent
  | table (pa : Nat)
  | leaf (e : W64)
  | fwd (va : Nat)
deriving DecidableEq, Repr

/-- Reads an entry at a level (R342). A forwarding entry has V, FWD and SIZE 2 set and nothing else
outside ADDR. -/
def Entry.read (level : Nat) (e : W64) : Entry :=
  if !pteV e then .absent
  else if pteFwd e then
    if level = 0 ∧ e &&& ~~~0x000FFFFFFFFFF000#64 = 0x2010000000000001#64 then .fwd (pteAddr e * 65536)
    else .absent
  else if pteRsv e ≠ 0 ∨ pteProt e = 3 then .absent
  else if pteTbl e then (if level = 0 then .absent else .table (pteAddr e * 4096))
  else if pageLevel (pteSize e) ≠ level then .absent
  else .leaf e

/-- Index of a virtual address at a level (R340). -/
def vaIndex (level va : Nat) : Nat := va / 2 ^ (12 + 9 * level) % 512

/-- The 8-byte word at an owning point. -/
def State.ownWord (s : State) (pa : Nat) : W64 := BitVec.ofNat 64 (leNat (s.ownBytes pa 8))

/-- The words that the Memory core has changed and that a walk may still take as they were (R346). -/
def State.staleNow (s : State) : List (Nat × W64 × Nat) := s.stale.filter (fun w => decide (s.steps < w.2.2))

/-- The word of a page table that a walk reads: `old` says that it runs in a die, where a change that is not yet confirmed
leaves it the old word or the new, whichever the free value says (R346). -/
def State.tableWord (s : State) (old : Bool) (pa : Nat) : W64 :=
  match s.staleNow.find? (fun w => w.1 == pa) with
  | some w => if old && Config.walkOld s.steps pa then w.2.1 else s.ownWord pa
  | none => s.ownWord pa

/-- Walks from the table at `pa` of a level down (R340): the leaf or forwarding entry reached. Entries
256 to 511 of level 4 read as not present. -/
def State.walkFrom (s : State) (old : Bool) (va : Nat) : Nat → Nat → Entry
  | 0, pa => Entry.read 0 (s.tableWord old (pa + 8 * vaIndex 0 va))
  | level + 1, pa =>
    if level = 3 ∧ 256 ≤ vaIndex 4 va then .absent
    else
      match Entry.read (level + 1) (s.tableWord old (pa + 8 * vaIndex (level + 1) va)) with
      | .table next => s.walkFrom old va level next
      | x => x

/-- The entry that maps a virtual address of a context, as the tables stand; at 2^56 and above none does. -/
def State.walk (s : State) (ctx va : Nat) : Entry :=
  if 2 ^ 56 ≤ va then .absent else s.walkFrom false va 4 (s.ctx ctx).root.toNat

/-- The tables that a walk passes through, with their levels, for the walk caches. -/
def State.walkPath (s : State) (old : Bool) (va : Nat) : Nat → Nat → List (Nat × Nat)
  | 0, _ => []
  | level + 1, pa =>
    match Entry.read (level + 1) (s.tableWord old (pa + 8 * vaIndex (level + 1) va)) with
    | .table next => (level + 1, next) :: s.walkPath old va level next
    | _ => []

/-! ### Cached translations (R345) -/

/-- The page of an entry: base and bytes. -/
def entryPage (va : Nat) (e : Entry) : Nat × Nat :=
  match e with
  | .leaf x => (va / pageBytes (pteSize x) * pageBytes (pteSize x), pageBytes (pteSize x))
  | _ => (va / 65536 * 65536, 65536)

/-- The raw word of a leaf or forwarding entry. -/
def Entry.word : Entry → W64
  | .leaf e => e
  | .fwd va => 0x2010000000000001#64 ||| (BitVec.ofNat 64 (va / 65536) <<< 12)
  | _ => 0

/-- Entries that a place holds at most. Walk caches have no stated size. -/
def TlbPlace.capacity : TlbPlace → Option Nat
  | .data _ => some 128
  | .instr _ => some 32
  | .shared _ => some 8192
  | .walk _ _ => none

/-- Whether a TLB still uses an entry: no shootdown has removed it, or the TLB has not confirmed it (R347). -/
def State.tlbLive (s : State) (e : TlbEntry) : Bool := e.dies.all (fun n => decide (s.steps < n))

/-- A cached translation of a place, for a context and its current incarnation. -/
def State.tlbFind (s : State) (p : TlbPlace) (ctx va : Nat) : Option TlbEntry :=
  s.tlb.find? (fun e => e.place == p && e.ctx == ctx && e.inc == (s.ctx ctx).inc && s.tlbLive e &&
    decide (e.base ≤ va ∧ va < e.base + e.size))

/-- Whether a cached translation is what the tables now give. -/
def State.tlbCurrent (s : State) (e : TlbEntry) : Bool :=
  match e.place with
  | .walk _ n => (s.walkPath false e.base 4 (s.ctx e.ctx).root.toNat).any (fun t => t.1 == n && t.2 == e.entry.toNat)
  | _ => (s.walk e.ctx e.base).word == e.entry

/-- Caches a translation; a full place loses its oldest entry. One that the tables no longer give goes with the earliest
shootdown under way (R346, R347). -/
def State.tlbAdd (s : State) (e : TlbEntry) : State :=
  let live := s.tlb.filter s.tlbLive
  let mine := live.filter (fun x => x.place == e.place)
  let kept := match e.place.capacity, mine.head? with
    | some n, some old => if n ≤ mine.length then live.erase old else live
    | _, _ => live
  let ends := s.staleNow.map (fun w => w.2.2)
  let e := match ends with
    | [] => e
    | n :: ns => if s.tlbCurrent e then e else { e with dies := some (ns.foldl min n) }
  { s with tlb := kept ++ [e] }

/-- A walk by a die for a context: from the deepest table that its walk caches hold for the address, else from the
root (R345). -/
def State.walkCached (s : State) (die ctx va : Nat) : Entry :=
  match [1, 2, 3, 4].findSome? (fun n => (s.tlbFind (.walk die n) ctx va).map (fun e => (n, e.entry.toNat))) with
  | some (n, table) => if 2 ^ 56 ≤ va then .absent else s.walkFrom true va (n - 1) table
  | none => if 2 ^ 56 ≤ va then .absent else s.walkFrom true va 4 (s.ctx ctx).root.toNat

/-- Looks an address up: the core's TLB, the die's shared TLB, then a walk, whose result is cached unless
it is not present (R345, R346). -/
def State.lookup (s : State) (core ctx va : Nat) (fetch : Bool) : State × Entry :=
  let die := dieOfCore core
  let near : TlbPlace := if fetch then .instr core else .data core
  match s.tlbFind near ctx va with
  | some e => (s, Entry.read (pageLevel (pteSize e.entry)) e.entry)
  | none =>
    let inc := (s.ctx ctx).inc
    let add := fun (s : State) (p : TlbPlace) (x : Entry) =>
      let pg := entryPage va x
      s.tlbAdd ⟨p, ctx, inc, pg.1, pg.2, x.word, none⟩
    match s.tlbFind (.shared die) ctx va with
    | some e =>
      let x := Entry.read (pageLevel (pteSize e.entry)) e.entry
      (add s near x, x)
    | none =>
      let x := s.walkCached die ctx va
      match x with
      | .absent | .table _ => (s, .absent)
      | _ =>
        let s := (s.walkPath true va 4 (s.ctx ctx).root.toNat).foldl (fun s t =>
          let size := 2 ^ (12 + 9 * t.1)
          let e : TlbEntry := ⟨.walk die t.1, ctx, inc, va / size * size, size, BitVec.ofNat 64 t.2, none⟩
          if (s.tlbFind e.place ctx va).isSome then s else s.tlbAdd e) s
        (add (add s (.shared die) x) near x, x)

/-- Removes every cached translation that meets a range of a context's addresses (R347). -/
def State.shootdown (s : State) (ctx va len : Nat) : State :=
  { s with tlb := s.tlb.filter (fun e => !(e.ctx == ctx && decide (e.base < va + len ∧ va < e.base + e.size))) }

/-! ### Translation -/

/-- What an access needs of a page (R343). -/
inductive Need | read | write | rw | fetch
deriving DecidableEq, Repr

def Need.allowed (n : Need) (e : W64) : Bool :=
  match n with
  | .read => pteR e
  | .write => pteW e
  | .rw => pteR e && pteW e
  | .fetch => pteX e

/-- Usable bytes of a frame, by PROT (R344). -/
def usable (prot : Nat) : Nat := if prot = 0 then 2064384 else if prot = 1 then 1966080 else 1835008

/-- Physical address of a virtual address in a leaf page. -/
def leafPa (e : W64) (va : Nat) : Nat :=
  let n := pageBytes (pteSize e)
  pteAddr e * 4096 / n * n + va % n

/-- What became of a translation. `ok` gives the physical address, the leaf, the address finally
reached, and the hops taken. `transit` says the address reached lies in a tile in transit. -/
inductive Xlat
  | ok (pa : Nat) (leaf : W64) (va hops : Nat)
  | transit (va hops : Nat)
  | fault (code : Nat)
deriving DecidableEq, Repr

/-- Whether a virtual address of a context lies in a tile in transit (R313, R314). -/
def State.inTransit (s : State) (ctx va : Nat) : Bool :=
  s.moving.any (fun m => m.ctx == ctx && m.f / 65536 == va / 65536 && decide (1 ≤ m.stage ∧ m.stage < 7) &&
    !m.abandoned)

/-- Adds a hit to the mark of a page (R315); the count stays at 2^32 − 1. -/
def State.hitMark (s : State) (ctx va : Nat) : State :=
  s.modCtx ctx (fun c =>
    { c with hits := c.hits.set 0 (va / 65536) (min 4294967295 (c.hits.get 0 (va / 65536) + 1)) })

/-- Translates an address for a context on a core, chasing forwarding entries (R315): `fuel` hops are
left of three. `count` says whether marks are hit. -/
def State.chase (s : State) (core ctx : Nat) (need : Need) (n : Nat) (count : Bool) :
    Nat → Nat → State × Xlat
  | fuel, va =>
    let (s, e) := s.lookup core ctx va (need == .fetch)
    match e with
    | .leaf x =>
      if !need.allowed x then (s, .fault 5)
      else
        let pa := leafPa x va
        if isHbm pa && decide (usable (pteProt x) < pa % 2097152 + n) then (s, .fault 7)
        else if s.inTransit ctx va then (s, .transit va (3 - fuel))
        else (s, .ok pa x va (3 - fuel))
    | .fwd dest =>
      match fuel with
      | 0 => (s, .fault 6)
      | fuel + 1 =>
        let s := if count then s.hitMark ctx va else s
        s.chase core ctx need n count fuel (dest + va % 65536)
    | _ => (s, .fault 4)

/-- Translates an address from its first page. `count` says whether marks are hit: not by a scout (R52). -/
def State.translate (s : State) (core ctx : Nat) (need : Need) (va n : Nat) (count : Bool := true) : State × Xlat :=
  if 2 ^ 56 ≤ va then (s, .fault 5) else s.chase core ctx need n count 3 va

/-- Whether a page may move or has moved: its translation is movable or a forwarding entry (R148, R310). -/
def State.pageMoves (s : State) (core ctx va : Nat) : Bool :=
  match (s.lookup core ctx va false).2 with
  | .leaf e => pteMov e && pteSize e == 2 && !isFar (pteAddr e * 4096)
  | .fwd _ => true
  | _ => false

/-- The shootdown of a change of mapping: every cached translation that the tables no longer give goes from each TLB and
walk cache as that confirms it, at the latest at step `last` (R347). -/
def State.purge (s : State) (last : Nat) : State :=
  { s with tlb := (s.tlb.filter s.tlbLive).zipIdx.map (fun e =>
      if e.1.dies.isSome || s.tlbCurrent e.1 then e.1
      else { e.1 with dies := some (min last (s.steps + Config.confirms s.steps (e.2 + 1))) }) }

/-- Every shootdown under way is confirmed (R347). -/
def State.confirmed (s : State) : State :=
  { s with
    stale := []
    unmapped := []
    tlb := s.tlb.filter (fun e => e.dies.isNone) }

end Sys2Proof.Machine
end

