-- ==== Sys2Proof/Machine/Tile.lean ====
section
/-! DEFINITION. What the Memory core and the relocation engine do to mappings: leaves and frames, page-ins, and the
steps of a move of a tile (R310 to R321, R330, R340 to R347). -/

namespace Sys2Proof.Machine

/-! ### Leaves and frames (R344) -/

/-- Leaf entries below a table of a level: each entry's place, its address range's start, and its word. -/
def State.leafEntries (s : State) : Nat → Nat → Nat → List (Nat × Nat × W64)
  | 0, pa, va => (List.range 512).filterMap (fun k =>
    match Entry.read 0 (s.ownWord (pa + 8 * k)) with
    | .leaf e => some (pa + 8 * k, va + 4096 * k, e)
    | _ => none)
  | level + 1, pa, va => (List.range (if level = 3 then 256 else 512)).flatMap (fun k =>
    let at_ := va + k * 2 ^ (12 + 9 * (level + 1))
    match Entry.read (level + 1) (s.ownWord (pa + 8 * k)) with
    | .table next => s.leafEntries level next at_
    | .leaf e => [(pa + 8 * k, at_, e)]
    | _ => [])

/-- Leaf entries of every context. -/
def State.allLeaves (s : State) : List (Nat × Nat × Nat × W64) :=
  s.ctxs.flatMap (fun c => (s.leafEntries 4 c.2.root.toNat 0).map (fun e => (c.1, e)))

/-- Physical base and bytes of the page of a leaf. -/
def leafRange (e : W64) : Nat × Nat := (leafPa e 0, pageBytes (pteSize e))

/-- Whether the package has the memory of a physical range (R3, R4, R343): HBM of 1 TiB, and of a vault what its save slots
and estate store leave. DESIGN CHOICE (log 5): the window stands at the vault's start. -/
def State.hasRange (s : State) (pa n : Nat) : Bool :=
  let o := pa % 2 ^ 50
  match paSpace pa with
  | 0 => decide (o + n ≤ 2 ^ 40)
  | 1 =>
    let c := s.core (vaultCore pa)
    decide (o < 2 ^ 32 ∧ o % 16777216 + n ≤ 16777216 - c.slots * 2097152 - c.store)
  | _ => true

/-- Whether two physical ranges meet. -/
def overlaps (a n b m : Nat) : Bool := decide (a < b + m ∧ b < a + n)

/-- Whether a written word maps a page: it reads as a leaf of some level (R342). -/
def mapsPage (e : W64) : Bool :=
  match Entry.read (pageLevel (pteSize e)) e with
  | .leaf _ => true
  | _ => false

/-- HBM frames that a page takes part in. -/
def framesOf (e : W64) : List Nat :=
  let r := leafRange e
  if isHbm r.1 then (List.range ((r.1 % 2097152 + r.2 + 2097151) / 2097152)).map (fun k => r.1 / 2097152 + k) else []

/-- The HBM frames that the contexts' mappings take part in, each with the mapping's PROT. -/
def State.leafProts (s : State) : List (Nat × Nat) :=
  s.allLeaves.flatMap (fun l => (framesOf l.2.2.2).map (fun f => (f, pteProt l.2.2.2)))

/-- The modes of the frames once mappings have changed: that of a frame without a mapping goes, and the first mapping of a
frame sets its mode (R344). -/
def State.reframe (s : State) : State :=
  let ps := s.leafProts
  { s with frameProt := ps.foldl (fun (m : FMap (Option Nat)) p =>
      if (m.get none p.1).isSome then m else m.set none p.1 (some p.2)) (s.frameProt.filter (fun f => ps.any (fun p => p.1 == f.1))) }

/-- Writes page-table entries, as the Memory core does. -/
def State.putEntries (s : State) (ws : List (Nat × W64)) : State :=
  ws.foldl (fun s w => s.sysWrite w.1 (leBytes 8 w.2.toNat)) s

/-- Whether the mappings map a frame with a mode that is not its own, or with two (R344). -/
def State.clashes (s : State) : Bool :=
  let ps := s.leafProts
  ps.any (fun a => (s.frameProt.get none a.1).any (fun p => p != a.2) || ps.any (fun b => b.1 == a.1 && b.2 != a.2))

/-- Whether the mappings that written entries make would clash. -/
def State.protClash (s : State) (writes : List (Nat × W64)) : Bool := (s.putEntries writes).clashes

/-- Whether the Memory core refuses a mapping by itself (R3, R364, R391). -/
def State.refusesMap (s : State) (e : W64) : Bool :=
  let pa := pteAddr e * 4096
  let r := leafRange e
  mapsPage e &&
  ((pteMov e && !s.featAcc.testBit 4) || (pteSieve e && !s.featAcc.testBit 5) ||
  (paSpace pa == 3 && !s.featAcc.testBit 7) || !s.hasRange r.1 r.2 ||
  s.retired.any (fun k => overlaps (k * 65536) 65536 r.1 r.2))

/-- Whether the pages of some sieve window stand in frames of more than one HBM stack (R369). DESIGN CHOICE (log 5): which
stack of its die holds a frame. -/
def State.sieveSplit (s : State) : Bool :=
  s.sieves.any (fun w =>
    let st := fun (pa : Nat) => 2 * s.ownerDie pa + Config.stackOf (pa / 2097152) % 2
    w.2.pages.any (fun a => w.2.pages.any (fun b => st a.2 != st b.2)))

/-- Leaf words of mappings that written entries remove or change: those that they replace, and, where a table goes, those
below it that no mapping holds any more (R347). -/
def State.unmaps (s : State) (writes : List (Nat × W64)) : List W64 :=
  let olds := (writes.filter (fun w => s.ownWord w.1 != w.2)).map (fun w => s.ownWord w.1)
  if olds.any (fun e => pteV e && pteTbl e && !pteFwd e) then
    let after := (s.putEntries writes).allLeaves.map (fun l => l.2.2.2)
    (s.allLeaves.map (fun l => l.2.2.2)).filter (fun e => !after.contains e)
  else olds.filter mapsPage

/-- Whether written entries map a page over a frame that a mapping removed before leaves in use, by a translation or a walk
that no TLB has confirmed the end of (R347). -/
def State.reuses (s : State) (writes : List (Nat × W64)) : Bool :=
  let gone := (s.unmapped.filter (fun (w : W64 × Nat) => decide (s.steps < w.2))).map Prod.fst ++
    (((s.tlb.filter s.tlbLive).filter (fun e => e.dies.isSome)).map TlbEntry.entry).filter mapsPage
  (writes.filter (fun w => mapsPage w.2)).any (fun w =>
    let r := leafRange w.2
    gone.any (fun e => let o := leafRange e
      overlaps r.1 r.2 o.1 o.2))

/-- Whether an open transaction holds a line in the pages of leaf words: its accesses have been translated and are not
complete (R347). -/
def State.txHolds (s : State) (es : List W64) : Bool :=
  s.groups.any (fun g => g.2.ids.any (fun i => (g.2.lane i).tx.any (fun t => (t.rlines ++ t.wlines).any (fun l =>
    es.any (fun e => let r := leafRange e
      overlaps r.1 r.2 (l * 128) 128)))))

/-- The Memory core writes entries of page tables, and the shootdown of what they change begins: up to the step at which
it is confirmed, a walk may take the words as they were, and a TLB the translations that it holds (R346, R347). A word that
was not present needs no shootdown, and no walk that begins later takes it. Frames are used again once an earlier shootdown
is confirmed, and the frames' modes follow the mappings (R344). -/
def State.remap (s : State) (writes : List (Nat × W64)) : State :=
  let s := if s.reuses writes then s.confirmed else s
  let last := s.steps + Config.confirms s.steps 0
  let olds := writes.filterMap (fun w =>
    if s.ownWord w.1 = w.2 ∨ !pteV (s.ownWord w.1) then none else some (w.1, s.ownWord w.1, last))
  let gone := (s.unmaps writes).map (fun e => (e, last))
  (({ s with
    stale := olds ++ s.staleNow
    unmapped := gone ++ s.unmapped.filter (fun (w : W64 × Nat) => decide (s.steps < w.2)) }.putEntries writes).purge last).reframe

/-- Follows a chain of forwarding entries from an address: the address reached, and whether a fourth hop
would be needed. -/
def State.follow (s : State) (ctx : Nat) : Nat → Nat → Nat × Bool
  | fuel, va =>
    match s.walk ctx va with
    | .fwd dest =>
      match fuel with
      | 0 => (va, true)
      | fuel + 1 => s.follow ctx fuel (dest + va % 65536)
    | _ => (va, false)

/-- Makes the page that an address leads to present, where the mapping allows (R315, R330, R344, R364). -/
def State.pageIn (s : State) (ctx va : Nat) : State × Bool :=
  let va := (s.follow ctx 3 va).1
  match (s.ctx ctx).backing.find? (fun b => decide (b.va ≤ va ∧ va < b.va + b.len)) with
  | some b =>
    if b.writes.any (fun w => s.refusesMap w.2) || s.protClash b.writes then (s, false)
    else ((s.remap b.writes).modCtx ctx (fun c => { c with backing := c.backing.erase b }), true)
  | none =>
    match s.walk ctx va with
    | .leaf _ | .fwd _ => (s, true)
    | _ => (s, false)

/-! ### Pages and chains -/

/-- The leaf that maps a 64 KiB page of a context by a walk. -/
def State.pageLeaf (s : State) (ctx va : Nat) : Option W64 :=
  match s.walk ctx va with
  | .leaf e => some e
  | _ => none

/-! ### The steps of a move (R313) -/

/-- Transactions that hold a line of a tile abort at their next access (R174, R314). -/
def State.doomTx (s : State) (fpa : Nat) : State :=
  { s with groups := s.groups.map (fun (p : Nat × Group) =>
      (p.1, p.2.ids.foldl (fun g i =>
        match (g.lane i).tx with
        | some t =>
          if (t.rlines ++ t.wlines).any (fun l => l * 128 / 65536 == fpa / 65536) then
            g.modLane i (fun l => { l with tx := some { t with doomed := true } })
          else g
        | none => g) p.2)) }

/-- Accesses on their way to a tile that enters transit wait there (R313, R314). -/
def State.turnBack (s : State) (fpa : Nat) : State :=
  { s with groups := s.groups.map (fun (p : Nat × Group) => (p.1, { p.2 with pend := p.2.pend.map (fun e =>
      match e.access with
      | some a => if a.pa.any (fun n => n / 65536 == fpa / 65536) then { e with access := some { a with pa := none } } else e
      | none => e) })) }

/-- Step 1 for the moves that a free channel can take, in the order of their requests (R313). -/
def State.startMoves (s : State) : State :=
  let r := s.moving.foldl (fun (acc : List MoveRec × List Nat × List Nat) m =>
    let (done, begun, used) := acc
    if m.stage = 0 ∧ !m.abandoned ∧ used.count m.die < 8 then
      (done ++ [{ m with stage := 1 }], begun ++ [m.fpa], used ++ [m.die])
    else (done ++ [m], begun, used))
    ([], [], (s.moving.filter (fun m => decide (1 ≤ m.stage))).map MoveRec.die)
  r.2.1.foldl (fun s f => (s.doomTx f).turnBack f) { s with moving := r.1 }

/-- Whether a line lies in the 64 KiB at a physical address. -/
def inTile (pa line : Nat) : Bool := line * 128 / 65536 == pa / 65536

/-- The lines of a map whose key is a line with `n` numbers below it, re-tagged from a tile to another, whose own lines
are lost. -/
def retag (fpa tpa n : Nat) (q : FMap Line) : FMap Line :=
  (q.filter (fun p => inTile fpa (p.1 / n))).foldl
    (fun m p => FMap.set Line.none m ((p.1 / n - fpa / 128 + tpa / 128) * n + p.1 % n) p.2)
    (q.filter (fun p => !inTile fpa (p.1 / n) && !inTile tpa (p.1 / n)))

/-- Step 3: dirty bytes of the tile reach its owning points and every cached copy is invalidated (R313). -/
def State.recall (s : State) (fpa : Nat) : State :=
  let s := (s.l1.filter (fun p => inTile fpa (p.1 / 256))).foldl (fun s p => s.flushL1 (p.1 % 256) (p.1 / 256) true) s
  let s := (s.l2.filter (fun p => inTile fpa (p.1 / 8))).foldl (fun s p => s.flushVisitor (p.1 % 8) (p.1 / 8)) s
  { s with
    l1 := s.l1.filter (fun p => !inTile fpa (p.1 / 256))
    l2 := s.l2.filter (fun p => !(inTile fpa (p.1 / 8) && s.ownerDie fpa != p.1 % 8))
    icache := s.icache.filter (fun l => l.pa / 1024 != fpa / 65536) }

/-- The bytes of a tile under a relaunch quota, those of saved teams among them, are re-tagged with its new place and stay
dirty; every cached copy of the new place goes (R313). -/
def State.retagQuota (s : State) (fpa tpa : Nat) : State :=
  { s with
    l1 := s.l1.filter (fun p => !inTile tpa (p.1 / 256))
    l2 := s.l2.filter (fun p => !inTile tpa (p.1 / 8))
    icache := s.icache.filter (fun l => l.pa / 1024 != tpa / 65536)
    quota := (s.quota.filter (fun q => !inTile tpa q.line)).map (fun q =>
      if inTile fpa q.line then { q with line := q.line - fpa / 128 + tpa / 128 } else q)
    teams := s.teams.map (fun (t : Nat × Team) => (t.1, { t.2 with savedQuota := retag fpa tpa 2 t.2.savedQuota })) }

/-- What a map by units of `w` bytes holds of a run of `n` bytes, carried to another run, whose own entries are lost. -/
def carryRun {V : Type} [DecidableEq V] (fpa tpa n w : Nat) (dflt : V) (m : FMap V) : FMap V :=
  (m.filter (fun c => decide (fpa ≤ c.1 * w ∧ c.1 * w < fpa + n))).foldl
    (fun r c => FMap.set dflt r (c.1 - fpa / w + tpa / w) c.2)
    (m.filter (fun c => !decide (tpa ≤ c.1 * w ∧ c.1 * w < tpa + n)))

/-- Entries of a map by units of one byte in a run go, and those of a list of `n` values for it take their place. -/
def putRun {V : Type} (tpa n : Nat) (block : List (Nat × V)) (m : FMap V) : FMap V :=
  m.filter (fun c => decide (c.1 < tpa)) ++ block ++ m.filter (fun c => decide (tpa + n ≤ c.1))

/-- The bytes of a run that stand under another key than a context's (R397). -/
def State.foreign (s : State) (ctx fpa n : Nat) : List Nat :=
  if !isHbm fpa then []
  else if s.keyOf ctx = 0 then (s.seals.map Prod.fst).filter (fun a => decide (fpa ≤ a ∧ a < fpa + n))
  else ((List.range n).map (fun k => fpa + k)).filter (fun a => s.seals.get 0 a != s.keyOf ctx)

/-- Copies the bytes and the poison marks of a run (R313, R364), after what its cached copies still hold; what the new place
held is lost. A move copies what its context reads, under the key of the context in HBM and in the clear in a vault (R397).
DEDUCED (log 34): marks travel, and so, where a region is retired, does the key that the bytes stand under. -/
def State.copyTile (s : State) (ctx : Option Nat) (fpa tpa n : Nat) : State :=
  let tiles := (List.range ((n + 65535) / 65536)).map (fun k => 65536 * k)
  let s := tiles.foldl (fun s o => (s.recall (fpa + o)).retagQuota (fpa + o) (tpa + o)) s
  let s := (s.l2.filter (fun p => decide (fpa ≤ p.1 / 8 * 128 ∧ p.1 / 8 * 128 < fpa + n))).foldl
    (fun s p => if s.ownerDie fpa = p.1 % 8 then s.homeToMem (p.1 % 8) (p.1 / 8) else s) s
  let raw := carryRun fpa tpa n 1 memDefault s.mem
  { s with
    mem := match ctx with
      | some c => (s.foreign c fpa n).foldl (fun m a => Memory.set m (a - fpa + tpa) (s.memSeen c a)) raw
      | none => raw
    seals := match ctx with
      | some c => putRun tpa n (if isHbm tpa && s.keyOf c != 0 then (List.range n).map (fun k => (tpa + k, s.keyOf c)) else []) s.seals
      | none => if isHbm tpa then carryRun fpa tpa n 1 0 s.seals else s.seals
    poison := carryRun fpa tpa n 128 Option.none s.poison }

/-- The table of level 0 that a walk reaches. -/
def State.levelZero (s : State) (ctx va : Nat) : Option Nat :=
  ((s.walkPath false va 4 (s.ctx ctx).root.toNat).find? (fun t => t.1 == 1)).map Prod.snd

/-- Writes the sixteen entries of a 64 KiB page (R340). -/
def State.putPage (s : State) (ctx va : Nat) (e : W64) : State :=
  match s.levelZero ctx va with
  | some table =>
    s.putEntries ((List.range 16).map (fun k => (table + 8 * (vaIndex 0 (va / 65536 * 65536) + k), e)))
  | none => s

/-- The forwarding entry that names a page (R342). -/
def fwdEntry (t : Nat) : W64 := Entry.word (.fwd (t / 65536 * 65536))

/-- A tag's held result is delivered: the first held entry of the group with that tag takes its value. -/
def Group.answer (g : Group) (tag : Nat) (v : W64) : Group :=
  match g.pend.findIdx? (fun e => e.held && e.sweep.isNone && e.tag == tag) with
  | some k => { g with pend := g.pend.modify k (fun e =>
      { e with held := false, writes := e.writes.map (fun w => (w.1, some v)) }) }
  | none => g

/-- The page of a context's shadow buffers that stood at `f` stands at `t` (R314, R321). -/
def Context.moveShadow (c : Context) (f t : Nat) : Context :=
  { c with shadows := c.shadows.map (fun b => { b with pages := b.pages.map (fun p => if p = f / 65536 then t / 65536 else p) }) }

/-- Steps 6 to 8: the mark, the release, the freed frame, and the status of a `tmov` (R313, R344). A trigger word of the tile
is watched at its new place (R378). -/
def State.endMove (s : State) (m : MoveRec) : State :=
  let s := s.putPage m.ctx m.f (fwdEntry m.t)
  let s := (s.shootdown m.ctx (m.f / 65536 * 65536) 65536).reframe
  let s := s.modCtx m.ctx (fun c => { c.moveShadow m.f m.t with
    hits := c.hits.erase (m.f / 65536)
    uses := c.uses.filter (fun u => u.1 / 512 != m.f / 65536 && u.1 / 512 != m.t / 65536) })
  let s := { s with
    moving := s.moving.erase m
    triggers := s.triggers.map (fun (t : Nat × Trigger) => (t.1, if t.2.word / 65536 = m.fpa / 65536 then
      { t.2 with word := t.2.word - m.fpa / 65536 * 65536 + m.tpa / 65536 * 65536 } else t.2)) }
  let s := match m.group with
    | some g => s.modGroup g (fun g => g.answer m.f 0)
    | none => s
  s.startMoves

/-- Steps 2 and 3, 4 and the shootdown of 5, and the rest of a move that stands at a step, to its end. -/
def State.finishMove (s : State) (m : MoveRec) : State :=
  let s := if m.stage < 3 then s.recall m.fpa else s
  let s := if m.stage < 5 then ((s.copyTile (some m.ctx) m.fpa m.tpa 65536).shootdown m.ctx m.f 65536).shootdown m.ctx m.t 65536 else s
  s.endMove m

/-- The move that holds a page of a context in transit. -/
def State.transitOf (s : State) (ctx va : Nat) : Option MoveRec :=
  s.moving.find? (fun m => m.ctx == ctx && m.f / 65536 == va / 65536 && decide (1 ≤ m.stage ∧ m.stage < 7) && !m.abandoned)

end Sys2Proof.Machine
end

