-- ==== Sys2Proof/Machine/Device.lean ====
section
/-! DEFINITION. Accesses that the device makes on a context's behalf (R289 to R291, R313 to R315, R330). -/

namespace Sys2Proof.Machine

/-! ### Accesses of the device on a context's behalf

Firmware reads and writes translate without a TLB, make a page present when they can, and are performed
at the owning points. -/

/-- The translation of an address by a walk alone, chasing at most three hops. -/
def State.walkChase (s : State) (ctx : Nat) (need : Need) (n : Nat) : Nat → Nat → Xlat
  | fuel, va =>
    match s.walk ctx va with
    | .leaf x =>
      if !need.allowed x then .fault 5
      else
        let pa := leafPa x va
        if isHbm pa && decide (usable (pteProt x) < pa % 2097152 + n) then .fault 7
        else if s.inTransit ctx va then .transit va (3 - fuel)
        else .ok pa x va (3 - fuel)
    | .fwd dest =>
      match fuel with
      | 0 => .fault 6
      | fuel + 1 => s.walkChase ctx need n fuel (dest + va % 65536)
    | _ => .fault 4

/-- Adds a hit to each mark that an access to an address chases through, whatever its end (R315). -/
def State.hitChain (s : State) (ctx : Nat) : Nat → Nat → State
  | 0, _ => s
  | fuel + 1, va =>
    match s.walk ctx va with
    | .fwd dest => (s.hitMark ctx va).hitChain ctx fuel (dest + va % 65536)
    | _ => s

/-- Physical address of a device access that needs `need`; an error is the cause's image. One that meets a tile in
transit waits, until the move has ended (R313, R314). `hit` says whether the marks of its chase count it. DEDUCED
(log 34). -/
def State.devWalk (s : State) (ctx : Nat) (need : Need) (va n : Nat) (hit : Bool := true) : State × Except Nat Nat :=
  if 2 ^ 56 ≤ va then (s, .error 0x15)
  else
    let s := match s.walkChase ctx need n 3 va with
      | .transit at_ _ => ((s.transitOf ctx at_).map s.finishMove).getD s
      | _ => s
    let x := s.walkChase ctx need n 3 va
    let s := if hit then s.hitChain ctx 3 va else s
    match x with
    | .ok pa _ _ _ => (s, .ok pa)
    | .transit .. => (s, .error 4)
    | .fault c => (s, .error c)

/-- As `devWalk`, making the page present when the Memory core can. DEDUCED (log 8). -/
def State.devXlat (s : State) (ctx : Nat) (need : Need) (va n : Nat) (hit : Bool := true) : State × Except Nat Nat :=
  match s.devWalk ctx need va n hit with
  | (s, .error 4) =>
    let (s, ok) := s.pageIn ctx (s.follow ctx 3 va).1
    if ok then s.devWalk ctx need va n false else (s, .error 4)
  | r => r

/-- Splits a range of addresses at 4 KiB boundaries. -/
def pieces (va n : Nat) : List (Nat × Nat) :=
  let first := va / 4096
  (List.range ((va + n + 4095) / 4096 - first)).filterMap (fun k =>
    let lo := max va ((first + k) * 4096)
    let hi := min (va + n) ((first + k + 1) * 4096)
    if lo < hi then some (lo, hi - lo) else none)

/-- A translation of a device access: address, bytes, and whether marks count it. -/
abbrev Xlate := State → Nat → Nat → Bool → State × Except Nat Nat

/-- Whether a piece of an access from an address is the first of its 64 KiB page, so that a mark counts it once (R315). -/
def firstPiece (va p : Nat) : Bool := p == va || p % 65536 == 0

/-- Reads bytes of a context's memory, as it reads them, through a translation; an error is the cause's image. -/
def State.readBy (s : State) (ctx : Nat) (xlat : Xlate) (va n : Nat) : State × Except Nat (List Byte) :=
  (pieces va n).foldl (fun acc p =>
    match acc with
    | (s, .error e) => (s, .error e)
    | (s, .ok bs) =>
      match xlat s p.1 p.2 (firstPiece va p.1) with
      | (s, .error e) => (s, .error e)
      | (s, .ok pa) =>
        if (List.range p.2).any (fun k => s.poisoned (pa + k)) then (s, .error 0x17)
        else (s, .ok (bs ++ s.seenBytes ctx pa p.2))) (s, .ok [])

/-- Writes bytes of a context's memory through a translation, whole or not at all. -/
def State.writeBy (s : State) (ctx : Nat) (xlat : Xlate) (va : Nat) (bs : List Byte) : State × Except Nat Unit :=
  let r := (pieces va bs.length).foldl (fun acc p =>
    match acc with
    | (s, .error e) => (s, .error e)
    | (s, .ok ps) =>
      match xlat s p.1 p.2 (firstPiece va p.1) with
      | (s, .error e) => (s, .error e)
      | (s, .ok pa) => (s, .ok (ps ++ [(pa, p.1 - va, p.2)]))) (s, (.ok [] : Except Nat (List (Nat × Nat × Nat))))
  match r with
  | (s, .error e) => (s, .error e)
  | (s, .ok ps) =>
    (ps.foldl (fun s p => s.sysWrite p.1 ((bs.drop p.2.1).take p.2.2) (s.keyOf ctx)) s, .ok ())

/-- Reads bytes of a context's memory; an error is the cause's image. -/
def State.devRead (s : State) (ctx va n : Nat) : State × Except Nat (List Byte) :=
  s.readBy ctx (fun s a m hit => s.devXlat ctx .read a m hit) va n

/-- Writes bytes of a context's memory whole, or not at all. -/
def State.devWrite (s : State) (ctx va : Nat) (bs : List Byte) : State × Except Nat Unit :=
  s.writeBy ctx (fun s a m hit => s.devXlat ctx .write a m hit) va bs

end Sys2Proof.Machine
end

