-- ==== Sys2Proof/Machine/Team.lean ====
section
/-! DEFINITION. Completion records, estates that expire, and how teams, trees and queue entries end
(R270 to R272, R281 to R289, R302, R303, R326). -/

namespace Sys2Proof.Machine

/-! ### Fields in memory -/

/-- Writes a number of `n` bytes at a physical address, with a release at `.sys`. -/
def State.poke (s : State) (pa n v : Nat) : State := s.sysWrite pa (leBytes n v)
/-- Reads a number of `n` bytes at its owning point. -/
def State.peek (s : State) (pa n : Nat) : Nat := leNat (s.ownBytes pa n)
/-- A little-endian field of a record. -/
def field (bs : List Byte) (off n : Nat) : Nat := leNat ((bs.drop off).take n)
/-- Whether bytes `off` to `off + n − 1` are zero. -/
def zeroField (bs : List Byte) (off n : Nat) : Bool := ((bs.drop off).take n).all (fun b => b == 0)

/-- Logs an error: kind and the number it concerns (R390). DESIGN CHOICE (log 37): the kinds. -/
def State.logError (s : State) (kind what : Nat) : State := { s with errors := s.errors ++ [(kind, what)] }
/-- Sends an MSI-X message (R390). -/
def State.msi (s : State) (v : Nat) : State := { s with msix := s.msix.set 0 v (s.msix.get 0 v + 1) }

/-! ### Completion records (R289) -/

/-- The 32 bytes of a record. -/
def recordBytes (type queue inc tag : Nat) (result : W64) (surplus extra cause : Nat) : List Byte :=
  leBytes 1 type ++ leBytes 1 queue ++ leBytes 2 inc ++ leBytes 4 tag ++ leBytes 8 result.toNat ++
  leBytes 4 (min surplus 4294967295) ++ leBytes 4 (min extra 4294967295) ++ leBytes 4 cause ++ leBytes 4 0

/-- Whether the completion queue of a context has no room: CQWR − CQRD = 4,096, with CQRD read live. -/
def State.cqFull (s : State) (ctx : Nat) : Bool :=
  let c := s.ctx ctx
  decide (4096 ≤ c.cqCount - s.peek (c.desc + 0x90) 8)

/-- Writes one record and CQWR; false when its write would fault and the page cannot be made present. -/
def State.cqPut (s : State) (ctx : Nat) (r : List Byte) : State × Bool :=
  let c := s.ctx ctx
  match s.devWrite ctx (c.cq.toNat + 32 * (c.cqCount % 4096)) r with
  | (s, .error _) => (s, false)
  | (s, .ok _) =>
    let s := s.modCtx ctx (fun c => { c with cqCount := c.cqCount + 1 })
    (((s.poke (c.desc + 0x98) 8 (c.cqCount + 1)).msi (2 * ctx + 1)), true)

/-- Writes held records, oldest first, while there is room. -/
def State.cqDrain (s : State) (ctx : Nat) : List (List Byte) → State
  | [] => s.modCtx ctx (fun c => { c with heldRecs := [], cqFault := false })
  | r :: rs =>
    if s.cqFull ctx then s.modCtx ctx (fun c => { c with heldRecs := r :: rs, cqFault := false })
    else
      match s.cqPut ctx r with
      | (s, true) => s.cqDrain ctx rs
      | (s, false) => (s.modCtx ctx (fun c => { c with heldRecs := r :: rs, cqFault := true })).logError 1 ctx

/-- Writes a completion record of a context, or holds it: none is dropped. -/
def State.record (s : State) (ctx : Nat) (r : List Byte) : State :=
  if (s.ctx ctx).used then
    let held := (s.ctx ctx).heldRecs
    if held.isEmpty then s.cqDrain ctx [r]
    else s.modCtx ctx (fun c => { c with heldRecs := c.heldRecs ++ [r] })
  else s

/-! ### Estates that end (R303) -/

/-- Rows that an estate holds. -/
def Estate.rowCount (e : Estate) : Nat :=
  e.r * ((List.range 4).filter (fun t => e.tiles.testBit t)).length

/-- The record of an estate that expires with a reason. -/
def State.estateRecord (s : State) (e : Estate) (reason : Nat) : State :=
  s.record e.ctx (recordBytes 4 e.queue e.inc 0 e.wid (e.slots.length + e.rowCount) 0
    (e.domain + 256 * reason))

/-- An estate expires: it is removed and reported. -/
def State.expire (s : State) (e : Estate) (reason : Nat) : State :=
  { s with estates := s.estates.erase e }.estateRecord e reason

/-- LIMIT of a domain, read live (R302). -/
def State.limit (s : State) (ctx d : Nat) : Nat := s.peek ((s.ctx ctx).desc + 0x100 + 2 * d) 2

/-- The entries of an `.inherit` table (R295): domain, registers, whether rows are listed. -/
def inheritList (bs : List Byte) : List (Nat × List Nat × Bool) :=
  (List.range (min 3 (field bs 0 1))).map (fun k =>
    let o := 16 + 36 * k
    (field bs o 1, (List.range (min 32 (field bs (o + 1) 1))).map (fun j => field bs (o + 4 + j) 1),
      field bs (o + 2) 1 == 1))

/-- Ages the estates of a domain for a launch that declared it (R302), and expires those that reach
LIMIT; LIMIT 0 disables ageing. Estates made at or after the launch's first lookup do not age. -/
def State.ageDomain (s : State) (ctx inc d before : Nat) : State :=
  let lim := s.limit ctx d
  if lim = 0 then s
  else
    let s := { s with estates := s.estates.map (fun (e : Estate) =>
      if e.ctx = ctx ∧ e.inc = inc ∧ e.domain = d ∧ e.made < before then { e with age := e.age + 1 } else e) }
    (s.estates.filter (fun e => e.ctx == ctx && e.inc == inc && e.domain == d && decide (lim ≤ e.age))).foldl
      (fun s e => s.expire e 2) s

/-- Ages estates at the completion of a tree, for each of its launches. -/
def State.ageTree (s : State) (tree : Nat) : State :=
  (s.launches.filter (fun l => l.2.live && l.2.tree == tree)).foldl (fun s l =>
    match l.2.lookupAt with
    | none => s
    | some n => (inheritList l.2.kernel.inherit).foldl (fun s e => s.ageDomain l.2.ctx l.2.inc e.1 n) s) s

/-! ### Queue entries (R271, R272) -/

def Context.queue (c : Context) (q : Nat) : Queue := c.queues.get Queue.none q
def State.modQueue (s : State) (ctx q : Nat) (f : Queue → Queue) : State :=
  s.modCtx ctx (fun c => { c with queues := c.queues.set Queue.none q (f (c.queue q)) })

/-- NOTIFY, CHAIN and TAG of an entry (R269). -/
def entryNotify (e : List Byte) : Bool := (field e 1 1).testBit 1
def entryTag (e : List Byte) : Nat := field e 4 4

/-- The head entry of a queue's packet completes: a record under NOTIFY, or the failure record `fail`
gives, and the next entry of the packet is ready. -/
def State.entryDone (s : State) (ctx q : Nat) (fail : Option (List Byte)) (result : W64) (surplus extra : Nat) :
    State :=
  let c := s.ctx ctx
  match (c.queue q).packet with
  | [] => s
  | e :: rest =>
    let s := match fail with
      | some r => s.record ctx r
      | none =>
        if entryNotify e then s.record ctx (recordBytes 1 q c.inc (entryTag e) result surplus extra 0) else s
    s.modQueue ctx q (fun x => { x with packet := rest, state := if rest.isEmpty then .idle else .ready })

/-- The failure record of an entry (type 2, or type 5 for a refused launch). -/
def failRecord (type q inc : Nat) (e : List Byte) (cause : Nat) : List Byte :=
  recordBytes type q inc (entryTag e) 0 0 0 cause

/-! ### Phases (R288) -/

/-- Whether every die's line of a phase is high: its count is zero. -/
def State.phaseHigh (s : State) (slot : Nat) : Bool :=
  (List.range 8).all (fun d => ((s.die d).phases.get Phase.none slot).count == 0)

/-- Ends a phase: OVER is summed over the dies and the slot is freed. -/
def State.endPhase (s : State) (slot : Nat) : State × Nat :=
  let n := ((List.range 8).map (fun d => ((s.die d).phases.get Phase.none slot).extra)).sum
  ((List.range 8).foldl (fun s d => s.modDie d (fun x => { x with phases := x.phases.erase slot })) s, n)

/-- The phase slot of a tree's root launch, if it has one that has not ended. -/
def State.treePhase (s : State) (tree : Nat) : Option Nat :=
  s.launches.findSome? (fun l => if l.2.live && l.2.tree == tree then l.2.phaseSlot else none)

/-! ### Trees and teams (R282) -/

/-- A tree and its launches leave the machine. -/
def State.dropTree (s : State) (tree : Nat) : State :=
  { s with
    trees := s.trees.erase tree
    launches := s.launches.filter (fun l => l.2.tree != tree) }

/-- A complete tree whose phase, if any, has ended completes what it roots. -/
def State.settleTree (s : State) (tree : Nat) : State :=
  let t := s.tree tree
  match s.treePhase tree with
  | some _ => s
  | none =>
    if t.kind = 0 then (s.entryDone t.ctx t.queue none t.result t.surplus t.extra).dropTree tree
    else if t.kind = 2 then
      (s.record t.ctx (recordBytes 1 t.queue t.inc t.tag t.result t.surplus t.extra 0)).dropTree tree
    else s

/-- The counter of a tree reached zero (R282): the result word is read, estates age, and the entry, node
or trigger launch that it roots completes once its phase has ended. -/
def State.treeComplete (s : State) (tree : Nat) : State :=
  ((s.ageTree tree).modTree tree (fun t => { t with complete := true })).settleTree tree

/-- The counter of a tree falls by `n` (R282). -/
def State.treeFall (s : State) (tree n : Nat) : State :=
  let t := s.tree tree
  if t.live && !t.complete then
    let s := s.modTree tree (fun t => { t with count := t.count - n })
    if t.count ≤ n then s.treeComplete tree else s
  else s

/-- A team leaves its core and its groups leave the machine; the barrier and the rendezvous of others are
not concerned. Queued engine commands of the team stay with their core (R232). -/
def State.dropTeam (s : State) (team : Nat) : State :=
  let t := s.team team
  let gone := t.groups ++ t.scout.toList
  let s := { s with
    groups := s.groups.filter (fun g => !gone.contains g.1)
    parts := s.parts.map (fun (p : Nat × Partition) => (p.1, { p.2 with order := p.2.order.filter (fun g => !gone.contains g) })) }
  let s := if t.holdsAcc then
      [t.core, t.core + 1].foldl (fun s c =>
        if c = t.core ∨ t.cluster then
          s.modCore c (fun x => if s.estates.any (fun e => e.inArray && e.arrayCore == c) then x else { x with acc := [] })
        else s) s
    else s
  { s with teams := s.teams.erase team }

/-- A team ends (R282, R287, R360): its quota bytes become ordinary, its die's arrival count falls when
its launch has a phase, and the spawn-tree counter falls by one. -/
def State.teamEnd (s : State) (team : Nat) : State :=
  let t := s.team team
  let l := s.launch t.launch
  let s := s.endRelaunch team
  let s := s.dropTeam team
  let s := if l.kernel.phase && (!l.spawned || l.trigger.isSome) then s.arrive (dieOfCore t.core) t.ctx l.kernel.phnum else s
  s.treeFall l.tree 1

/-- RESULT of a type-3 record (R356). -/
def itemResult (notAdm relaunched : Bool) (count team : Nat) : W64 :=
  BitVec.ofNat 64 ((if notAdm then 2 ^ 63 else 0) + (if relaunched then 2 ^ 62 else 0) +
    count % 16777216 * 2 ^ 32 + team % 4294967296)

/-- The type-3 record of a team (R289, R356). -/
def State.itemRecord (s : State) (ctx inc tree : Nat) (result : W64) (surplus cause : Nat) : State :=
  let t := s.tree tree
  s.record ctx (recordBytes 3 t.queue inc t.tag result surplus 0 cause)

/-- A team ends as one failed item (R281, R326, R366): no group of it makes an estate. -/
def State.failTeam (s : State) (team cause : Nat) : State :=
  let t := s.team team
  let l := s.launch t.launch
  let s := s.itemRecord t.ctx t.inc l.tree (itemResult false false 0 t.num) 0 cause
  s.teamEnd team

/-- `$cause` of the lowest parked lane with code CSUM (R326). -/
def Group.causeImage (g : Group) : Nat :=
  match (g.inState .parked).find? (fun i => (g.lane i).code == g.csum) with
  | some i => (g.lane i).cause.toNat
  | none => 0

/-- The Fault core takes a kill of a context (R354): it is performed by the KILL step. -/
def State.wantKill (s : State) (ctx reason cause : Nat) : State :=
  s.modCtx ctx (fun c => { c with kills := c.kills ++ [⟨reason, BitVec.ofNat 32 cause⟩] })

end Sys2Proof.Machine
end

