-- ==== Sys2Proof/Machine/Ops.lean ====
section
/-! DEFINITION. The shared operations of every meaning: parking a lane with a cause, entering the trap
handler and returning from it, and issuing an instruction for the lanes at the minimum (R38, R45, R66,
R97 to R107, R176, R205, R323 to R329, R385). -/

namespace Sys2Proof.Machine

/-- An instruction being issued: the group, the issue address, the lanes at the minimum, the active set, and the group
and its partition before the issue. -/
structure Issue where
  g    : Nat
  pc   : W64
  min  : List Nat
  act  : List Nat
  was  : Group
  part : Partition
deriving DecidableEq, Repr

/-- The issue of a group's instruction at an address, with no lane active yet. -/
def State.issueAt (s : State) (k : Nat) (pc : W64) : Issue :=
  let g := s.group k
  ⟨k, pc, g.atMin pc, [], g, s.part g.part⟩

/-! ### Transactions that end early (R173, R174) -/

/-- Step 2 of the commit rule: every byte that a lane's transaction read still stands at its owning
point. -/
def State.txValid (s : State) (ctx : Nat) (t : Tx) : Bool :=
  t.reads.all (fun r => s.ownSeen ctx r.1 == r.2)

/-- Aborts a lane's transaction: D takes the cause and the PC the abort target (R174). -/
def State.txAbort (s : State) (k i cause : Nat) : State :=
  match ((s.group k).lane i).tx with
  | none => s
  | some t =>
    (s.modGroup k (fun g => g.write (.vec i t.dreg) (BitVec.ofNat 64 cause))).modLane k i
      (fun l => { l with tx := none, pc := t.target })

/-! ### Causes (R62, R323 to R325) -/

/-- Parks a lane at the instruction with a cause, its detail and the faulting address. A lane that the debugger has stopped
is then parked by the cause, and stays parked (R381). -/
def State.park (s : State) (k i : Nat) (pc : W64) (code detail : Nat) (addr : W64) : State :=
  s.modLane k i (fun l =>
    { l with
      lst := .parked
      pc := pc
      cause := BitVec.ofNat 32 (code + 16 * detail)
      addr := addr
      dbgStop := none })

/-- Raises a cause for a lane (R30's `Fault`). A lane with an open transaction first validates its read
set for causes 2 to 8: when that fails the lane aborts and takes no fault (R176). A scout's lanes take
none (R52). -/
def State.fault (s : State) (x : Issue) (i code detail : Nat) (addr : W64) : State :=
  if (s.group x.g).scout then s
  else
    match ((s.group x.g).lane i).tx with
    | some t =>
      if 2 ≤ code ∧ code ≤ 8 ∧ !s.txValid (s.group x.g).ctx t then s.txAbort x.g i 1 else s.park x.g i x.pc code detail addr
    | none => s.park x.g i x.pc code detail addr

/-- Raises one cause for several lanes. -/
def State.faultAll (s : State) (x : Issue) (is : List Nat) (code detail : Nat) (addr : W64) : State :=
  is.foldl (fun s i => s.fault x i code detail addr) s

/-! ### Watchpoints (R384, R385) -/

/-- CTX, TYPE and the enables of a WCTL. -/
def wctlCtx (x : W64) : Nat := (x.extractLsb' 16 10).toNat
def wctlType (x : W64) : Nat := (x.extractLsb' 4 2).toNat
def wctlWr (x : W64) : Bool := x.getLsbD 2
def wctlRd (x : W64) : Bool := x.getLsbD 1
def wctlEn (x : W64) : Bool := x.getLsbD 0

/-- The lowest enabled comparator of the group's partition, of a type and for its context, that `hit`
accepts on WLO and WHI. -/
def State.watch (s : State) (g : Group) (type : Nat) (rd wr : Bool) (hit : W64 → W64 → Bool) : Option Nat :=
  if g.scout then none
  else
    let p := s.part g.part
    (List.range 8).find? (fun k =>
      let c := p.wctl.getD k 0
      wctlEn c && wctlType c == type && wctlCtx c == g.ctx && ((rd && wctlRd c) || (wr && wctlWr c)) &&
        hit (p.wlo.getD k 0) (p.whi.getD k 0))

/-- A match of the bytes `a` to `a + n − 1` (types 0 global, 1 local). -/
def State.watchBytes (s : State) (g : Group) (type a n : Nat) (rd wr : Bool) : Option Nat :=
  s.watch g type rd wr (fun lo hi => decide (lo.toNat < a + n ∧ a ≤ hi.toNat))

/-- The first byte of an access from `a` that a comparator of a group's partition matches (R327). -/
def State.watchedByte (s : State) (g : Group) (k a : Nat) : W64 :=
  BitVec.ofNat 64 (max a ((s.part g.part).wlo.getD k 0).toNat)

/-- A match of rows `lo` to `lo + n − 1` of an accumulator tile. -/
def State.watchRows (s : State) (g : Group) (tile row n : Nat) (rd wr : Bool) : Option Nat :=
  s.watch g 2 rd wr (fun lo hi =>
    decide (lo.toNat / 256 % 4 = tile ∧ lo.toNat % 128 < row + n ∧ row ≤ hi.toNat % 128))

/-- A match of register units that a lane reads or writes, be they its own or another lane's, each under its own enable. -/
def State.watchRegister (s : State) (g : Group) (rds wrs : List PUnit) : Option Nat :=
  let one := fun (us : List PUnit) (rd wr : Bool) => s.watch g 3 rd wr (fun lo hi => us.any (fun u =>
    match u with
    | .sca r => hi.getLsbD 9 && hi.toNat % 512 == r
    | .vec l r => !hi.getLsbD 9 && hi.toNat % 512 == r && lo.getLsbD l
    | _ => false))
  match one rds true false, one wrs false true with
  | some a, some b => some (min a b)
  | some a, none => some a
  | none, r => r

/-! ### The trap handler: entry and return (R205, R326 to R329) -/

/-- The trap frame of a group (R327). -/
def Group.trapFrame (g : Group) (reason : Nat) : List Byte :=
  let mask := fun (st : LState) => ((g.inState st).map (fun i => 2 ^ i)).sum
  let code := fun (st : LState) => match st with
    | .running => 0
    | .waiting => 1
    | .parked => 2
    | .exited => 3
  leBytes 8 (g.sreg 62).toNat ++ leBytes 8 g.gswRead.toNat ++ leBytes 8 (mask .parked) ++
  leBytes 8 (mask .waiting) ++ leBytes 8 (mask .exited) ++ leBytes 1 reason ++ leBytes 1 g.width ++
  leBytes 1 g.gid ++ leBytes 21 0 ++
  g.ids.flatMap (fun i =>
    let l := g.lane i
    leBytes 8 l.pc.toNat ++ leBytes 8 (if l.lst = .parked then l.addr.toNat else 0) ++
    leBytes 2 l.depth ++ leBytes 1 (code l.lst) ++ leBytes 13 0)

/-- Stores of a group by the device: translated in the core's TLB, made present when the Memory core can,
and dirty in the core's L1. False when some page refuses; nothing is then written. -/
def State.groupStore (s : State) (k va : Nat) (bs : List Byte) : State × Bool :=
  let g := s.group k
  let r := (pieces va bs.length).foldl (fun acc p =>
    match acc with
    | (s, none) => (s, none)
    | (s, some ps) =>
      let (s, _) := match s.walk g.ctx (s.follow g.ctx 3 p.1).1 with
        | .absent => s.pageIn g.ctx p.1
        | _ => (s, true)
      match s.translate g.core g.ctx .write p.1 p.2 (firstPiece va p.1) with
      | (s, .ok pa _ _ _) => (s, some (ps ++ [(pa, p.1 - va, p.2)]))
      | (s, _) => (s, none)) (s, (some [] : Option (List (Nat × Nat × Nat))))
  match r with
  | (s, none) => (s, false)
  | (s, some ps) =>
    (ps.foldl (fun s p => ((bs.drop p.2.1).take p.2.2).zipIdx.foldl
      (fun s b => s.l1Write g.core g.ctx g.team (p.1 + b.2) [b.1] []) s) s, true)

/-- The entry image that `tret` restores (R205). -/
def Group.image (g : Group) : List (W64 × LState) := g.ids.map (fun i => ((g.lane i).pc, (g.lane i).lst))

/-- The group at its handler, once the frame is written (R328). -/
def Group.toHandler (g : Group) (handler : W64) (now : Nat) : Group :=
  let g' := { g with
    handler := some g.image
    opcache := [none, none, none]
    rejoin := false
    lastIssue := now }.unwait
  let g' := (g'.setS 62 g.frame).setTm true
  g.ids.foldl (fun h i =>
    if (h.lane i).lst = .exited then h
    else h.modLane i (fun l => { l with lst := .running, pc := handler, dbgStop := none })) g'

/-- Handler entry, one step (R328): a double fault when TM is set (R329); with HANDLER 0, or when the
frame cannot be written, the team ends as one failed item (R326). -/
def State.enterHandler (s : State) (k : Nat) : State :=
  let g := s.group k
  let cause := g.causeImage
  let handler := (s.ctx g.ctx).handler
  if g.tm then (s.modGroup k (fun g => { g with rejoin := false, wait := .killed })).wantKill g.ctx 3 cause
  else if handler = 0 then s.failTeam g.team cause
  else
    match s.groupStore k g.frame.toNat (g.trapFrame (if g.rejoin then 2 else 1)) with
    | (s, true) => s.modGroup k (fun g => g.toHandler handler s.steps)
    | (s, false) => s.failTeam g.team cause

/-- How a return treats a lane that was parked at entry (R205). -/
inductive Resume | replay | skip | exit
deriving DecidableEq, Repr

/-- A lane after the return from the handler, from its entry image (R205). -/
def Lane.resume (l : Lane) (how : Resume) (pc : W64) (st : LState) : Lane :=
  match st with
  | .parked =>
    match how with
    | .replay => { l with lst := .running, pc := pc }
    | .skip => { l with lst := .running, pc := pc + 12 }
    | .exit => { l with lst := .exited, pc := pc }
  | .waiting => { l with lst := .running, pc := pc }
  | _ => { l with lst := st, pc := pc }

/-- The return from the handler: every lane of the group that is not exited takes its state and PC from
the entry image, and TM is cleared (R40, R205). -/
def Group.leaveHandler (g : Group) (how : Resume) (img : List (W64 × LState)) : Group :=
  let g' := img.zipIdx.foldl (fun h p => h.modLane p.2 (fun l =>
    if l.lst = .exited then l else l.resume how p.1.1 p.1.2)) g
  { g'.setTm false with handler := none }

/-! ### Issue (R38, R45, R97 to R107) -/

/-- Steps 4 to 6 of R107: detail of the cause 1 that refuses an instruction. -/
def State.gateCheck (s : State) (g : Group) (i : Instr) : Option Nat :=
  if !featureOk s.featAcc i then some 2
  else if !g.role.allows (classOf i) then some 1
  else if !allocOk g.width g.alloc i then some 3
  else none

/-- A lane past the instruction at an address. -/
def Lane.past (l : Lane) (pc : W64) : Lane := { l with pc := pc + 12, issued := l.issued + 1 }

/-- The PC of every lane at the minimum moves past the instruction. -/
def State.advance (s : State) (x : Issue) : State :=
  x.min.foldl (fun s i => s.modLane x.g i (fun l => l.past x.pc)) s

/-- The reuse entries after an issue (R66). -/
def keepEntries (i : Instr) : List (Option Nat) :=
  let entry := fun (keep : Bool) (o : Opnd) => if keep && o.isVec then some (Opnd.idx o) else none
  [entry (i.ctl.keepD && readsD i) i.ops.d, entry i.ctl.keepA i.ops.a, entry i.ctl.keepB i.ops.b]

/-- What issue leaves on a group: its marker, stall count, yield and reuse entries (R66, R101, R102), and the registers that the
instruction writes with fixed latency, of the latest eight that write some (DESIGN CHOICE, log 47); `turn` is the cycle
of its partition and `clock` the cycles that have passed there, and `pre` says that the preemption of its team has been
requested (R338). -/
def Group.hint (g : Group) (i : Instr) (pc : W64) (now turn clock : Nat) (pre : Bool) (outs : List PUnit := []) : Group :=
  { g with
    marker := i.ctl.mark
    stall := clock + 1 + i.ctl.stall
    wait := .none
    yielded := i.ctl.yield
    yieldTurn := turn
    opcache := keepEntries i
    lastIssue := now
    lastPc := pc
    made := if outs.isEmpty then g.made else (pc, outs) :: g.made.take 7
    maskedIssues := if g.tm && pre then g.maskedIssues + 1 else g.maskedIssues
    scoutIssues := if g.scout then g.scoutIssues + 1 else g.scoutIssues }

/-- The group with what the issue left on it taken back: the instruction has not issued. -/
def Group.unhint (g was : Group) : Group :=
  { g with
    marker := was.marker
    stall := was.stall
    yielded := was.yielded
    yieldTurn := was.yieldTurn
    opcache := was.opcache
    lastIssue := was.lastIssue
    lastPc := was.lastPc
    made := was.made
    maskedIssues := was.maskedIssues
    scoutIssues := was.scoutIssues }

/-- Whether a group has waited 4,096 cycles, so that it goes first and leads its cycle (R47, R100). -/
def State.overdue (s : State) (g : Group) : Bool := decide (4096 ≤ s.steps - g.lastIssue)

/-- Whether a group may issue in the cycle that its partition has open, with the PAIR of its instruction: its stall count had
run out when the cycle began, lanes of the datapath are left, the lead's PAIR lets its launch in, and it has not issued in
the cycle (R33, R100, R101). -/
def State.joins (s : State) (k pair : Nat) : Bool :=
  let g := s.group k
  let p := s.part g.part
  !p.now.isEmpty && decide (g.stall ≤ p.leadAt) && decide (g.width ≤ p.left) && pair != 2 && p.lead.2 != 2 && (p.lead.2 != 1 || p.lead.1 == g.launch) &&
    !p.now.contains k && !s.overdue g

/-- A partition once a group has issued: the group is the last of the round-robin order (R47), and it has joined the open
cycle, or leads a new one, which begins at `clock` (R100). -/
def Partition.issued (p : Partition) (k : Nat) (g : Group) (join : Bool) (pair clock : Nat) : Partition :=
  let p := { p with order := p.order.filter (fun j => j != k) ++ [k] }
  if join then { p with left := p.left - g.width, now := p.now ++ [k], joined := p.joined + 1 }
  else { p with turns := p.turns + 1, left := 64 - g.width, leadAt := clock, lead := (g.launch, pair), now := [k] }

/-- A group issues from its partition (R47, R100). -/
def State.takeTurn (s : State) (k pair : Nat) : State :=
  let g := s.group k
  s.modPart g.part (fun p => p.issued k g (s.joins k pair) pair (s.partClock g.part))

/-- Units a lane writes at issue, for register watchpoints: field D when it is a destination, and for `txa` the D that its
open transaction recorded (R174, R385). -/
def writesOf (i : Instr) (lane : Nat) (l : Lane := Lane.birth) : List PUnit :=
  match i with
  | .st .. | .stRel .. | .stl .. | .ast .. | .drain .. | .cpin .. | .cpout .. | .gath .. | .beq .. => []
  | .mlda n _ o => blockUnits (Opnd.idx o.d) n.regs [lane]
  | .txa .. => match l.tx with
    | some t => [.vec lane t.dreg]
    | none => []
  | _ => readUnits i.ops.d (spanOf i.shape.d) lane

/-- Whether the results of an instruction have variable latency, or it has none (R102, R115, R183, R185, R220 to R222). -/
def varies (i : Instr) : Bool :=
  match i with
  | .ld .. | .ldAcq .. | .ldl .. | .atomAdd .. | .atomMin .. | .atomMax .. | .atomAnd .. | .atomOr .. | .atomXor .. | .atomXchg ..
  | .atomAddF32 .. | .cas .. | .frcp .. | .frsq .. | .fex2 .. | .flg2 .. | .fsinpi .. | .fcospi .. | .ftanh .. | .mma .. | .mmq ..
  | .mlda .. | .ald .. | .aclr .. | .sweep .. | .tmov .. | .estq .. | .estdrop .. | .spawn .. | .sys .. => true
  | _ => false

/-- The registers that an instruction writes with fixed latency for its active lanes. -/
def Issue.outs (x : Issue) (i : Instr) : List PUnit :=
  if varies i then [] else x.act.flatMap (fun l => writesOf i l (x.was.lane l))

/-- What issue leaves on the group and on its partition. -/
def State.hints (s : State) (x : Issue) (i : Instr) : State :=
  let s := s.takeTurn x.g i.ctl.pair
  let g := s.group x.g
  s.setGroup x.g (g.hint i x.pc s.steps (s.part g.part).turns (s.partClock g.part) (s.team g.team).preempt (x.outs i))

/-- Every lane at the minimum takes a cause of the fetch or the decoding, and parks (R45, R107); a lane in a transaction
is validated first for causes 2 to 8 (R176). The group has issued (R45, R47), with the hints of the instruction where it is
decoded, and without an instruction that reads its operands (R66). The lanes of a scout take zero and continue (R52); `zero`
names what they write. -/
def State.refuse (s : State) (x : Issue) (i : Instr) (code detail : Nat) (addr : W64) (zero : Nat → List PUnit) : State :=
  let s := (s.hints x i).modGroup x.g (fun g => { g with opcache := [none, none, none] })
  if (s.group x.g).scout then
    x.min.foldl (fun s i => (s.modGroup x.g (fun g => g.writes ((zero i).map (fun u => (u, 0))))).modLane x.g i
      (fun l => { l with pc := x.pc + 12 })) s
  else x.min.foldl (fun s i => s.fault x i code detail addr) s

/-- Instructions that a scout discards, leaving destinations as they were (R52, R212). -/
def scoutDiscards (i : Instr) : Bool :=
  match i with
  | .ld .. | .ldAcq .. | .ldl .. | .pref .. | .bra .. | .brx .. | .call .. | .callx .. | .ret ..
  | .rejoin .. | .exit .. | .nop .. | .mfsr .. => false
  | _ => decide (0x1C0 ≤ i.opMod.1)

/-- The reads of an instruction at issue (R97, R103 to R105): the state once each hazard read is resolved, the
active lanes, and the lanes whose hazard read HC stops. -/
def State.readOperands (s : State) (k : Nat) (i : Instr) (min : List Nat) : State × List Nat × List Nat :=
  let g := s.group k
  if g.hc && !g.scout then
    let bad := min.filter (fun l => (guardUnits i.ctl l).any g.pending)
    let act := (min.filter (fun l => !bad.contains l)).filter (fun l => g.guard i.ctl l)
    let bad' := act.filter (fun l => (sources i g act l).any g.pending)
    (s, act.filter (fun l => !bad'.contains l), bad ++ bad')
  else
    let s := (min.flatMap (guardUnits i.ctl)).dedup.foldl (fun s u => s.settle k u) s
    let act := min.filter (fun l => (s.group k).guard i.ctl l)
    let s := (act.flatMap (earlySources i)).dedup.foldl (fun s u => s.settle k u) s
    ((act.flatMap (sources i (s.group k) act)).dedup.foldl (fun s u => s.settle k u) s, act, [])

/-- The base that an access of a lane will rewrite, as a write that is pending (R148). -/
def State.rebased (s : State) (k : Nat) (i : Instr) (lane : Nat) : List PUnit :=
  let g := s.group k
  match rewriteBase i g lane with
  | some (o, b, va) =>
    if va.toNat / 65536 == b.toNat / 65536 && s.pageMoves g.core g.ctx va.toNat then readUnits o 2 lane else []
  | none => []

/-- The active lanes whose registers a watchpoint matches, each with its comparator (R385). A prefetch matches none. -/
def State.watchedLanes (s : State) (k : Nat) (i : Instr) (act : List Nat) : List (Nat × Nat) :=
  match i with
  | .pref .. => []
  | _ => act.filterMap (fun l =>
    (s.watchRegister (s.group k) (sources i (s.group k) act l) (writesOf i l ((s.group k).lane l) ++ s.rebased k i l)).map (fun w => (l, w)))

/-- A lane that a register watchpoint matches takes the lowest cause that applies to it (R324, R385): that of the
instruction itself, when it stands below the watchpoint's, and of two comparators the lower. -/
def State.watchFault (s : State) (x : Issue) (l w : Nat) (body : Issue → State → State) : State :=
  let n := ((body { x with act := [l] } s).group x.g).lane l
  let c := n.cause.toNat
  if n.lst = .parked ∧ (c % 16 < 8 ∨ (c % 16 = 8 ∧ c / 16 < w)) then s.fault x l (c % 16) (c / 16) n.addr
  else s.fault x l 8 w 0

/-- Issues a decoded instruction for the lanes at the minimum of the current group, and performs `body`
for the active set. Decode steps 4 to 6 refuse it for every lane; under HC, lanes with a hazard read park
with cause 8, detail 0x10, and without HC each hazard read is resolved (R104, R105); a lane that a
register watchpoint matches parks (R385). The lanes at the minimum then stand past the instruction, and
`body` moves those it steers or parks. A group with no running lane issues nothing. -/
def perform (i : Instr) (s : State) (body : Issue → State → State) : Host.Outcome State Fault Refusal :=
  let g := s.group s.cur
  match g.issuePc with
  | none => .next s
  | some pc =>
    let x := s.issueAt s.cur pc
    match s.gateCheck g i with
    | some detail => .next (s.refuse x i 1 detail 0 (writesOf i))
    | none =>
      if g.scout && scoutDiscards i then .next ((s.advance x).hints x i)
      else
        let r := s.readOperands x.g i x.min
        let seen := r.1.watchedLanes x.g i r.2.1
        let x := { x with act := r.2.1.filter (fun l => !seen.any (fun p => p.1 == l)) }
        let s := (r.1.advance x).hints x i
        let s := r.2.2.foldl (fun s l => s.fault x l 8 0x10 0) s
        .next (body x (seen.foldl (fun s p => s.watchFault x p.1 p.2 body) s))

/-- Puts lanes at the minimum back at the instruction: the group waits at it. -/
def State.stay (s : State) (x : Issue) (is : List Nat) : State :=
  is.foldl (fun s i => s.modLane x.g i (fun l => if l.lst = .running then { l with pc := x.pc } else l)) s

/-- Puts lanes at the minimum back before the instruction, which has not issued: what the issue left on the group and
its partition is taken back, and the group is not ready and issues it again. -/
def State.unissue (s : State) (x : Issue) (w : Wait) : State :=
  let s := x.min.foldl (fun s i => s.modLane x.g i (fun l =>
    if l.lst = .running then { l with pc := x.pc, issued := l.issued - 1 } else l)) s
  (s.modGroup x.g (fun g => (g.unhint x.was).hold w)).modPart x.was.part (fun p => { p with
    order := x.part.order
    turns := x.part.turns
    joined := x.part.joined
    left := x.part.left
    leadAt := x.part.leadAt
    lead := x.part.lead
    now := x.part.now })

/-- Moves lanes past the instruction, when a wait at it ends: those that the debugger has stopped meanwhile too, since an
instruction that has issued completes (R381). -/
def State.pass (s : State) (k : Nat) (is : List Nat) : State :=
  is.foldl (fun s i => s.modLane k i (fun l =>
    if l.lst = .running ∨ l.dbgStop = some .running then { l with pc := l.pc + 12 } else l)) s

end Sys2Proof.Machine
end

