-- ==== Sys2Proof/Machine/Consume.lean ====
section
/-! DEFINITION. Errors that a team consumes (R361, R365, R366, R401), and results that return. -/

namespace Sys2Proof.Machine

/-- `$cause` image of a consumed poison read (R366). -/
def poisonImage : Nat := 0x17

/-- The groups of a team and its scout leave the machine unsaved, with their queued engine commands. -/
def State.discardGroups (s : State) (team : Nat) : State :=
  let t := s.team team
  let gone := t.groups ++ t.scout.toList
  { s with
    groups := s.groups.filter (fun g => !gone.contains g.1)
    parts := s.parts.map (fun (p : Nat × Partition) =>
      (p.1, { p.2 with order := p.2.order.filter (fun g => !gone.contains g) }))
    cores := s.cores.map (fun (c : Nat × Core) =>
      (c.1, { c.2 with queue := c.2.queue.filter (fun e => e.team != team) })) }

/-- Steps 1 and 2 of a relaunch (R361): groups, quota bytes and local memory are dropped, and a record
says so. The team has not ended; TEAM_RELAUNCH admits it again. -/
def State.relaunch (s : State) (team cause : Nat) : State :=
  let t := s.team team
  let s := s.discardGroups team
  let s := { s with quota := s.quota.filter (fun q => q.team != team) }
  let s := s.modTeam team (fun t => { t with
    groups := []
    loc := []
    full := []
    arrived := []
    relaunch := false
    relaunched := true
    holdsAcc := false
    preempt := false
    scout := none })
  s.itemRecord t.ctx t.inc (s.launch t.launch).tree (itemResult false true 0 t.num) t.claimed cause

/-- Every group of a team stands still until the kill that has been taken for it. -/
def State.freeze (s : State) (team : Nat) : State :=
  (s.team team).groups.foldl (fun s g => s.modGroup g (fun x => { x with wait := .killed })) s

/-- A kill of the team's context for an error that the team consumed: reason 7 after a relaunch, else 6
(R365, R366). -/
def State.consumeKill (s : State) (team cause : Nat) : State :=
  let t := s.team team
  (s.freeze team).wantKill t.ctx (if t.relaunched then 7 else 6) cause

/-- A team reads an uncorrectable error in a state array, or meets a pipeline error (R366). -/
def State.consumeArray (s : State) (team : Nat) : State :=
  let t := s.team team
  if t.relaunch && !t.relaunched then s.relaunch team 0 else s.consumeKill team 0

/-- A team marked `.relaunch` reads poison (R366). None when the team is not so marked: the lane itself
faults. -/
def State.consumePoison (s : State) (team : Nat) : Option State :=
  let t := s.team team
  if t.relaunch && !t.relaunched then some (s.relaunch team poisonImage)
  else if t.relaunched || (s.launch t.launch).kernel.relaunch then some (s.consumeKill team poisonImage)
  else none

/-- A late fault with a cause (R366, R401). -/
def State.lateFault (s : State) (team code detail : Nat) : State :=
  let t := s.team team
  let image := code + 16 * detail
  if code = 7 ∧ (detail = 1 ∨ detail = 3) then
    match s.consumePoison team with
    | some s => s
    | none => s.failTeam team image
  else if t.relaunch && !t.relaunched then s.relaunch team image
  else s.failTeam team image

/-- A fault found after its access has left issue (R401): a poison read of a team marked `.relaunch` is
consumed; else the lanes park at the access when none of them has issued since, those that the debugger has stopped too, and
the fault is late otherwise. -/
def State.foundFault (s : State) (k : Nat) (e : Pend) (code detail : Nat) (addr : W64) : State :=
  let g := s.group k
  let now := e.lanes.all (fun l => (g.lane l.1).issued == l.2)
  match (if code = 7 ∧ (detail = 1 ∨ detail = 3) then s.consumePoison g.team else none) with
  | some s => s
  | none =>
    if now then
      (s.faultAll (s.issueAt k e.pc) ((e.lanes.map Prod.fst).filter (fun l =>
        (g.lane l).lst == .running || (g.lane l).dbgStop.isSome)) code detail addr).modGroup k Group.unwait
    else s.lateFault g.team code detail

end Sys2Proof.Machine
end

