-- ==== Sys2Proof/Machine/Local.lean ====
section
/-! DEFINITION. Local memory, its full/empty granules, and shape records (R157 to R161, R225, R227, R228). -/

namespace Sys2Proof.Machine

/-! ### Local memory -/

def Team.locByte (t : Team) (o : Nat) : Byte := t.loc.get 0 o
/-- Reads `n` bytes of local memory. -/
def Team.locBytes (t : Team) (o n : Nat) : List Byte := (List.range n).map (fun k => t.locByte (o + k))
/-- Writes bytes of local memory. -/
def Team.putBytes (t : Team) : Nat → List Byte → Team
  | _, [] => t
  | o, b :: bs => Team.putBytes { t with loc := t.loc.set 0 o b } (o + 1) bs
def Team.isFull (t : Team) (gr : Nat) : Bool := t.full.contains gr
def Team.setEmpty (t : Team) (gr : Nat) : Team := { t with full := t.full.filter (fun x => x != gr) }
def Team.setFull (t : Team) (gr : Nat) : Team :=
  if t.isFull gr then t else { t with full := t.full ++ [gr] }

/-- Lanes of a group that wait for a granule become running (R40). -/
def Group.wake (g : Group) (gr : Nat) : Group :=
  g.ids.foldl (fun g i =>
    let l := g.lane i
    if l.lst = .waiting ∧ l.gran = gr then
      (g.setLane i { l with lst := .running }).unwait
    else g) g

/-- Sets a granule full, waking the lanes that wait for it. -/
def State.fillGranule (s : State) (team gr : Nat) : State :=
  let s := s.modTeam team (fun t => t.setFull gr)
  (s.team team).groups.foldl (fun s k => s.modGroup k (fun g => g.wake gr)) s

/-- Sets full every granule that bytes touch. -/
def State.fillBytes (s : State) (team o n : Nat) : State :=
  if n = 0 then s
  else (List.range ((o + n - 1) / 16 - o / 16 + 1)).foldl (fun s k => s.fillGranule team (o / 16 + k)) s

/-- Empties every granule that bytes touch. -/
def State.emptyBytes (s : State) (team o n : Nat) : State :=
  if n = 0 then s
  else s.modTeam team (fun t =>
    (List.range ((o + n - 1) / 16 - o / 16 + 1)).foldl (fun t k => t.setEmpty (o / 16 + k)) t)

/-- Writes local bytes with a store's full/empty behaviour (R158). -/
def State.locWrite (s : State) (team o : Nat) (fe : StoreFe) (bs : List Byte) : State :=
  let s := s.modTeam team (fun t => t.putBytes o bs)
  match fe with
  | .plain => s
  | .sf => s.fillBytes team o bs.length
  | .se => s.emptyBytes team o bs.length

/-! ### Shape records (R225) -/

def recBase (r : List Byte) : Nat := field r 0 8
def recFmt (r : List Byte) : Nat := field r 8 1
def recRank (r : List Byte) : Nat := field r 9 1
def recMode (r : List Byte) : Nat := field r 10 1
def recLocal (r : List Byte) : Bool := (field r 11 1).testBit 0
def recRo (r : List Byte) : Bool := (field r 11 1).testBit 1
def recOvl (r : List Byte) : Bool := (field r 11 1).testBit 2
def recKeep (r : List Byte) : Bool := (field r 11 1).testBit 3
def recSwz (r : List Byte) : Nat := field r 12 1
def recCpol (r : List Byte) : Nat := field r 13 1
def recExt (r : List Byte) (d : Nat) : Nat := field r (0x10 + 8 * d) 8
/-- Byte stride of dimension `d`, from 1 on. -/
def recStr (r : List Byte) (d : Nat) : Nat := field r (0x38 + 8 * (d - 1)) 8
def recBox (r : List Byte) (d : Nat) : Nat := field r (0x58 + 4 * d) 4

/-- Bits of an element. -/
def recBits (r : List Byte) : Nat :=
  match recFmt r with
  | 0 | 10 => 32
  | 1 | 2 | 9 => 16
  | 3 | 4 | 8 | 12 => 8
  | 5 | 6 => 6
  | _ => 4

/-- Box of a command: the record's, or for `drain` 128 columns of `rows` rows (R230). -/
def boxOf (r : List Byte) (rows : Option Nat) (d : Nat) : Nat :=
  match rows with
  | some n => if d = 0 then 128 else if d = 1 then n else 1
  | none => if d < recRank r then recBox r d else 1

/-- Elements of a box. -/
def boxElems (r : List Byte) (rows : Option Nat) : Nat :=
  ((List.range 5).map (boxOf r rows)).foldl (· * ·) 1

/-- Dense bytes of a box. -/
def boxBytes (r : List Byte) (rows : Option Nat) : Nat := (boxElems r rows * recBits r + 7) / 8

/-- Span of a swizzle (R228); 1 for none. -/
def swzSpan (r : List Byte) : Nat := if recSwz r = 0 then 1 else 2 ^ (recSwz r + 6)

/-- Bytes that the local box occupies. -/
def localBytes (r : List Byte) (rows : Option Nat) : Nat :=
  let p := swzSpan r
  (boxBytes r rows + p - 1) / p * p

/-- Where a dense byte of the local box lives (R228). -/
def swizzleAt (r : List Byte) (o : Nat) : Nat :=
  if recSwz r = 0 then o else o ^^^ (o / swzSpan r % (swzSpan r / 16) * 16)

/-- Signed coordinate `d` of a coordinate block (R229). -/
def coordOf (c : List Byte) (d : Nat) : Int := (BitVec.ofNat 32 (field c (4 * d) 4)).toInt

/-! ### Checks of a record at issue (R227) -/

/-- A multiple of 3 for the FP6 codes. -/
def sixOk (r : List Byte) (n : Nat) : Bool :=
  if recFmt r = 5 ∨ recFmt r = 6 then n % 3 == 0 else true

/-- Details of the record checks, in order: shape-field, shape-align, shape-overlap, or none. -/
def recordFault (kind : EngKind) (r : List Byte) : Option Nat :=
  let rank := recRank r
  let dims := List.range rank
  let writes := kind = .cpout || kind = .drain
  let e := recBits r
  let box0 := recBox r 0 * e
  let reserved := field r 11 1 / 16 ≠ 0 ∨ !zeroField r 0x0E 2 ∨ !zeroField r 0x6C 84
  if reserved ∨ 12 < recFmt r ∨ rank = 0 ∨ 5 < rank ∨ 3 < recSwz r ∨ 2 < recCpol r then some 0
  else if writes ∧ 2 < recMode r then some 0
  else if kind ≠ .drain ∧ (dims.any (fun d => recBox r d == 0) ∨ box0 % 8 ≠ 0 ∨ !sixOk r (box0 / 8)) then
    some 0
  else if writes ∧ (recRo r ∨ (recMode r = 2 ∧ recLocal r) ∨
      (recMode r = 1 ∧ !(recFmt r == 0 || recFmt r == 1 || recFmt r == 2))) then some 0
  else if kind = .drain ∧ !(recFmt r == 0 || recFmt r == 1 || recFmt r == 2 || recFmt r == 10) then some 0
  else if recBase r % 16 ≠ 0 ∨ dims.any (fun d => decide (1 ≤ d) && recStr r d % 16 != 0) then some 1
  else if !(recOvl r && recRo r) && dims.any (fun d =>
      (d == 1 && decide (recStr r 1 < (recExt r 0 * e + 7) / 8)) ||
      (decide (2 ≤ d) && decide (recStr r d < recStr r (d - 1) * recExt r (d - 1)))) then some 2
  else none

end Sys2Proof.Machine
end

