-- ==== Sys2Proof/Machine/Ring.lean ====
section
/-! DEFINITION. Stage rings (R234, R235). -/

namespace Sys2Proof.Machine

/-- Fields of a ring header, a 128-bit number. -/
def hdrBase (h : Nat) : Nat := h % 2 ^ 20
def hdrNst (h : Nat) : Nat := h / 2 ^ 20 % 16
def hdrSize (h : Nat) : Nat := h / 2 ^ 32 % 2 ^ 20
def hdrPi (h : Nat) : Nat := h / 2 ^ 64 % 8
def hdrCi (h : Nat) : Nat := h / 2 ^ 68 % 8
/-- State of stage `q`: 0 free, 1 acquired, 2 full, 3 held. -/
def hdrState (h q : Nat) : Nat := h / 2 ^ (72 + 2 * q) % 4

/-- A number with `w` bits at `pos` replaced. -/
def putBits (h pos w x : Nat) : Nat := h - h / 2 ^ pos % 2 ^ w * 2 ^ pos + x % 2 ^ w * 2 ^ pos

def hdrSetState (h q x : Nat) : Nat := putBits h (72 + 2 * q) 2 x
def hdrSetPi (h x : Nat) : Nat := putBits h 64 3 x
def hdrSetCi (h x : Nat) : Nat := putBits h 68 3 x
/-- Inverts the phase of stage `q`. -/
def hdrFlip (h q : Nat) : Nat := h ^^^ 2 ^ (88 + q)

/-- Whether a header is one that the ring instructions accept, in local memory of `loc` bytes (R235). -/
def hdrOk (h loc : Nat) : Bool :=
  let nst := hdrNst h
  decide (2 ≤ nst ∧ nst ≤ 8) && hdrBase h % 64 == 0 && hdrSize h % 64 == 0 && hdrSize h != 0 &&
  decide (hdrBase h + nst * hdrSize h ≤ loc) && h / 2 ^ 96 == 0 && h / 2 ^ 71 % 2 == 0 && h / 2 ^ 67 % 2 == 0 &&
  h / 2 ^ 52 % 2 ^ 12 == 0 && h / 2 ^ 24 % 2 ^ 8 == 0 && decide (hdrPi h < nst ∧ hdrCi h < nst)

/-- The stage whose offset a register holds. -/
def hdrStage (h : Nat) (x : W64) : Option Nat :=
  (List.range (hdrNst h)).find? (fun q => hdrBase h + q * hdrSize h == x.toNat)

/-- The header at a local offset. -/
def Team.header (t : Team) (o : Nat) : Nat := leNat (t.locBytes o 16)

/-! ### The box of a command (R228 to R230) -/

/-- A row of a box: the elements of dimension 0 that are not clipped, `lo` to `hi − 1`, and the address in
bits of element 0. -/
structure BoxRow where
  lo  : Nat
  hi  : Nat
  bit : Int
deriving DecidableEq, Repr

/-- Row `j` of a box, dimension 1 fastest; `list` gives the dimension-1 coordinate of a row of `gath`. -/
def boxRow (r : List Byte) (rows : Option Nat) (coord : List Byte) (list : Option (Nat → Int)) (j : Nat) : BoxRow :=
  let b := boxOf r rows
  let x := fun (d : Nat) => match d with
    | 1 => j % b 1
    | 2 => j / b 1 % b 2
    | 3 => j / (b 1 * b 2) % b 3
    | _ => j / (b 1 * b 2 * b 3) % b 4
  let at_ : Nat → Int := fun d => match d, list with
    | 1, some f => f (x 1)
    | d, _ => coordOf coord d + (x d : Int)
  let upper := (List.range (recRank r)).drop 1
  let c0 := coordOf coord 0
  let lo := (max 0 (-c0)).toNat
  let hi := (min (b 0 : Int) ((recExt r 0 : Int) - c0)).toNat
  let bit := 8 * (recBase r : Int) + c0 * recBits r + 8 * (upper.map (fun d => at_ d * recStr r d)).sum
  if lo < hi ∧ upper.all (fun d => decide (0 ≤ at_ d ∧ at_ d < recExt r d)) then ⟨lo, hi, bit⟩ else ⟨0, 0, bit⟩

/-- Rows of a box. -/
def boxRows (r : List Byte) (rows : Option Nat) (coord : List Byte) (list : Option (Nat → Int)) : List BoxRow :=
  (List.range (boxOf r rows 1 * boxOf r rows 2 * boxOf r rows 3 * boxOf r rows 4)).map (boxRow r rows coord list)

/-- First byte and count of bytes of elements `lo` to `hi − 1` of a row. -/
def BoxRow.bytes (w : BoxRow) (e hi : Nat) : Int × Nat :=
  let a := w.bit + (w.lo * e : Nat)
  let z := w.bit + (hi * e : Nat)
  (a / 8, ((z + 7) / 8 - a / 8).toNat)

/-- The list of `gath` in local memory (R230). -/
def Team.gathList (t : Team) (kind : EngKind) (coord : List Byte) : Option (Nat → Int) :=
  if kind = .gath then
    some (fun x => (BitVec.ofNat 32 (leNat (t.locBytes ((coordOf coord 1).toNat + 4 * x) 4))).toInt)
  else Option.none

/-- The bytes of a command's box in a LOCAL tensor (R227, R235). -/
def Team.boxBytes (t : Team) (e : EngCmd) : List (Nat × Nat) :=
  if recLocal e.record then
    ((boxRows e.record e.rows e.coord (t.gathList e.kind e.coord)).filter (fun w => w.lo != w.hi)).map (fun w =>
      let b := w.bytes (recBits e.record) w.hi
      (b.1.toNat, b.2))
  else []

/-- Local bytes that a queued command writes, as offsets and lengths. -/
def EngCmd.localDst (e : EngCmd) (t : Team) : List (Nat × Nat) :=
  match e.kind with
  | .cpin | .gath => [(e.loc.toNat, localBytes e.record e.rows)]
  | _ => t.boxBytes e

/-- Local bytes that a queued command reads: its source box, and the row list of `gath`. -/
def EngCmd.localSrc (e : EngCmd) (t : Team) : List (Nat × Nat) :=
  match e.kind with
  | .cpout => [(e.loc.toNat, localBytes e.record e.rows)]
  | .gath => ((coordOf e.coord 1).toNat, 4 * boxOf e.record e.rows 1) :: t.boxBytes e
  | .cpin => t.boxBytes e
  | .drain => []

/-- Whether two ranges of bytes meet. -/
def meets (a b : Nat × Nat) : Bool := decide (a.1 < b.1 + b.2 ∧ b.1 < a.1 + a.2)

/-- Whether the stage that a ring instruction waits for has come to it (R235): `op` 0 `racq`, 1 `rput`,
2 `rget`, 3 `rrel`. -/
def State.ringReady (s : State) (k op hdr : Nat) (x : W64) : Bool :=
  let g := s.group k
  let t := s.team g.team
  let h := t.header hdr
  let mine := (s.core g.core).queue.filter (fun e => e.group == k)
  match op with
  | 0 => hdrState h (hdrPi h) == 0
  | 2 => hdrState h (hdrCi h) == 2
  | 1 => !mine.any (fun e => (e.localDst t).any (fun r => meets r (x.toNat, hdrSize h)))
  | _ => !mine.any (fun e => (e.localSrc t).any (fun r => meets r (x.toNat, hdrSize h)))

/-- What a ring instruction does to the header, and the offset it returns (R235). -/
def hdrAct (h op : Nat) (x : W64) : Nat × W64 :=
  let at_ := fun q => BitVec.ofNat 64 (hdrBase h + q * hdrSize h)
  match op with
  | 0 => (hdrSetPi (hdrSetState h (hdrPi h) 1) ((hdrPi h + 1) % hdrNst h), at_ (hdrPi h))
  | 2 => (hdrSetCi (hdrSetState h (hdrCi h) 3) ((hdrCi h + 1) % hdrNst h), at_ (hdrCi h))
  | 1 => match hdrStage h x with
    | some q => (hdrFlip (hdrSetState h q 2) q, 0)
    | none => (h, 0)
  | _ => match hdrStage h x with
    | some q => (hdrSetState h q 0, 0)
    | none => (h, 0)

/-- The effect of a ring instruction whose wait is over. -/
def State.ringAct (s : State) (k op : Nat) (d : Option Nat) (hdr : Nat) (x : W64) : State :=
  let g := s.group k
  let r := hdrAct ((s.team g.team).header hdr) op x
  let s := s.modTeam g.team (fun t => t.putBytes hdr (leBytes 16 r.1))
  match d with
  | some n => s.modGroup k (fun g => g.write (.sca n) r.2)
  | none => s

/-- A ring instruction (R235): the checks of its header, a local watchpoint on it (R385), the wait for its stage, and its
effect. DEDUCED (log 58): the header is read and written. -/
def State.ring (s : State) (x : Issue) (op : Nat) (d : Option Nat) (hdr : W64) (v : W64) : State :=
  let g := s.group x.g
  let t := s.team g.team
  match x.act with
  | [] => s
  | act =>
    if hdr.toNat % 16 ≠ 0 then s.faultAll x act 2 2 0
    else if t.locLen < hdr.toNat + 16 then s.faultAll x act 5 2 0
    else
      let h := t.header hdr.toNat
      if !hdrOk h t.locLen then s.faultAll x act 3 4 0
      else
        let wrong := match op with
          | 1 => (match hdrStage h v with
            | some q => hdrState h q != 1
            | none => true)
          | 3 => (match hdrStage h v with
            | some q => hdrState h q != 3
            | none => true)
          | _ => false
        if wrong then s.faultAll x act 5 3 0
        else
        match s.watchBytes g 1 hdr.toNat 16 true true with
        | some w => s.faultAll x act 8 w 0
        | none =>
        if s.ringReady x.g op hdr.toNat v then s.ringAct x.g op d hdr.toNat v
        else
          (s.stay x x.min).modGroup x.g (fun g => { g with wait := .ring op d hdr.toNat v x.min })

/-- A ring wait that is over: the instruction acts, and the lanes that were at the minimum move on. -/
def State.ringStep (s : State) (k : Nat) : State :=
  match (s.group k).wait with
  | .ring op d hdr v lanes =>
    ((s.ringAct k op d hdr v).pass k lanes).modGroup k (fun g => { g with
      wait := .none
      lastIssue := s.steps })
  | _ => s

/-- Lanes with an open transaction take cause 1, detail 4, when they issue an instruction that a
transaction does not permit (R175); the rest go on. -/
def State.refuseTx (s : State) (x : Issue) : State × Issue :=
  let open_ := x.act.filter (fun i => ((s.group x.g).lane i).tx.isSome)
  (open_.foldl (fun s i => s.park x.g i x.pc 1 4 0) s, { x with act := x.act.filter (fun i => !open_.contains i) })

end Sys2Proof.Machine
end

