-- ==== Sys2Proof/Machine/Access.lean ====
section
/-! DEFINITION. Accesses of lanes to global and local memory: addresses, faults at issue, transactions,
base rewrites, waits at a tile in transit, results (R146 to R160, R163 to R176, R314 to R317). -/

namespace Sys2Proof.Machine

/-! ### Values -/

/-- Bytes that an operation moves. -/
def MemOp.size : MemOp → Nat
  | .load z | .store z => z.bytes
  | .pref _ => 1
  | .atom _ w64 .. => if w64 then 8 else 4

/-- What an operation needs of its page (R147). -/
def MemOp.need : MemOp → Need
  | .load _ | .pref _ => .read
  | .store _ => .write
  | .atom .. => .rw

/-- The size that says how a result is extended into D (R112, R149). -/
def MemOp.result : MemOp → Size
  | .load z | .store z => z
  | .pref _ => .z8
  | .atom _ w64 sgn .. => if w64 then .d64 else if sgn then .s32 else .z32

/-- A value of `bits` bits, sign-extended to 64. -/
def signExtend (bits x : Nat) : W64 :=
  if 2 ^ (bits - 1) ≤ x % 2 ^ bits then BitVec.ofNat 64 (2 ^ 64 - 2 ^ bits + x % 2 ^ bits)
  else BitVec.ofNat 64 (x % 2 ^ bits)

/-- A loaded value extended to 64 bits (R149). -/
def Size.extend (z : Size) (bs : List Byte) : W64 :=
  match z with
  | .s8 | .s16 | .s32 => signExtend (8 * z.bytes) (leNat bs)
  | _ => BitVec.ofNat 64 (leNat bs)

/-- Units that a loaded value is written to, with what each takes (R149). -/
def loadUnits (z : Size) (d : Opnd) (lane : Nat) (bs : List Byte) : List (PUnit × W64) :=
  match d, z with
  | .v r _, .q128 =>
    [0, 1, 2, 3].map (fun k => (PUnit.vec lane (r + k), BitVec.ofNat 64 (leNat ((bs.drop (4 * k)).take 4))))
  | _, _ => destUnits d z.regs lane (Size.extend z bs)

/-- Data bytes of a store, read at issue (R152). -/
def storeBytes (g : Group) (lane : Nat) (z : Size) (o : Opnd) : List Byte :=
  match o, z with
  | .v r _, .q128 => [0, 1, 2, 3].flatMap (fun k => leBytes 4 ((g.lane lane).vreg (r + k)).toNat)
  | _, _ => leBytes z.bytes (g.value lane o z.regs).toNat

/-- What an atomic leaves in memory (R163, R166, R167): `op` 0 add, 1 min, 2 max, 3 and, 4 or, 5 xor,
6 xchg, 7 FP32 add, 8 compare-and-swap. -/
def atomValue (op : Nat) (w64 sgn : Bool) (old v c : Nat) : Nat :=
  let t : IntTy := match w64, sgn with
    | true, true => .s64
    | true, false => .z64
    | false, true => .s32
    | false, false => .z32
  match op with
  | 0 => t.wrap (t.val old + t.val v)
  | 1 => if t.val v < t.val old then v else old
  | 2 => if t.val old < t.val v then v else old
  | 3 => old &&& v
  | 4 => old ||| v
  | 5 => old ^^^ v
  | 6 => v
  | 7 => (fAdd .f32 .rn false old v).bits
  | _ => if old = c then v else old

/-! ### Performing an access -/

/-- A release store is itself performed at its scope (R153). DEDUCED (log 26). -/
def State.carry (s : State) (core line lvl : Nat) : State :=
  if lvl = 0 then s
  else
    let s := s.flushL1 core line (decide (2 ≤ lvl))
    if 3 ≤ lvl ∧ isHbm (line * 128) then s.homeToMem (s.ownerDie (line * 128)) line else s

/-- Performs an access at a physical address (R152, R165): the bytes read, and whether the read is poison.
`va` is the address reached, `rel` the scope level of a release store. An atomic to a package without a route is dropped
and logged (R396). DESIGN CHOICE (log 36): its D is a free value. -/
def State.access (s : State) (g : Group) (op : MemOp) (pa va : Nat) (data : List Byte) (rel : Nat) :
    State × List Byte × Bool :=
  match op with
  | .load z => s.l1Read g.core g.ctx pa z.bytes g.scout
  | .pref l2 => (if l2 then (s.belowL1 g.die g.ctx (pa / 128)).1 else (s.l1Read g.core g.ctx pa 1 g.scout).1, [], false)
  | .store _ =>
    let s := if isFar pa then s.endRelaunch g.team else s
    let s := s.l1Write g.core g.ctx g.team pa data [va]
    (s.carry g.core (pa / 128) rel, [], false)
  | .atom k w64 sgn v c =>
    let s := (s.endRelaunch g.team).gather g.core (pa / 128)
    let n := op.size
    if s.noRoute pa then ((s.dropWrite pa).tick, leBytes n (Config.lostAtomic s.free), false)
    else if s.poisoned pa then (s, [], true)
    else
      let old := s.seenBytes g.ctx pa n
      let new := atomValue k w64 sgn (leNat old) v.toNat c.toNat
      let s := if k = 8 ∧ leNat old ≠ c.toNat then s else s.ownWrite g.ctx false pa (leBytes n new)
      (s.arriveAt g.ctx va pa, old, false)

/-- Units that a base occupies, with a value of it (R316). -/
def baseUnits (o : Opnd) (lane : Nat) (b : W64) : List (PUnit × W64) := destUnits o 2 lane b

/-- A result on its way: the rewritten base, then the destination, which stands over it (R316). -/
def resultWrites (lane : Nat) (base : Option (Opnd × W64)) (delta : W64) (z : Size) (d : Opnd)
    (bs : Option (List Byte)) : List (PUnit × Option W64) :=
  let dst := match bs with
    | some bs => (loadUnits z d lane bs).map (fun p => (p.1, some p.2))
    | none => (loadUnits z d lane []).map (fun p => (p.1, (none : Option W64)))
  let bw := match base with
    | some (o, b) => (baseUnits o lane (b + delta)).filterMap (fun p =>
      if dst.any (fun q => q.1 == p.1) then none else some (p.1, some p.2))
    | none => []
  bw ++ dst

/-- The units that an access writes, pending with no value that a hazard read could see return: neither the base nor the
destination is there before the access completes (R148). -/
def pendingWrites (lane : Nat) (base : Option (Opnd × W64)) (z : Size) (d : Opnd) : List (PUnit × Option W64) :=
  (resultWrites lane base 0 z d none).map (fun w => (w.1, none))

/-- The writes of a result, without those into registers that a later write has discarded meanwhile (R103). -/
def Pend.still (e : Pend) (ws : List (PUnit × Option W64)) : List (PUnit × Option W64) :=
  ws.filter (fun w => e.writes.any (fun v => v.1 == w.1))

/-- Whether another entry is an access of the same instruction that may still rewrite the scalar base (R316). -/
def Pend.sibling (e f : Pend) : Bool :=
  f.tag == e.tag && f.pc == e.pc && f.access.any (fun a => a.base.any (fun b => b.1.isSca))

/-- The entry no longer rewrites its base. -/
def Pend.noBase (e : Pend) : Pend :=
  match e.access.bind Access.base with
  | some (o, b) =>
    { e with
      writes := e.writes.filter (fun w => !(baseUnits o 0 b).any (fun p => p.1 == w.1))
      access := e.access.map (fun a => { a with base := none }) }
  | none => e

/-- The count of instructions issued by each lane that an access acts for. -/
def Group.issuedOf (g : Group) (lanes : List Nat) : List (Nat × Nat) := lanes.map (fun i => (i, (g.lane i).issued))

/-- Enters a result in the scoreboard, unless there is none. -/
def State.result (s : State) (k : Nat) (e : Pend) : State := if e.done then s else s.push k e

/-! ### The order of a lane's accesses (R152, R247, R248, R251) -/

/-- The places at which an access that waits at a tile in transit may be performed (R314). -/
def State.mayReach (s : State) (ctx va : Nat) : List Nat :=
  let v := (s.follow ctx 3 va).1
  (match s.walk ctx v with
    | .leaf x => [leafPa x v]
    | _ => []) ++ (match s.transitOf ctx v with
    | some m => [m.tpa + v % 65536]
    | none => [])

/-- Whether an access of a context that is not performed touches bytes, or may when it still waits. -/
def State.touches (s : State) (ctx : Nat) (a : Access) (pa n : Nat) : Bool :=
  (match a.pa with
    | some p => [p]
    | none => s.mayReach ctx a.va.toNat).any (fun p => decide (p < pa + n ∧ pa < p + a.op.size))

/-- Whether two entries are accesses of one lane. -/
def Pend.sameLane (e f : Pend) : Bool := e.lanes.any (fun l => f.lanes.any (fun m => m.1 == l.1))

/-- Whether two entries are accesses of one lane, or of one instruction, whose lanes reach a location in ascending order
(R152, R165). -/
def Pend.shares (e f : Pend) : Bool := e.pc == f.pc || e.sameLane f

/-- Whether an access is a load. -/
def Access.isLoad (a : Access) : Bool := a.reads && a.op.need == .read

/-- Whether an access at a place may be performed before an earlier one of its group: none before an acquire of its lanes; a
store or atomic only after every read of its lanes, and every access after those of its lanes or its instruction to the same
bytes, but that a load takes the bytes of its lanes' own stores that stand in the store buffer; a prefetch has no place in the
order (R152, R153, R162, R165, R247, R248). -/
def State.mayPass (s : State) (ctx : Nat) (e f : Pend) (a b : Access) (pa : Nat) : Bool :=
  let meets := s.touches ctx b pa a.op.size
  a.isPref || b.isPref || !f.shares e ||
  (if f.sameLane e then
    b.acq.isNone && (if a.isLoad then !((b.reads || b.pa.isNone) && meets) else !b.reads && !meets)
  else a.isLoad || !meets)

/-- Whether an access at a place may be performed before what is left of the first `n` entries of its group. -/
def State.mayPerform (s : State) (g : Group) (n : Nat) (e : Pend) (a : Access) (pa : Nat) : Bool :=
  (g.pend.take n).all (fun f => f.access.all (fun b => s.mayPass g.ctx e f a b pa))

/-- The byte that the store buffer of an entry's lanes holds at a place: that of the latest store among the first `n`
entries of the group (R251). -/
def Group.buffered (g : Group) (n : Nat) (e : Pend) (pa : Nat) : Option Byte :=
  ((g.pend.take n).filter (fun f => f.shares e)).foldl (fun m f =>
    match f.access with
    | some b =>
      match b.op, b.pa with
      | .store _, some p => if p ≤ pa ∧ pa < p + b.op.size then some (b.data.getD (pa - p) 0) else m
      | _, _ => m
    | none => m) none

/-! ### Transactions (R171 to R176) -/

/-- Lines that the open transactions of a group read and write. -/
def Group.txLines (g : Group) (write : Bool) : Nat :=
  (g.ids.map (fun i => match (g.lane i).tx with
    | some t => if write then t.wlines.length else t.rlines.length
    | none => 0)).sum

/-- Whether an access may add its line to a lane's sets: the cause of the abort, 0 when it fits (R172).
`full` says that a lane of this instruction has found the group's limit reached. DESIGN CHOICE (log 55): where both
limits are passed, the lane's own. -/
def txLimit (g : Group) (t : Tx) (write full : Bool) (line : Nat) : Nat :=
  let mine := if write then t.wlines else t.rlines
  if mine.contains line then 0
  else if (if write then 8 else 16) ≤ mine.length then 3
  else if full ∨ (if write then 64 else 256) ≤ g.txLines write then 4
  else 0

/-- Buffered bytes with more bytes stored. -/
def putTx (ws : List (Nat × Byte)) (pa : Nat) (bs : List Byte) : List (Nat × Byte) :=
  (bs.zipIdx).foldl (fun ws b => ws.filter (fun w => w.1 != pa + b.2) ++ [(pa + b.2, b.1)]) ws

/-- A transactional access of a lane (R171): what the load returns, and whether it is a poison read, which one that the lane's
own buffered bytes serve whole is not (R364). Every byte that a load returns from its owning point is kept for the validation
(R173). -/
def State.txAccess (s : State) (k i : Nat) (t : Tx) (op : MemOp) (pa va : Nat) (data : List Byte) :
    State × List Byte × Bool :=
  let g := s.group k
  let line := pa / 128
  match op with
  | .store _ =>
    let t := { t with
      wlines := if t.wlines.contains line then t.wlines else t.wlines ++ [line]
      writes := putTx t.writes pa data
      arr := t.arr ++ [(va, pa)] }
    (s.modLane k i (fun l => { l with tx := some t }), [], false)
  | _ =>
    let s := if s.quota.any (fun q => q.core == g.core && q.team == g.team && q.line == line) then s.endRelaunch g.team else s
    let s := s.gather g.core line
    let n := op.size
    let t := { t with rlines := if t.rlines.contains line then t.rlines else t.rlines ++ [line] }
    let bytes := (List.range n).map (fun j =>
      match t.writes.find? (fun w => w.1 == pa + j) with
      | some w => (pa + j, w.2, true)
      | none => (pa + j, s.ownSeen g.ctx (pa + j), false))
    if s.poisoned pa && bytes.any (fun b => !b.2.2) then (s.modLane k i (fun l => { l with tx := some t }), [], true)
    else
      let seen := bytes.filterMap (fun b => if b.2.2 then none else some (b.1, b.2.1))
      (s.modLane k i (fun l => { l with tx := some { t with reads := t.reads ++ seen } }),
        bytes.map (fun b => b.2.1), false)

/-- A transactional access of several lanes in ascending order, each for its own sets: what the lowest reads, and
whether some read is a poison read. DEDUCED (log 18) for a scalar form. -/
def State.txAccesses (s : State) (k : Nat) (lanes : List Nat) (op : MemOp) (pa va : Nat) (data : List Byte) :
    State × List Byte × Bool :=
  lanes.foldr (fun i go (s : State) =>
    match ((s.group k).lane i).tx with
    | none => go s
    | some t =>
      let r := s.txAccess k i t op pa va data
      let q := go r.1
      (q.1, r.2.1, r.2.2 || q.2.2)) (fun s => (s, [], false)) s

/-- The lanes of an access whose transaction is still open. -/
def Group.inTx (g : Group) (lanes : List Nat) : List Nat := lanes.filter (fun i => (g.lane i).tx.isSome)

/-- Whether a line of a transaction's sets lies in a tile in transit. -/
def State.txMoved (s : State) (t : Tx) : Bool :=
  t.doomed || (t.rlines ++ t.wlines).any (fun l =>
    s.moving.any (fun m => m.fpa == l * 128 / 65536 * 65536 && decide (1 ≤ m.stage ∧ m.stage < 7) && !m.abandoned))

/-- Aborts, of the lanes of a transactional access, those whose sets a move has reached (R174), and those that its line
would take beyond a limit (R172), in ascending order; gives the lanes that go on. -/
def State.txEnter (s : State) (k : Nat) (lanes : List Nat) (write full : Bool) (line : Option Nat) :
    State × List Nat × Bool :=
  lanes.foldl (fun (a : State × List Nat × Bool) i =>
    match ((a.1.group k).lane i).tx with
    | none => (a.1, a.2.1 ++ [i], a.2.2)
    | some t =>
      let c := if a.1.txMoved t then 6
        else match line with
          | some n => txLimit (a.1.group k) t write a.2.2 n
          | none => 0
      if c = 0 then (a.1, a.2.1 ++ [i], a.2.2) else (a.1.txAbort k i c, a.2.1, a.2.2 || c == 4)) (s, [], full)

/-! ### Performing an access -/

/-- Counts an access of a core to the 64 KiB page of an address; `below` says that it goes to the L2 or a vault port
(R311). -/
def State.noteUse (s : State) (ctx core va : Nat) (below : Bool) : State :=
  s.modCtx ctx (fun c =>
    { c with uses := c.uses.modify 0 (va / 65536 * 512 + core + (if below then 256 else 0)) (fun n => n + 1) })

/-- Whether an access that is performed goes below its core's L1. -/
def State.goesBelow (s : State) (core : Nat) (op : MemOp) (pa : Nat) : Bool :=
  match op with
  | .load _ | .pref _ => !s.l1Hit core pa op.size
  | .store _ => false
  | .atom .. => true

/-- Performs an access at its place, as entry `n` of its group's scoreboard or as the next to enter: the state, the bytes
read, and whether the read is poison. The lanes of an open transaction act transactionally, a load takes bytes of its
lanes' store buffer, and a scout's poison reads as zero, and its accesses are not counted (R52). -/
def State.performAccess (s : State) (k n : Nat) (e : Pend) (a : Access) (pa : Nat) : State × List Byte × Bool :=
  let g := s.group k
  let lanes := e.lanes.map Prod.fst
  let plain := lanes.filter (fun i => !a.tx.contains i)
  let tx := s.txAccesses k (g.inTx a.tx) a.op pa a.va.toNat a.data
  let count := fun (s : State) (below : Bool) => if g.scout then s else s.noteUse g.ctx g.core a.va.toNat below
  if plain.isEmpty then (count tx.1 true, tx.2)
  else
    let own := (List.range a.op.size).map (fun j => g.buffered n e (pa + j))
    let s := count tx.1 (tx.1.goesBelow g.core a.op pa)
    let r := if !a.isPref && a.op.need == .read && own.all Option.isSome then (s, [], false)
      else s.access g a.op pa a.va.toNat a.data (a.rel.getD 0)
    let bs := if a.op.need == .read then own.zipIdx.map (fun b => b.1.getD (r.2.1.getD b.2 0)) else r.2.1
    let bad := (r.2.2 || tx.2.2) && !g.scout
    let bs := if g.scout && r.2.2 then List.replicate 16 0 else bs
    (r.1, (if a.tx.contains (lanes.headD 0) && !tx.2.1.isEmpty then tx.2.1 else bs), bad)

/-- What the access of entry `n` does to a scalar base that other lanes of its instruction may rewrite too: once one has
chased, none of the others does, and one that has not leaves the base to them (R316). -/
def State.oneRewrite (s : State) (k n : Nat) (e : Pend) (a : Access) : State × Access :=
  if a.base.any (fun b => b.1.isSca) then
    if a.va = a.va0 then
      (s, if (s.group k).pend.zipIdx.any (fun f => f.2 != n && e.sibling f.1) then { a with base := none } else a)
    else
      (s.modGroup k (fun g => { g with pend := g.pend.zipIdx.map (fun f =>
        if f.2 != n && e.sibling f.1 then f.1.noBase else f.1) }), a)
  else (s, a)

/-- Performs an access that has reached its place: the entry of its result, or of its fault, for what is left of its
writes (R103). An access whose transactions have all aborted has none. A scout acquires nothing (R52). -/
def State.complete (s : State) (k n : Nat) (e : Pend) (a : Access) (pa : Nat) : State × Pend :=
  let g := s.group k
  let lane := e.lane.getD 0
  let z := a.op.result
  if (e.lanes.map Prod.fst).all (fun i => a.tx.contains i && ((g.lane i).tx).isNone) then
    (s, { e with writes := [], access := none })
  else
    let (s, bs, bad) := s.performAccess k n e a pa
    let s := match a.acq with
      | some lvl => if g.scout then s else s.acquireAt g.core g.ctx lvl
      | none => s
    let (s, a) := s.oneRewrite k n e (if bad then { a with va := a.va0 } else a)
    (s, { e with
      writes := e.still (resultWrites lane a.base (a.va - a.va0) z a.dst (if bad then none else some bs))
      fault := if bad then some (7, 1, a.va0) else none
      resp := some (pa / 128)
      access := none })

/-- Detail of a fault of a data access (R325). -/
def dataDetail (code va : Nat) : Nat := if code = 5 ∧ 2 ^ 56 ≤ va then 1 else 0

/-- Entry `n` of a group's scoreboard becomes another. -/
def State.putEntry (s : State) (k n : Nat) (e : Pend) : State := s.modGroup k (fun g => { g with pend := g.pend.set n e })

/-- An access that waits at a tile goes on with its chase, and its entry says where it stands: at its place, where a
transactional one has entered its lanes' sets (R171, R172), at another tile in transit, or at a fault that is to be delivered
(R314, R315, R401). A prefetch then does nothing, and a scout takes zero (R52, R162). -/
def State.chaseOn (s : State) (k : Nat) (e : Pend) (a : Access) : State × Pend :=
  let g := s.group k
  match s.chase g.core g.ctx a.op.need a.op.size (!g.scout) (3 - a.hops) a.va.toNat with
  | (s, .ok pa _ va hops) =>
    ((s.txEnter k (g.inTx a.tx) (a.op.need == .write) false (some (pa / 128))).1,
      { e with access := some { a with va := BitVec.ofNat 64 va, hops := hops, pa := some pa } })
  | (s, .transit va hops) => (s, { e with access := some { a with va := BitVec.ofNat 64 va, hops := hops } })
  | (s, .fault c) => (s,
      if a.isPref then { e with access := none }
      else if g.scout then
        { e with
          access := none
          writes := e.still (resultWrites (e.lane.getD 0) none 0 a.op.result a.dst (some (List.replicate 16 0))) }
      else { e with access := none, fault := some (c, dataDetail c a.va0.toNat, a.va0) })

/-- Entry `n` of a group's scoreboard, when it is an access that waits at a tile in transit, reaches its place: the moves that
hold it back come to their end, but not for a scout (R52). DESIGN CHOICE (log 44). -/
def State.reachAt (s : State) (k n : Nat) : Nat → State
  | 0 => s
  | fuel + 1 =>
    match (s.group k).pend[n]? with
    | none => s
    | some e =>
      match e.access with
      | none => s
      | some a =>
        if a.pa.isSome || (s.group k).scout then s
        else
          let s := match s.transitOf (s.group k).ctx a.va.toNat with
            | some m => s.finishMove m
            | none => s
          let r := s.chaseOn k e a
          (r.1.putEntry k n r.2).reachAt k n fuel

/-- Performs entry `n` of a group's scoreboard, when it is an access that has reached its place. -/
def State.performAt (s : State) (k n : Nat) : State :=
  match (s.group k).pend[n]? with
  | none => s
  | some e =>
    match e.access with
    | none => s
    | some a =>
      match a.pa with
      | none => s
      | some pa =>
        let r := s.complete k n e a pa
        r.1.putEntry k n r.2

/-- Performs the accesses that `f` names and that are not performed, in the order of their issue, each once it has reached its
place; those that leave no result leave the scoreboard. -/
def State.performThose (s : State) (k : Nat) (f : Access → Bool) : State :=
  let idx := (List.range (s.group k).pend.length).filter (fun n =>
    ((s.group k).pend[n]?.bind Pend.access).any f)
  if idx.isEmpty then s
  else (idx.foldl (fun s n => (s.reachAt k n 5).performAt k n) s).modGroup k (fun g =>
    { g with pend := g.pend.filter (fun e => !e.done) })

/-- Performs every access of a group that is on its way: before a release, a fence, a transaction's commit. -/
def State.drainAll (s : State) (k : Nat) : State := s.performThose k (fun _ => true)

/-- Performs every load of a group that is not performed; with an atomic among them, or an access that waits at a tile, every
access (R177). -/
def State.drainReads (s : State) (k : Nat) : State :=
  if (s.group k).pend.any (fun e => e.access.any (fun a => a.pa.isNone || (a.reads && a.op.need != .read))) then s.drainAll k
  else s.performThose k Access.reads

/-- Performs the acquires of a group that wait at a tile, with every access of it (R153). -/
def State.drainAcquires (s : State) (k : Nat) : State :=
  if (s.group k).pend.any (fun e => e.access.any (fun a => a.acq.isSome)) then s.drainAll k else s

/-- Performs what is on its way of a group when it may touch bytes that the group is to access at once, or is an acquire. -/
def State.clearWay (s : State) (k pa n : Nat) : State :=
  if (s.group k).pend.any (fun e => e.access.any (fun a => a.acq.isSome || s.touches (s.group k).ctx a pa n)) then s.drainAll k
  else s

/-- An access has reached its place at issue. An acquire, a release store, a transactional access and a scout's are
performed at once, and so is each while a shootdown is under way (R347); every other is performed at once or later, as the
free value `Config.defers` says, when nothing before it forbids that (R240, R244, R248). -/
def State.finish (s : State) (k : Nat) (e : Pend) (a : Access) (pa : Nat) : State :=
  let g := s.group k
  let now := fun (s : State) =>
    let r := s.complete k (s.group k).pend.length e a pa
    r.1.result k r.2
  let may := s.mayPerform g g.pend.length e a pa
  if g.scout then now s
  else if a.acq.isSome || a.rel.isSome || !a.tx.isEmpty || !s.staleNow.isEmpty then
    now (if may && a.tx.isEmpty then s else s.drainAll k)
  else if may && !Config.defers s.free then now s.tick
  else s.tick.push k { e with access := some { a with pa := some pa } }

/-! ### Issuing a global access -/

/-- The space of the page that an address reaches, whatever the page permits. -/
def State.spaceAt (s : State) (core ctx : Nat) : Nat → Nat → Option Nat
  | fuel, va =>
    match (s.lookup core ctx va false).2 with
    | .leaf e => some (paSpace (pteAddr e * 4096))
    | .fwd dest =>
      match fuel with
      | 0 => none
      | fuel + 1 => s.spaceAt core ctx fuel (dest + va % 65536)
    | _ => none

/-- A lane of a scout whose access faults takes zero (R52). -/
def State.scoutZero (s : State) (x : Issue) (lane : Nat) (z : Size) (d : Opnd) : State :=
  if (s.group x.g).scout then s.writes x.g (loadUnits z d lane (List.replicate 16 0)) else s

/-- Lanes with an open transaction take cause 1, detail 4, at an access to host or peer memory (R175); gives the
others. -/
def State.refuseFar (s : State) (x : Issue) (lanes : List Nat) (va : W64) : State × List Nat :=
  let g := s.group x.g
  let tx := g.inTx lanes
  if !tx.isEmpty && decide (va.toNat < 2 ^ 56) && (s.spaceAt g.core g.ctx 3 va.toNat).any (fun n => decide (2 ≤ n)) then
    (tx.foldl (fun s l => s.park x.g l x.pc 1 4 0) s, lanes.filter (fun l => !tx.contains l))
  else (s, lanes)

/-- One global access of an instruction: by `lane` of a lane form for itself, or once for `lanes`. `base`
is the base operand with its value. `full` is passed on from lane to lane (R172). -/
def State.issueAccess (s : State) (x : Issue) (lane : Option Nat) (lanes : List Nat) (op : MemOp) (dst : Opnd)
    (base : Opnd × W64) (va : W64) (data : List Byte) (acq rel : Option Nat) (full : Bool) : State × Bool :=
  let g := s.group x.g
  let n := op.size
  let z := op.result
  let (s, lanes) := s.refuseFar x lanes va
  if lanes.isEmpty then (s, full)
  else
  let i := lane.getD (lanes.headD 0)
  let fail := fun (s : State) (code detail : Nat) =>
    (((s.faultAll x lanes code detail va).scoutZero x i z dst), full)
  let watched := fun (s : State) (w : Nat) => (s.faultAll x lanes 8 w (s.watchedByte g w va.toNat), full)
  if va.toNat % n ≠ 0 then fail s 2 0
  else
    let watch := s.watchBytes g 0 va.toNat n (op.need != .write) (op.need != .read)
    let (s, r) := s.translate g.core g.ctx op.need va.toNat n (!g.scout)
    let rew := va.toNat / 65536 == base.2.toNat / 65536 && s.pageMoves g.core g.ctx va.toNat
    let b := if rew then some base else none
    let enter := fun (s : State) (lanes : List Nat) (rva hops : Nat) =>
      let a : Access :=
        { op := op
          va := BitVec.ofNat 64 rva
          va0 := va
          hops := hops
          data := data
          dst := dst
          base := b
          acq := acq
          rel := rel
          tx := (s.group x.g).inTx lanes }
      let e : Pend :=
        { pc := x.pc
          lane := lane
          lanes := g.issuedOf lanes
          writes := pendingWrites i b z dst
          tag := s.steps }
      (a, e)
    match r, watch with
    | .fault code, _ => fail s code (dataDetail code va.toNat)
    | .ok pa _ _ _, w =>
      if paSpace pa == 2 && (match op with
          | .atom k .. => decide (1 ≤ k ∧ k ≤ 5) || k == 7
          | _ => false) then fail s 5 3
      else
        match w with
        | some w => watched s w
        | none =>
          match r with
          | .ok pa _ rva hops =>
            let (s, lanes, full) := s.txEnter x.g lanes (op.need == .write) full (some (pa / 128))
            if lanes.isEmpty then (s, full)
            else
              let (a, e) := enter s lanes rva hops
              (s.finish x.g { e with resp := if a.reads then some (pa / 128) else none } a pa, full)
          | _ => (s, full)
    | .transit _ _, some w => watched s w
    | .transit rva hops, none =>
      let (s, lanes, full) := s.txEnter x.g lanes (op.need == .write) full none
      if lanes.isEmpty then (s, full)
      else
        let (a, e) := enter s lanes rva hops
        (s.push x.g { e with access := some a }, full)

/-- Offset of a load or store: an immediate, or a scalar register whole (R146). -/
def offsetOf (g : Group) (lane : Nat) (o : Opnd) : W64 := g.value lane o 2

/-- Issues a group's access for every active lane, or once in a scalar form (R152). -/
def State.accesses (s : State) (x : Issue) (once : Bool) (op : Group → Nat → MemOp) (dst : Opnd)
    (base : Opnd) (off : Group → Nat → W64) (data : Group → Nat → List Byte) (acq rel : Option Nat) : State :=
  let g := s.group x.g
  let one := fun (a : State × Bool) (i : Nat) (lane : Option Nat) (lanes : List Nat) (rewrite : Bool) =>
    let b := g.value i base 2
    a.1.issueAccess x lane lanes (op g i) dst ((if rewrite then base else .none), b) (b + off g i)
      (data g i) acq rel a.2
  match x.act with
  | [] => s
  | first :: _ =>
    if once then (one (s, false) first none x.act true).1
    else
      -- a scalar base is rewritten once for the instruction (R316): not again once an access of this issue has chased
      (x.act.foldl (fun a i =>
        let done := base.isSca && (a.1.group x.g).pend.any (fun e => e.pc == x.pc && e.tag == s.steps && e.access.isNone &&
          e.writes.any (fun w => w.1 == .sca (Opnd.idx base) && w.2 != some (g.value i base 2)))
        one a i (some i) [i] (!done)) (s, false)).1

/-- What an instruction asks of its group's earlier accesses: 2 that every one is performed first, as a release, a
release fence, a commit or a sweep does; 1 that every read is, as a store to local memory or to the return stack does; 3 that
every acquire is, as a read of local memory does (R152, R153, R168, R173, R177, R178, R232, R248). -/
def drainsOf : Instr → Nat
  | .stRel .. | .publ .. | .rcfence .. | .sweep .. | .txe .. | .spawn .. | .post .. | .sigw .. | .bar ..
  | .cpin .. | .cpout .. | .gath .. | .drain .. => 2
  | .fence k _ _ _ => if k = .acq then 1 else 2
  | .stl .. | .ast .. | .racq .. | .rput .. | .rget .. | .rrel .. | .call .. | .callx .. => 1
  | .ldl fe _ _ _ => if fe = .wc then 1 else 3
  | .mlda .. | .ald .. | .mma .. | .mmq .. => 3
  | .atomAdd _ _ r _ _ _ | .atomMin _ _ r _ _ _ | .atomMax _ _ r _ _ _ => if r = .rel ∨ r = .ar then 2 else 0
  | .atomAnd _ r _ _ _ | .atomOr _ r _ _ _ | .atomXor _ r _ _ _ | .atomXchg _ r _ _ _ | .cas _ r _ _ _ =>
    if r = .rel ∨ r = .ar then 2 else 0
  | .atomAddF32 r _ _ _ => if r = .rel ∨ r = .ar then 2 else 0
  | _ => 0

/-- The state once a group's earlier accesses are performed as an instruction asks. -/
def State.drainFor (s : State) (k : Nat) (i : Instr) : State :=
  match drainsOf i with
  | 0 => s
  | 1 => s.drainReads k
  | 3 => s.drainAcquires k
  | _ => s.drainAll k

/-- Issues an instruction once its group's earlier accesses are performed as it asks. A group with an access that waits at a
tile in transit issues on (R46, R102); one that an instruction needs performed first takes the move to its end. DESIGN CHOICE
(log 44). -/
def performMem (i : Instr) (s : State) (body : Issue → State → State) : Host.Outcome State Fault Refusal :=
  perform i s (fun x s => body x (s.drainFor x.g i))

/-- Whether some active lane has gone on past the instruction, and so performs it. -/
def Issue.goesOn (x : Issue) (t : State) : Bool :=
  x.act.any (fun i => ((t.group x.g).lane i).lst == .running && ((t.group x.g).lane i).pc == x.pc + 12)

/-- A release before the accesses of an instruction, unless every active lane takes a fault, which performs none of it (R147,
R155, R168, R385). -/
def State.releaseThen (s : State) (x : Issue) (sc : Scope) (body : State → State) : State :=
  if x.goesOn (body s) then body (s.release (s.group x.g) sc) else body s

/-! ### Local accesses (R157 to R160) -/

/-- Local offset: base + offset, the base unsigned, the offset signed.
DEDUCED (log 16): the sum does not wrap. -/
def localAddr (g : Group) (lane : Nat) (base off : Opnd) : Int :=
  let b := match base with
    | .v r _ => ((g.lane lane).vreg r).toNat
    | o => (g.value lane o 2).toNat
  (b : Int) + (offsetOf g lane off).toInt

/-- The cause of a local access of `n` bytes at an offset, with its detail (R157). -/
def localFault (loc : Nat) (o : Int) (n : Nat) : Option (Nat × Nat) :=
  if o % (n : Int) ≠ 0 then some (2, 3)
  else if o < 0 ∨ (loc : Int) < o + n then some (5, 2)
  else none

/-- One local load for a lane, or once for a group. A lane that finds its granule empty waits (R158). -/
def State.localLoad (s : State) (x : Issue) (lane : Option Nat) (lanes : List Nat) (fe : LoadFe) (z : Size)
    (dst : Opnd) (o : Int) : State :=
  let g := s.group x.g
  let t := s.team g.team
  let i := lane.getD (lanes.headD 0)
  let fail := fun (code detail : Nat) => (s.faultAll x lanes code detail 0).scoutZero x i z dst
  match localFault t.locLen o z.bytes with
  | some (code, detail) => fail code detail
  | none =>
    let a := o.toNat
    match s.watchBytes g 1 a z.bytes true false with
    | some w => fail 8 w
    | none =>
      if fe != .plain && !g.scout && !t.isFull (a / 16) then
        lanes.foldl (fun s l => s.modLane x.g l (fun n =>
          { n with lst := .waiting, pc := x.pc, gran := a / 16 })) s
      else
        let bs := t.locBytes a z.bytes
        let s := if fe == .wc && !g.scout then s.modTeam g.team (fun t => t.setEmpty (a / 16)) else s
        s.result x.g
          { pc := x.pc
            lane := lane
            lanes := g.issuedOf lanes
            writes := (loadUnits z dst i bs).map (fun p => (p.1, some p.2)) }

/-- One local store for a lane, or once for a group. -/
def State.localStore (s : State) (x : Issue) (lanes : List Nat) (fe : StoreFe) (z : Size) (o : Int)
    (data : List Byte) : State :=
  let g := s.group x.g
  let t := s.team g.team
  match localFault t.locLen o z.bytes with
  | some (code, detail) => s.faultAll x lanes code detail 0
  | none =>
    match s.watchBytes g 1 o.toNat z.bytes false true with
    | some w => s.faultAll x lanes 8 w 0
    | none => s.locWrite g.team o.toNat fe data

end Sys2Proof.Machine
end

