-- ==== Sys2Proof/Machine/Atomic.lean ====
section
/-! DEFINITION. Atomics, compare-and-swap and transactions (R163 to R176). -/

namespace Sys2Proof.Machine

/-- Whether an atomic acts once for the group: with a scalar D, the scalar form of R111. Every other acts for each
active lane (R165). DEDUCED (log 20). -/
def Ops.atomOnce (o : Ops) : Bool := o.d.isSca

/-- Whether an ordering field asks for an acquire, or for a release (R168). -/
def Order.acquires : Order → Bool
  | .acq | .ar => true
  | _ => false
def Order.releases : Order → Bool
  | .rel | .ar => true
  | _ => false

/-- The body of every atomic (R165, R167, R168): lanes in a transaction are refused, a release is applied
before the write, and each lane's operation is performed at the owning point. -/
def atomBody (op : Nat) (w64 sgn : Bool) (ord : Order) (sc : Scope) (o : Ops) (x : Issue) (s : State) : State :=
  let r := s.refuseTx x
  let g := r.1.group x.g
  let lvl := r.1.scopeLevel g.team sc
  let n := regsOf w64
  let body := fun (s : State) => s.accesses r.2 (Ops.atomOnce o)
    (fun g i => .atom op w64 sgn (if w64 then g.value i o.b n else (g.value i o.b n).setWidth 32 |>.setWidth 64)
      (if w64 then g.value i o.d n else (g.value i o.d n).setWidth 32 |>.setWidth 64))
    o.d o.a (fun _ _ => atomOffset w64 o.a) (fun _ _ => [])
    (if Order.acquires ord then some lvl else none) (if Order.releases ord then some 0 else none)
  if Order.releases ord then r.1.releaseThen r.2 sc body else body r.1

/-- `atom.add` (R163). -/
def execAtomAdd (w64 sgn : Bool) (ord : Order) (sc : Scope) (c : Ctl) (o : Ops) (s : State) :
    Host.Outcome State Fault Refusal :=
  performMem (.atomAdd w64 sgn ord sc c o) s (atomBody 0 w64 sgn ord sc o)

/-- `atom.min` (R163). -/
def execAtomMin (w64 sgn : Bool) (ord : Order) (sc : Scope) (c : Ctl) (o : Ops) (s : State) :
    Host.Outcome State Fault Refusal :=
  performMem (.atomMin w64 sgn ord sc c o) s (atomBody 1 w64 sgn ord sc o)

/-- `atom.max` (R163). -/
def execAtomMax (w64 sgn : Bool) (ord : Order) (sc : Scope) (c : Ctl) (o : Ops) (s : State) :
    Host.Outcome State Fault Refusal :=
  performMem (.atomMax w64 sgn ord sc c o) s (atomBody 2 w64 sgn ord sc o)

/-- `atom.and` (R163). -/
def execAtomAnd (w64 : Bool) (ord : Order) (sc : Scope) (c : Ctl) (o : Ops) (s : State) :
    Host.Outcome State Fault Refusal :=
  performMem (.atomAnd w64 ord sc c o) s (atomBody 3 w64 false ord sc o)

/-- `atom.or` (R163). -/
def execAtomOr (w64 : Bool) (ord : Order) (sc : Scope) (c : Ctl) (o : Ops) (s : State) :
    Host.Outcome State Fault Refusal :=
  performMem (.atomOr w64 ord sc c o) s (atomBody 4 w64 false ord sc o)

/-- `atom.xor` (R163). -/
def execAtomXor (w64 : Bool) (ord : Order) (sc : Scope) (c : Ctl) (o : Ops) (s : State) :
    Host.Outcome State Fault Refusal :=
  performMem (.atomXor w64 ord sc c o) s (atomBody 5 w64 false ord sc o)

/-- `atom.xchg` (R163). -/
def execAtomXchg (w64 : Bool) (ord : Order) (sc : Scope) (c : Ctl) (o : Ops) (s : State) :
    Host.Outcome State Fault Refusal :=
  performMem (.atomXchg w64 ord sc c o) s (atomBody 6 w64 false ord sc o)

/-- `atom.add.f32` (R166). -/
def execAtomAddF32 (ord : Order) (sc : Scope) (c : Ctl) (o : Ops) (s : State) : Host.Outcome State Fault Refusal :=
  performMem (.atomAddF32 ord sc c o) s (atomBody 7 false false ord sc o)

/-- `cas` (R167): D holds the compare value at issue. -/
def execCas (w64 : Bool) (ord : Order) (sc : Scope) (c : Ctl) (o : Ops) (s : State) :
    Host.Outcome State Fault Refusal :=
  performMem (.cas w64 ord sc c o) s (atomBody 8 w64 false ord sc o)

/-! ### Transactions -/

/-- `txb` (R171, R175): D := 0 and the transaction opens. -/
def execTxb (c : Ctl) (o : Ops) (s : State) : Host.Outcome State Fault Refusal :=
  performMem (.txb c o) s (fun x s =>
    let r := s.refuseTx x
    let target := match o.a with
      | .imm n => x.pc + BitVec.ofInt 64 (12 * n)
      | _ => x.pc
    r.2.act.foldl (fun s i =>
      (s.writes x.g [(.vec i (Opnd.idx o.d), 0)]).modLane x.g i (fun l =>
        { l with tx := some ⟨Opnd.idx o.d, target, [], [], [], [], [], false⟩ })) r.1)

/-- `txe` (R173): the group waits until every open transaction of its active lanes has ended. -/
def execTxe (c : Ctl) (o : Ops) (s : State) : Host.Outcome State Fault Refusal :=
  performMem (.txe c o) s (fun x s =>
    let lanes := x.act.filter (fun i => ((s.group x.g).lane i).tx.isSome)
    if lanes.isEmpty then s else s.modGroup x.g (fun g => { g with wait := .txe lanes }))

/-- `txa` (R174). -/
def execTxa (c : Ctl) (o : Ops) (s : State) : Host.Outcome State Fault Refusal :=
  performMem (.txa c o) s (fun x s =>
    let code := match o.a with
      | .imm n => n.toNat
      | _ => 0
    x.act.foldl (fun s i => s.txAbort x.g i (7 + 256 * code)) s)

/-- Whether two transactions conflict: one's write set shares a line with the other's sets (R173). -/
def txConflict (a b : Tx) : Bool :=
  a.wlines.any (fun l => b.wlines.contains l || b.rlines.contains l) ||
  b.wlines.any (fun l => a.rlines.contains l)

/-- Makes a write set visible at the owning points, as one device-scope release (R173). -/
def State.txCommit (s : State) (k i : Nat) (t : Tx) : State :=
  let g := s.group k
  let s := (s.endRelaunch g.team).releaseAt g.core g.ctx 2
  let s := t.wlines.foldl (fun s l => s.gather g.core l) s
  let s := (runs (t.writes.foldl (fun m w => FMap.insert w.1 w.2 m) [])).foldl (fun s r =>
    s.ownWrite g.ctx true r.1 r.2) s
  let s := t.arr.foldl (fun s p => s.arriveAt g.ctx p.1 p.2) s
  s.modLane k i (fun l => { l with tx := none })

/-- The commit of the transactions of a `txe` (R173): conflicts within the group, then for each lane
validation and commit. DESIGN CHOICE (log 55): a lane whose sets a move has reached aborts first, and conflicts with
none. -/
def State.txEnd (s : State) (k : Nat) (lanes : List Nat) : State :=
  let g := s.group k
  let txOf := fun (i : Nat) => (g.lane i).tx
  let moved := lanes.filter (fun i => match txOf i with
    | some t => s.txMoved t
    | none => false)
  let live := lanes.filter (fun i => !moved.contains i)
  let clash := live.filter (fun i => live.any (fun j => decide (j < i) &&
    (match txOf i, txOf j with
      | some a, some b => txConflict a b
      | _, _ => false)))
  let s := moved.foldl (fun s i => s.txAbort k i 6) s
  let s := clash.foldl (fun s i => s.txAbort k i 2) s
  (live.filter (fun i => !clash.contains i)).foldl (fun s i =>
    match txOf i with
    | none => s
    | some t => if s.txValid g.ctx t then s.txCommit k i t else s.txAbort k i 1) s

/-- COMMIT_COMPLETE: every transaction of a `txe` commits or aborts, and the group is ready (R173). -/
def execCommitComplete (g : Nat) (s : State) : Host.Outcome State Fault Refusal :=
  match (s.group g).wait with
  | .txe lanes => .next ((s.txEnd g lanes).modGroup g (fun x => { x with wait := .none }))
  | _ => .fault (.notEnabled "COMMIT_COMPLETE")

end Sys2Proof.Machine
end

