-- ==== Sys2Proof/Machine/Branch.lean ====
section
/-! DEFINITION. Branches, calls and returns, and the per-lane return stack (R186 to R190). -/

namespace Sys2Proof.Machine

/-- Sets a lane's PC. -/
def State.jump (s : State) (k i : Nat) (pc : W64) : State := s.modLane k i (fun l => { l with pc := pc })

/-- Target of a slot offset (R186). -/
def slotTarget (pc : W64) (a : Opnd) : W64 :=
  match a with
  | .imm n => pc + BitVec.ofInt 64 (12 * n)
  | _ => pc

/-- Whether a code address is a multiple of 4 (R93). -/
def codeAligned (pc : W64) : Bool := pc.toNat % 4 == 0

/-- Sets each active lane's PC; a target that is not a multiple of 4 faults the lane (R187). -/
def State.branch (s : State) (x : Issue) (target : Group → Nat → W64) : State :=
  let g := s.group x.g
  x.act.foldl (fun s i =>
    if codeAligned (target g i) then s.jump x.g i (target g i) else s.fault x i 2 1 0) s

/-! ### The stack segment (R188) -/

/-- Address of a spilled entry of a lane. -/
def Group.stackAddr (g : Group) (k i : Nat) : W64 := g.seg + BitVec.ofNat 64 ((k * g.width + i) * 8)

/-- Detail of a fault of a spill or refill (R325). -/
def stackDetail (code : Nat) (va : W64) : Nat := if code = 4 then 2 else dataDetail code va.toNat

/-- A spill or refill of a lane of group `k`: the bytes read, or the code, detail and address of its fault, the lowest that
applies (R189, R190, R212, R324, R327). -/
def State.stackAccess (s : State) (k : Nat) (op : MemOp) (va : W64) (data : List Byte) :
    State × Except (Nat × Nat × W64) (List Byte) :=
  let g := s.group k
  match s.translate g.core g.ctx op.need va.toNat 8, s.watchBytes g 0 va.toNat 8 (op.need != .write) (op.need != .read) with
  | (s, .fault c), _ => (s, .error (c, stackDetail c va, va))
  | (s, .transit _ _), _ => (s, .error (4, 2, va))
  | (s, .ok pa _ rva _), none =>
    let s := (s.clearWay k pa 8).noteUse g.ctx g.core rva (s.goesBelow g.core op pa)
    let (s, bs, bad) := s.access g op pa rva data 0
    if bad then (s, .error (7, 1, va)) else (s, .ok bs)
  | (s, .ok pa _ rva _), some w =>
    let bad := op.need == .read && (s.access g op pa rva data 0).2.2
    (s, .error (if bad then (7, 1, va) else (8, w, s.watchedByte g w va.toNat)))

/-- Whether a spill (`need` write) or refill meets a tile in transit, so that the instruction waits to issue. -/
def State.stackMoves (s : State) (g : Group) (need : Need) (va : W64) : Bool :=
  match s.walkChase g.ctx need 8 3 va.toNat with
  | .transit _ _ => true
  | _ => false

/-- Puts a refilled entry below the entries on chip. -/
def Lane.refilled (l : Lane) (bs : List Byte) : Lane :=
  { l with stack := l.stack ++ [BitVec.ofNat 64 (leNat bs)], refill := none }

/-- Refills the oldest on-chip entry of a lane; a fault is held for its next call or return (R190). A poison
read of a team marked `.relaunch` is consumed by the team (R366). -/
def State.refill (s : State) (k i : Nat) : State :=
  let g := s.group k
  let va := g.stackAddr ((g.lane i).depth - 4) i
  match s.stackAccess k (.load .d64) va [] with
  | (s, .ok bs) => s.modLane k i (fun l => l.refilled bs)
  | (s, .error (c, d, at_)) =>
    match (if c = 7 ∧ d = 1 then s.consumePoison g.team else none) with
    | some s => s
    | none => s.modLane k i (fun l => { l with refill := some (c, d, at_) })

/-- Completes a lane's pending refill before a call or return: false when the lane takes the refill's fault.
After the fault the refill is made again at the replay. -/
def State.settleRefill (s : State) (x : Issue) (i : Nat) : State × Bool :=
  let again := fun (s : State) (va : W64) => s.modLane x.g i (fun l => { l with refill := some (0, 0, va) })
  match ((s.group x.g).lane i).refill with
  | none => (s, true)
  | some (0, _, va) =>
    let s := s.refill x.g i
    if (s.group x.g).width = 0 then (s, false)
    else
      match ((s.group x.g).lane i).refill with
      | none => (s, true)
      | some (c, d, _) => (again (s.fault x i c d va) va, false)
  | some (c, d, va) => (again (s.fault x i c d va) va, false)

/-- Pushes a return address on chip and moves the lane (R189). A scout's stack discards its bottom entry
(R212). -/
def Lane.pushed (l : Lane) (ret target : W64) : Lane :=
  { l with stack := (ret :: l.stack).take 4, depth := l.depth + 1, pc := target }

/-- A call of one lane (R189). -/
def State.callLane (s : State) (x : Issue) (i : Nat) (target : W64) : State :=
  let g := s.group x.g
  let l := g.lane i
  let ret := x.pc + 12
  if g.width = 0 then s
  else if !codeAligned target then s.fault x i 2 1 0
  else if g.scout then s.modLane x.g i (fun l => { l with
    stack := (ret :: l.stack).take 4
    depth := min 4 (l.depth + 1)
    pc := target })
  else
    match s.settleRefill x i with
    | (s, false) => s
    | (s, true) =>
      let l := if l.refill.isSome then (s.group x.g).lane i else l
      if l.depth = 4 + g.segCap then s.fault x i 9 0 0
      else if 4 ≤ l.depth then
        let va := g.stackAddr (l.depth - 4) i
        match s.stackAccess x.g (.store .d64) va (leBytes 8 (l.stack.getD 3 0).toNat) with
        | (s, .ok _) => s.modLane x.g i (fun l => l.pushed ret target)
        | (s, .error (c, d, at_)) => s.fault x i c d at_
      else s.modLane x.g i (fun l => l.pushed ret target)

/-- A return of one lane (R190). -/
def State.retLane (s : State) (x : Issue) (i : Nat) : State :=
  let g := s.group x.g
  let l := g.lane i
  if g.width = 0 then s
  else if l.depth = 0 then s.fault x i 9 1 0
  else if !codeAligned (l.stack.getD 0 0) then s.fault x i 2 1 0
  else
    let pop := fun (l : Lane) => { l with stack := l.stack.drop 1, depth := l.depth - 1, pc := l.stack.getD 0 0 }
    if g.scout then s.modLane x.g i pop
    else
      match s.settleRefill x i with
      | (s, false) => s
      | (s, true) =>
        let s := s.modLane x.g i pop
        if 5 ≤ l.depth then s.refill x.g i else s

/-- Addresses that a call, or a return, of a lane spills to or refills from, each with what it needs of its page. -/
def Group.stackTouch (g : Group) (ret : Bool) (i : Nat) : List (Need × W64) :=
  let l := g.lane i
  (match l.refill with
    | some (_, _, va) => [(.read, va)]
    | none => []) ++
  (if g.scout then [] else
    if ret then (if 5 ≤ l.depth then [(.read, g.stackAddr (l.depth - 5) i)] else [])
    else if 4 ≤ l.depth then [(.write, g.stackAddr (l.depth - 4) i)] else [])

/-- Runs a call or return for the active lanes, or waits when its stack meets a tile in transit. -/
def State.stackStep (s : State) (x : Issue) (ret : Bool) (one : State → Nat → State) : State :=
  let g := s.group x.g
  if x.act.any (fun i => (g.stackTouch ret i).any (fun q => s.stackMoves g q.1 q.2)) then s.unissue x .shadowTransit
  else x.act.foldl one s

/-- `bra` (R186). -/
def execBra (c : Ctl) (o : Ops) (s : State) : Host.Outcome State Fault Refusal :=
  perform (.bra c o) s (fun x s => s.branch x (fun _ _ => slotTarget x.pc o.a))

/-- `brx` (R187). -/
def execBrx (c : Ctl) (o : Ops) (s : State) : Host.Outcome State Fault Refusal :=
  perform (.brx c o) s (fun x s => s.branch x (fun g i => g.value i o.a 2))

/-- `call` (R186, R189). -/
def execCall (c : Ctl) (o : Ops) (s : State) : Host.Outcome State Fault Refusal :=
  performMem (.call c o) s (fun x s => s.stackStep x false (fun s i => s.callLane x i (slotTarget x.pc o.a)))

/-- `callx` (R187, R189). -/
def execCallx (c : Ctl) (o : Ops) (s : State) : Host.Outcome State Fault Refusal :=
  performMem (.callx c o) s (fun x s =>
    let g := s.group x.g
    s.stackStep x false (fun s i => s.callLane x i (g.value i o.a 2)))

/-- `ret` (R190). -/
def execRet (c : Ctl) (o : Ops) (s : State) : Host.Outcome State Fault Refusal :=
  performMem (.ret c o) s (fun x s => s.stackStep x true (fun s i => s.retLane x i))

end Sys2Proof.Machine
end

