-- ==== Sys2Proof/Machine/Estate.lean ====
section
/-! DEFINITION. Estates: how they are made, held, spilled and queried (R193 to R196, R293 to R303). -/

namespace Sys2Proof.Machine

/-- Bytes of an estate in a store or a spill area (R293): rows in an array take no room. -/
def Estate.bytes (e : Estate) : Nat :=
  (32 + 4 * e.slots.length + 512 * (if e.inArray then 0 else e.rowCount) + 63) / 64 * 64

/-- Bytes in use in the estate store of a core, and in the spill area of a context. -/
def State.storeUsed (s : State) (core : Nat) : Nat :=
  ((s.estates.filter (fun e => e.place == .store core)).map Estate.bytes).sum
def State.spillUsed (s : State) (ctx : Nat) : Nat :=
  ((s.estates.filter (fun e => e.place == .spill && e.ctx == ctx)).map Estate.bytes).sum

/-- The oldest by order of making. -/
def oldest : List Estate → Option Estate
  | [] => none
  | e :: es =>
    match oldest es with
    | some f => some (if f.made < e.made then f else e)
    | none => some e

/-- An estate leaves its store for the spill area of its context, or expires with reason 4 (R300). DESIGN CHOICE (log 24): it stays
in State as it is, no byte of the area is written, and none of its pages faults. -/
def State.spill (s : State) (e : Estate) : State :=
  if (s.ctx e.ctx).spillLen.toNat < s.spillUsed e.ctx + e.bytes then s.expire e 4
  else { s with estates := s.estates.map (fun f => if f = e then { e with place := .spill } else f) }

/-- Spills the oldest estates of a core's store until `need` bytes fit, at most `fuel` of them. -/
def State.makeRoom (s : State) (core need : Nat) : Nat → State
  | 0 => s
  | fuel + 1 =>
    if s.storeUsed core + need ≤ (s.core core).store then s
    else
      match oldest (s.estates.filter (fun e => e.place == .store core)) with
      | some e => (s.spill e).makeRoom core need fuel
      | none => s

/-- The unclaimed estate with a key. -/
def State.findEstate (s : State) (ctx inc d : Nat) (wid : W64) : Option Estate :=
  s.estates.find? (fun e => e.ctx == ctx && e.inc == inc && e.domain == d && e.wid == wid)

/-- Makes an estate in the store of a core: one of the same key expires with reason 3 (R294, R299). -/
def State.makeEstate (s : State) (core : Nat) (e : Estate) : State :=
  if e.slots.isEmpty && e.tiles == 0 then s
  else
    let s := match s.findEstate e.ctx e.inc e.domain e.wid with
      | some old => s.expire old 3
      | none => s
    let s := s.makeRoom core e.bytes (s.estates.length + 1)
    { s with
      estates := s.estates ++ [{ e with made := s.madeCount, place := .store core }]
      madeCount := s.madeCount + 1 }

/-- What a row that nothing has written reads as (R54). -/
def zeroRow : List W32 := List.replicate 128 0
/-- Key of a row of a tile. -/
def accKey (t m : Nat) : Nat := t * 128 + m
/-- A row of a tile. -/
def Core.accRow (c : Core) (t m : Nat) : List W32 := c.acc.get zeroRow (accKey t m)
/-- Writes a row of a tile. -/
def Core.setRow (c : Core) (t m : Nat) (x : List W32) : Core := { c with acc := c.acc.set zeroRow (accKey t m) x }

/-- Rows that a lane owns in a group of a width (R63). -/
def ownedRows (w i : Nat) : List Nat := (List.range (128 / w)).map (fun k => i * (128 / w) + k)
/-- Tiles of a mask, ascending. -/
def tilesOf (mask : Nat) : List Nat := (List.range 4).filter (fun t => mask.testBit t)

/-- The estate of a domain of a lane's will (R194): a register at or above the allocation gives zero. -/
def State.willEstate (s : State) (g : Group) (i : Nat) (b : Bequest) : Estate :=
  let l := g.lane i
  let c := s.core g.core
  { ctx := g.ctx
    inc := g.inc
    domain := b.domain
    wid := l.wid
    slots := b.regs.map (fun r => if r < g.alloc then l.vreg r else 0)
    tiles := b.tiles
    r := 128 / g.width
    rows := (tilesOf b.tiles).flatMap (fun t => (ownedRows g.width i).map (c.accRow t))
    inArray := b.tiles != 0
    arrayCore := g.core
    queue := (s.launch g.launch).queue
    age := 0
    made := 0
    place := .store g.core }

/-- The estates of a group that ends (R192, R194). -/
def State.groupEstates (s : State) (k : Nat) : State :=
  let g := s.group k
  g.ids.foldl (fun s i => (g.lane i).will.foldl (fun s b => s.makeEstate g.core (s.willEstate g i b)) s) s

/-- Rows in a core's tiles go to its estate store (R301), but for the estates that `keep` names; the oldest estates make
room for them (R300). -/
def State.swapOut (s : State) (core : Nat) (keep : Estate → Bool) : State :=
  (s.estates.filter (fun e => e.inArray && e.arrayCore == core && !keep e)).foldl (fun s e =>
    let s := { s with estates := s.estates.map (fun (f : Estate) =>
      if f.made = e.made then { f with inArray := false, place := .store core } else f) }
    s.makeRoom core 0 (s.estates.length + 1)) s

/-- Status word of `estq` (R195). -/
def State.estateStatus (s : State) (g : Group) (i d : Nat) : Nat :=
  match s.findEstate g.ctx g.inc d (g.lane i).wid with
  | none => 0
  | some e =>
    1 + (if 0 < e.rowCount then 2 else 0) + (if e.place = .spill then 4 else 0) +
    (if e.place = .store g.core then 8 else 0)

/-- Closes a domain: every unclaimed estate of it expires with reason 1 (R196). The count. -/
def State.closeDomain (s : State) (ctx inc d : Nat) : State × Nat :=
  let es := s.estates.filter (fun e => e.ctx == ctx && e.inc == inc && e.domain == d)
  (es.foldl (fun s e => s.expire e 1) s, es.length)

end Sys2Proof.Machine
end

