-- ==== Sys2Proof/Machine/Launch.lean ====
section
/-! DEFINITION. Kernel descriptors, launch records, launches, and the admission of teams (R27, R34, R35,
R57, R63, R267, R268, R273 to R283, R287, R288, R295 to R301, R327). -/

namespace Sys2Proof.Machine

/-- A key above every key of a map. -/
def FMap.next {V : Type} (m : FMap V) : Nat := (m.getLast?.map (fun p => p.1 + 1)).getD 0

/-! ### Queue descriptors (R267, R268) -/

/-- Physical address of a queue's descriptor, which the device reads live (R394). -/
def State.qd (s : State) (ctx q : Nat) : Nat := (s.ctx ctx).desc + 0x300 + 32 * q
def State.qBase (s : State) (ctx q : Nat) : Nat := s.peek (s.qd ctx q) 8
def State.qSize (s : State) (ctx q : Nat) : Nat := s.peek (s.qd ctx q + 8) 1
def State.qPrio (s : State) (ctx q : Nat) : Nat := s.peek (s.qd ctx q + 9) 1 % 8
def State.qOn (s : State) (ctx q : Nat) : Bool := s.peek (s.qd ctx q + 10) 1 == 1
def State.qRd (s : State) (ctx q : Nat) : Nat := s.peek (s.qd ctx q + 16) 8
def State.qWr (s : State) (ctx q : Nat) : Nat := s.peek (s.qd ctx q + 24) 8

/-- Priority of a launch: that of its queue, as it now stands (R273, R394). -/
def State.launchPrio (s : State) (l : Launch) : Nat := s.qPrio l.ctx l.queue

/-- A write of a queue's wake register (R268): WR takes the value; a disabled queue discards it. -/
def State.wake (s : State) (ctx q : Nat) (v : W64) : State :=
  if (s.ctx ctx).used && s.qOn ctx q then s.poke (s.qd ctx q + 24) 8 v.toNat else s

/-- Places an entry in a firmware core's mailbox of 64 entries, or holds it at the port (R266). -/
def State.post (s : State) (fw : Nat) (e : Mail) : State :=
  { s with mail := s.mail.modify Mailbox.none fw (fun m =>
      if m.held.isEmpty ∧ m.entries.length < 64 then { m with entries := m.entries ++ [e] }
      else { m with held := m.held ++ [e] }) }

/-! ### Kernel descriptors (R27, R274, R275, R295) -/

/-- Whether the `.inherit` table of a descriptor is valid (R295). DESIGN CHOICE (log 58): a register index at or above REGS
is valid, as R295 gives no bound; the register is written in the group's file. -/
def inheritOk (t : List Byte) : Bool :=
  let n := field t 0 1
  let doms := (List.range n).map (fun k => field t (16 + 36 * k) 1)
  decide (n ≤ 3) && zeroField t 1 15 && zeroField t 124 4 && decide doms.Nodup &&
  (List.range 3).all (fun k =>
    let o := 16 + 36 * k
    let nreg := field t (o + 1) 1
    if n ≤ k then zeroField t o 36
    else
      decide (nreg ≤ 32 ∧ field t (o + 2) 1 ≤ 1 ∧ ¬(nreg = 0 ∧ field t (o + 2) 1 = 0)) && zeroField t (o + 3) 1 &&
      zeroField t (o + 4 + nreg) (32 - nreg))

/-- Whether a descriptor's fields keep the limits of R27, R275 and R295.
DEDUCED (log 27): ROLES and slice addresses. -/
def kernelOk (d : List Byte) : Bool :=
  let w := field d 4 1
  let groups := field d 5 1
  let regs := field d 6 2
  let flags := field d 13 1
  let quota := field d 14 2
  let sfrom := field d 20 4
  let sto := field d 24 4
  let ninstr := field d 64 4
  decide (field d 0 4 = 0x5A4C4B44) && (w == 16 || w == 32 || w == 64) && decide (1 ≤ groups ∧ groups ≤ 16) &&
  decide (regs % 8 = 0 ∧ 8 ≤ regs ∧ regs ≤ 256) && decide (field d 8 4 % 16 = 0 ∧ field d 8 4 ≤ 1048576) &&
  decide (field d 12 1 ≤ 32) && decide (flags < 16) &&
  (if flags.testBit 1 then decide (quota % 4 = 0 ∧ 4 ≤ quota ∧ quota ≤ 256) else quota == 0) &&
  decide (field d 16 4 / 4 ^ groups = 0) &&
  (if flags.testBit 2 then decide (sfrom < sto ∧ sto ≤ 12 * ninstr ∧ sfrom % 12 = 0 ∧ sto % 12 = 0)
    else sfrom == 0 && sto == 0) &&
  (if flags.testBit 3 then (List.range 8).all (fun k => decide (field d (32 + 4 * k) 4 ≤ 1048576))
    else field d 28 2 == 0 && zeroField d 32 32) &&
  decide (ninstr ≤ 1048576) && zeroField d 30 2 && zeroField d 68 60 && inheritOk (d.drop 128)

/-- The kernel that a valid descriptor describes. -/
def kernelOf (code : W64) (d : List Byte) : Kernel :=
  { code := code
    width := field d 4 1
    groups := field d 5 1
    regs := field d 6 2
    loc := field d 8 4
    nargs := field d 12 1
    hasAcc := (field d 13 1).testBit 0
    relaunch := (field d 13 1).testBit 1
    slice := (field d 13 1).testBit 2
    phase := (field d 13 1).testBit 3
    rquota := field d 14 2
    roles := field d 16 4
    sfrom := field d 20 4
    sto := field d 24 4
    phnum := field d 28 2
    arr := (List.range 8).map (fun k => field d (32 + 4 * k) 4)
    ninstr := field d 64 4
    inherit := d.drop 128 }

/-- The code object at an address, if CODE holds one (R275).
DEDUCED (log 27): one that cannot be read is none. -/
def State.kernelAt (s : State) (ctx : Nat) (code : W64) : State × Option Kernel :=
  if code.toNat % 64 ≠ 0 ∨ code.toNat < 256 then (s, none)
  else
    match s.devRead ctx (code.toNat - 256) 256 with
    | (s, .ok d) => (s, if kernelOk d then some (kernelOf code d) else none)
    | (s, .error _) => (s, none)

/-- Role of a group (R274). -/
def Kernel.role (k : Kernel) (g : Nat) : Role :=
  match k.roles / 4 ^ g % 4 with
  | 0 => .general
  | 1 => .copy
  | 2 => .matrix
  | _ => .vector

/-- Entries of the `.inherit` table: NINH. -/
def Kernel.ninh (k : Kernel) : Nat := field k.inherit 0 1

/-- Register-file bytes that a group reserves (R57). -/
def Kernel.reserve (k : Kernel) : Nat := k.width * k.regs * 4

/-- Whether a team stays on one core (R35). -/
def Kernel.oneCore (k : Kernel) : Bool := decide (k.groups * k.reserve ≤ 1048576 ∧ k.loc ≤ 524288)

/-- Whether a team fits one core or a cluster, and its group a partition (R35, R281). -/
def Kernel.fits (k : Kernel) : Bool :=
  decide (k.reserve ≤ 262144) &&
  (k.oneCore || (decide (k.loc ≤ 1048576) && (List.range k.groups).any (fun j =>
    decide ((j + 1) * k.reserve ≤ 1048576 ∧ (k.groups - (j + 1)) * k.reserve ≤ 1048576))))

/-! ### Launch records (R276) -/

/-- The checks of a 56-byte launch record; the arrival window counts only with PHASE. -/
def recordOk (r : List Byte) (phase : Bool) : Bool :=
  field r 8 8 % 8 == 0 && decide (1 ≤ field r 16 4 ∧ field r 16 4 ≤ 16777216) &&
  decide (field r 20 2 ≤ 65532) && decide (field r 22 1 ≤ 1) && zeroField r 23 1 &&
  (field r 22 1 == 0 || field r 24 8 % 8 == 0) && (!phase || field r 32 8 % 8 == 0) && zeroField r 48 8

/-- The launch that a record asks for, of `teams` teams. -/
def launchOf (ctx inc queue tree : Nat) (k : Kernel) (r : List Byte) (teams : Nat) : Launch :=
  { live := true
    ctx := ctx
    inc := inc
    queue := queue
    tree := tree
    kernel := k
    args := BitVec.ofNat 64 (field r 8 8)
    teams := teams
    stackE := field r 20 2
    keyed := field r 22 1 == 1
    keys := BitVec.ofNat 64 (field r 24 8)
    awBase := field r 32 8
    awLen := field r 40 8
    waiting := k.phase }

/-- Whether a launch is refused before any team runs (R281, R391). -/
def State.refuses (s : State) (k : Kernel) : Bool := !k.fits || (decide (0 < k.ninh) && !s.featAcc.testBit 3)

/-! ### Phases (R287, R288) -/

/-- A phase slot that is free on every die. DESIGN CHOICE (log 26): the lowest. -/
def State.freePhase (s : State) : Option Nat :=
  (List.range 16).find? (fun p => (List.range 8).all (fun d => !((s.die d).phases.get Phase.none p).used))

/-- Whether another launch of the context holds a phase of the number. -/
def State.phaseBusy (s : State) (ctx phnum : Nat) : Bool :=
  s.launches.any (fun l => l.2.live && l.2.ctx == ctx && l.2.phaseSlot.isSome && l.2.kernel.phnum == phnum)

/-- Arms a launch's arrival counts on every die; events that came before are counted (R287). -/
def State.armPhase (s : State) (lk slot : Nat) : State :=
  let l := s.launch lk
  let mine := fun (e : Nat × Nat × Nat × Option Nat) => e == (l.ctx, l.inc, l.kernel.phnum, none) ||
    e == (l.ctx, l.inc, l.kernel.phnum, some lk)
  let s := (List.range 8).foldl (fun s d => s.modDie d (fun x =>
    let n := (x.early.filter mine).length
    let want := l.kernel.arr.getD d 0
    { x with
      early := x.early.filter (fun e => !mine e)
      phases := x.phases.set Phase.none slot
        { used := true
          ctx := l.ctx
          inc := l.inc
          phnum := l.kernel.phnum
          count := want - n
          extra := n - want } })) s
  s.modLaunch lk (fun l => { l with phaseSlot := some slot, waiting := false })

/-- Launches that wait for a phase slot take one when they can, oldest first (R288). -/
def State.armWaiting (s : State) : State :=
  s.launches.foldl (fun s p =>
    let l := s.launch p.1
    if l.live && l.waiting && !s.phaseBusy l.ctx l.kernel.phnum then
      match s.freePhase with
      | some slot => s.armPhase p.1 slot
      | none => s
    else s) s

/-- Launches of a spawn list with teams that are not yet admitted. DESIGN CHOICE (log 27): a launch counts toward a full list until
its last team is admitted, since R198 does not say when it leaves. -/
def State.spawnList (s : State) (ctx q : Nat) : List Nat :=
  ((s.ctx ctx).queue q).spawns.filter (fun k => (s.launch k).live && decide ((s.launch k).admitted < (s.launch k).teams))

/-! ### Room for a team (R34, R35, R57, R63, R279, R280, R327) -/

/-- Slots and register bytes in use in a partition. -/
def State.partUse (s : State) (p : Nat) : Nat × Nat :=
  let gs := s.groups.filter (fun g => g.2.resident && g.2.part == p)
  (gs.length, (gs.map (fun g => g.2.width * g.2.regs * 4)).sum)

/-- The partition of a core that takes group `g` (R280), given those taken by earlier groups of its team. -/
def State.pickPart (s : State) (core bytes g : Nat) (taken : List Nat) : Option Nat :=
  ([0, 1, 2, 3].map (fun j => 4 * core + (g + j) % 4)).find? (fun p =>
    let u := s.partUse p
    let n := taken.count p
    !(s.core core).partsOut.contains p && decide (u.1 + n < 16 ∧ u.2 + (n + 1) * bytes ≤ 262144))

/-- Places groups, in order, on a core. -/
def State.placeOn (s : State) (core bytes : Nat) : List Nat → List Nat → Option (List Nat)
  | [], taken => some taken
  | g :: gs, taken =>
    match s.pickPart core bytes g taken with
    | some p => s.placeOn core bytes gs (taken ++ [p])
    | none => none

/-- Bytes of local memory that a team of `n` bytes holds on a core. -/
def localShare (n : Nat) (cluster odd : Bool) : Nat :=
  if !cluster then (if odd then 0 else n) else if odd then n - 524288 else min n 524288

/-- Local memory in use on a core. -/
def State.localUse (s : State) (core : Nat) : Nat :=
  ((s.teams.filter (fun t => t.2.live && !t.2.saved && !t.2.groups.isEmpty)).map (fun t =>
    if t.2.core = core then localShare t.2.locLen t.2.cluster false
    else if t.2.cluster ∧ t.2.core + 1 = core then localShare t.2.locLen true true
    else 0)).sum

/-- Whether a resident team holds the accumulator memory of a core (R63). -/
def State.accHeld (s : State) (core : Nat) : Bool :=
  s.teams.any (fun t => t.2.live && !t.2.saved && t.2.holdsAcc && !t.2.groups.isEmpty &&
    (t.2.core == core || (t.2.cluster && t.2.core + 1 == core)))

/-- Whether a core can take a share of a team. -/
def State.coreFree (s : State) (k : Kernel) (core share : Nat) : Bool :=
  decide (core < 256) && decide (s.localUse core + share ≤ 524288) &&
  (!k.hasAcc || (!s.accHeld core && !(s.core core).arrayOut))

/-- The partitions of a team's groups, `gids` in order, when it is placed on a core or, for a team that
needs two, on the cluster of an even core, lower-numbered groups on the even core. -/
def State.plan (s : State) (k : Kernel) (gids : List Nat) (core : Nat) : Option (List Nat) :=
  if k.oneCore then
    if s.coreFree k core k.loc then s.placeOn core k.reserve gids [] else none
  else if core % 2 = 0 ∧ s.coreFree k core (localShare k.loc true false) ∧
      s.coreFree k (core + 1) (localShare k.loc true true) then
    (List.range gids.length).findSome? (fun j =>
      let n := gids.length - j
      match s.placeOn core k.reserve (gids.take n) [] with
      | some ps => s.placeOn (core + 1) k.reserve (gids.drop n) ps
      | none => none)
  else none

/-- First-fit allocation of `n` bytes of a context's stack region. -/
def State.stackFit (s : State) (ctx : Nat) (more : List (Nat × Nat)) (n : Nat) : Option Nat :=
  let c := s.ctx ctx
  let used := more ++ (s.teams.filter (fun t => t.2.ctx == ctx)).flatMap (fun t => t.2.blocks)
  let starts := c.stack.toNat :: used.map (fun b => b.1 + b.2)
  let ok := fun a => decide (c.stack.toNat ≤ a ∧ a + n ≤ c.stack.toNat + c.stackLen.toNat) &&
    used.all (fun b => decide (a + n ≤ b.1 ∨ b.1 + b.2 ≤ a))
  (starts.filter ok).foldl (fun m a => match m with
    | none => some a
    | some b => some (min a b)) none

/-- Stack segments and trap frames for a team: for each group its segment and its frame. -/
def State.stackBlocks (s : State) (ctx seg frame : Nat) : Nat → List (Nat × Nat) → Option (List (Nat × Nat))
  | 0, got => some got
  | n + 1, got =>
    match s.stackFit ctx got seg with
    | none => none
    | some a =>
      match s.stackFit ctx (got ++ [(a, seg)]) frame with
      | none => none
      | some b => s.stackBlocks ctx seg frame n (got ++ [(a, seg), (b, frame)])

/-- A context's time slice goes to the first context that has none (R273). -/
def State.handOn (s : State) (ctx : Nat) : State :=
  match s.ctxs.find? (fun p => p.1 != ctx && p.2.used && !p.2.running) with
  | some p => s.modCtx p.1 (fun c => { c with running := true, sliceFrom := s.steps })
  | none => s

/-! ### Requests of preemption (R273, R331, R338) -/

/-- Waits that a save keeps for a group with TM set (R338). -/
def Wait.keepsMasked : Wait → Bool
  | .bar _ | .donate .. | .sys .. | .callRing .. | .ring .. | .engineQueue => true
  | _ => false

/-- Whether a preemption request stops a group with TM set: it is not ready on a wait that the save keeps. -/
def Group.halts (g : Group) : Bool :=
  g.tm && (g.wait.keepsMasked || (g.running.isEmpty && !(g.inState .waiting).isEmpty))

/-- Requests the preemption of the teams that `hit` names, of those that are resident. -/
def State.requestPreempt (s : State) (hit : Nat → Team → Bool) : State :=
  let hit := fun (k : Nat) (t : Team) => t.live && !t.saved && !t.groups.isEmpty && hit k t
  { s with
    groups := s.groups.map (fun (p : Nat × Group) =>
      (p.1, if hit p.2.team (s.team p.2.team) && !(s.team p.2.team).preempt then
          { p.2 with maskedIssues := 0, halted := p.2.halts }
        else p.2))
    teams := s.teams.map (fun (p : Nat × Team) => (p.1, if hit p.1 p.2 then { p.2 with preempt := true } else p.2)) }

/-- A launch that no core has room for has a team of another context with the least priority, below its own, preempted.
DESIGN CHOICE (log 11): when the Scheduler preempts for a context of higher priority. -/
def State.makeWay (s : State) (lk : Nat) : State :=
  let l := s.launch lk
  let prio := fun (t : Team) => s.launchPrio (s.launch t.launch)
  let below := s.teams.filter (fun t => t.2.live && !t.2.saved && !t.2.preempt && !t.2.groups.isEmpty && t.2.ctx != l.ctx &&
    decide (prio t.2 < s.launchPrio l))
  if (List.range 256).any (fun c => (s.plan l.kernel (List.range l.kernel.groups) c).isSome) then s
  else
    match below.find? (fun t => below.all (fun u => decide (prio t.2 ≤ prio u.2))) with
    | some t => s.requestPreempt (fun k _ => k == t.1)
    | none => s

/-- Enqueues a launch. -/
def State.enqueue (s : State) (l : Launch) : State :=
  ({ s with launches := s.launches.set Launch.none s.launches.next l }.armWaiting).makeWay s.launches.next

/-- A spawned launch enters the spawn list of a queue (R283): no phase of its own, always linear, with
STACKE and the arrival window of its tree's root. -/
def State.enqueueChild (s : State) (l : Launch) : State :=
  let k := s.launches.next
  let s := { s with launches := s.launches.set Launch.none k { l with waiting := false, spawned := true } }
  (s.modQueue l.ctx l.queue (fun q => { q with spawns := q.spawns ++ [k] })).makeWay k

/-! ### Work-item identities and arguments (R277, R278) -/

/-- `$wid` of every lane of a team, by linear index in the team; an error is the cause's image. -/
def State.wids (s : State) (l : Launch) (num : Nat) : State × Except Nat (List W64) :=
  let n := l.kernel.groups * l.kernel.width
  if l.keyed then
    match s.devRead l.ctx (l.keys.toNat + 8 * (num * n)) (8 * n) with
    | (s, .ok bs) => (s, .ok ((List.range n).map (fun i => BitVec.ofNat 64 (field bs (8 * i) 8))))
    | (s, .error e) => (s, .error e)
  else (s, .ok ((List.range n).map (fun i => BitVec.ofNat 64 (num * n + i))))

/-- The argument words. -/
def State.argWords (s : State) (l : Launch) : State × Except Nat (List W64) :=
  match s.devRead l.ctx l.args.toNat (8 * l.kernel.nargs) with
  | (s, .ok bs) => (s, .ok ((List.range l.kernel.nargs).map (fun i => BitVec.ofNat 64 (field bs (8 * i) 8))))
  | (s, .error e) => (s, .error e)

/-! ### Claims (R296 to R298) -/

/-- Estates that the lanes of a team would claim. -/
def State.claims (s : State) (l : Launch) (wids : List W64) : List Estate :=
  wids.flatMap (fun w => (inheritList l.kernel.inherit).filterMap (fun e => s.findEstate l.ctx l.inc e.1 w))

/-- Cores whose arrays hold rows of estates. -/
def arrayCores (es : List Estate) : List Nat := ((es.filter (fun e => e.inArray)).map (fun e => e.arrayCore)).dedup

/-- A row that a claim brings: the core, tile and row it goes to, its words, and the claiming lane and entry. -/
structure RowIn where
  core : Nat
  tile : Nat
  row  : Nat
  data : List W32
  gid  : Nat
  lane : Nat
  k    : Nat
deriving DecidableEq, Repr

/-- Rows that an estate brings to a lane of a group of width `w`, and the rows discarded (R298). -/
def Estate.rowsFor (e : Estate) (acc : Bool) (core w gid lane k : Nat) : List RowIn × Nat :=
  if acc then
    let own := ownedRows w lane
    let ins := (tilesOf e.tiles).zipIdx.flatMap (fun t =>
      (List.range (min e.r own.length)).map (fun p =>
        ({ core := core
           tile := t.1
           row := own.getD p 0
           data := e.rows.getD (t.2 * e.r + p) []
           gid := gid
           lane := lane
           k := k } : RowIn)))
    (ins, e.rowCount - ins.length)
  else ([], e.rowCount)

/-- What the claims of a team have gathered. -/
structure Claimed where
  ins     : List RowIn := []
  surplus : Nat := 0
  got     : Nat := 0
deriving DecidableEq, Repr

/-- One lane's lookup under one entry (R296, R297). -/
def State.claim (s : State) (gk : Nat) (lane k : Nat) (entry : Nat × List Nat × Bool) (c : Claimed) :
    State × Claimed :=
  let g := s.group gk
  match s.findEstate g.ctx g.inc entry.1 (g.lane lane).wid with
  | none => (s.modLane gk lane (fun l => { l with heir := l.heir ++ [(0, 0)] }), c)
  | some e =>
    let m := min e.slots.length entry.2.1.length
    let r := e.rowsFor entry.2.2 g.core g.width g.gid lane k
    let s := { s with estates := s.estates.erase e }
    let s := s.modLane gk lane (fun l =>
      let l := (List.range m).foldl (fun l j => l.setV (entry.2.1.getD j 0) (e.slots.getD j 0)) l
      { l with heir := l.heir ++ [(1, BitVec.ofNat 32 (2 ^ m - 1))] })
    (s, { ins := c.ins ++ r.1
          surplus := c.surplus + (e.slots.length - m) + r.2
          got := c.got + m })

/-- Whether a row in is the last one for its place. -/
def lastFor (rs : List RowIn) (i : Nat) (r : RowIn) : Bool :=
  !(rs.drop (i + 1)).any (fun q => q.core == r.core && q.tile == r.tile && q.row == r.row)

/-- Claims of a team's groups, in ascending linear index, and the placing of their rows (R296 to R298). DESIGN CHOICE (log 24): an
entry with ACC = 1 places its rows in a team whose KFLAGS ACC is clear too, which holds no tiles for it (R63). -/
def State.claimAll (s : State) (team : Nat) (gks : List Nat) (entries : List (Nat × List Nat × Bool)) : State :=
  let (s, c) := gks.foldl (fun a gk =>
    (a.1.group gk).ids.foldl (fun (a : State × Claimed) lane =>
      entries.zipIdx.foldl (fun (a : State × Claimed) e => a.1.claim gk lane e.2 e.1 a.2) a) a) (s, ({} : Claimed))
  let stand := (c.ins.zipIdx.filter (fun p => lastFor c.ins p.2 p.1)).map Prod.fst
  let s := stand.foldl (fun s r => s.modCore r.core (fun x => x.setRow r.tile r.row r.data)) s
  let s := stand.foldl (fun s r =>
    match gks[r.gid]? with
    | some gk => s.modLane gk r.lane (fun l => { l with heir := l.heir.modify r.k (fun h => (h.1 ||| 2, h.2)) })
    | none => s) s
  let t := (s.launch (s.team team).launch).tree
  (s.modTree t (fun t => { t with surplus := t.surplus + c.surplus + (c.ins.length - stand.length) })).modTeam team
    (fun t => { t with claimed := c.got + stand.length })

/-! ### Admission (R34, R277 to R280, R296, R301, R337) -/

/-- A group at its admission, with the priority that its queue then has (R47). -/
def Launch.group (l : Launch) (lk team gid part prio now : Nat) (seg frame : Nat) (wids args : List W64) : Group :=
  let k := l.kernel
  { ctx := l.ctx
    inc := l.inc
    launch := lk
    team := team
    gid := gid
    width := k.width
    role := k.role gid
    part := part
    resident := true
    prio := prio
    regs := k.regs
    alloc := k.regs
    lanes := (List.range k.width).foldl (fun m i => FMap.set Lane.birth m i
      { pc := k.code, wid := wids.getD (gid * k.width + i) 0 }) []
    sregs := args.zipIdx.foldl (fun m a => FMap.set 0 m a.2 a.1) []
    seg := BitVec.ofNat 64 seg
    segCap := l.stackE
    frame := BitVec.ofNat 64 frame
    lastIssue := now }

/-- Makes a team's groups resident on partitions, and lets their lanes claim (R54, R296, R301). -/
def State.seat (s : State) (tk : Nat) (parts : List Nat) (wids args : List W64) : State :=
  let t := s.team tk
  let l := s.launch t.launch
  let k := l.kernel
  let g0 := s.groups.next
  let gks := (List.range k.groups).map (fun g => g0 + g)
  let s := (List.range k.groups).foldl (fun s g => s.setGroup (g0 + g)
    (l.group t.launch tk g (parts.getD g 0) (s.launchPrio l) s.steps (t.blocks.getD (2 * g) (0, 0)).1
      (t.blocks.getD (2 * g + 1) (0, 0)).1 wids args)) s
  let core := coreOfPart (parts.getD 0 0)
  let core := if k.oneCore then core else core / 2 * 2
  let s := s.modTeam tk (fun t => { t with
    core := core
    cluster := !k.oneCore
    groups := gks
    wids := wids
    args := args
    locLen := k.loc
    holdsAcc := k.hasAcc })
  let s := if l.lookupAt.isNone then s.modLaunch t.launch (fun l => { l with lookupAt := some s.madeCount }) else s
  -- rows that the team does not claim leave the arrays that it takes
  let mine := s.claims l wids
  let cores := if k.oneCore then [core] else [core, core + 1]
  let s := if k.hasAcc then
      cores.foldl (fun s c => (s.swapOut c (fun e => mine.contains e)).modCore c (fun x => { x with acc := [] })) s
    else s
  s.claimAll tk gks (inheritList k.inherit)

/-- Under REARM, a trigger is armed again when team 0 of its launch is admitted (R378). -/
def State.rearm (s : State) (l : Launch) (num : Nat) : State :=
  match l.trigger with
  | some tg =>
    if num = 0 then
      { s with triggers := s.triggers.modify Trigger.none tg (fun t =>
          if t.live && t.rearm then { t with armed := true } else t) }
    else s
  | none => s

/-- A team whose argument or key read faults fails as one item (R277, R278). DEDUCED (log 41): it has been admitted. DESIGN CHOICE
(log 26): it ran on no die, so its end is counted on none (R287). -/
def State.stillborn (s : State) (lk cause : Nat) : State :=
  let l := s.launch lk
  let s := (s.rearm l l.admitted).itemRecord l.ctx l.inc l.tree (itemResult false false 0 l.admitted) 0 cause
  (s.modLaunch lk (fun l => { l with admitted := l.admitted + 1 })).treeFall l.tree 1

/-- Whether a team of a launch may be placed on a core at all: that of a step trigger on die 0 alone (R378), and one held for a
relaunch, which ran on core `old`, in another cluster (R361). -/
def Launch.mayTake (l : Launch) (old : Option Nat) (core : Nat) : Bool :=
  !(l.trigger.isSome && dieOfCore core != 0) && old.all (fun c => core / 2 != c / 2)

/-- The cores that a team may take and whose arrays hold rows of its claims. DEDUCED (log 58): for rows on a core that it can
never take it waits for none. -/
def State.claimCores (s : State) (l : Launch) (old : Option Nat) (wids : List W64) : List Nat :=
  (arrayCores (s.claims l wids)).filter (l.mayTake old)

/-- Whether a team's claims let it go to a core: one whose array holds rows of theirs, if any does (R301). -/
def State.claimsAllow (s : State) (l : Launch) (old : Option Nat) (wids : List W64) (core : Nat) : Bool :=
  let held := s.claimCores l old wids
  held.isEmpty || held.contains core || (!l.kernel.oneCore && held.contains (core + 1))

/-- Places that a launch's next team may take on a core: partitions and stack blocks, when the core has
room and the team's claims allow it (R299, R301). -/
def State.room (s : State) (l : Launch) (wids : List W64) (core : Nat) : Option (List Nat × List (Nat × Nat)) :=
  let k := l.kernel
  if !s.claimsAllow l none wids core || !l.mayTake none core then none
  else
    match s.plan k (List.range k.groups) core, s.stackBlocks l.ctx (8 * k.width * l.stackE) (64 + 32 * k.width) k.groups [] with
    | some ps, some bs => some (ps, bs)
    | _, _ => none

/-- The core that the Scheduler prefers for a team (R299). -/
def State.preferred (s : State) (l : Launch) (wids : List W64) : Option Nat :=
  match inheritList l.kernel.inherit, wids with
  | e :: _, w :: _ => (s.findEstate l.ctx l.inc e.1 w).bind (fun x => match x.place with
    | .store c => some c
    | .spill => none)
  | _, _ => none

/-- Whether a launch has a team that may be admitted now. -/
def State.admissible (s : State) (lk : Nat) : Bool :=
  let l := s.launch lk
  let c := s.ctx l.ctx
  l.live && !l.waiting && decide (l.admitted < l.teams) && c.used && c.isOpen && c.inc == l.inc && c.running &&
  c.heldRecs.isEmpty && !s.cqFull l.ctx && !(s.tree l.tree).complete &&
  (!l.spawned || (s.spawnList l.ctx l.queue).head? == some lk)

/-- Whether a core can take a launch's next team; a team whose key read faults, which its admission makes, needs room for it
too (R278, R279). -/
def State.canAdmit (s : State) (lk core : Nat) : Bool :=
  s.admissible lk && (match s.wids (s.launch lk) (s.launch lk).admitted with
    | (s, .ok ws) => (s.room (s.launch lk) ws core).isSome
    | (s, .error _) => (s.room (s.launch lk) [] core).isSome)

/-- Whether launch `a` goes before launch `b` of its context (R273): a higher PRIO, or an equal one whose
queue was served longer ago. -/
def State.goesBefore (s : State) (a b : Nat) : Bool :=
  let x := s.launch a
  let y := s.launch b
  let turn : Nat → Nat := fun q => match (s.ctx x.ctx).served.findIdx? (fun z => z == q) with
    | some i => i + 1
    | none => 0
  let p := s.launchPrio x
  let q := s.launchPrio y
  x.ctx == y.ctx && (decide (q < p) || (p == q && x.queue != y.queue &&
    decide (turn x.queue < turn y.queue)))

/-- Whether the Scheduler serves no queue of a context: its completion queue has no room (R289). -/
def State.stuck (s : State) (ctx : Nat) : Bool := !(s.ctx ctx).heldRecs.isEmpty || s.cqFull ctx

/-- Whether a team is held for a relaunch that its context does not hold up (R361). -/
def State.relaunchWaits (s : State) (t : Team) : Bool :=
  let c := s.ctx t.ctx
  t.live && t.relaunched && t.groups.isEmpty && !t.saved && c.used && c.isOpen && c.running && c.inc == t.inc && !s.stuck t.ctx

/-- The heirs that wait to claim rows in arrays (R301): the next teams of launches, and the teams held for a relaunch, whose
claims are made afresh (R361); each with a number of its own, whether it stays on one core, and the cores that it may take and
whose arrays hold rows of its claims. -/
def State.heirs (s : State) : List (Nat × Bool × List Nat) :=
  (s.launches.filter (fun p => s.admissible p.1)).filterMap (fun p =>
    match s.wids p.2 p.2.admitted with
    | (s, .ok ws) => some (2 * p.1, p.2.kernel.oneCore, s.claimCores p.2 none ws)
    | (_, .error _) => none) ++
  (s.teams.filter (fun t => s.relaunchWaits t.2)).map (fun t =>
    let l := s.launch t.2.launch
    (2 * t.1 + 1, l.kernel.oneCore, s.claimCores l (some t.2.core) t.2.wids))

/-- Whether an heir, other than that numbered `me`, waits to claim rows that lie in a core's array (R301). Of two heirs that
need one cluster, with rows in one core's array each, the one of the lower number does not stand back. DEDUCED (log 58). -/
def State.heirWaits (s : State) (me : Option Nat) (own : List Nat) (core : Nat) : Bool :=
  s.heirs.any (fun h => some h.1 != me && h.2.2.contains core &&
    !(!h.2.1 && me.any (fun n => decide (n < h.1)) && own.any (fun c => c / 2 == core / 2 && !h.2.2.contains c)))

/-- Whether a team that needs the accumulator memory stands back from a core, whose rows another heir waits to claim and
it does not (R301). -/
def State.barred (s : State) (l : Launch) (me : Option Nat) (wids : List W64) (core : Nat) : Bool :=
  let own := arrayCores (s.claims l wids)
  l.kernel.hasAcc && (if l.kernel.oneCore then [core] else [core, core + 1]).any (fun c =>
    !own.contains c && s.heirWaits me own c)

/-- Whether a core can take a launch's next team and no heir bars it. -/
def State.able (s : State) (lk core : Nat) : Bool :=
  let l := s.launch lk
  s.canAdmit lk core && (match s.wids l l.admitted with
    | (s, .ok ws) => !s.barred l (some (2 * lk)) ws core
    | (_, .error _) => true)

/-- Whether a core is the one to take: the preferred core if it is able, else its cluster partner, else any
core (R299). -/
def prefers (oneCore : Bool) (pref : Option Nat) (able : Nat → Bool) (core : Nat) : Bool :=
  match pref with
  | none => true
  | some c =>
    let mate := c / 2 * 2 + (1 - c % 2)
    if oneCore then core == c || (!able c && (core == mate || !able mate))
    else core == c / 2 * 2 || !able (c / 2 * 2)

/-- Whether the Scheduler admits a launch's next team to a core now (R273, R299, R301). -/
def State.chooses (s : State) (lk core : Nat) : Bool :=
  let l := s.launch lk
  s.able lk core && !s.launches.any (fun p => p.1 != lk && s.goesBefore p.1 lk && s.able p.1 core) &&
  (match s.wids l l.admitted with
    | (s, .ok ws) => prefers l.kernel.oneCore (s.preferred l ws) (s.able lk) core
    | (_, .error _) => true)

/-- Cores of a team. -/
def Team.cores (t : Team) : List Nat := if t.cluster then [t.core, t.core + 1] else [t.core]

/-- What the admission of a team adds: a spawned or triggered launch's lanes begin after an acquire at device scope, on
every core of the team, and a trigger may be armed again (R198, R245, R378). -/
def State.afterSeat (s : State) (l : Launch) (num team : Nat) : State :=
  let s := if l.spawned then (s.team team).cores.foldl (fun s c => s.acquireAt c l.ctx 2) s else s
  s.rearm l num

/-- Admits a launch's next team to a core. -/
def State.admitTeam (s : State) (lk core : Nat) : State :=
  let l := s.launch lk
  let s := s.modCtx l.ctx (fun c => { c with served := c.served.filter (fun q => q != l.queue) ++ [l.queue] })
  match s.wids l l.admitted with
  | (s, .error e) => s.stillborn lk e
  | (s, .ok ws) =>
    match s.argWords l with
    | (s, .error e) => s.stillborn lk e
    | (s, .ok args) =>
      match s.room l ws core with
      | none => s
      | some (parts, blocks) =>
        let tk := s.teams.next
        let t : Team :=
          { live := true
            launch := lk
            num := l.admitted
            ctx := l.ctx
            inc := l.inc
            relaunch := l.kernel.relaunch
            blocks := blocks }
        let s := { s with teams := s.teams.set Team.none tk t }
        let s := s.modLaunch lk (fun l => { l with admitted := l.admitted + 1 })
        (s.seat tk parts ws args).afterSeat l l.admitted tk

/-! ### Spawn (R197, R198, R282, R283) -/

/-- Status of a `spawn` and its effect, after the release: `va` is the record's address.
DEDUCED (log 27): a child that does not fit. -/
def State.spawn (s : State) (g : Group) (va : Nat) : State × Nat :=
  let root := s.launch g.launch
  let t := s.tree root.tree
  match s.devRead g.ctx va 64 with
  | (s, .error _) => (s, 2)
  | (s, .ok r) =>
    let code := BitVec.ofNat 64 (field r 0 8)
    let teams := field r 16 4
    let nargs := field r 20 1
    let q := field r 21 1
    match s.kernelAt g.ctx code with
    | (s, none) => (s, 2)
    | (s, some k) =>
      if (nargs ≠ 0 ∧ field r 8 8 % 8 ≠ 0) ∨ teams = 0 ∨ 16777216 < teams ∨ nargs ≠ k.nargs ∨ 63 < q ∨
          !zeroField r 22 42 ∨ !s.qOn g.ctx q then (s, 2)
      else if 4096 ≤ (s.spawnList g.ctx q).length then (s, 1)
      else if 4294967295 < t.count + teams then (s, 3)
      else
        let s := s.modTree root.tree (fun t => { t with count := t.count + teams })
        if s.refuses k then
          let s := s.record g.ctx (recordBytes 5 t.queue t.inc t.tag 0 0 0 0)
          (s.treeFall root.tree teams, 0)
        else
          let l : Launch :=
            { live := true
              ctx := g.ctx
              inc := g.inc
              queue := q
              tree := root.tree
              kernel := k
              args := BitVec.ofNat 64 (field r 8 8)
              teams := teams
              stackE := root.stackE
              awBase := root.awBase
              awLen := root.awLen }
          (s.enqueueChild l, 0)

end Sys2Proof.Machine
end

