-- ==== Sys2Proof/Machine/Control.lean ====
section
/-! DEFINITION. Rejoin, exit, estates, spawn, post, the team barrier, donation, allocation, yield and nop
(R191 to R203, R68, R69). -/

namespace Sys2Proof.Machine

/-! ### Lanes that end -/

/-- `rejoin` (R191). -/
def execRejoin (c : Ctl) (o : Ops) (s : State) : Host.Outcome State Fault Refusal :=
  perform (.rejoin c o) s (fun x s =>
    let g := s.group x.g
    if x.act.isEmpty || g.scout || g.tm || (g.inState .parked).isEmpty then s
    else (s.stay x x.act).modGroup x.g (fun g => { g with rejoin := true }))

/-- `exit` (R192). -/
def execExit (c : Ctl) (o : Ops) (s : State) : Host.Outcome State Fault Refusal :=
  perform (.exit c o) s (fun x s =>
    let r := s.refuseTx x
    r.2.act.foldl (fun s i => s.modLane x.g i (fun l => { l with lst := .exited })) r.1)

/-! ### Estates -/

/-- Domain operand: bits 7 to 0 (R184). -/
def domainOf (g : Group) (i : Nat) (o : Opnd) : Nat := (g.value i o 2).toNat % 256

/-- A will with registers and a tile mask added to a domain (R193). -/
def addBequest (will : List Bequest) (d : Nat) (regs : List Nat) (tiles : Nat) : List Bequest :=
  match will.find? (fun b => b.domain == d) with
  | some _ => will.map (fun b =>
      if b.domain = d then { b with regs := b.regs ++ regs, tiles := b.tiles ||| tiles } else b)
  | none => will ++ [⟨d, regs, tiles⟩]

/-- Slots of a domain in a will. -/
def slotsOf (will : List Bequest) (d : Nat) : Nat :=
  ((will.find? (fun b => b.domain == d)).map (fun b => b.regs.length)).getD 0

/-- `beq` of one lane (R193). -/
def State.bequeath (s : State) (x : Issue) (i d f n tiles : Nat) : State :=
  let g := s.group x.g
  let will := (g.lane i).will
  if n = 0 ∧ tiles = 0 then
    s.modLane x.g i (fun l => { l with will := l.will.filter (fun b => b.domain != d) })
  else if tiles ≠ 0 ∧ !(s.team g.team).holdsAcc then s.fault x i 1 6 0
  else if (!will.any (fun b => b.domain == d) && decide (4 ≤ will.length)) ∨ 32 < slotsOf will d + n then
    s.fault x i 1 5 0
  else
    s.modLane x.g i (fun l => { l with
      will := addBequest l.will d ((List.range n).map (fun j => f + j)) tiles })

/-- `beq` (R193). -/
def execBeq (tiles : Nat) (c : Ctl) (o : Ops) (s : State) : Host.Outcome State Fault Refusal :=
  perform (.beq tiles c o) s (fun x s =>
    let g := s.group x.g
    let n := match o.b with
      | .imm n => n.toNat
      | _ => 0
    x.act.foldl (fun s i => s.bequeath x i (domainOf g i o.d) (Opnd.idx o.a) n tiles) s)

/-- `estq` (R195). -/
def execEstq (c : Ctl) (o : Ops) (s : State) : Host.Outcome State Fault Refusal :=
  perform (.estq c o) s (fun x s =>
    let g := s.group x.g
    x.act.foldl (fun s i => s.push x.g
      { pc := x.pc
        lane := some i
        lanes := g.issuedOf [i]
        writes := [(.vec i (Opnd.idx o.d), some (BitVec.ofNat 64 (s.estateStatus g i (domainOf g i o.a))))] }) s)

/-- A scalar result on its way, of an instruction that acts once for the group. -/
def State.pushScalar (s : State) (x : Issue) (d : Opnd) (v : W64) : State :=
  s.push x.g
    { pc := x.pc
      lane := none
      lanes := (s.group x.g).issuedOf x.act
      writes := [(.sca (Opnd.idx d), some v)] }

/-- `estdrop` (R196). -/
def execEstdrop (c : Ctl) (o : Ops) (s : State) : Host.Outcome State Fault Refusal :=
  perform (.estdrop c o) s (fun x s =>
    match x.act with
    | [] => s
    | i :: _ =>
      let g := s.group x.g
      let r := s.closeDomain g.ctx g.inc (domainOf g i o.a)
      r.1.pushScalar x o.d (BitVec.ofNat 64 r.2))

/-! ### Spawn and post -/

/-- `spawn` (R197, R198); the record's bytes may match a watchpoint (R147, R385). -/
def execSpawn (c : Ctl) (o : Ops) (s : State) : Host.Outcome State Fault Refusal :=
  performMem (.spawn c o) s (fun x s =>
    let r := s.refuseTx x
    match r.2.act with
    | [] => r.1
    | _ :: _ =>
      let s := r.1
      let g := s.group x.g
      let va := g.sreg (Opnd.idx o.a)
      if va.toNat % 64 ≠ 0 then s.faultAll r.2 r.2.act 2 2 va
      else
        match s.translate g.core g.ctx .read va.toNat 64 with
        | (s, .fault code) => s.faultAll r.2 r.2.act code (dataDetail code va.toNat) va
        | (s, .transit _ _) => s.unissue r.2 .shadowTransit
        | (s, .ok _ _ _ _) =>
          match s.watchBytes g 0 va.toNat 64 true false with
          | some w => s.faultAll r.2 r.2.act 8 w (s.watchedByte g w va.toNat)
          | none =>
            let s := (s.endRelaunch g.team).release g .dev
            let q := s.spawn g va.toNat
            q.1.pushScalar r.2 o.d (BitVec.ofNat 64 q.2))

/-- The result word of a tree takes a value, unless the tree is complete (R199, R284). -/
def State.postWord (s : State) (tree : Nat) (v : W64) : State :=
  s.modTree tree (fun t => if t.complete then t else { t with result := v })

/-- `post` (R199). -/
def execPost (c : Ctl) (o : Ops) (s : State) : Host.Outcome State Fault Refusal :=
  performMem (.post c o) s (fun x s =>
    match x.act with
    | [] => s
    | i :: _ =>
      let g := s.group x.g
      let s := (s.endRelaunch g.team).release g .dev
      s.postWord (s.launch g.launch).tree (g.value i o.a 2))

/-! ### The team barrier (R200) -/

/-- Whether every group of a team has arrived or has ended. -/
def State.barrierMet (s : State) (team : Nat) : Bool :=
  let t := s.team team
  !t.arrived.isEmpty && t.groups.all (fun k => t.arrived.contains k || (s.group k).ended)

/-- The barrier completes when it is met: every group that arrived makes an acquire at team scope and takes
PC + 12 in the lanes that were at the minimum at its arrival. -/
def State.barrier (s : State) (team : Nat) : State :=
  if s.barrierMet team then
    let s := (s.team team).arrived.foldl (fun s k =>
      match (s.group k).wait with
      | .bar lanes => ((s.acquire (s.group k) .tem).pass k lanes).modGroup k (fun g => { g with wait := .none })
      | _ => s) s
    s.modTeam team (fun t => { t with arrived := [] })
  else s

/-- `bar` (R200): a release at team scope, then the arrival. -/
def execBar (c : Ctl) (o : Ops) (s : State) : Host.Outcome State Fault Refusal :=
  performMem (.bar c o) s (fun x s =>
    match x.act with
    | [] => s
    | _ :: _ =>
      let g := s.group x.g
      let s := s.release g .tem
      let s := (s.stay x x.min).modGroup x.g (fun g => { g with wait := .bar x.min })
      (s.modTeam g.team (fun t => { t with arrived := t.arrived ++ [x.g] })).barrier g.team)

/-! ### Donation and allocation (R68, R69, R201, R202) -/

/-- The group of a team with a number, when it has not ended. -/
def State.partner (s : State) (team gid : Nat) : Option Nat :=
  (s.team team).groups.find? (fun k => (s.group k).gid == gid && !(s.group k).ended)

/-- Ends a group's wait at a donation with a status in D. -/
def State.endDonation (s : State) (k : Nat) (st : Nat) : State :=
  match (s.group k).wait with
  | .donate _ d _ _ lanes =>
    (s.pass k lanes).modGroup k (fun g => { g.write (.sca d) (BitVec.ofNat 64 st) with
      wait := .none
      opcache := [none, none, none] })
  | _ => s

/-- `donate` (R201): a donation that cannot match gives status 3 at once; else the group waits. -/
def donate (give : Bool) (o : Ops) (x : Issue) (s : State) : State :=
  match x.act with
  | [] => s
  | i :: _ =>
    let g := s.group x.g
    let dest := (g.value i o.a 2).toNat
    let k := (g.value i o.b 2).toNat
    let d := Opnd.idx o.d
    if dest = g.gid ∨ (s.partner g.team dest).isNone ∨ k < 1 ∨ 31 < k then s.writes x.g [(.sca d, 3)]
    else (s.stay x x.min).modGroup x.g (fun g => { g with wait := .donate give d dest k x.min })

/-- `donate.give` (R201). -/
def execDonateGive (c : Ctl) (o : Ops) (s : State) : Host.Outcome State Fault Refusal :=
  perform (.donateGive c o) s (donate true o)

/-- `donate.take` (R201). -/
def execDonateTake (c : Ctl) (o : Ops) (s : State) : Host.Outcome State Fault Refusal :=
  perform (.donateTake c o) s (donate false o)

/-- Moves `8k` registers of every lane from the donor to the recipient (R68). -/
def State.giveBlocks (s : State) (donor heir k : Nat) : State :=
  let a := (s.group donor).alloc
  let b := (s.group heir).alloc
  let src := s.group donor
  let s := s.modGroup heir (fun g =>
    let g := g.ids.foldl (fun g i => g.modLane i (fun l =>
      (List.range (8 * k)).foldl (fun l j => l.setV (b + j) ((src.lane i).vreg (a - 8 * k + j))) l)) g
    { g with alloc := b + 8 * k })
  s.modGroup donor (fun g => { g with alloc := a - 8 * k })

/-- DONATION_RENDEZVOUS: a group's donation meets its partner's, once neither has a result pending, while both are resident
(R69, R106, R201). -/
def execDonationRendezvous (g : Nat) (s : State) : Host.Outcome State Fault Refusal :=
  let no : Host.Outcome State Fault Refusal := .fault (.notEnabled "DONATION_RENDEZVOUS")
  match (s.group g).wait with
  | .donate give _ dest k _ =>
    match s.partner (s.group g).team dest with
    | none => no
    | some h =>
      match (s.group h).wait with
      | .donate give' _ dest' k' _ =>
        if dest' ≠ (s.group g).gid ∨ !(s.group g).pend.isEmpty ∨ !(s.group h).pend.isEmpty ∨ !(s.group g).resident ∨
            !(s.group h).resident then no
        else
          let (s, st) :=
            if give = give' ∨ k ≠ k' then (s, 2)
            else
              let donor := if give then g else h
              let heir := if give then h else g
              if (s.group donor).alloc < 8 * k + 8 ∨ (s.group heir).regs < (s.group heir).alloc + 8 * k then (s, 1)
              else (s.giveBlocks donor heir k, 0)
          .next ((s.endDonation g st).endDonation h st)
      | _ => no
  | _ => no

/-- Whether a result is pending into a vector register from `n` on. -/
def Group.pendingFrom (g : Group) (n : Nat) : Bool :=
  g.pend.any (fun e => e.writes.any (fun w => match w.1 with
    | .vec _ r => decide (n ≤ r)
    | _ => false))

/-- `ralloc` (R202): a shrink waits for the results pending into the registers it discards. -/
def execRalloc (c : Ctl) (o : Ops) (s : State) : Host.Outcome State Fault Refusal :=
  perform (.ralloc c o) s (fun x s =>
    match x.act with
    | [] => s
    | i :: _ =>
      let g := s.group x.g
      let n := (g.value i o.a 2).toNat
      let d := Opnd.idx o.d
      if n % 8 ≠ 0 ∨ n < 8 ∨ g.regs < n then s.writes x.g [(.sca d, 1)]
      else if g.pendingFrom n then s.unissue x (.ralloc n)
      else
        (s.modGroup x.g (fun g =>
          let g := g.ids.foldl (fun h i => h.modLane i (fun l =>
            { l with v := l.v.filter (fun p => decide (p.1 < n ∧ p.1 < g.alloc)) })) g
          { g with alloc := n, opcache := [none, none, none] })).writes x.g [(.sca d, 0)])

/-! ### Yield and nop (R203) -/

/-- `yield` (R203). -/
def execYield (c : Ctl) (o : Ops) (s : State) : Host.Outcome State Fault Refusal :=
  perform (.yield c o) s (fun x s =>
    match x.act, o.a with
    | _ :: _, .imm n => s.modGroup x.g (fun g => { g with
        yielded := true
        stall := max g.stall (s.partClock g.part + 1 + n.toNat) })
    | _, _ => s)

/-- `nop` (R203). -/
def execNop (c : Ctl) (o : Ops) (s : State) : Host.Outcome State Fault Refusal :=
  perform (.nop c o) s (fun _ s => s)

end Sys2Proof.Machine
end

