-- ==== Sys2Proof/Machine/Special.lean ====
section
/-! DEFINITION. The special functions of R136, each the exact function value rounded once under
`.rn`. The transcendental ones are enclosed between two 512-bit fixed-point numbers that round to
the same FP32 code; no FP32 argument brings a value of these functions closer to a rounding
boundary than the enclosure's width (log 15). -/

namespace Sys2Proof.Machine

/-- Fraction bits of the fixed-point numbers. -/
def fixP : Nat := 512
/-- One, in fixed point. -/
def fixOne : Nat := 2 ^ fixP
/-- Half the width of the enclosures, in units of the last place. -/
def fixErr : Nat := 2 ^ 40

/-- Product of two fixed-point numbers. -/
def fixMul (a b : Nat) : Nat := a * b / fixOne

/-- Sum of t, t·x/(k+1), t·x²/((k+1)(k+2)) …, `n` terms: the exponential's series from term `k`. -/
def expSeries (x : Nat) : Nat → Nat → Nat → Nat
  | 0, _, _ => 0
  | n + 1, k, t => t + expSeries x n (k + 1) (fixMul t x / (k + 1))

/-- e^x for 0 ≤ x < 1. -/
def fixExp (x : Nat) : Nat := expSeries x 110 0 fixOne

/-- Alternating series t − t·y/((k+1)(k+2)) + …, with y the square of the angle. -/
def altSeries (y : Nat) : Nat → Nat → Nat → Int
  | 0, _, _ => 0
  | n + 1, k, t => (t : Int) - altSeries y n (k + 2) (fixMul t y / ((k + 1) * (k + 2)))

/-- z + z³/3 + z⁵/5 …: the inverse hyperbolic tangent of z, 0 ≤ z ≤ 1/2. `t` runs over z^(k). -/
def atanhSeries (z2 : Nat) : Nat → Nat → Nat → Nat
  | 0, _, _ => 0
  | n + 1, k, t => t / k + atanhSeries z2 n (k + 2) (fixMul t z2)

def fixAtanh (z : Nat) : Nat := atanhSeries (fixMul z z) 170 1 z

/-- ln 2 = 2 artanh(1/3). -/
def fixLn2 : Nat := 2 * fixAtanh (fixOne / 3)

/-- arctan(1/n) by its alternating series. -/
def atanInvSeries (n2 : Nat) : Nat → Nat → Nat → Int
  | 0, _, _ => 0
  | j + 1, k, t => ((t / k : Nat) : Int) - atanInvSeries n2 j (k + 2) (t / n2)

def fixAtanInv (n : Nat) : Int := atanInvSeries (n * n) 130 1 (fixOne / n)

/-- π by Machin's formula. -/
def fixPi : Nat := (16 * fixAtanInv 5 - 4 * fixAtanInv 239).toNat

/-- sin(π·y) for 0 ≤ y ≤ 1/2 in fixed point. -/
def fixSinPi (y : Nat) : Nat :=
  let a := fixMul fixPi y
  (altSeries (fixMul a a) 60 1 a).toNat

/-- Rounds a positive real that lies strictly between `v − fixErr` and `v + fixErr` units of
`2^e`: both ends round to one code, and the value is never exact. -/
def enclosed (ftz neg : Bool) (v : Nat) (e : Int) : Res :=
  finish .f32 .rn ftz neg (v - fixErr) e true

/-- A positive real just below `m × 2^e`, by less than `2^(e-30)`. -/
def justBelow (ftz neg : Bool) (m : Nat) (e : Int) : Res :=
  finish .f32 .rn ftz neg (m * 2 ^ 30 - 1) (e - 30) true

/-- A dyadic m × 2^e as fixed point; exact for FP32 magnitudes below 2^64 with e ≥ −512. -/
def toFix (m : Nat) (e : Int) : Nat :=
  let s := e + (fixP : Int)
  if 0 ≤ s then m * 2 ^ s.toNat else m / 2 ^ (-s).toNat

/-- `frcp` (R136): 1/x, as `fdiv` computes it. -/
def fRcp (ftz : Bool) (x : Nat) : Res := fDiv .f32 .rn ftz 0x3F800000 x

/-- `frsq` (R136): 1/√x. -/
def fRsq (ftz : Bool) (x : Nat) : Res :=
  match readFtz .f32 ftz x with
  | .nan _ => nanRes .f32 1
  | .inf neg => if neg then nanRes .f32 5 else ⟨0, {}⟩
  | .fin neg m e =>
    if m = 0 then ⟨infBits .f32 neg, { dz := true }⟩
    else if neg then nanRes .f32 5
    else
      let odd := e % 2 = 1
      let m' := if odd then 2 * m else m
      let e' := if odd then e - 1 else e
      let s := Nat.sqrt (2 ^ 160 / m')
      finish .f32 .rn ftz false s (-80 - e' / 2) (s * s * m' != 2 ^ 160)

/-- `fex2` (R136): 2^x. -/
def fEx2 (ftz : Bool) (x : Nat) : Res :=
  match readFtz .f32 ftz x with
  | .nan _ => nanRes .f32 1
  | .inf neg => ⟨if neg then 0 else infBits .f32 false, {}⟩
  | .fin neg m e =>
    let whole := if 0 ≤ e then m * 2 ^ e.toNat else m / 2 ^ (-e).toNat
    let part := if 0 ≤ e then 0 else m % 2 ^ (-e).toNat
    if 256 ≤ whole then finish .f32 .rn ftz false 1 (if neg then -300 else 300) (part != 0 && !neg)
    else if part = 0 then finish .f32 .rn ftz false 1 (if neg then -(whole : Int) else whole) false
    else
      let fr := toFix part e
      let k : Int := if neg then -(whole : Int) - 1 else whole
      let fr := if neg then fixOne - fr else fr
      enclosed ftz false (fixExp (fixMul fr fixLn2)) (k - fixP)

/-- Round(exp(x), FP32, rn) for an FP32 x that is zero or negative (R372). -/
def fExpNeg (x : Nat) : Nat :=
  match FVal.ofBits .f32 x with
  | .nan _ | .inf _ => 0
  | .fin _ m e =>
    if m = 0 then 0x3F800000
    else
      let t := toFix m e
      if 128 * fixOne ≤ t then 0
      else
        let k := t / fixLn2 + 1
        (enclosed false false (fixExp (k * fixLn2 - t)) (-(k : Int) - fixP)).bits

/-- `flg2` (R136): log₂ x. -/
def fLg2 (ftz : Bool) (x : Nat) : Res :=
  match readFtz .f32 ftz x with
  | .nan _ => nanRes .f32 1
  | .inf neg => if neg then nanRes .f32 5 else ⟨infBits .f32 false, {}⟩
  | .fin neg m e =>
    if m = 0 then ⟨infBits .f32 true, { dz := true }⟩
    else if neg then nanRes .f32 5
    else
      let l := ilog2 m
      let k : Int := (l : Int) + e
      if m = 2 ^ l then
        if k = 0 then ⟨0, {}⟩ else finish .f32 .rn ftz (decide (k < 0)) k.natAbs 0 false
      else
        -- log₂ of the mantissa in (1, 2), by 2 artanh((t − 1)/(t + 1)) / ln 2
        let z := fixOne * (m - 2 ^ l) / (m + 2 ^ l)
        let lf := 2 * fixAtanh z * fixOne / fixLn2
        let v : Int := k * (fixOne : Nat) + lf
        enclosed ftz (decide (v < 0)) v.natAbs (-(fixP : Int))

/-- sin(π·y) with y = n / 2^d reduced into [0, 2): its sign and the arc in [0, 1/2]. -/
def sinPiOf (ftz neg : Bool) (y : Nat) : Res :=
  let y := y % (2 * fixOne)
  let s := decide (fixOne ≤ y)
  let y := y % fixOne
  let y := if fixOne / 2 < y then fixOne - y else y
  if y = fixOne / 2 then finish .f32 .rn ftz (neg != s) 1 0 false
  else enclosed ftz (neg != s) (fixSinPi y) (-(fixP : Int))

/-- `fsinpi` (R136). -/
def fSinPi (ftz : Bool) (x : Nat) : Res :=
  match readFtz .f32 ftz x with
  | .nan _ => nanRes .f32 1
  | .inf _ => nanRes .f32 5
  | .fin neg m e =>
    if toFix m e % fixOne = 0 then ⟨zeroBits .f32 neg, {}⟩ else sinPiOf ftz neg (toFix m e)

/-- `fcospi` (R136): sin(π(x + ½)); x = n + ½ gives +0. -/
def fCosPi (ftz : Bool) (x : Nat) : Res :=
  match readFtz .f32 ftz x with
  | .nan _ => nanRes .f32 1
  | .inf _ => nanRes .f32 5
  | .fin _ m e =>
    let y := toFix m e + fixOne / 2
    if y % fixOne = 0 then ⟨0, {}⟩ else sinPiOf ftz false y

/-- `ftanh` (R136). Below 2^−27 it lies just below its argument, and above 64 just below 1. -/
def fTanh (ftz : Bool) (x : Nat) : Res :=
  match readFtz .f32 ftz x with
  | .nan _ => nanRes .f32 1
  | .inf neg => ⟨withSign .f32 neg 0x3F800000, {}⟩
  | .fin neg m e =>
    if m = 0 then ⟨zeroBits .f32 neg, {}⟩
    else if (ilog2 m : Int) + e < -27 then justBelow ftz neg m e
    else if 6 ≤ (ilog2 m : Int) + e then justBelow ftz neg 1 0
    else
      -- e^(2x) = 2^k · e^(f ln 2); tanh x = (e^(2x) − 1) / (e^(2x) + 1)
      let t := 2 * toFix m e * fixOne / fixLn2
      let k := t / fixOne
      let ex := fixExp (fixMul (t % fixOne) fixLn2) * 2 ^ k
      enclosed ftz neg ((ex - fixOne) * fixOne / (ex + fixOne)) (-(fixP : Int))

end Sys2Proof.Machine
end

