-- ==== Sys2Proof/Machine/Alu.lean ====
section
/-! DEFINITION. What the arithmetic, compare, select, move and conversion instructions share: one
computation for each active lane, or once in a scalar form (R111, R112, R115, R117). -/

namespace Sys2Proof.Machine

/-- The writes of a lane form: for each active lane, D and the flags of its result. -/
def laneResults (d : Opnd) (n : Nat) (act : List Nat) (val : Nat → Res) :
    List (PUnit × W64) × Nat :=
  (act.flatMap (fun i => destUnits d n i (BitVec.ofNat 64 (val i).bits)),
    ((act.map (fun i => (val i).flags)).foldl Flags.or {}).mask)

/-- Writes a fixed-latency result of `n` registers: once into a scalar D, when some lane is active, else
into D of every active lane. Every lane's value is computed from the registers as they stand at issue. -/
def State.alu (s : State) (x : Issue) (d : Opnd) (n : Nat) (signed : Bool) (val : Group → Nat → Res) : State :=
  let g := s.group x.g
  match d, x.act with
  | _, [] => s
  | .s r, i :: _ =>
    let v := val g i
    let w := if n = 2 then BitVec.ofNat 64 v.bits else extendTo64 signed v.bits
    s.modGroup x.g (fun g => (g.write (.sca r) w).raise v.flags.mask)
  | _, act =>
    let r := laneResults d n act (val g)
    s.modGroup x.g (fun g => (g.writes r.1).raise r.2)

/-- Enters a special function's result in the scoreboard, one entry for each active lane (R115, R136). -/
def State.aluLate (s : State) (x : Issue) (d : Opnd) (val : Group → Nat → Res) : State :=
  let g := s.group x.g
  x.act.foldl (fun s i =>
    let v := val g i
    s.push x.g
      { pc := x.pc
        lane := some i
        lanes := [(i, (g.lane i).issued)]
        writes := (destUnits d 1 i (BitVec.ofNat 64 v.bits)).map (fun p => (p.1, some p.2))
        flags := v.flags.mask }) s

/-- A result that raises no flag. -/
def plainRes (n : Nat) : Res := ⟨n, {}⟩

/-- One element operation over every element of an integer type (R120). -/
def elemwise (t : IntTy) (f : Nat → Res) : Res := joinRes t.bits ((List.range t.slots).map f)

/-- Narrows an exact integer result: clamped under `.sat`, else wrapped (R120). -/
def narrow (t : IntTy) (sat : Bool) (v : Int) : Res := if sat then clampTo t v else plainRes (t.wrap v)

/-- An arithmetic result from the elements of A and B (R119, R120). -/
def arith (t : IntTy) (sat : Bool) (o : Ops) (f : Int → Int → Int) (g : Group) (i : Nat) : Res :=
  elemwise t (fun j => narrow t sat (f (t.val (srcElem g i t o.a j)) (t.val (srcElem g i t o.b j))))

/-- A one-source arithmetic result. -/
def arith1 (t : IntTy) (sat : Bool) (o : Ops) (f : Int → Int) (g : Group) (i : Nat) : Res :=
  elemwise t (fun j => narrow t sat (f (t.val (srcElem g i t o.a j))))

/-- Bits of an operand width. -/
def widthOf (w64 : Bool) : Nat := if w64 then 64 else 32

/-- Elementwise floating-point result (R131). -/
def fpElems (f : FpFmt) (r : Nat → Res) : Res := joinRes f.bits ((List.range f.slots).map r)

end Sys2Proof.Machine
end

