-- ==== Sys2Proof/Machine/Conversion.lean ====
section
/-! DEFINITION. Conversions (R137 to R139). -/

namespace Sys2Proof.Machine

/-- The slot of a register that an operand names (R138). -/
def Opnd.slot (o : Opnd) : Nat := Sub.num (Opnd.sub o)

/-- Bits of a conversion's source: an element's slot of a register when it is narrow (R138). `stride` is
the width of a slot. -/
def cvtRead (g : Group) (i : Nat) (bits stride regs : Nat) (o : Opnd) : Nat :=
  let v := (g.value i o regs).toNat
  if bits < 32 then v / 2 ^ (stride * Opnd.slot o) % 2 ^ bits
  else v % 2 ^ bits

/-- D with a converted element written into its slot, every other bit kept (R138). -/
def cvtInto (old stride slot x : Nat) : Nat :=
  old - old / 2 ^ (stride * slot) % 2 ^ stride * 2 ^ (stride * slot) + x % 2 ^ stride * 2 ^ (stride * slot)

/-- A conversion's result in D: the whole register, or one slot of it when the target is narrow. -/
def cvtResult (g : Group) (i : Nat) (bits stride : Nat) (d : Opnd) (r : Res) : Res :=
  if bits < 32 then
    ⟨cvtInto (g.value i d 1).toNat stride (Opnd.slot d) r.bits, r.flags⟩
  else r

/-- Width of an element's slot in a register (R74). -/
def FpFmt.stride (f : FpFmt) : Nat := 32 / f.slots

/-- A float source: an immediate is converted to its format. DESIGN CHOICE (log 58): the short immediate of a conversion is
read by the source's type, as R113 reads one for an instruction of that type. -/
def cvtFloat (g : Group) (i : Nat) (f : FpFmt) (o : Opnd) : Nat :=
  match o with
  | .imm x => immFloat f x
  | _ => cvtRead g i f.bits (FpFmt.stride f) 1 o

/-- An integer source. -/
def cvtInt (g : Group) (i : Nat) (t : IntTy) (o : Opnd) : Nat :=
  match o with
  | .imm x => t.wrap x
  | _ => cvtRead g i t.bits t.bits t.regs o

/-- `cvt` between float formats (R84, R137). -/
def execCvtFloatToFloat (t f : FpFmt) (nsat : Bool) (r : Rnd) (c : Ctl) (o : Ops) (s : State) :
    Host.Outcome State Fault Refusal :=
  perform (.cvtFloatToFloat t f nsat r c o) s (fun x s => s.alu x o.d 1 false (fun g i =>
    cvtResult g i t.bits (FpFmt.stride t) o.d (cvtFF t f nsat r (cvtFloat g i f o.a))))

/-- `cvt` from float to integer. -/
def execCvtFloatToInt (t : IntTy) (f : FpFmt) (r : Rnd) (c : Ctl) (o : Ops) (s : State) :
    Host.Outcome State Fault Refusal :=
  perform (.cvtFloatToInt t f r c o) s (fun x s => s.alu x o.d t.regs t.signed (fun g i =>
    cvtResult g i t.bits t.bits o.d (cvtFI t f r (cvtFloat g i f o.a))))

/-- `cvt` from integer to float. -/
def execCvtIntToFloat (t : FpFmt) (f : IntTy) (nsat : Bool) (r : Rnd) (c : Ctl) (o : Ops) (s : State) :
    Host.Outcome State Fault Refusal :=
  perform (.cvtIntToFloat t f nsat r c o) s (fun x s => s.alu x o.d 1 false (fun g i =>
    cvtResult g i t.bits (FpFmt.stride t) o.d (cvtIF t f nsat r (cvtInt g i f o.a))))

/-- `cvt` between integer types, wrapping. -/
def execCvtIntWrap (t f : IntTy) (c : Ctl) (o : Ops) (s : State) : Host.Outcome State Fault Refusal :=
  perform (.cvtIntWrap t f c o) s (fun x s => s.alu x o.d t.regs t.signed (fun g i =>
    cvtResult g i t.bits t.bits o.d (cvtIIwrap t f (cvtInt g i f o.a))))

/-- `cvt` between integer types, saturating. -/
def execCvtIntSat (t f : IntTy) (c : Ctl) (o : Ops) (s : State) : Host.Outcome State Fault Refusal :=
  perform (.cvtIntSat t f c o) s (fun x s => s.alu x o.d t.regs t.signed (fun g i =>
    cvtResult g i t.bits t.bits o.d (cvtIIsat t f (cvtInt g i f o.a))))

/-- Bits of a quantised code. -/
def codeBits (q8 : Bool) : Nat := if q8 then 8 else 4

/-- `cvt` to `.q4` or `.q8` (R139). -/
def execCvtQuantise (q8 : Bool) (f : FpFmt) (r : Rnd) (c : Ctl) (o : Ops) (s : State) :
    Host.Outcome State Fault Refusal :=
  perform (.cvtQuantise q8 f r c o) s (fun x s => s.alu x o.d 1 false (fun g i =>
    cvtResult g i (codeBits q8) (codeBits q8) o.d
      (quantise q8 f r (cvtFloat g i f o.a) (srcInt g i .z32 o.b))))

/-- `cvt` from `.q4` or `.q8` (R139). -/
def execCvtDequantise (q8 : Bool) (c : Ctl) (o : Ops) (s : State) : Host.Outcome State Fault Refusal :=
  perform (.cvtDequantise q8 c o) s (fun x s => s.alu x o.d 1 false (fun g i =>
    dequantise q8 (cvtRead g i (codeBits q8) (codeBits q8) 1 o.a) (srcInt g i .z32 o.b)))

end Sys2Proof.Machine
end

