-- ==== Sys2Proof/Machine/Matrix.lean ====
section
/-! DEFINITION. The matrix array and the accumulator memory (R49, R50, R63, R67, R85 to R89, R213 to R224). -/

namespace Sys2Proof.Machine

/-! ### Formats (R74, R216, R219) -/

/-- The float format of `mma`; none for `.s8`. -/
def mmaFp : MmaFmt → Option FpFmt
  | .bf16 => some .bf16
  | .f16 => some .f16
  | .e4m3 => some .e4m3
  | .e5m2 => some .e5m2
  | .e3m2 => some .e3m2
  | .e2m3 => some .e2m3
  | .e2m1 => some .e2m1
  | .s8 => none

/-- The float format of an activation; none for `.s8`. -/
def actFp : ActFmt → Option FpFmt
  | .bf16 => some .bf16
  | .f16 => some .f16
  | .e4m3 => some .e4m3
  | .e5m2 => some .e5m2
  | .s8 => none

/-- Bits of an element. -/
def elemBits (f : Option FpFmt) : Nat := (f.map FpFmt.bits).getD 8

/-- The value of a code: a float, or an exact `.s8` integer with one zero. DESIGN CHOICE (log 58): a zero activation is +0, so that
a zero term of the quantised sum takes its sign as R86 has a float's do. -/
def elemVal (f : Option FpFmt) (x : Nat) : FVal :=
  match f with
  | some t => FVal.ofBits t x
  | none => .fin (decide (IntTy.val .s8 x < 0)) (IntTy.val .s8 x).natAbs 0

/-! ### One element (R85 to R89) -/

/-- Round of an exact value to FP32 under `.rn`, and the addition of two FP32 words. -/
def roundSum (ts : List FVal) : Res := sumRound .f32 .rn false ts
def addWords (x y : Nat) : Res := fAdd .f32 .rn false x y

/-- The flags that the array sets: NV, OF and ASAT (R89). -/
def arrayFlags (f : Flags) : Flags := { nv := f.nv, ov := f.ov, asat := f.asat }

/-- One chunk of eight products added into a word (R85, R88); a NaN word stays as it is, and the rounding of a later chunk
sum still overflows as it would (R89). -/
def chunkStep (r : Res) (ch : List (FVal × FVal)) : Res :=
  let cause := firstEvent [] ch
  let t := roundSum (ch.map (fun p => p.1.mul p.2))
  if (FVal.ofBits .f32 r.bits).isNan then ⟨r.bits, if cause = 0 then r.flags.or t.flags else r.flags⟩
  else if cause ≠ 0 then ⟨FpFmt.f32.nan cause, r.flags.or { nv := decide (3 ≤ cause) }⟩
  else
    let a := addWords r.bits t.bits
    ⟨a.bits, (r.flags.or t.flags).or a.flags⟩

/-- The chunks of eight of a list. -/
def chunks8 (ps : List (FVal × FVal)) : List (List (FVal × FVal)) :=
  (List.range (ps.length / 8)).map (fun c => (ps.drop (8 * c)).take 8)

/-- An element of a floating-point multiply (R85): the old word and the products. -/
def mmaElem (ps : List (FVal × FVal)) (old : Nat) : Res :=
  let r := (chunks8 ps).foldl chunkStep ⟨if (FVal.ofBits .f32 old).isNan then FpFmt.f32.nan 1 else old, {}⟩
  ⟨r.bits, arrayFlags r.flags⟩

/-- An element of an integer multiply (R87). -/
def mmaInt (ps : List (Int × Int)) (old : Nat) : Res :=
  let r := (List.range (ps.length / 8)).foldl (fun (a : Int × Bool) c =>
    let v := a.1 + (((ps.drop (8 * c)).take 8).map (fun p => p.1 * p.2)).sum
    if 2147483647 < v then (2147483647, true)
    else if v < -2147483648 then (-2147483648, true)
    else (v, a.2)) (IntTy.val .s32 old, false)
  ⟨IntTy.wrap .s32 r.1, { asat := r.2 }⟩

/-- The exact sum of terms whose infinities agree, as a value: a zero is +0 unless every term is −0 (R85, R86). -/
def exactSum (ts : List FVal) : FVal :=
  if ts.contains (.inf true) then .inf true
  else if ts.contains (.inf false) then .inf false
  else
    let d : Dyad := ts.foldl (fun (a : Dyad) t => a.add t.dyad) ⟨0, 0⟩
    if d.m = 0 then .fin (ts.all (fun t => t.isZero && t.sign)) 0 0
    else .fin (decide (d.m < 0)) d.m.natAbs d.e

/-- The cause of the first invalid event of a quantised multiply before its addition, 0 when there is none (R88). -/
def mmqCause (ps : List (FVal × FVal)) (scale : FVal) : Nat :=
  let cause := firstEvent [] ps
  if cause ≠ 0 then cause
  else if scale.isNan then 2
  else mulCause (exactSum (ps.map (fun p => p.1.mul p.2))) scale

/-- An element of a quantised multiply (R86, R88, R89): the products a × (q − z), the scale, the old word. -/
def mmqElem (ps : List (FVal × FVal)) (scale : FVal) (old : Nat) : Res :=
  let cause := mmqCause ps scale
  let p := roundSum [(exactSum (ps.map (fun p => p.1.mul p.2))).mul scale]
  if (FVal.ofBits .f32 old).isNan then
    ⟨FpFmt.f32.nan 1, if cause = 0 then arrayFlags p.flags else {}⟩
  else if cause ≠ 0 then ⟨FpFmt.f32.nan cause, { nv := decide (3 ≤ cause) }⟩
  else
    let a := addWords old p.bits
    ⟨a.bits, arrayFlags (p.flags.or a.flags)⟩

/-- A factor q − z (R75): a zero factor is +0. -/
def factor (q z : Nat) : FVal := .fin (decide (q < z)) ((q : Int) - z).natAbs 0

/-! ### Operands (R67, R76, R217 to R219) -/

/-- Element `n` of a run packed from bit 0 up (R74). -/
def packed (bits row n : Nat) : Nat := row / 2 ^ (bits * n) % 2 ^ bits

/-- Rows of a local block of `k` rows of 128 elements. -/
def Team.blockRows (t : Team) (base k bits : Nat) : List Nat :=
  (List.range k).map (fun j => leNat (t.locBytes (base + j * (16 * bits)) (16 * bits)))

/-- Detail of the cause that a block at a local address takes, with its code (R217). -/
def blockFault (loc base bytes : Nat) : Option (Nat × Nat) :=
  if base % 64 ≠ 0 then some (2, 2) else if loc < base + bytes then some (5, 2) else none

/-- Registers of lane `i` of an A block of `n` registers at `a`. -/
def Group.aRegs (g : Group) (a n i : Nat) : List W32 := (List.range n).map (fun j => (g.lane i).vreg (a + j))

/-- The A block of each lane, from the latch or the registers, and the latch after the instruction (R67). -/
def Group.takeA (g : Group) (c : Ctl) (a : Opnd) (n : Nat) : (Nat → List W32) × Option Latch :=
  let fromRegs := g.aRegs (Opnd.idx a) n
  if g.latched a n then
    match g.latch with
    | some l => ((fun i => (l.vals.drop (i * n)).take n), if c.latch then some l else none)
    | none => (fromRegs, none)
  else
    (fromRegs, if c.latch then some ⟨Opnd.idx a, Sub.num (Opnd.sub a), n, g.ids.flatMap fromRegs⟩ else none)

/-- Element `k` of row `rho` of a lane's A block (R218), with slots of `s` bits and `h` registers per row. -/
def aElem (regs : List W32) (s h bits rho k : Nat) : Nat :=
  (regs.getD (rho * h + k * s / 32) 0).toNat / 2 ^ (s * (k % (32 / s))) % 2 ^ bits

/-- The scale entry of column `n` (R76). -/
def Group.scaleEntry (g : Group) (q j n : Nat) : Nat :=
  ((g.lane (n % g.width)).vreg (q + j * (128 / g.width) + n / g.width)).toNat

/-! ### Power tokens (R50) -/

/-- Draws `c` array cycles from a core; none when the draw is refused. -/
def Core.draw (x : Core) (c : Nat) : Option Core :=
  if c ≤ x.credit then some { x with credit := x.credit - c }
  else if 1 ≤ x.avail then some { x with avail := x.avail - 1, credit := x.credit + 128 - c }
  else none

/-- Issues a matrix instruction that uses `c` array cycles: its draw is made when the instruction issues and
no decode step refuses it. A group whose draw is refused is not ready. -/
def performArray (cycles : Nat) (i : Instr) (s : State) (body : Issue → State → State) :
    Host.Outcome State Fault Refusal :=
  let g := s.group s.cur
  if g.scout || (s.gateCheck g i).isSome || g.issuePc.isNone then performMem i s body
  else
    match (s.core g.core).draw cycles with
    | some x => performMem i (s.modCore g.core (fun _ => x)) body
    | none => .next (s.modGroup s.cur (fun g => g.hold (.token cycles)))

/-! ### Rows of the accumulator memory (R222 to R224) -/

/-- A later update of rows arrived: no read sees what they held before an earlier one. -/
def State.settleRows (s : State) (k core : Nat) (keys : List Nat) : State :=
  { s with groups := s.groups.map (fun (p : Nat × Group) =>
      if p.1 ≠ k ∧ p.2.core = core then
        (p.1, { p.2 with pend := p.2.pend.map (fun e =>
          { e with old := e.old.filter (fun r => !keys.contains r.1) }) })
      else p) }

/-- Writes rows of a tile for the lanes that own them, and enters the update in the scoreboard, with its flags, under the
number of a draw (R102, R220, R222, R382). -/
def State.setRows (s : State) (x : Issue) (lanes : List Nat) (t : Nat) (rows : List (Nat × List W32)) (flags : Nat) : State :=
  if rows.isEmpty then s
  else
    let core := (s.group x.g).core
    let c := s.core core
    let old := rows.map (fun r => (accKey t r.1, c.accRow t r.1))
    let s := s.modCore core (fun c => rows.foldl (fun c r => c.setRow t r.1 r.2) c)
    (s.settleRows x.g core (rows.map (fun r => accKey t r.1))).tick.push x.g
      { pc := x.pc
        lane := none
        lanes := (s.group x.g).issuedOf lanes
        writes := ((rows.map (fun r => r.1 / 8)).dedup).map (fun k => (.acc t k, some 0))
        flags := flags
        tag := s.free
        old := old }

/-- The unfinished updates of a row by other groups of the core, in the order of their arrival: the draw of each, with
the row as it was before it. -/
def State.rowUpdates (s : State) (k core key : Nat) : List (Nat × List W32) :=
  (s.groups.flatMap (fun p =>
    if p.1 ≠ k ∧ p.2.core = core then
      p.2.pend.flatMap (fun e => (e.old.filter (fun r => r.1 == key)).map (fun r => (e.tag, r.2)))
    else [])).mergeSort (fun a b => decide (a.1 ≤ b.1))

/-- A row as a group of the core reads it: a word that another group's unfinished update changed is taken
before or after it (R104, R224). An update is seen from the step that `Config.rowSeen` gives on, so that no later read
of the group returns an earlier value. DEDUCED (log 32). -/
def State.readRow (s : State) (k core t m : Nat) : List W32 :=
  let now := (s.core core).accRow t m
  let key := accKey t m
  let ups := s.rowUpdates k core key
  if ups.isEmpty then now
  else
    (List.range 128).map (fun n =>
      let seen := (ups.reverse.findIdx? (fun u => decide (Config.rowSeen u.1 k (128 * key + n) ≤ s.steps))).getD ups.length
      match ups[ups.length - seen]? with
      | some u => u.2.getD n 0
      | none => now.getD n 0)

/-- Reads rows in order. -/
def State.readRows (s : State) (k core t : Nat) (rows : List Nat) : List (List W32) :=
  rows.map (s.readRow k core t)

/-- The lanes that a watchpoint on rows or local bytes matches park; the others go on (R385). -/
def State.watched (s : State) (x : Issue) (hit : Nat → Option Nat) : State × List Nat :=
  x.act.foldl (fun (a : State × List Nat) i =>
    match hit i with
    | some w => (a.1.fault x i 8 w 0, a.2)
    | none => (a.1, a.2 ++ [i])) (s, [])

/-- The lower of two comparators. -/
def lowerOf (a b : Option Nat) : Option Nat :=
  match a, b with
  | some i, some j => some (min i j)
  | some i, none => some i
  | none, r => r

/-- The first row and the count of rows of a whole tile or a row group (R222). -/
def namedRows (o : Opnd) : Nat × Nat :=
  match o with
  | .acc _ (some k) => (8 * k, 8)
  | _ => (0, 128)

/-- The named rows that a lane owns. -/
def laneRows (w i : Nat) (o : Opnd) : List Nat :=
  (ownedRows w i).filter (fun m => decide ((namedRows o).1 ≤ m ∧ m < (namedRows o).1 + (namedRows o).2))

/-- A watchpoint on the rows of a lane. -/
def State.watchMine (s : State) (g : Group) (t : Nat) (rows : List Nat) (rd wr : Bool) : Option Nat :=
  match rows with
  | [] => none
  | m :: _ => s.watchRows g t m rows.length rd wr

/-! ### The multiplies (R216 to R220) -/

/-- Updates the rows that lanes own, each word from its row within the lane, its column and its old value. -/
def State.multiply (s : State) (x : Issue) (t : Nat) (lanes : List Nat) (elem : Nat → Nat → Nat → Nat → Res) :
    State :=
  let g := s.group x.g
  let r := 128 / g.width
  let rows := lanes.flatMap (fun i => (List.range r).map (fun rho =>
    let old := s.readRow x.g g.core t (i * r + rho)
    (i * r + rho, (List.range 128).map (fun n => elem i rho n (old.getD n 0).toNat))))
  let flags := (rows.flatMap (fun r => r.2.map Res.flags)).foldl Flags.or {}
  s.setRows x lanes t (rows.map (fun r => (r.1, r.2.map (fun e => BitVec.ofNat 32 e.bits)))) flags.mask

/-- What `mma` and `mmq` share: the checks of the B block, the A block and its latch, the watchpoints, and
the update. `elem` gives a word from the rows of B, a lane's registers, row, column and old word.
DEDUCED (logs 31, 32). DESIGN CHOICE (log 58): an instruction whose every lane takes a fault of its B base leaves the latch
as it was. -/
def State.arrayOp (s : State) (x : Issue) (c : Ctl) (tile : Opnd) (a : Opnd) (n k bits : Nat) (base : Nat)
    (elem : List Nat → List W32 → Nat → Nat → Nat → Res) : State :=
  let g := s.group x.g
  let t := Opnd.idx tile
  match (if x.act.isEmpty then none else blockFault (s.team g.team).locLen base (16 * bits * k)) with
  | some (code, detail) => s.faultAll x x.act code detail 0
  | none =>
    let b := (s.team g.team).blockRows base k bits
    let (regs, latch) := g.takeA c a n
    let s := s.modGroup x.g (fun g => { g with latch := latch })
    let (s, lanes) := s.watched x (fun i =>
      lowerOf (s.watchBytes g 1 base (16 * bits * k) true false)
        (s.watchMine g t (ownedRows g.width i) true true))
    s.multiply x t lanes (fun i rho col old => elem b (regs i) rho col old)

/-- `mma` (R216 to R218, R220). -/
def execMma (blk : Nat) (f : MmaFmt) (c : Ctl) (o : Ops) (s : State) : Host.Outcome State Fault Refusal :=
  performArray 32 (.mma blk f c o) s (fun x s =>
    let g := s.group x.g
    let k := f.depth
    let bits := elemBits (mmaFp f)
    let h := k * f.slot / 32
    let base := (g.sreg (Opnd.idx o.b)).toNat + blk * (16 * bits * k)
    s.arrayOp x c o.d o.a (mmaBlock g.width f) k bits base (fun b regs rho col old =>
      let ps := (List.range k).map (fun j => (aElem regs f.slot h bits rho j, packed bits (b.getD j 0) col))
      match mmaFp f with
      | some _ => mmaElem (ps.map (fun p => (elemVal (mmaFp f) p.1, elemVal (mmaFp f) p.2))) old
      | none => mmaInt (ps.map (fun p => (IntTy.val .s8 p.1, IntTy.val .s8 p.2))) old))

/-- `mmq` (R219, R220). -/
def execMmq (q8 : Bool) (f : ActFmt) (q : QGroup) (c : Ctl) (o : Ops) (s : State) :
    Host.Outcome State Fault Refusal :=
  performArray (if q8 then q.size / 2 else q.size / 4) (.mmq q8 f q c o) s (fun x s =>
    let g := s.group x.g
    let k := q.size
    let bits := elemBits (actFp f)
    let h := k * f.slot / 32
    let wbits := if q8 then 8 else 4
    let base := (g.sreg (Sub.num (Opnd.sub o.a))).toNat
    s.arrayOp x c o.d o.a (mmqBlock g.width f q) k wbits base (fun b regs rho col old =>
      let e := g.scaleEntry (Opnd.idx o.b) (Sub.num (Opnd.sub o.b)) col
      let z := zeroPoint q8 e
      let ps := (List.range k).map (fun j =>
        (elemVal (actFp f) (aElem regs f.slot h bits rho j), factor (packed wbits (b.getD j 0) col) z))
      mmqElem ps (FVal.ofBits .f16 (e % 65536)) old))

/-! ### Loads of A, and moves of rows (R221, R222) -/

/-- The lanes whose bytes lie in local memory; the others take cause 5. -/
def State.inLocal (s : State) (x : Issue) (last : Nat → Nat) : State × List Nat :=
  let loc := (s.team (s.group x.g).team).locLen
  x.act.foldl (fun (a : State × List Nat) i =>
    if loc < last i then (a.1.fault x i 5 2 0, a.2) else (a.1, a.2 ++ [i])) (s, [])

/-- `mlda` (R221). -/
def execMlda (n : RowW) (c : Ctl) (o : Ops) (s : State) : Host.Outcome State Fault Refusal :=
  performMem (.mlda n c o) s (fun x s =>
    let g := s.group x.g
    let base := (g.sreg (Opnd.idx o.a)).toNat
    let regs := mldaBlock g.width n
    let at_ := fun i => base + i * (4 * regs)
    if base % 16 ≠ 0 then s.faultAll x x.act 2 2 0
    else
      let (s, lanes) := s.inLocal x (fun i => at_ i + 4 * regs)
      let (s, lanes) := s.watched { x with act := lanes } (fun i => s.watchBytes g 1 (at_ i) (4 * regs) true false)
      lanes.foldl (fun s i => s.push x.g
        { pc := x.pc
          lane := some i
          lanes := g.issuedOf [i]
          writes := (List.range regs).map (fun j =>
            (PUnit.vec i (Opnd.idx o.d + j),
              some (BitVec.ofNat 64 (leNat ((s.team g.team).locBytes (at_ i + 4 * j) 4))))) }) s)

/-- First local byte after the named rows of a lane, counted from the base; the base when it owns none. -/
def rowsEnd (w base i : Nat) (o : Opnd) : Nat :=
  match (laneRows w i o).getLast? with
  | some m => base + (m - (namedRows o).1 + 1) * 512
  | none => base

/-- First local byte of the named rows of a lane. -/
def rowsStart (w base i : Nat) (o : Opnd) : Nat :=
  match laneRows w i o with
  | m :: _ => base + (m - (namedRows o).1) * 512
  | [] => base

/-- The lanes of an `ald` or `ast` that no fault or watchpoint stops. -/
def State.rowLanes (s : State) (x : Issue) (o : Opnd) (base : Nat) (store : Bool) : State × List Nat :=
  let g := s.group x.g
  let busy := x.act.filter (fun i => !(laneRows g.width i o).isEmpty)
  let (s, lanes) := s.inLocal { x with act := busy } (fun i => rowsEnd g.width base i o)
  s.watched { x with act := lanes } (fun i =>
    lowerOf (s.watchBytes g 1 (rowsStart g.width base i o)
        (rowsEnd g.width base i o - rowsStart g.width base i o) (!store) store)
      (s.watchMine g (Opnd.idx o) (laneRows g.width i o) store (!store)))

/-- The words of bytes. -/
def wordsOf (bs : List Byte) (n : Nat) : List W32 := (List.range n).map (fun j => BitVec.ofNat 32 (field bs (4 * j) 4))

/-- `ald` (R222). -/
def execAld (c : Ctl) (o : Ops) (s : State) : Host.Outcome State Fault Refusal :=
  performMem (.ald c o) s (fun x s =>
    let g := s.group x.g
    let base := (g.sreg (Opnd.idx o.a)).toNat
    if base % 16 ≠ 0 then s.faultAll x x.act 2 2 0
    else
      let (s, lanes) := s.rowLanes x o.d base false
      let rows := (lanes.flatMap (fun i => laneRows g.width i o.d)).map (fun m =>
        (m, wordsOf ((s.team g.team).locBytes (base + (m - (namedRows o.d).1) * 512) 512) 128))
      s.setRows x lanes (Opnd.idx o.d) rows 0)

/-- `ast` (R222). -/
def execAst (fe : StoreFe) (c : Ctl) (o : Ops) (s : State) : Host.Outcome State Fault Refusal :=
  performMem (.ast fe c o) s (fun x s =>
    let g := s.group x.g
    let base := (g.sreg (Opnd.idx o.a)).toNat
    if base % 16 ≠ 0 then s.faultAll x x.act 2 2 0
    else
      let (s, lanes) := s.rowLanes x o.d base true
      let rows := lanes.flatMap (fun i => laneRows g.width i o.d)
      let words := s.readRows x.g g.core (Opnd.idx o.d) rows
      (rows.zip words).foldl (fun s r =>
        s.locWrite g.team (base + (r.1 - (namedRows o.d).1) * 512) fe ((List.range 128).flatMap (fun n => leBytes 4 (r.2.getD n 0).toNat))) s)

/-- `aclr` (R222). -/
def execAclr (c : Ctl) (o : Ops) (s : State) : Host.Outcome State Fault Refusal :=
  performMem (.aclr c o) s (fun x s =>
    let g := s.group x.g
    let t := Opnd.idx o.d
    let (s, lanes) := s.watched x (fun i => s.watchMine g t (laneRows g.width i o.d) false true)
    s.setRows x (lanes.filter (fun i => !(laneRows g.width i o.d).isEmpty)) t ((lanes.flatMap (fun i => laneRows g.width i o.d)).map (fun m => (m, zeroRow))) 0)

end Sys2Proof.Machine
end

