-- ==== Sys2Proof/Machine/Relocate.lean ====
section
/-! DEFINITION. Moves of tiles by the relocation engine (R310 to R321), and sweeps (R181). -/

namespace Sys2Proof.Machine

/-! ### What may move -/

/-- Whether a page is movable: 64 KiB, in HBM or a vault window, with MOV set, and no SIEVE page
(R310, R343, R369). -/
def State.movable (s : State) (ctx va : Nat) : Bool :=
  match s.pageLeaf ctx va with
  | some e =>
    let pa := pteAddr e * 4096
    pteSize e == 2 && pteMov e && !isFar pa && !(pteSieve e && isHbm pa)
  | none => false

/-- Whether a page is the source, or the destination, of a move requested and not ended. -/
def State.isSource (s : State) (ctx va : Nat) : Bool :=
  s.moving.any (fun m => m.ctx == ctx && m.f / 65536 == va / 65536 && !m.abandoned)
def State.isTarget (s : State) (ctx va : Nat) : Bool :=
  s.moving.any (fun m => m.ctx == ctx && m.t / 65536 == va / 65536 && !m.abandoned)

/-- Whether a page holds part of a shadow buffer with a pending shadow copy (R312). -/
def State.shadowPending (s : State) (ctx va : Nat) : Bool :=
  (s.ctx ctx).shadows.any (fun b => b.pending && b.pages.contains (va / 65536))

/-- Status of a move of `f` to `t`, the lowest that applies; 0 when it may start (R182, R311, R312). -/
def State.moveStatus (s : State) (ctx f t : Nat) : Nat :=
  let pinned := match s.pageLeaf ctx f with
    | some e => pteRes e == 0
    | none => true
  let tOk := s.movable ctx t && (match s.pageLeaf ctx t with
    | some e => pteW e
    | none => false)
  if !s.movable ctx f || pinned then 1
  else if !tOk || t / 65536 == f / 65536 || s.isSource ctx t || s.isTarget ctx t then 2
  else if s.shadowPending ctx f || s.shadowPending ctx t then 3
  else if s.isSource ctx f || s.isTarget ctx f then 4
  else 0

/-! ### Starting a move -/

/-- Requests a move whose status is 0; a page of the relocation pool that it fills is free no more (R311). -/
def State.requestMove (s : State) (ctx f t : Nat) (group : Option Nat) (pool : Bool) : State :=
  let pa := fun v => match s.pageLeaf ctx v with
    | some e => leafPa e v
    | none => 0
  let m : MoveRec := ⟨s.ownerDie (pa f), ctx, (s.ctx ctx).inc, f, t, pa f, pa t, 0, group, pool, false⟩
  let c := s.ctx ctx
  let s := if c.pool.toNat ≤ t ∧ t + 65536 ≤ c.pool.toNat + c.poolLen.toNat then
      s.modCtx ctx (fun c => { c with poolUsed := c.poolUsed ++ [t / 65536] })
    else s
  { s with moving := s.moving ++ [m] }.startMoves

/-- `tmov` (R182): the status at once when no move starts, else when the move ends. -/
def State.tileMove (s : State) (x : Issue) (d f t : Nat) : State :=
  let g := s.group x.g
  let e : Pend :=
    { pc := x.pc
      lane := none
      lanes := g.issuedOf x.act
      writes := [(.sca d, none)]
      held := true
      tag := f }
  let st := s.moveStatus g.ctx f t
  if st = 0 then (s.push x.g e).requestMove g.ctx f t (some x.g) false
  else s.push x.g { e with held := false, tag := 0, writes := [(.sca d, some (BitVec.ofNat 64 st))] }

/-! ### Sweep (R181) -/

/-- The word of a sweep at a physical address: a pointer into a page with a forwarding entry is replaced. None while the
page that it leads to is in transit (R314). -/
def State.sweepWord (s : State) (g : Group) (pa : Nat) (r : SweepRun) : Option (State × SweepRun) :=
  let s := s.gather g.core (pa / 128)
  let r := { r with next := r.next + 8, left := r.left - 1, reached := none }
  if s.poisoned pa then some (s, { r with poison := true })
  else
    let x := leNat (s.seenBytes g.ctx pa 8)
    if 2 ^ 56 ≤ x then some (s, r)
    else
      let q := s.follow g.ctx 3 x
      if s.inTransit g.ctx q.1 then none
      else if q.1 = x then some (s, r)
      else some (s.ownWrite g.ctx false pa (leBytes 8 q.1), { r with count := r.count + 1, chain := r.chain || q.2 })

/-- The status of a sweep. -/
def SweepRun.status (r : SweepRun) : W64 :=
  BitVec.ofNat 64 ((if r.chain then 2 ^ 63 else 0) + (if r.trunc then 2 ^ 62 else 0) +
    (if r.poison then 2 ^ 61 else 0) + r.count % 2 ^ 32)

/-- Whether a page of a sweep would fault: it is not present, does not permit, or holds unusable bytes. -/
def State.sweepFaults (s : State) (g : Group) (b n : Nat) : Bool :=
  decide (2 ^ 56 < b + 8 * n) || (pieces b (8 * n)).any (fun p =>
    match s.walkChase g.ctx .rw p.2 3 p.1 with
    | .fault _ => true
    | _ => false)

/-- `sweep` (R181, R385): once no page of the range faults, the group runs on while the sweep goes through its words; where
one would fault, the lanes wait at the instruction until the words below it are done. DESIGN CHOICE (log 17): a faulting
page is looked for before a watchpoint. -/
def State.sweep (s : State) (x : Issue) (d : Nat) (b n : W64) : State :=
  let g := s.group x.g
  let words := min n.toNat 1048576
  let r : SweepRun :=
    { d := d
      next := b.toNat
      left := words
      trunc := decide (1048576 < n.toNat)
      stays := s.sweepFaults g b.toNat words }
  let e : Pend :=
    { pc := x.pc
      lane := none
      lanes := g.issuedOf x.act
      writes := [(.sca d, none)]
      sweep := some r
      held := true }
  if b.toNat % 8 ≠ 0 then s.faultAll x x.act 2 2 b
  else
    match (if words = 0 || r.stays then none else s.watchBytes g 0 b.toNat (8 * words) true true) with
    | some w => s.faultAll x x.act 8 w (s.watchedByte g w b.toNat)
    | none =>
      let s := (s.endRelaunch g.team).push x.g e
      if r.stays then (s.stay x x.act).modGroup x.g (fun g => { g with wait := .sweep x.act }) else s

/-- A sweep ends at a page that faults: lanes that wait at it park, and else the fault is found after issue (R401). -/
def State.sweepFault (s : State) (g : Nat) (e : Pend) (r : SweepRun) (c : Nat) : State :=
  let va := BitVec.ofNat 64 r.next
  match (s.group g).wait with
  | .sweep act =>
    if r.stays then
      (s.faultAll (s.issueAt g e.pc) act c (dataDetail c r.next) va).modGroup g (fun x => { x with wait := .none })
    else s.foundFault g e c (dataDetail c r.next) va
  | _ => s.foundFault g e c (dataDetail c r.next) va

/-- A sweep has done its words: D takes its status, unless a later write has discarded it (R103), and lanes that waited
at it go on. -/
def State.sweepEnd (s : State) (g k : Nat) (e : Pend) (r : SweepRun) : State :=
  let s := s.modGroup g (fun x => { x with pend := x.pend.set k { e with
    writes := e.writes.map (fun w => (w.1, some r.status))
    sweep := none
    held := false } })
  match (s.group g).wait with
  | .sweep act => if r.stays then (s.pass g act).modGroup g (fun x => { x with wait := .none }) else s
  | _ => s

/-- The next word of the sweep of entry `k` of a group. None while it waits at a tile in transit, after which its chase
goes on with the hops taken, and once its team's preemption has been requested, unless its group runs on or the word has come
to such a tile (R314, R315, R321, R332, R338). -/
def State.sweepStep (s : State) (g k : Nat) (r : SweepRun) : Option State :=
  let gr := s.group g
  match gr.pend[k]? with
  | none => none
  | some e =>
    if (s.team gr.team).preempt && (!gr.tm || gr.halted) && r.reached.isNone then none
    else if r.left = 0 then some (s.sweepEnd g k e r)
    else
      let keep := fun (s : State) (r : SweepRun) =>
        s.modGroup g (fun x => { x with pend := x.pend.modify k (fun e => { e with sweep := some r }) })
      match (match r.reached with
        | some (va, hops) => s.chase gr.core gr.ctx .rw 8 true (3 - hops) va
        | none => s.translate gr.core gr.ctx .rw r.next 8) with
      | (s, .transit va hops) =>
        if r.reached = some (va, hops) then none else some (keep s { r with reached := some (va, hops) })
      | (s, .fault c) => some ((s.modGroup g (fun x => { x with pend := x.pend.eraseIdx k })).sweepFault g e r c)
      | (s, .ok pa _ va _) =>
        ((s.noteUse gr.ctx gr.core va true).sweepWord gr pa r).map (fun q => keep q.1 q.2)

end Sys2Proof.Machine
end

