-- ==== Sys2Proof/Machine/Engine.lean ====
section
/-! DEFINITION. Engine commands: `cpin`, `cpout`, `gath` and `drain` at issue, and their completion
(R225 to R233, R236, R258 to R261). -/

namespace Sys2Proof.Machine

/-! ### Rows of a command -/

/-- Rows of a queued command. -/
def State.cmdRows (s : State) (e : EngCmd) : List BoxRow :=
  boxRows e.record e.rows e.coord ((s.team e.team).gathList e.kind e.coord)

/-! ### Checks at issue (R227, R391) -/

/-- Whether a record's format stands behind a feature that is not accepted. -/
def fmtGated (feat : Nat) (r : List Byte) : Bool :=
  (11 ≤ recFmt r && !feat.testBit 0) || (5 ≤ recFmt r && recFmt r ≤ 7 && !feat.testBit 1)

/-- Step 5 of the record checks: bounds of the local side, of the list of `gath`, and of a LOCAL tensor. -/
def boundsOk (t : Team) (kind : EngKind) (r : List Byte) (rows : Option Nat) (loc : Nat) (coord : List Byte) : Bool :=
  let c1 := coordOf coord 1
  decide (boxBytes r rows ≤ 1048576) &&
  (kind == .drain || decide (loc + localBytes r rows ≤ t.locLen)) &&
  (kind != .gath || (decide (2 ≤ recRank r) && decide (0 ≤ c1 ∧ c1 % 4 = 0 ∧ c1 + 4 * boxOf r rows 1 ≤ t.locLen))) &&
  (!recLocal r || (boxRows r rows coord (t.gathList kind coord)).all (fun w =>
    w.lo == w.hi || decide (0 ≤ (w.bytes (recBits r) w.hi).1 ∧
      (w.bytes (recBits r) w.hi).1 + (w.bytes (recBits r) w.hi).2 ≤ t.locLen)))

/-- Detail of cause 3 that a record takes. -/
def shapeFault (feat : Nat) (t : Team) (kind : EngKind) (r : List Byte) (rows : Option Nat) (loc : Nat)
    (coord : List Byte) : Option Nat :=
  if fmtGated feat r then some 0
  else
    match recordFault kind r with
    | some d => some d
    | none => if boundsOk t kind r rows loc coord then none else some 3

/-- The SIGNAL granule of a coordinate block, and whether the field is one that a command accepts (R229). -/
def signalOf (coord : List Byte) : Option Nat :=
  if 2 ^ 31 ≤ field coord 20 4 then some (field coord 20 4 % 1048576) else none
def signalOk (t : Team) (coord : List Byte) : Bool :=
  field coord 20 4 / 1048576 % 2048 == 0 &&
  (match signalOf coord with
    | some g => decide (16 * g + 16 ≤ t.locLen)
    | none => true)

/-! ### Global places (R226, R232, R233, R315) -/

/-- Detail of a cause of an engine's global access (R325). DEDUCED (log 22). -/
def engDetail (code va : Nat) : Nat :=
  match code with
  | 4 => 3
  | 6 => 2
  | c => dataDetail c va

/-- Splits a range at multiples of `q`. -/
def splitBy (q va n : Nat) : List (Nat × Nat) :=
  (List.range ((va + n + q - 1) / q - va / q)).filterMap (fun k =>
    let lo := max va ((va / q + k) * q)
    let hi := min (va + n) ((va / q + k + 1) * q)
    if lo < hi then some (lo, hi - lo) else none)

/-- Pages of 4 KiB through which a command has gone, each with its physical address, or with none where only the fetch of its
record has. -/
abbrev EngPages := List (Nat × Option Nat)

/-- Physical address of a byte for an engine. A page that is not present is made present when the Memory core
can; a mark counts one hit for each page chased through it. -/
def State.engPlace (s : State) (core ctx : Nat) (need : Need) (pages : EngPages) (va : Nat) :
    State × EngPages × Except (Nat × Nat) Nat :=
  match (pages.find? (fun p => p.1 == va / 4096 && p.2.isSome)).bind Prod.snd with
  | some p => (s, pages, .ok (p + va % 4096))
  | none =>
    if 2 ^ 56 ≤ va then (s, pages, .error (5, 1))
    else
      let (s, _) := match s.walk ctx (s.follow ctx 3 va).1 with
        | .absent => s.pageIn ctx (s.follow ctx 3 va).1
        | _ => (s, true)
      match s.chase core ctx need 1 (!pages.any (fun p => p.1 / 16 == va / 65536)) 3 va with
      | (s, .ok pa _ rva _) => (s.noteUse ctx core rva true, pages ++ [(va / 4096, some (pa - va % 4096))], .ok pa)
      | (s, .transit _ _) => (s, pages, .error (4, 3))
      | (s, .fault c) => (s, pages, .error (c, engDetail c va))

/-- Where a run of bytes of a tensor stops: the offset of the first byte that faults, with its cause. -/
abbrev EngStop := Option (Nat × Nat × Nat)

/-- Places of `n` bytes from an address, as (physical address, offset, length), up to the first that faults. -/
def State.engPlaces (s : State) (core ctx : Nat) (need : Need) (pages : EngPages) (va n : Nat) :
    State × EngPages × List (Nat × Nat × Nat) × EngStop :=
  (splitBy 128 va n).foldl (fun acc p =>
    match acc with
    | (s, pages, ps, some f) => (s, pages, ps, some f)
    | (s, pages, ps, none) =>
      match s.engPlace core ctx need pages p.1 with
      | (s, pages, .ok pa) => (s, pages, ps ++ [(pa, p.1 - va, p.2)], none)
      | (s, pages, .error c) => (s, pages, ps, some (p.1 - va, c.1, c.2))) (s, pages, [], none)

/-- Reads bytes of a command's memory through the issuing die's L2 up to the first that faults (R258); lines that it brings
take a CPOL (R225). -/
def State.engRead (s : State) (core ctx : Nat) (pages : EngPages) (va n : Nat) (cpol : Nat := 0) :
    State × EngPages × List Byte × EngStop :=
  let (s, pages, ps, stop) := s.engPlaces core ctx .read pages va n
  let r := ps.foldl (fun (acc : State × List Byte × EngStop) p =>
    match acc with
    | (s, bs, some f) => (s, bs, some f)
    | (s, bs, none) =>
      match s.engineRead (dieOfCore core) ctx p.1 p.2.2 cpol with
      | (s, _, true) => (s, bs, some (p.2.1, 7, 1))
      | (s, x, false) => (s, bs ++ x, none)) (s, [], none)
  (r.1, pages, r.2.1, match r.2.2 with
    | some f => some f
    | none => stop)

/-! ### Issue (R226, R227, R229, R232) -/

/-- Fetches a record: from the core's record cache, or through the die's L2, after which the cache holds it, with the pages
through which the fetch has gone; an error is a cause with the address of the first byte that meets it (R327). DESIGN CHOICE
(log 33): a held copy is used. -/
def State.fetchRecord (s : State) (core ctx va : Nat) : State × Except (Nat × Nat × Nat) (List Byte × List Nat) :=
  let inc := (s.ctx ctx).inc
  match (s.core core).records.find? (fun e => e.ctx == ctx && e.inc == inc && e.addr == va) with
  | some e => (s, .ok (e.bytes, []))
  | none =>
    match s.engRead core ctx [] va 192 with
    | (s, pages, bs, none) => (s.modCore core (fun c => { c with records := c.records ++ [⟨ctx, inc, va, bs⟩] }),
        .ok (bs, pages.map Prod.fst))
    | (s, _, _, some (o, c, d)) => (s, .error (c, d, va + o))

/-- Whether a range of a context's addresses lies in a tile in transit, once marks are chased. -/
def State.rangeMoves (s : State) (ctx va n : Nat) : Bool :=
  (splitBy 4096 va n).any (fun p => s.inTransit ctx (s.follow ctx 3 p.1).1)

/-- Whether a command's global side lies in a tile in transit. -/
def State.rowsMove (s : State) (ctx : Nat) (r : List Byte) (ws : List BoxRow) : Bool :=
  !recLocal r && ws.any (fun w => w.lo != w.hi &&
    s.rangeMoves ctx (w.bytes (recBits r) w.hi).1.toNat (w.bytes (recBits r) w.hi).2)

/-- Whether a command writes through its record. -/
def EngKind.writes : EngKind → Bool
  | .cpout | .drain => true
  | _ => false

/-- A poison read in the fetch of a record, which is a read of the command's team (R226, R366); any other cause of it parks
the active lanes. -/
def State.recordFault (s : State) (x : Issue) (c d va : Nat) : State :=
  match (if c = 7 ∧ d = 1 then s.consumePoison (s.group x.g).team else none) with
  | some s => s
  | none => s.faultAll x x.act c d (BitVec.ofNat 64 va)

/-- An engine command at issue: of the causes that apply, the lowest (R324). `local_` is the local-side register and `acc` the
operand of `drain`. One that does not issue has fetched no record. -/
def State.command (s : State) (x : Issue) (kind : EngKind) (local_ : W64) (acc : Opnd) (rva : W64) (cb : Nat) : State :=
  let (s, x) := s.refuseTx x
  if x.act.isEmpty then s
  else
    let g := s.group x.g
    let core := g.core
    let coord := leBytes 8 (g.sreg cb).toNat ++ leBytes 8 (g.sreg (cb + 1)).toNat ++ leBytes 8 (g.sreg (cb + 2)).toNat
    let loc := local_.toNat % 4294967296
    let rows := if kind = .drain then some (namedRows acc).2 else none
    let bad := decide (4294967296 ≤ local_.toNat) || !signalOk (s.team g.team) coord
    if rva.toNat % 64 ≠ 0 then s.faultAll x x.act 2 2 rva
    else if loc % 16 ≠ 0 then s.faultAll x x.act 2 2 0
    else if s.rangeMoves g.ctx rva.toNat 192 then s.unissue x .shadowTransit
    else
      match (s.release g .die).fetchRecord core g.ctx rva.toNat with
      | (s, .error (c, d, va)) =>
        if bad ∧ 5 < c then s.faultAll x x.act 5 3 0 else s.recordFault x c d va
      | (t', .ok (r, chased)) =>
        let before := s
        let s := t'
        let t := s.team g.team
        match shapeFault s.featAcc t kind r rows loc coord with
        | some d => s.faultAll x x.act 3 d 0
        | none =>
          if bad then s.faultAll x x.act 5 3 0
          else if kind.writes && recMode r == 2 &&
              s.rowsMove g.ctx r (boxRows r rows coord (t.gathList kind coord)) then before.unissue x .shadowTransit
          else if 32 ≤ (s.core core).queue.length then before.unissue x .engineQueue
          else
            let m0 := (namedRows acc).1
            let data := match rows with
              | some n => s.readRows x.g core (Opnd.idx acc) ((List.range n).map (fun m => m0 + m))
              | none => []
            let e : EngCmd :=
              { kind := kind
                group := x.g
                team := g.team
                ctx := g.ctx
                inc := g.inc
                loc := BitVec.ofNat 64 loc
                record := r
                coord := coord
                rows := rows
                data := data
                chased := chased }
            s.modCore core (fun c => { c with queue := c.queue ++ [e] })

/-- `drain` (R230). -/
def execDrain (c : Ctl) (o : Ops) (s : State) : Host.Outcome State Fault Refusal :=
  performMem (.drain c o) s (fun x s => s.command x .drain 0 o.d ((s.group x.g).sreg (Opnd.idx o.a)) (Opnd.idx o.b))

/-- `cpin` (R230). -/
def execCpin (c : Ctl) (o : Ops) (s : State) : Host.Outcome State Fault Refusal :=
  performMem (.cpin c o) s (fun x s =>
    let g := s.group x.g
    s.command x .cpin (g.sreg (Opnd.idx o.d)) .none (g.sreg (Opnd.idx o.a)) (Opnd.idx o.b))

/-- `cpout` (R230). -/
def execCpout (c : Ctl) (o : Ops) (s : State) : Host.Outcome State Fault Refusal :=
  performMem (.cpout c o) s (fun x s =>
    let g := s.group x.g
    s.command x .cpout (g.sreg (Opnd.idx o.d)) .none (g.sreg (Opnd.idx o.a)) (Opnd.idx o.b))

/-- `gath` (R230). -/
def execGath (c : Ctl) (o : Ops) (s : State) : Host.Outcome State Fault Refusal :=
  performMem (.gath c o) s (fun x s =>
    let g := s.group x.g
    s.command x .gath (g.sreg (Opnd.idx o.d)) .none (g.sreg (Opnd.idx o.a)) (Opnd.idx o.b))

/-! ### Running a command (R228, R230 to R233) -/

/-- A command's progress: elements moved, its failure, and the destination pieces written, each with its
tile, address, place and length. -/
structure EngRun where
  s     : State
  pages : EngPages := []
  count : Nat := 0
  fail  : Option (Nat × Nat) := none
  wrote : List (Nat × Nat × Nat × Nat) := []

/-- `n` bits at bit `pos` of a number. -/
def getBits (x pos n : Nat) : Nat := x / 2 ^ pos % 2 ^ n

/-- Dense bytes of a command's local box. -/
def Team.dense (t : Team) (e : EngCmd) (o n : Nat) : List Byte :=
  (List.range n).map (fun k => t.locByte (e.loc.toNat + swizzleAt e.record (o + k)))

/-- Writes dense bytes of a command's local box; every granule they touch becomes full (R161, R232). -/
def State.denseWrite (s : State) (e : EngCmd) (o : Nat) (bs : List Byte) : State :=
  let at_ := bs.zipIdx.map (fun b => (e.loc.toNat + swizzleAt e.record (o + b.2), b.1))
  let s := s.modTeam e.team (fun t => at_.foldl (fun t b => t.putBytes b.1 [b.2]) t)
  ((at_.map (fun b => b.1 / 16)).dedup).foldl (fun s g => s.fillGranule e.team g) s

/-- Elements before the one that holds byte `off` of a row read from its first unclipped element. -/
def BoxRow.upTo (w : BoxRow) (e : Nat) (stop : EngStop) : Nat :=
  match stop with
  | none => w.hi
  | some (off, _, _) =>
    min w.hi (max (w.lo : Int) ((8 * ((w.bytes e w.hi).1 + off) - w.bit) / e)).toNat

/-- The cause of a stop. -/
def stopCause (stop : EngStop) : Option (Nat × Nat) := stop.map (fun f => (f.2.1, f.2.2))

/-- Reads the bytes of a row of the tensor, up to the first that faults. -/
def EngRun.readRow (q : EngRun) (core : Nat) (e : EngCmd) (w : BoxRow) : EngRun × List Byte × EngStop :=
  let b := w.bytes (recBits e.record) w.hi
  if recLocal e.record then
    let t := q.s.team e.team
    if b.1 < 0 ∨ (t.locLen : Int) < b.1 + b.2 then
      (q, t.locBytes b.1.toNat (t.locLen - b.1.toNat), some (if b.1 < 0 then 0 else t.locLen - b.1.toNat, 5, 2))
    else (q, t.locBytes b.1.toNat b.2, none)
  else
    let (s, pages, bs, stop) := q.s.engRead core e.ctx q.pages b.1.toNat b.2 (recCpol e.record)
    ({ q with s := s, pages := pages }, bs, stop)

/-- Moves row `j` of the tensor into the local box (R228, R230). -/
def EngRun.rowIn (q : EngRun) (core : Nat) (e : EngCmd) (j : Nat) (w : BoxRow) : EngRun :=
  let bits := recBits e.record
  let width := boxOf e.record e.rows 0
  let rowLen := width * bits / 8
  let (q, bs, stop) := if w.lo = w.hi then (q, [], none) else q.readRow core e w
  let upTo := if w.lo = w.hi then 0 else w.upTo bits stop
  let n := upTo - w.lo
  let val := getBits (leNat bs) ((w.bit + (w.lo * bits : Nat)) % 8).toNat (n * bits)
  let keep := recKeep e.record
  let first := if keep then w.lo else 0
  let last := if keep || stop.isSome then upTo else width
  let q := { q with count := q.count + n, fail := stopCause stop }
  if last ≤ first then q
  else
    let o := first * bits / 8
    let len := (last * bits + 7) / 8 - o
    let old := leNat ((q.s.team e.team).dense e (j * rowLen + o) len)
    let cleared := putBits old (first * bits - 8 * o) ((last - first) * bits) 0
    let new := if n = 0 then cleared else putBits cleared (w.lo * bits - 8 * o) (n * bits) val
    { q with s := q.s.denseWrite e (j * rowLen + o) (leBytes len new) }

/-- The code of an FP32 word in a drain's format (R230). -/
def drainCode (fmt x : Nat) : Nat :=
  match fmt with
  | 1 => (cvtFF .f16 .f32 false .rn x).bits
  | 2 => (cvtFF .bf16 .f32 false .rn x).bits
  | _ => x

/-- Format of an add-mode destination (R90, R227). -/
def addFmt (fmt : Nat) : FpFmt :=
  match fmt with
  | 1 => .f16
  | 2 => .bf16
  | _ => .f32

/-- Elements of a row of the source, joined, from element `lo` on. -/
def State.sourceRow (s : State) (e : EngCmd) (j : Nat) (w : BoxRow) : Nat :=
  let bits := recBits e.record
  match e.rows with
  | some _ =>
    joinElems bits (((e.data.getD j []).drop w.lo).map (fun x => drainCode (recFmt e.record) x.toNat))
  | none =>
    let rowLen := boxOf e.record e.rows 0 * bits / 8
    leNat ((s.team e.team).dense e (j * rowLen) rowLen) / 2 ^ (w.lo * bits)

/-- Old values with new ones combined (R90, R231): `n` elements of `bits` bits. -/
def combine (add : Bool) (fmt bits n old new : Nat) : Nat :=
  if add then
    joinElems bits ((List.range n).map (fun k =>
      (fAdd (addFmt fmt) .rn false (getBits old (k * bits) bits) (getBits new (k * bits) bits)).bits))
  else new % 2 ^ (n * bits)

/-- The offset in a buffer with a shadow destination of the byte at an address; none outside it. -/
def Shadow.offset (h : Shadow) (va : Nat) : Option Nat :=
  (h.pages.findIdx? (fun p => p == va / 65536)).bind (fun i =>
    let o := (h.base / 65536 + i) * 65536 + va % 65536
    if h.base ≤ o ∧ o < h.base + h.len then some (o - h.base) else none)

/-- Where the byte at an offset of a buffer now stands. -/
def Shadow.place (h : Shadow) (o : Nat) : Nat :=
  h.pages.getD ((h.base + o) / 65536 - h.base / 65536) 0 * 65536 + (h.base + o) % 65536

/-- The offset in a buffer of a run of bytes that stands whole in it, once its marks are chased (R314). -/
def State.shadowRun (s : State) (ctx : Nat) (h : Shadow) (va n : Nat) : Option Nat :=
  match h.offset (s.follow ctx 3 va).1 with
  | none => none
  | some o =>
    if (splitBy 65536 va n).all (fun p => h.offset (s.follow ctx 3 p.1).1 == some (o + (p.1 - va))) &&
      decide (o + n ≤ h.len) then some o else none

/-- Whether an address stands in a page with SIEVE set, which is no shadow destination (R369). -/
def State.isSieve (s : State) (ctx va : Nat) : Bool :=
  match s.walk ctx va with
  | .leaf e => pteSieve e && isHbm (pteAddr e * 4096)
  | _ => false

/-- The buffer with a shadow destination that holds every byte of a box (R231). DESIGN CHOICE (log 33): elements that are clipped
do not count. -/
def State.shadowFor (s : State) (ctx : Nat) (bits : Nat) (ws : List BoxRow) : Option Shadow :=
  (s.ctx ctx).shadows.find? (fun h => ws.all (fun w => w.lo == w.hi ||
    ((s.shadowRun ctx h (w.bytes bits w.hi).1.toNat (w.bytes bits w.hi).2).isSome &&
      !(splitBy 65536 (w.bytes bits w.hi).1.toNat (w.bytes bits w.hi).2).any (fun p =>
        s.isSieve ctx (s.follow ctx 3 p.1).1))))

/-- Writes shadow bytes at an offset of a buffer (R261). -/
def State.shadowWrite (s : State) (ctx : Nat) (h : Shadow) (o : Nat) (bs : List Byte) : State :=
  s.modCtx ctx (fun c => { c with shadows := c.shadows.map (fun b =>
    if b.base = h.base then
      { b with
        bytes := bs.zipIdx.foldl (fun m x => FMap.insert (o + x.2) x.1 (m.erase (o + x.2))) b.bytes
        pending := true }
    else b) })

/-- What the next publish would show at an offset of a buffer: the shadow byte, else the visible one (R231). -/
def State.shadowByte (s : State) (ctx : Nat) (h : Shadow) (o : Nat) : Byte :=
  if h.bytes.has o then h.bytes.get 0 o
  else
    match s.walk ctx (h.place o) with
    | .leaf e => s.ownSeen ctx (leafPa e (h.place o))
    | _ => 0

/-- A shadow-mode command adds a hit to each mark that it chases through, once for each page (R315). -/
def State.shadowHits (s : State) (ctx bits : Nat) (ws : List BoxRow) (chased : List Nat) : State :=
  ((((ws.filter (fun w => w.lo != w.hi)).flatMap (fun w =>
    (splitBy 65536 (w.bytes bits w.hi).1.toNat (w.bytes bits w.hi).2).map (fun p => p.1 / 65536))).dedup).filter (fun p =>
      !chased.any (fun c => c / 16 == p))).foldl
      (fun s p => s.hitChain ctx 3 (p * 65536)) s

/-- The tile of the byte at a dense offset of a command's box, whose bytes stand in row order (R231). DESIGN CHOICE (log 33): the
bytes of clipped elements count in the run. -/
def tileAt (drain : Bool) (o : Nat) : Nat := if drain then 0 else o / 65536

/-- Writes `n` bits at a bit address of a command's global destination, under its MODE. Each run of bytes up
to a multiple of 8 is one write; `o` is the dense offset of the first. -/
def EngRun.writeGlobal (q : EngRun) (core : Nat) (e : EngCmd) (o : Nat) (places : List (Nat × Nat × Nat))
    (va sh n k new : Nat) : EngRun :=
  let add := recMode e.record = 1
  let len := (sh + n * k + 7) / 8
  let ps := places.filterMap (fun p => if p.2.1 < len then some (p.1, p.2.1, min p.2.2 (len - p.2.1)) else none)
  let s := ps.foldl (fun s p => s.gather core (p.1 / 128)) (q.s.endRelaunch e.team)
  let old := leNat (ps.flatMap (fun p => s.seenBytes e.ctx p.1 p.2.2))
  let bs := leBytes len (putBits old sh (n * k) (combine add (recFmt e.record) k n (getBits old sh (n * k)) new))
  let s := ps.foldl (fun s p => (splitBy 8 p.1 p.2.2).foldl (fun s w =>
    s.engineWrite core e.ctx (!add) w.1 ((bs.drop (p.2.1 + (w.1 - p.1))).take w.2) (recCpol e.record)) s) s
  { q with
    s := s
    wrote := q.wrote ++ ps.flatMap (fun p => (splitBy 65536 (o + p.2.1) p.2.2).map (fun t =>
      let d := t.1 - (o + p.2.1)
      (tileAt e.rows.isSome t.1, va + p.2.1 + d, p.1 + d, t.2))) }

/-- Moves row `j` of the source to the tensor (R228, R230, R231). -/
def EngRun.rowOut (q : EngRun) (core : Nat) (e : EngCmd) (shadow : Option Shadow) (j : Nat) (w : BoxRow) : EngRun :=
  if w.lo = w.hi then q
  else
    let bits := recBits e.record
    let b := w.bytes bits w.hi
    let sh := ((w.bit + (w.lo * bits : Nat)) % 8).toNat
    let src := q.s.sourceRow e j w
    if recLocal e.record then
      let old := leNat ((q.s.team e.team).locBytes b.1.toNat b.2)
      let n := w.hi - w.lo
      let bs := leBytes b.2 (putBits old sh (n * bits)
        (combine (recMode e.record = 1) (recFmt e.record) bits n (getBits old sh (n * bits)) src))
      { q with
        s := q.s.locWrite e.team b.1.toNat .sf bs
        count := q.count + n }
    else
      match shadow with
      | some h =>
        let o := (q.s.shadowRun e.ctx h b.1.toNat b.2).getD 0
        let cur := (List.range b.2).map (fun k => q.s.shadowByte e.ctx h (o + k))
        let n := w.hi - w.lo
        { q with
          s := q.s.shadowWrite e.ctx h o (leBytes b.2 (putBits (leNat cur) sh (n * bits) (src % 2 ^ (n * bits))))
          count := q.count + n }
      | none =>
        let (s, pages, ps, stop) := q.s.engPlaces core e.ctx .write q.pages b.1.toNat b.2
        let bad : EngStop := if recMode e.record = 1 then
            (ps.find? (fun p => s.poisoned p.1)).map (fun p => (p.2.1, 7, 1))
          else none
        let stop := match bad with
          | some f => some f
          | none => stop
        let upTo := w.upTo bits stop
        let n := upTo - w.lo
        let q := { q with s := s, pages := pages, count := q.count + n, fail := stopCause stop }
        if n = 0 then q else q.writeGlobal core e (j * (boxOf e.record e.rows 0 * bits / 8) + w.lo * bits / 8) ps b.1.toNat sh n bits src

/-- Counts a command's tiles as arrivals: for each phase, one for each tile that reaches its window (R287). -/
def State.engArrive (s : State) (ctx : Nat) (wrote : List (Nat × Nat × Nat × Nat)) : State :=
  let reaches := fun (tile : Nat) (l : Launch) (p : Nat × Nat × Nat × Nat) =>
    p.1 == tile && decide (p.2.1 < l.awBase + l.awLen ∧ l.awBase < p.2.1 + p.2.2.2)
  ((wrote.map Prod.fst).dedup).foldl (fun s tile =>
    (s.phasesOf ctx (fun l => wrote.any (reaches tile l))).foldl (fun s n =>
      match wrote.find? (fun p => s.launches.any (fun l => l.2.live && l.2.ctx == ctx && l.2.kernel.phase &&
          l.2.kernel.phnum == n.1 && (match n.2 with
            | some k => l.1 == k
            | none => l.2.phaseSlot.isSome) && reaches tile l.2 p)) with
      | some p => s.arrive (if isFar p.2.2.1 then 0 else s.ownerDie p.2.2.1) ctx n.1 n.2
      | none => s) s) s

/-- Runs a command to its end (R233). A record with a zero extent moves nothing (R227). -/
def State.engRun (s : State) (core : Nat) (e : EngCmd) : EngRun :=
  let ws := s.cmdRows e
  let q : EngRun := { s := s, pages := e.chased.map (fun p => (p, none)) }
  if (List.range (recRank e.record)).any (fun d => recExt e.record d == 0) then q
  else if e.kind.writes then
    let shadow := if recMode e.record = 2 then s.shadowFor e.ctx (recBits e.record) ws else none
    if recMode e.record = 2 ∧ shadow.isNone then { q with fail := some (5, 3) }
    else
      let q := if shadow.isSome then { q with s := s.shadowHits e.ctx (recBits e.record) ws e.chased } else q
      ws.zipIdx.foldl (fun q w =>
        if q.fail.isSome then q
        else
          let h := shadow.bind (fun h => (q.s.ctx e.ctx).shadows.find? (fun b => b.base == h.base))
          q.rowOut core e h w.2 w.1) q
  else ws.zipIdx.foldl (fun q w => if q.fail.isSome then q else q.rowIn core e w.2 w.1) q

/-- The completion granule (R233). -/
def completion (count : Nat) (fail : Option (Nat × Nat)) : Nat :=
  match fail with
  | none => count * 2 ^ 64
  | some (code, detail) => count * 2 ^ 64 + (code + 16 * detail) * 2 ^ 32 + 1

/-- Groups of a core that found the queue full are ready again (R232). -/
def State.freeQueue (s : State) (core : Nat) : State :=
  { s with groups := s.groups.map (fun (p : Nat × Group) =>
      if p.2.core = core ∧ p.2.wait = .engineQueue then (p.1, { p.2 with wait := .none }) else p) }

/-- The command of a core's queue that runs next: the oldest that does not wait at a tile in transit, and has no older one
of its context, since contexts do not wait on each other's moves (R232, R321). -/
def State.nextCommand (s : State) (core : Nat) : Option (Nat × EngCmd) :=
  let q := (s.core core).queue
  (q.zipIdx.find? (fun e => !(q.take e.2).any (fun f => f.ctx == e.1.ctx) && !s.rowsMove e.1.ctx e.1.record (s.cmdRows e.1))).map
    (fun e => (e.2, e.1))

/-- ENGINE_COMMAND_COMPLETE: the next command of a core's queue runs and signals (R231 to R233). DESIGN CHOICE (log 33): one
step. -/
def execEngineCommandComplete (core : Nat) (s : State) : Host.Outcome State Fault Refusal :=
  match s.nextCommand core with
  | none => .fault (.notEnabled "ENGINE_COMMAND_COMPLETE")
  | some (k, e) =>
    let q := s.engRun core e
    let s := q.s.engArrive e.ctx q.wrote
    let s := match signalOf e.coord with
      | some g => (s.modTeam e.team (fun t => t.putBytes (16 * g) (leBytes 16 (completion q.count q.fail)))).fillGranule
          e.team g
      | none => s
    .next ((s.modCore core (fun c => { c with queue := c.queue.eraseIdx k })).freeQueue core)

/-! ### Stage rings (R234, R235) -/

/-- `racq` (R235). -/
def execRacq (c : Ctl) (o : Ops) (s : State) : Host.Outcome State Fault Refusal :=
  performMem (.racq c o) s (fun x s =>
    let r := s.refuseTx x
    r.1.ring r.2 0 (some (Opnd.idx o.d)) ((r.1.group x.g).sreg (Opnd.idx o.a)) 0)

/-- `rput` (R235). -/
def execRput (c : Ctl) (o : Ops) (s : State) : Host.Outcome State Fault Refusal :=
  performMem (.rput c o) s (fun x s =>
    let r := s.refuseTx x
    let g := r.1.group x.g
    r.1.ring r.2 1 none (g.sreg (Opnd.idx o.a)) (g.sreg (Opnd.idx o.b)))

/-- `rget` (R235). -/
def execRget (c : Ctl) (o : Ops) (s : State) : Host.Outcome State Fault Refusal :=
  performMem (.rget c o) s (fun x s =>
    let r := s.refuseTx x
    r.1.ring r.2 2 (some (Opnd.idx o.d)) ((r.1.group x.g).sreg (Opnd.idx o.a)) 0)

/-- `rrel` (R235). -/
def execRrel (c : Ctl) (o : Ops) (s : State) : Host.Outcome State Fault Refusal :=
  performMem (.rrel c o) s (fun x s =>
    let r := s.refuseTx x
    let g := r.1.group x.g
    r.1.ring r.2 3 none (g.sreg (Opnd.idx o.a)) (g.sreg (Opnd.idx o.b)))

end Sys2Proof.Machine
end

