-- ==== Sys2Proof/Machine/Trace.lean ====
section
/-! DEFINITION. The cycle counters of cores, and the contact sheet (R6, R388, R389). -/

namespace Sys2Proof.Machine

/-- Reads `$cyc` of a core: a free number of cycles has passed since it was last read (log 4). -/
def State.cycles (s : State) (core : Nat) : State × W64 :=
  let v := (s.core core).cyc + BitVec.ofNat 64 (Config.cycles s.free)
  ((s.modCore core (fun c => { c with cyc := v })).tick, v)

/-- A snapshot trigger (R388): every block latches its set once, under the next number; a trigger that finds
the one before unconfirmed is dropped and counted. Latched headers are held by core, which its partitions
share (R389). DESIGN CHOICE (log 29). -/
def State.snapshot (s : State) (src tag : Nat) : State :=
  if 1 < s.ssn && Config.snapBusy s.free then { s.tick with snapDropped := s.snapDropped + 1 }
  else
    let n := s.ssn
    let s := (List.range 256).foldl (fun s c =>
      let r := s.cycles c
      { r.1 with snaps := r.1.snaps.set Snap.none c ⟨n % 2 ^ 32, tag, src, r.2⟩ }) s.tick
    { s with ssn := n + 1, snapDraws := s.snapDraws ++ [s.free] }

/-- SSN of the latest trigger that a core has latched. -/
def State.lastSsn (s : State) (core : Nat) : Nat := (s.snaps.get Snap.none core).ssn

/-- The blocks of the package (R388). -/
inductive Block | core | partition | l2Slice | vaultPort | engine | channel | memory | sieve | link
deriving DecidableEq, Repr

/-- Number of a kind of block in BLOCK. DESIGN CHOICE (log 29): BLOCK holds the die in bits [19:17], the kind in [16:13] and
the index in [12:0]. -/
def Block.code : Block → Nat
  | .core => 0
  | .partition => 1
  | .l2Slice => 2
  | .vaultPort => 3
  | .engine => 4
  | .channel => 5
  | .memory => 6
  | .sieve => 7
  | .link => 8

/-- BLOCK of a block of a die. -/
def Block.ident (b : Block) (die index : Nat) : Nat := die % 8 * 2 ^ 17 + b.code * 2 ^ 13 + index % 2 ^ 13

/-- CYC of a block's header (R388): a core or partition gives its core's `$cyc`, every other block its own counter, whose
steps are free values. Indices count within the die. -/
def State.blockCyc (s : State) (b : Block) (die index : Nat) : W64 :=
  match b with
  | .core => (s.snaps.get Snap.none (32 * die + index)).cyc
  | .partition => (s.snaps.get Snap.none (32 * die + index / 4)).cyc
  | _ => BitVec.ofNat 64 ((s.snapDraws.map (fun d => Config.blockCycles d (b.ident die index))).sum)

/-- The header of the latest set that a block has latched (R388), all zero before the first; every block latches every
trigger that is taken. -/
def State.header (s : State) (b : Block) (die index : Nat) : BitVec 128 :=
  let x := s.snaps.get Snap.none 0
  if s.snaps.isEmpty then 0
  else BitVec.ofNat 128 (x.ssn * 2 ^ 96 + x.tag % 256 * 2 ^ 88 + x.src % 16 * 2 ^ 84 + b.ident die index * 2 ^ 64 +
    (s.blockCyc b die index).toNat)

end Sys2Proof.Machine
end

