-- ==== Sys2Proof/Machine/System.lean ====
section
/-! DEFINITION. Traps, calls out, handler returns, snapshots and special registers (R59 to R62, R204 to
R210, R266, R291). -/

namespace Sys2Proof.Machine

/-- `trap` (R204). -/
def execTrap (c : Ctl) (o : Ops) (s : State) : Host.Outcome State Fault Refusal :=
  perform (.trap c o) s (fun x s =>
    let n := match o.a with
      | .imm n => n.toNat
      | _ => 0
    s.faultAll x x.act 8 (0x80 + n) 0)

/-! ### The call ring (R206, R291) -/

/-- Virtual address of a slot of a context's call ring. -/
def State.slotVa (s : State) (ctx slot : Nat) : Nat := (s.ctx ctx).callRing.toNat + 1024 * slot

def Context.slot (c : Context) (n : Nat) : CallSlot := c.slots.get CallSlot.none n

/-- The lowest free slot of a context's call ring. -/
def Context.freeSlot (c : Context) : Option Nat := (List.range 256).find? (fun n => !(c.slot n).used)

/-- The request record (R206): `req` holds the request word of each active lane. -/
def callRecord (g : Group) (team : Nat) (pc : W64) (svc : Nat) (act : List Nat) (req : List W64) : List Byte :=
  leBytes 2 svc ++ leBytes 1 g.width ++ leBytes 1 g.gid ++ leBytes 4 team ++
  leBytes 8 ((act.map (fun i => 2 ^ i)).sum) ++ leBytes 8 pc.toNat ++ leBytes 2 g.ctx ++ leBytes 2 g.inc ++
  leBytes 4 0 ++
  g.ids.flatMap (fun i => leBytes 8 (match act.findIdx? (fun j => j == i) with
    | some n => (req.getD n 0).toNat
    | none => 0))

/-- Enters a request in the lowest free slot, and signals the host for a service of its own. With no free
slot, or when the write faults, the group waits to try again (R291). -/
def State.sysEnter (s : State) (k : Nat) (pc : W64) (svc d : Nat) (req : List W64) (act : List Nat) : State :=
  let g := s.group k
  let hold := fun (s : State) => s.modGroup k (fun g => { g with wait := .callRing pc svc d req act })
  match (s.ctx g.ctx).freeSlot with
  | none => hold s
  | some n =>
    match s.devWrite g.ctx (s.slotVa g.ctx n) (callRecord g (s.team g.team).num pc svc act req) with
    | (s, .error _) => hold (s.logError 2 g.ctx)
    | (s, .ok _) =>
      match s.devWrite g.ctx (s.slotVa g.ctx n + 640) (leBytes 4 1) with
      | (s, .error _) => hold (s.logError 2 g.ctx)
      | (s, .ok _) =>
        let slot : CallSlot :=
          { used := true
            group := k
            inc := g.inc
            svc := svc
            act := act
            d := d
            req := req }
        let s := s.modCtx g.ctx (fun c => { c with slots := c.slots.set CallSlot.none n slot })
        let s := if 2048 ≤ svc then s.msi (2 * g.ctx) else s
        s.modGroup k (fun g => { g with wait := .sys n d act })

/-- `sys` (R206). -/
def execSys (c : Ctl) (o : Ops) (s : State) : Host.Outcome State Fault Refusal :=
  performMem (.sys c o) s (fun x s =>
    let r := s.refuseTx x
    match r.2.act with
    | [] => r.1
    | act =>
      let g := r.1.group x.g
      let svc := match o.b with
        | .imm n => n.toNat
        | _ => 0
      (r.1.endRelaunch g.team).sysEnter x.g x.pc svc (Opnd.idx o.d) (act.map (fun i => g.value i o.a 2)) act)

/-- Services that an agent provides: of those below 2,048, the ones that firmware has, under the features they need (R304,
R318, R330, R377, R391, R399); of the host's, those that Config names (log 28). -/
def provided (feat svc : Nat) : Bool :=
  match svc with
  | 1000 => feat.testBit 5
  | 1024 | 1536 => true
  | 1100 | 1101 => feat.testBit 3
  | 1110 | 1111 => feat.testBit 4
  | _ => decide (2048 ≤ svc) && Config.hostServes svc

/-- A server writes its reply, one word for each lane, and then STATE 2 (R291). A write that faults is held
and logged, to be made again. -/
def State.reply (s : State) (ctx slot : Nat) (words : List W32) : State :=
  let keep := fun (s : State) (ws : List W32) => s.modCtx ctx (fun c =>
    { c with slots := c.slots.modify CallSlot.none slot (fun x => { x with hold := ws }) })
  match s.devWrite ctx (s.slotVa ctx slot + 768) (words.flatMap (fun w => leBytes 4 w.toNat)) with
  | (s, .error _) => keep (s.logError 2 ctx) words
  | (s, .ok _) =>
    match s.devWrite ctx (s.slotVa ctx slot + 640) (leBytes 4 2) with
    | (s, .error _) => keep (s.logError 2 ctx) words
    | (s, .ok _) => keep s []

/-- A reply that is the same in every active lane. -/
def State.replyAll (s : State) (ctx slot : Nat) (v : W32) : State :=
  let c := (s.ctx ctx).slot slot
  s.reply ctx slot ((s.group c.group).ids.map (fun i => if c.act.contains i then v else 0))

/-- A slot in use for a service, whose request the server has not answered yet, with its waiting group
resident or saved. -/
def State.asks (s : State) (ctx slot svc : Nat) : Bool :=
  let c := (s.ctx ctx).slot slot
  c.used && !c.freeing && c.hold.isEmpty && c.svc == svc && (s.ctx ctx).isOpen && c.inc == (s.ctx ctx).inc &&
  (match (s.devRead ctx (s.slotVa ctx slot + 640) 4).2 with
    | .ok bs => leNat bs == 1
    | .error _ => false)

/-- Request words of a slot, by lane of its active set. -/
def CallSlot.words (c : CallSlot) : List (Nat × W64) := c.act.zip c.req

/-- Puts a slot of a context's call ring in place. -/
def State.setSlot (s : State) (ctx slot : Nat) (c : CallSlot) : State :=
  s.modCtx ctx (fun x => { x with slots := x.slots.set CallSlot.none slot c })

/-- Frees a slot: STATE takes 0, and a write that faults is held and logged (R291). -/
def State.clearSlot (s : State) (ctx slot : Nat) : State :=
  match s.devWrite ctx (s.slotVa ctx slot + 640) (leBytes 4 0) with
  | (s, .ok _) => s.setSlot ctx slot CallSlot.none
  | (s, .error _) => (s.logError 2 ctx).setSlot ctx slot { used := true, freeing := true }

/-- Frees the slot of a reply and delivers the reply to the waiting group (R206, R291). While the write of STATE faults the
group stays as it is, and the write is made again. -/
def State.deliver (s : State) (ctx slot : Nat) (bs : List Byte) : State :=
  let c := (s.ctx ctx).slot slot
  match s.devWrite ctx (s.slotVa ctx slot + 640) (leBytes 4 0) with
  | (s, .error _) => s.logError 2 ctx
  | (s, .ok _) =>
    let s := (s.setSlot ctx slot CallSlot.none).writes c.group
      (c.act.map (fun i => (PUnit.vec i c.d, BitVec.ofNat 64 (field bs (4 * i) 4))))
    s.modGroup c.group (fun g => { g with wait := .none })

/-- SYS_REPLY: the reply of a `sys` reaches its group (R206, R291). A service that no agent provides returns
0xFFFFFFFF in every active lane; the reply to a saved group is held until its restore. A slot that a reclaim could not
free is tried again. DEDUCED (log 28): STATE is 4 bytes. -/
def execSysReply (ctx slot : Nat) (s : State) : Host.Outcome State Fault Refusal :=
  let c := (s.ctx ctx).slot slot
  let no : Host.Outcome State Fault Refusal := .fault (.notEnabled "SYS_REPLY")
  if c.freeing then .next (s.clearSlot ctx slot)
  else if !c.used || !(s.ctx ctx).isOpen || c.inc != (s.ctx ctx).inc || !(s.group c.group).resident then no
  else
    let s := if !provided s.featAcc c.svc ∧ s.asks ctx slot c.svc then
        s.replyAll ctx slot 0xFFFFFFFF
      else s
    match s.devRead ctx (s.slotVa ctx slot + 640) 4 with
    | (s, .ok st) =>
      if leNat st ≠ 2 then no
      else
        match s.devRead ctx (s.slotVa ctx slot + 768) (4 * (s.group c.group).width) with
        | (s, .ok bs) => .next (s.deliver ctx slot bs)
        | (_, .error _) => no
    | (_, .error _) => no

/-- CALL_RING_RETRY: a `sys` that found no free slot, or whose write faulted, is tried again, and so is a reply
whose write faulted (R291). -/
def execCallRingRetry (g : Nat) (s : State) : Host.Outcome State Fault Refusal :=
  match (s.group g).wait with
  | .callRing pc svc d req act =>
    if ((s.ctx (s.group g).ctx).freeSlot).isNone then .fault (.notEnabled "CALL_RING_RETRY")
    else .next (s.sysEnter g pc svc d req act)
  | .sys slot _ _ =>
    let ctx := (s.group g).ctx
    match ((s.ctx ctx).slot slot).hold with
    | [] => .fault (.notEnabled "CALL_RING_RETRY")
    | ws => .next (s.reply ctx slot ws)
  | _ => .fault (.notEnabled "CALL_RING_RETRY")

/-! ### Wake registers (R207) -/

/-- `sigw` (R207): a release at device scope, then the write of the target's wake register. -/
def execSigw (c : Ctl) (o : Ops) (s : State) : Host.Outcome State Fault Refusal :=
  performMem (.sigw c o) s (fun x s =>
    match x.act with
    | [] => s
    | i :: _ =>
      let g := s.group x.g
      let t := (g.value i o.a 2).toNat
      let v := g.value i o.b 2
      let kind := t / 256
      let idx := t % 256
      if 1 < kind ∨ (if kind = 0 then 63 else 7) < idx then s.faultAll x x.act 5 3 0
      else
        let s := (s.endRelaunch g.team).release g .dev
        if kind = 0 then s.wake g.ctx idx v
        else s.post idx
          { value := v
            ctx := g.ctx
            inc := g.inc
            kind := 0
            group := x.g })

/-! ### Handler return (R205) -/

/-- What `tret`, `tret.skip` and `tret.exit` do (R205). -/
def tretBody (how : Resume) (x : Issue) (s : State) : State :=
  if x.act.isEmpty then s
  else
    match (s.group x.g).handler with
    | none => x.min.foldl (fun s i => s.park x.g i x.pc 1 7 0) s
    | some img => s.modGroup x.g (fun g => g.leaveHandler how img)

/-- `tret` (R205). -/
def execTret (c : Ctl) (o : Ops) (s : State) : Host.Outcome State Fault Refusal :=
  perform (.tret c o) s (tretBody .replay)

/-- `tret.skip` (R205). -/
def execTretSkip (c : Ctl) (o : Ops) (s : State) : Host.Outcome State Fault Refusal :=
  perform (.tretSkip c o) s (tretBody .skip)

/-- `tret.exit` (R205). -/
def execTretExit (c : Ctl) (o : Ops) (s : State) : Host.Outcome State Fault Refusal :=
  perform (.tretExit c o) s (tretBody .exit)

/-- `snap` (R208): a snapshot trigger, when the Trace core has enabled it for the context. -/
def execSnap (c : Ctl) (o : Ops) (s : State) : Host.Outcome State Fault Refusal :=
  perform (.snap c o) s (fun x s =>
    match x.act, o.a with
    | _ :: _, .imm n => if (s.ctx (s.group x.g).ctx).snapOn then s.snapshot 3 n.toNat else s
    | _, _ => s)

/-! ### Special registers (R59 to R62, R209, R210) -/

/-- Code of a lane state (R37). -/
def LState.code : LState → Nat
  | .running => 0
  | .waiting => 1
  | .parked => 2
  | .exited => 3

/-- `$ptok` (R49). -/
def Core.ptok (c : Core) : W64 := BitVec.ofNat 64 (c.grant * 2 ^ 24 + c.avail * 2 ^ 8 + c.credit)

/-- Whether a special register is 64 bits wide (R59). -/
def wideSp (n : Nat) : Bool := n = 5 ∨ n = 8 ∨ n = 10 ∨ 12 ≤ n

/-- What a special register reads for a lane (R59, R60); `k` is the `.inherit` that `$heir` and `$heirmask`
select. `$cyc` is read apart. -/
def State.special (s : State) (x : Issue) (i n k : Nat) : W64 :=
  let g := s.group x.g
  let l := g.lane i
  match n with
  | 0 => BitVec.ofNat 64 i
  | 1 => BitVec.ofNat 64 g.gid
  | 2 => BitVec.ofNat 64 (s.team g.team).num
  | 3 => BitVec.ofNat 64 (g.core % 32)
  | 4 => BitVec.ofNat 64 g.die
  | 5 => l.wid
  | 6 => ((l.heir.getD k (0, 0)).1).setWidth 64
  | 7 => ((l.heir.getD k (0, 0)).2).setWidth 64
  | 8 => if x.min.contains i then x.pc else l.pc
  | 9 => BitVec.ofNat 64 l.lst.code
  | 10 => g.gswRead
  | 11 => l.cause.setWidth 64
  | 12 => BitVec.ofNat 64 g.ctx
  | 13 => BitVec.ofNat 64 g.inc
  | _ => (s.core g.core).ptok

/-- `mfsr` (R209). -/
def execMfsr (c : Ctl) (o : Ops) (s : State) : Host.Outcome State Fault Refusal :=
  perform (.mfsr c o) s (fun x s =>
    match x.act, o.a with
    | first :: _, .sp n sub =>
      let r := if n = 14 then s.cycles (s.group x.g).core else (s, 0)
      let s := r.1
      let k := if sub < 128 then sub else 0
      let val := fun (i : Nat) => if n = 14 then r.2 else s.special x i n k
      match o.d with
      | .s d => s.writes x.g [(.sca d, val (if 128 ≤ sub then sub - 128 else first))]
      | d => s.writes x.g (x.act.flatMap (fun i => destUnits d (if wideSp n then 2 else 1) i (val i)))
    | _, _ => s)

/-- `mtsr` (R210). -/
def execMtsr (c : Ctl) (o : Ops) (s : State) : Host.Outcome State Fault Refusal :=
  perform (.mtsr c o) s (fun x s =>
    let g := s.group x.g
    match x.act, o.d with
    | i :: _, .sp 10 _ => s.modGroup x.g (fun h => { h with gsw := gswWrite h.gsw (g.value i o.a 2) })
    | act, _ => act.foldl (fun s i => s.modLane x.g i (fun l =>
        { l with cause := causeWrite l.cause ((g.value i o.a 1).setWidth 32) })) s)

end Sys2Proof.Machine
end

