-- ==== Sys2Proof/Machine/Fetch.lean ====
section
/-! DEFINITION. Which group a partition issues next, and the fetch and decoding of its instruction (R41,
R46, R47, R51, R53, R93, R107, R180, R315). -/

namespace Sys2Proof.Machine

/-! ### Readiness (R46) -/

/-- Whether the core of a group would take a draw of `c` array cycles. -/
def State.drawable (s : State) (g : Group) (c : Nat) : Bool := ((s.core g.core).draw c).isSome

/-- Whether a page of a context stands in transit. -/
def State.anyTransit (s : State) (ctx : Nat) : Bool :=
  s.moving.any (fun m => m.ctx == ctx && decide (1 ≤ m.stage ∧ m.stage < 7) && !m.abandoned)

/-- Whether what a group waited for is over, so that it may issue its instruction again, or its lanes have left the instruction
that waited (R46). -/
def State.waitOver (s : State) (g : Group) : Bool :=
  if g.stray then true
  else
  match g.wait with
  | .none => true
  | .ralloc n => !g.pendingFrom n
  | .token c => s.drawable g c
  | .shadowTransit => !s.anyTransit g.ctx
  | .fetch _ reached => !reached.any (fun r => s.inTransit g.ctx r.2.1)
  | .engineQueue => decide ((s.core g.core).queue.length < 32)
  | _ => false

/-- Whether a group's context and incarnation are current, and it is not stopped for a preemption: a group
with TM set runs on until it clears TM or waits as R338 says (R331, R338). -/
def State.current (s : State) (g : Group) : Bool :=
  let c := s.ctx g.ctx
  c.used && c.isOpen && c.inc == g.inc && (g.scout || !(s.team g.team).preempt || (g.tm && !g.halted))

/-- Whether a scout has come to its end: no lane of it stands below the end of the slice, or it has issued
4,096 instructions (R53). DESIGN CHOICE (log 56): a lane at or above the end has reached it, however it came there. -/
def Group.scoutOver (g : Group) : Bool :=
  decide (4096 ≤ g.scoutIssues) ||
  (match g.issuePc with
    | some pc => decide (g.scoutTo.toNat ≤ pc.toNat)
    | none => true)

/-- Whether a group is ready (R46). DESIGN CHOICE (log 6): a step is a cycle, unless its issue joins one. -/
def State.ready (s : State) (g : Group) : Bool :=
  g.resident && !(g.scout && g.scoutOver) && !g.ended && !g.running.isEmpty && !g.rejoin && s.waitOver g &&
  (!g.marker || !g.outstanding) &&
  decide (g.stall ≤ s.partClock g.part) && !g.dbgStop && !(s.part g.part).stopped && s.current g

/-- Place of a group in its partition's round-robin order: 0 when it has not issued. DESIGN CHOICE (log 56): such groups
stand first. -/
def Partition.turn (p : Partition) (k : Nat) : Nat :=
  match p.order.findIdx? (fun x => x == k) with
  | some i => i + 1
  | none => 0

/-! ### Fetch (R93, R180) -/

/-- What a fetch gives: the bytes, or a cause with the first faulting byte's address (R327), or a wait at a tile in transit,
with the address that each part has reached and the hops taken (R315). -/
inductive Fetched
  | bytes (bs : List Byte)
  | fault (code detail addr : Nat)
  | wait (reached : List (Nat × Nat × Nat))
deriving DecidableEq, Repr

/-- Detail of a fetch's cause (R325). -/
def fetchDetail (code : Nat) : Nat :=
  match code with
  | 4 | 6 => 1
  | 5 => 4
  | _ => 2

/-- Instruction-cache lines with one more of a core, whose cache holds 64 KiB (R3). DESIGN CHOICE (log 50): a full one
gives up the oldest. -/
def addICLine (ls : List ICLine) (l : ICLine) : List ICLine :=
  let mine := ls.filter (fun x => x.core == l.core)
  (match mine.head? with
    | some old => if 1024 ≤ mine.length then ls.erase old else ls
    | none => ls) ++ [l]

/-- The 64 bytes of an instruction-cache line: from the core's cache, or from the owning point, after which the
cache holds them (R180). None when the line is poisoned. -/
def State.icLine (s : State) (core ctx vline pa : Nat) : State × Option (List Byte) :=
  let inc := (s.ctx ctx).inc
  match s.icache.find? (fun l => l.core == core && l.ctx == ctx && l.inc == inc && l.line == vline) with
  | some l => (s, some (leBytes 64 l.data.toNat))
  | none =>
    if s.poisoned pa then (s, none)
    else
      let s := s.homeFill ctx (pa / 128) 0
      let b := s.seenBytes ctx pa 64
      let l : ICLine :=
        { core := core
          ctx := ctx
          inc := inc
          line := vline
          pa := pa / 64
          data := BitVec.ofNat 512 (leNat b) }
      ({ s with icache := addICLine s.icache l }, some b)

/-- Reads fetched bytes whose pages have been translated, line by line; an error is the address of the first
byte in a poisoned line. -/
def State.fetchLines (s : State) (core ctx : Nat) :
    List (Nat × Nat × Nat) → List Byte → State × Except Nat (List Byte)
  | [], got => (s, .ok got)
  | (va, pa, n) :: ps, got =>
    match s.icLine core ctx (va / 64) (pa / 64 * 64) with
    | (s, none) => (s, .error va)
    | (s, some b) => s.fetchLines core ctx ps (got ++ (b.drop (va % 64)).take n)

/-- Whether a core's instruction cache holds the line of an address for a context. -/
def State.icHit (s : State) (core ctx va : Nat) : Bool :=
  s.icache.any (fun l => l.core == core && l.ctx == ctx && l.inc == (s.ctx ctx).inc && l.line == va / 64)

/-- Translations of the pages of a fetch: the lines with their places, the lowest cause with the first byte that
meets it, and, when a part waits at a tile in transit, how far each part has come. A part in `reached` goes on with its chase;
a mark counts the fetch once for its page, and a scout's not at all (R52, R315). DEDUCED (log 52). -/
def State.fetchPages (s : State) (core ctx pc : Nat) (scout : Bool) (reached : List (Nat × Nat × Nat)) :
    State × List (Nat × Nat × Nat) × Option (Nat × Nat) × List (Nat × Nat × Nat) :=
  let (s, ls, bad, went, waits) := (pieces pc 12).foldl (fun acc p =>
    let (s, ls, bad, went, waits) := acc
    let count := !scout && firstPiece pc p.1
    match (match reached.find? (fun r => r.1 == p.1) with
      | some r => s.chase core ctx .fetch p.2 count (3 - r.2.2) r.2.1
      | none => s.translate core ctx .fetch p.1 p.2 count) with
    | (s, .ok pa _ rva hops) =>
      (s, ls ++ (splitBy 64 p.1 p.2).map (fun q => (q.1, pa + (q.1 - p.1), q.2)), bad, went ++ [(p.1, rva, hops)], waits)
    | (s, .transit va hops) => (s, ls, bad, went ++ [(p.1, va, hops)], true)
    | (s, .fault c) => (s, ls, (match bad with
        | some b => if b.1 ≤ c then some b else some (c, p.1)
        | none => some (c, p.1)), went, waits)) (s, [], none, [], false)
  let s := if scout || waits then s
    else went.foldl (fun s r => s.noteUse ctx core r.2.1 (!s.icHit core ctx r.1)) s
  (s, ls, bad, if waits then went else [])

/-- Fetches 12 bytes at an address (R93). DEDUCED (log 21) at 2^56. DESIGN CHOICE (log 52): of unusable bytes and a
poisoned line, the unusable bytes; a fetch of which one page faults and another is in transit takes the fault at once. -/
def State.fetch (s : State) (core ctx pc : Nat) (scout : Bool := false) (reached : List (Nat × Nat × Nat) := []) :
    State × Fetched :=
  if 2 ^ 56 < pc + 12 then (s, .fault 4 1 (match s.walkChase ctx .fetch 1 3 pc with
    | .fault 4 => pc
    | _ => 2 ^ 56))
  else
    let (s, ls, bad, wait) := s.fetchPages core ctx pc scout reached
    match bad with
    | some c => (s, .fault c.1 (fetchDetail c.1) c.2)
    | none =>
      if !wait.isEmpty then (s, .wait wait)
      else
        match s.fetchLines core ctx ls [] with
        | (s, .ok bs) => (s, .bytes bs)
        | (s, .error va) => (s, .fault 7 3 va)

/-! ### Issue order (R47, R48, R100) -/

/-- Whether group `a` goes before group `b` in cycle `c` of their partition: first one that has waited 4,096 cycles, the
longer wait first; then the higher priority; then one that did not yield in the cycle before; then the round-robin
order. DESIGN CHOICE (log 56): of two equal waits, the lower key. -/
def State.before (s : State) (p : Partition) (c a b : Nat) : Bool :=
  let ga := s.group a
  let gb := s.group b
  let wa := s.steps - ga.lastIssue
  let wb := s.steps - gb.lastIssue
  let last := fun (g : Group) => g.yielded && g.yieldTurn + 1 == c
  if 4096 ≤ wa ∨ 4096 ≤ wb then decide (wb < wa ∨ (wa = wb ∧ a < b))
  else if ga.prio ≠ gb.prio then decide (gb.prio < ga.prio)
  else if last ga ≠ last gb then last gb
  else decide (p.turn a < p.turn b ∨ (p.turn a = p.turn b ∧ a < b))

/-- The group that goes before every other of a list. -/
def State.firstOf (s : State) (p : Partition) (c : Nat) : List Nat → Option Nat
  | [] => none
  | k :: ks =>
    match s.firstOf p c ks with
    | none => some k
    | some j => some (if s.before p c k j then k else j)

/-- Of some groups, the one that a cycle takes: the first of those that are no scouts, or else of the scouts. -/
def State.taken (s : State) (p : Partition) (c : Nat) (ks : List Nat) : Option Nat :=
  match s.firstOf p c (ks.filter (fun k => !(s.group k).scout)) with
  | some k => some k
  | none => s.firstOf p c (ks.filter (fun k => (s.group k).scout))

/-- How far the parts of a fetch of a group at an address have come, when one of them has waited at a tile in transit
(R315). -/
def Group.fetched (g : Group) (pc : W64) : List (Nat × Nat × Nat) :=
  match g.wait with
  | .fetch at_ reached => if at_ = pc then reached else []
  | _ => []

/-- The instruction that a group would issue; none when its fetch or decoding fails. -/
def State.nextOf (s : State) (k : Nat) : Option Instr :=
  let g := s.group k
  match g.issuePc with
  | none => none
  | some pc =>
    match (s.fetch g.core g.ctx pc.toNat g.scout (g.fetched pc)).2 with
    | .bytes bs =>
      match decodeBytes g.width bs with
      | .ok i => some i
      | .error _ => none
    | _ => none

/-- PAIR of the instruction that a group would issue; 0 when its fetch or decoding fails. -/
def State.nextPair (s : State) (k : Nat) : Nat := ((s.nextOf k).map (fun i => i.ctl.pair)).getD 0

/-- The group that a partition issues next: one that may join its open cycle, or else the lead of a new cycle (R33,
R100). -/
def State.pick (s : State) (part : Nat) : Option Nat :=
  let p := s.part part
  let ready := (s.groups.filter (fun g => g.2.part == part && s.ready g.2)).map Prod.fst
  match (if p.now.isEmpty then none else s.taken p p.turns (ready.filter (fun k => s.joins k (s.nextPair k)))) with
  | some k => some k
  | none => s.taken p (p.turns + 1) ready

/-- A cycle of a partition passes in which no group issues. -/
def State.idleTurn (s : State) (part : Nat) : State :=
  s.modPart part (fun p => { p with turns := p.turns + 1, left := 0, now := [] })

/-! ### The scout starts (R51, R57) -/

/-- The end address of a team's slice. -/
def sliceEnd (k : Kernel) : W64 := k.code + BitVec.ofNat 64 k.sto

/-- A partition of a core with a free slot and the space of a group. DESIGN CHOICE (log 53): the lowest, and one that the
debugger has stopped takes a scout as any other does. -/
def State.scoutPart (s : State) (core bytes : Nat) : Option Nat :=
  ([0, 1, 2, 3].map (fun j => 4 * core + j)).find? (fun p =>
    let u := s.partUse p
    !(s.core core).partsOut.contains p && decide (u.1 < 16 ∧ u.2 + bytes ≤ 262144))

/-- The scout of a team as it starts: copies of group 0's registers, and every lane at the slice. -/
def Group.toScout (g : Group) (part : Nat) (from_ end_ : W64) (now : Nat) : Group :=
  { g with
    part := part
    prio := 0
    pend := []
    marker := false
    stall := 0
    yielded := false
    lastIssue := now
    wait := .none
    handler := none
    rejoin := false
    latch := none
    opcache := [none, none, none]
    scout := true
    scoutTo := end_
    scoutIssues := 0
    lanes := g.lanes.map (fun (p : Nat × Lane) => (p.1, { p.2 with
      pc := from_
      lst := .running
      stack := []
      depth := 0
      refill := none
      will := []
      tx := none })) }

/-- When a team's group 0 first issues, its scout starts if a slot is free, with copies of the group's registers as they
stood at the issue (`was`); else the team has none. -/
def State.startScout (s : State) (k : Nat) (was : Group) : State :=
  let g := s.group k
  let t := s.team was.team
  let kn := (s.launch t.launch).kernel
  if g.wait.unissued || was.scout || was.gid != 0 || t.scoutDone || !kn.slice || !s.featAcc.testBit 8 then s
  else
    let s := s.modTeam was.team (fun t => { t with scoutDone := true })
    match s.scoutPart was.core (was.width * was.regs * 4) with
    | none => s
    | some p =>
      let n := s.groups.next
      (s.setGroup n (was.toScout p (kn.code + BitVec.ofNat 64 kn.sfrom) (sliceEnd kn) s.steps)).modTeam was.team
        (fun t => { t with scout := some n })

/-! ### The instruction of a group -/

/-- What stands for an instruction that a fetch or decoding does not give. -/
def noInstr : Instr := .nop Ctl.plain ⟨.none, .none, .none⟩

/-- Fetches and decodes the instruction at the issue address of a group that issues. None when the fetch or
the decoding refuses it, and the lanes at the minimum have taken the cause; a group whose fetch meets a tile
in transit waits. -/
def State.nextInstr (s : State) (k : Nat) : State × Option Instr :=
  let g := s.group k
  match g.issuePc with
  | none => (s, none)
  | some pc =>
    let x := s.issueAt k pc
    match s.fetch g.core g.ctx pc.toNat g.scout (g.fetched pc) with
    | (s, .wait reached) => (s.modGroup k (fun g => g.hold (.fetch pc reached)), none)
    | (s, .fault 7 3 va) =>
      match (if g.scout then none else s.consumePoison g.team) with
      | some s => (s, none)
      | none => (s.refuse x noInstr 7 3 (BitVec.ofNat 64 va) (fun _ => []), none)
    | (s, .fault c d va) => (s.refuse x noInstr c d (BitVec.ofNat 64 va) (fun _ => []), none)
    | (s, .bytes bs) =>
      match decodeBytes g.width bs with
      | .error _ => (s.refuse x noInstr 1 0 0 (fun _ => []), none)
      | .ok i => (s, some i)

end Sys2Proof.Machine
end

