-- ==== Sys2Proof/Machine/Groups.lean ====
section
/-! DEFINITION. Events of groups and cores: results that return, dirty bytes that are written back, handler
entry, the end of a group and of a scout, token periods and the thermal limit (R41, R49, R53, R103, R106,
R192, R240, R282, R292, R323, R328, R400, R401). -/

namespace Sys2Proof.Machine

/-- An event that is not possible. -/
def notEnabled (event : String) : Host.Outcome State Fault Refusal := .fault (.notEnabled event)

/-! ### Results (R103, R317, R401) -/

/-- Removes entry `k` of a group's scoreboard. -/
def Group.dropPend (g : Group) (k : Nat) : Group := { g with pend := g.pend.eraseIdx k }
/-- Replaces entry `k` of a group's scoreboard. -/
def Group.putPend (g : Group) (k : Nat) (e : Pend) : Group := { g with pend := g.pend.set k e }

/-- Whether an access of an earlier lane still waits at the tile of entry `k`: the lanes of an instruction reach
a location in ascending order (R152, R165). DEDUCED (log 46). -/
def Group.laneBefore (g : Group) (k : Nat) (a : Access) : Bool :=
  (g.pend.take k).any (fun e => match e.access with
    | some b => b.pa.isNone && b.va.toNat / 65536 == a.va.toNat / 65536
    | none => false)

/-- Entry `k` of a group's scoreboard becomes another, or leaves when that is nothing. -/
def State.keepEntry (s : State) (g k : Nat) (e : Pend) : State :=
  s.modGroup g (fun x => if e.done then x.dropPend k else x.putPend k e)

/-- Performs entry `k` of a group's scoreboard at its place; it leaves the scoreboard when nothing of it is left. -/
def State.performEntry (s : State) (g k : Nat) (e : Pend) (a : Access) (pa : Nat) : State :=
  let r := s.complete g k e a pa
  r.1.keepEntry g k r.2

/-- Entry `k` leaves the scoreboard with a fault found after issue, which is delivered (R401). -/
def State.deliverFault (s : State) (g k : Nat) (e : Pend) (f : Nat × Nat × W64) : State :=
  (s.modGroup g (fun x => x.dropPend k)).foundFault g e f.1 f.2.1 f.2.2

/-- An access that waited at a tile goes on with its chase: none while the tile is in transit, or while an
earlier lane waits there. It is then performed, or on its way when an earlier access of its lanes has to come first; a fault
that the chase finds is delivered (R314, R315, R401). -/
def State.resumeAccess (s : State) (g k : Nat) (e : Pend) (a : Access) : Option State :=
  let gr := s.group g
  if s.inTransit gr.ctx a.va.toNat || gr.laneBefore k a then none
  else
    let (s, e) := s.chaseOn g e a
    some (match e.fault, e.access with
      | some f, _ => s.deliverFault g k e f
      | none, some b =>
        match b.pa with
        | some pa => if s.mayPerform (s.group g) k e b pa then s.performEntry g k e b pa else s.keepEntry g k e
        | none => s.keepEntry g k e
      | none, none => s.keepEntry g k e)

/-- RESULT_RETURN: result `k` of a group returns (R103); a fault found after issue is delivered (R401); an access that
is on its way is performed (R152, R240, R248), and a sweep does its next word (R181). -/
def execResultReturn (g k : Nat) (s : State) : Host.Outcome State Fault Refusal :=
  match (s.group g).pend[k]? with
  | none => notEnabled "RESULT_RETURN"
  | some e =>
    if (e.held && e.sweep.isNone) || !(s.group g).resident then notEnabled "RESULT_RETURN"
    else
      match e.access, e.fault with
      | some a, _ =>
        match a.pa with
        | some pa =>
          if s.mayPerform (s.group g) k e a pa then .next (s.performEntry g k e a pa) else notEnabled "RESULT_RETURN"
        | none =>
          match s.resumeAccess g k e a with
          | some s => .next s
          | none => notEnabled "RESULT_RETURN"
      | none, some f => .next (s.deliverFault g k e f)
      | none, none =>
        match e.sweep with
        | some r =>
          match s.sweepStep g k r with
          | some s => .next s
          | none => notEnabled "RESULT_RETURN"
        | none => .next (s.modGroup g (fun x => x.deliver k))

/-! ### Write-back (R238 to R240, R246) -/

/-- The dirty bytes of a line that a write-back takes: some of the aligned runs of 8 bytes, each with all of its dirty
bytes, since a store within one is seen whole (R240, R246). -/
def State.backMask (s : State) (l : Line) : BitVec 128 :=
  let pick := Config.writeBack s.free
  let m := (List.range 16).foldl (fun (m : BitVec 128) w =>
    if pick.getLsbD w then m ||| (255#128 <<< (8 * w)) else m) 0
  let m := l.dirty &&& m
  if m = 0 then l.dirty else m

/-- The part of a line's dirty bytes in a mask, with the arrivals that wait on them. -/
def Line.keepDirty (l : Line) (m : BitVec 128) : Line :=
  { l with dirty := l.dirty &&& m, arr := l.arr.filter (fun va => m.getLsbD (va % 128)) }

/-- DIRTY_WRITEBACK: dirty bytes of a line, all or some, go down; a line without dirty bytes is replaced. Bytes under a
relaunch quota never go below L1, and stay (R240, R360). DESIGN CHOICE (log 50): when lines leave a cache. -/
def execDirtyWriteback (pl : DirtyPlace) (unit line : Nat) (s : State) : Host.Outcome State Fault Refusal :=
  match pl with
  | .l1 =>
    let l := s.l1Line unit line
    if 256 ≤ unit ∨ l = Line.none then notEnabled "DIRTY_WRITEBACK"
    else if l.dirty = 0 then .next (s.setL1 unit line Line.none)
    else
      let m := s.backMask l
      let s := (s.tick.setL1 unit line (l.keepDirty m)).flushL1 unit line false
      .next (s.setL1 unit line { s.l1Line unit line with
        dirty := (l.keepDirty (~~~m)).dirty
        arr := (l.keepDirty (~~~m)).arr })
  | .l2 =>
    let l := s.l2Line unit line
    if 8 ≤ unit ∨ l = Line.none then notEnabled "DIRTY_WRITEBACK"
    else if s.ownerDie (line * 128) = unit then .next (s.homeToMem unit line)
    else if l.dirty = 0 then .next (s.setL2 unit line Line.none)
    else
      let m := s.backMask l
      let s := (s.tick.setL2 unit line (l.keepDirty m)).flushVisitor unit line
      .next (s.setL2 unit line { s.l2Line unit line with
        dirty := (l.keepDirty (~~~m)).dirty
        arr := (l.keepDirty (~~~m)).arr })

/-! ### Handler entry (R41, R323, R328) -/

/-- Whether a group meets the condition of R323: a `rejoin` found a parked lane, or no lane runs and some lane
is parked with a cause. Only a stop of its partition bars it (R381). -/
def Group.wantsHandler (g : Group) : Bool :=
  g.resident && !g.scout && !g.ended && g.wait != .killed &&
  (g.rejoin || (g.running.isEmpty && !(g.inState .parked).isEmpty))

/-- HANDLER_ENTRY: once every result is written, the group enters its trap handler (R328). -/
def execHandlerEntry (g : Nat) (s : State) : Host.Outcome State Fault Refusal :=
  let gr := s.group g
  let n := 64 + 32 * gr.width
  if gr.wantsHandler && gr.pend.isEmpty && s.current gr && !(s.part gr.part).stopped &&
      !s.rangeMoves gr.ctx gr.frame.toNat n then .next (s.enterHandler g)
  else notEnabled "HANDLER_ENTRY"

/-! ### The end of a group, and of a scout (R41, R53, R192, R200, R201, R282) -/

/-- Donations that name a group that has ended end with status 3 (R201). -/
def State.endDonations (s : State) (team gid : Nat) : State :=
  (s.team team).groups.foldl (fun s k =>
    match (s.group k).wait with
    | .donate _ _ p _ _ => if p = gid then s.endDonation k 3 else s
    | _ => s) s

/-- The scout of a team leaves the machine. -/
def State.dropScout (s : State) (team : Nat) : State :=
  match (s.team team).scout with
  | none => s
  | some k =>
    { s.modTeam team (fun t => { t with scout := none }) with
      groups := s.groups.erase k
      parts := s.parts.map (fun (p : Nat × Partition) =>
        (p.1, { p.2 with order := p.2.order.filter (fun x => x != k) })) }

/-- A group ends: it makes its estates, and its team ends with its last group. -/
def State.groupEnd (s : State) (k : Nat) : State :=
  let g := s.group k
  let s := (s.groupEstates k).modGroup k (fun g => { g with ended := true, resident := false })
  let s := (s.endDonations g.team g.gid).barrier g.team
  if (s.team g.team).groups.all (fun j => (s.group j).ended) then (s.dropScout g.team).teamEnd g.team else s

/-- GROUP_END: every lane has exited and every result and engine command of the group has completed.
DEDUCED (log 19): it waits for the commands. -/
def execGroupEnd (g : Nat) (s : State) : Host.Outcome State Fault Refusal :=
  let gr := s.group g
  if gr.resident && !gr.ended && !gr.scout && gr.width != 0 && (gr.inState .exited).length == gr.width &&
      gr.pend.isEmpty && gr.wait != .killed && (s.ctx gr.ctx).isOpen && (s.ctx gr.ctx).inc == gr.inc &&
      !(s.core gr.core).queue.any (fun e => e.group == g) then .next (s.groupEnd g)
  else notEnabled "GROUP_END"

/-- SCOUT_END (R53). -/
def execScoutEnd (g : Nat) (s : State) : Host.Outcome State Fault Refusal :=
  let gr := s.group g
  if gr.scout && gr.scoutOver && (s.team gr.team).scout == some g then .next (s.dropScout gr.team)
  else notEnabled "SCOUT_END"

/-! ### Power tokens (R49, R292, R400) -/

/-- Whether a core has a resident team that holds its accumulator memory and whose array is in service; the
priority of that team's launch. -/
def State.accPrio (s : State) (core : Nat) : Option Nat :=
  if (s.core core).arrayOut then none
  else
    s.teams.findSome? (fun t =>
      if t.2.live && !t.2.saved && t.2.holdsAcc && !t.2.groups.isEmpty &&
          (t.2.core == core || (t.2.cluster && t.2.core + 1 == core)) then some (s.launchPrio (s.launch t.2.launch))
      else none)

/-- Tokens of the package's pool in a period (R400). -/
def poolTokens (cap : Nat) : Nat := (cap - 1950) * 16384 / 850

/-- GRANT of a core for the period that begins. -/
def State.grantOf (s : State) (core : Nat) : Nat :=
  match s.accPrio core with
  | none => 0
  | some p =>
    let all := ((List.range 256).filterMap s.accPrio).map (fun q => 1 + q)
    let n := min 64 (poolTokens s.pwrCap * (1 + p) / all.sum)
    if (List.range 8).any (fun d => (s.die d).hot) then n / 2 else n

/-- TOKEN_PERIOD_START: AVAIL takes the GRANT of the period (R49). -/
def execTokenPeriodStart (core : Nat) (s : State) : Host.Outcome State Fault Refusal :=
  if 256 ≤ core then .next s
  else
    let n := s.grantOf core
    .next (s.modCore core (fun c => { c with grant := n, avail := n }))

/-- THERMAL_LIMIT: a die reaches 105 °C (R400). -/
def execThermalLimit (die : Nat) (s : State) : Host.Outcome State Fault Refusal :=
  if 8 ≤ die then .next s
  else .next (s.modDie die (fun d => { d with hot := true }))

/-- THERMAL_LIMIT_CLEAR: the die falls below 100 °C. -/
def execThermalLimitClear (die : Nat) (s : State) : Host.Outcome State Fault Refusal :=
  if 8 ≤ die then .next s
  else .next (s.modDie die (fun d => { d with hot := false }))

end Sys2Proof.Machine
end

