-- ==== Sys2Proof/Machine/Debug.lean ====
section
/-! DEFINITION. The debugger: stops and dumps, lane stops, single steps, stall samples, snapshot triggers
(R380 to R389). -/

namespace Sys2Proof.Machine

/-! ### What the debugger may reach (R380) -/

/-- Whether the Trace core takes debug requests for a context. -/
def State.debugOk (s : State) (ctx : Nat) : Bool :=
  let c := s.ctx ctx
  c.used && c.debug && !c.conf

/-- Resident groups of a partition, with their keys. -/
def State.residents (s : State) (part : Nat) : List (Nat × Group) :=
  s.groups.filter (fun g => g.2.resident && !g.2.ended && g.2.part == part)

/-! ### Partition stop (R381, R382) -/

/-- PARTITION_STOP: no resident group issues from here on; scouts end, and a dump is taken. A request that the Trace core
refuses changes nothing (R398 before it runs). DEDUCED (log 30). -/
def execPartitionStop (part : Nat) (s : State) : Host.Outcome State Fault Refusal :=
  if s.bootStat ≠ 1 ∨ 1024 ≤ part ∨ (s.part part).stopped ∨ (s.residents part).any (fun g => !s.debugOk g.2.ctx) then .next s
  else
    let s := (s.residents part).foldl (fun s g => if g.2.scout then s.dropScout g.2.team else s) s
    .next (s.modPart part (fun p => { p with stopped := true, dump := s.residents part }))

/-- A lane that the debugger stopped runs again (R40). -/
def Lane.debugResume (l : Lane) : Lane := if l.dbgStop.isSome then { l with lst := .running, dbgStop := none } else l

/-- PARTITION_RESUME: lanes that the debugger stopped there and did not resume run again, wherever a preemption has taken
them since. A partition that is not stopped runs on. -/
def execPartitionResume (part : Nat) (s : State) : Host.Outcome State Fault Refusal :=
  if s.bootStat != 1 || !(s.part part).stopped then .next s
  else
    let here := fun (l : Lane) => l.dbgStop.isSome && l.dbgPart == part
    let s := (s.groups.filter (fun g => g.2.ids.any (fun i => here (g.2.lane i)))).foldl (fun s g => s.modGroup g.1 (fun x =>
      (x.ids.foldl (fun x i => x.modLane i (fun l => if here l then l.debugResume else l)) x).unwait)) s
    .next (s.modPart part (fun p => { p with stopped := false }))

/-- LANE_STOP: a running or waiting lane of a stopped partition is parked (R40, R381). Another request, or one that the
Trace core refuses (R380), changes nothing. -/
def execLaneStop (g lane : Nat) (s : State) : Host.Outcome State Fault Refusal :=
  let gr := s.group g
  let l := gr.lane lane
  if s.bootStat == 1 && gr.resident && decide (lane < gr.width) && (s.part gr.part).stopped && s.debugOk gr.ctx &&
      (l.lst == .running || l.lst == .waiting) then
    .next (s.modLane g lane (fun l => { l with lst := .parked, dbgStop := some l.lst, dbgPart := gr.part }))
  else .next s

/-- LANE_RESUME: a lane that the debugger stopped runs again. -/
def execLaneResume (g lane : Nat) (s : State) : Host.Outcome State Fault Refusal :=
  let gr := s.group g
  if s.bootStat == 1 && gr.resident && (s.part (gr.lane lane).dbgPart).stopped && s.debugOk gr.ctx && (gr.lane lane).dbgStop.isSome then
    .next (s.modGroup g (fun x => (x.modLane lane Lane.debugResume).unwait))
  else .next s

/-! ### The dump's scoreboard entries (R382) -/

/-- Operand kind and index of a unit, as the context word of an entry gives them. DESIGN CHOICE (log 30): the tile stands over
the four bits of the row group. -/
def PUnit.dumpIndex : PUnit → Nat × Nat
  | .vec _ r => (0, r)
  | .sca r => (1, r)
  | .acc t k => (3, 16 * t + k)
  | .pred _ k => (5, k)

/-- The lanes whose write into a register is pending in an entry. -/
def Pend.lanesOf (e : Pend) (w : Nat) (u : PUnit) : List Nat :=
  match u with
  | .vec .. | .pred .. =>
    (List.range w).filter (fun i => e.writes.any (fun x => x.1.dumpIndex == u.dumpIndex &&
      (match x.1 with
        | .vec j _ | .pred j _ => j == i
        | _ => false)))
  | .acc _ k => (e.lanes.map Prod.fst).filter (fun i => (ownedRows w i).any (fun m => m / 8 == k))
  | .sca _ => e.lanes.map Prod.fst

/-- The entry of a pending result for one register: PC, lanes, and the context word.
DEDUCED (log 30): the group slot. -/
def dumpEntry (g : Group) (slot : Nat) (e : Pend) (u : PUnit) : W64 × W64 × W32 :=
  (e.pc, BitVec.ofNat 64 (((e.lanesOf g.width u).map (fun i => 2 ^ i)).sum),
    BitVec.ofNat 32 (slot % 16 * 2 ^ 28 + u.dumpIndex.1 * 2 ^ 25 + u.dumpIndex.2 * 2 ^ 16))

/-- The lanes and the D of a `sys` whose reply is outstanding: the one variable-latency result that stands in no entry of the
scoreboard (R185). -/
def Wait.reply : Wait → Option (List Nat × Nat)
  | .sys _ d act | .callRing _ _ d _ act => some (act, d)
  | _ => Option.none

/-- The pending results of a group: those of its scoreboard, then the reply that it waits for. -/
def Group.records (g : Group) : List Pend :=
  g.pend ++ (match g.wait.reply with
    | some (lanes, d) =>
      [{ pc := g.lastPc
         lane := none
         lanes := g.issuedOf lanes
         writes := lanes.map (fun i => (.vec i d, none)) }]
    | none => [])

/-- Whether a group waits for a result of an instruction that has issued, of fixed latency. -/
def Wait.unwritten : Wait → Bool
  | .donate .. | .ring .. | .publ .. | .txe _ | .sweep _ => true
  | _ => false

/-- The scoreboard part of a partition's dump. -/
def Partition.scoreboard (p : Partition) : List (W64 × W64 × W32) :=
  p.dump.zipIdx.flatMap (fun g => g.1.2.records.flatMap (fun e =>
    ((e.writes.map Prod.fst).pwFilter (fun a b => a.dumpIndex ≠ b.dumpIndex)).map (fun u =>
      dumpEntry g.1.2 g.2 e u)))

/-! ### Single step (R386) -/

/-- SINGLE_STEP: every result of the one instruction has been written, and a step event is posted. The group
has issued nothing since. DEDUCED (log 30). -/
def execSingleStep (g : Nat) (s : State) : Host.Outcome State Fault Refusal :=
  let gr := s.group g
  if gr.resident && gr.ss && gr.dbgStop && gr.records.isEmpty && !gr.wait.unwritten && !s.stepEvents.contains g then
    .next { s with stepEvents := s.stepEvents ++ [g] }
  else notEnabled "SINGLE_STEP"

/-- The debugger writes SS of a group: set, the group issues one instruction more (R61, R386). -/
def State.setStep (s : State) (g : Nat) (on : Bool) : State :=
  { s.modGroup g (fun x => { x.setSs on with dbgStop := false }) with
    stepEvents := s.stepEvents.filter (fun k => k != g) }

/-! ### Stall samples (R383) -/

/-- The resident group that a sample takes: the first after the one sampled last that has not issued now. -/
def State.sampleOf (s : State) (part : Nat) : Option Nat :=
  let ks := ((s.residents part).filter (fun g => decide (g.2.lastIssue ≠ s.steps))).map Prod.fst
  let last := (s.part part).sampled
  match ks.find? (fun k => decide (last < k)) with
  | some k => some k
  | none => ks.head?

/-- The PC of the latest of a group's fixed-latency results that is a source of its next instruction (R46). -/
def State.awaited (s : State) (k : Nat) : Option W64 :=
  let g := s.group k
  match s.nextOf k with
  | some i =>
    let us := g.front.2.flatMap (fun l => guardUnits i.ctl l ++ sources i g g.front.2 l)
    (g.made.find? (fun m => m.2.any us.contains)).map Prod.fst
  | none => none

/-- REASON and BLAME of a group that did not issue (R383). Whether a fixed-latency result is still awaited, and bank conflicts,
are free values (log 47). -/
def State.stallReason (s : State) (k : Nat) : Nat × W64 :=
  let g := s.group k
  let wait := g.issuePc.getD 0
  let lowest := ((g.inState .waiting).head?).map (fun i => (g.lane i).pc)
  let held := Config.interlock s.free
  if g.marker && g.records.any Pend.isResult then (1, ((g.records.find? Pend.isResult).map Pend.pc).getD 0)
  else if held = 1 && (s.awaited k).isSome then (2, (s.awaited k).getD 0)
  else if held = 2 then (3, wait)
  else
    match (if g.stray then Wait.none else g.wait) with
    | .ring .. => (4, g.lastPc)
    | .bar _ | .donate .. => (5, g.lastPc)
    | .sys .. | .callRing .. => (5, g.lastPc)
    | .token _ => (6, wait)
    | _ =>
      if decide (s.partClock g.part < g.stall) || (g.yielded && g.yieldTurn + 1 == (s.part g.part).turns) then (7, g.lastPc)
      else
        match g.running.isEmpty, lowest with
        | true, some p => (8, p)
        | _, _ =>
          if s.ready g then (9, 0)
          else if g.dbgStop || (s.part g.part).stopped then (10, 0)
          else ((Config.stallReason s.free).toNat, Config.stallBlame s.free)

/-- Writes a sample of a group in its context's trace buffer, which is filled in turn (log 40). -/
def State.sample (s : State) (part k : Nat) : State :=
  let g := s.group k
  let c := s.ctx g.ctx
  let r := s.stallReason k
  let (s, cyc) := s.tick.cycles g.core
  let slot := ((s.residents part).findIdx? (fun x => x.1 == k)).getD 0
  let rec_ := leBytes 8 cyc.toNat ++ leBytes 8 (g.issuePc.getD 0).toNat ++ leBytes 8 r.2.toNat ++ leBytes 2 g.ctx ++
    leBytes 2 g.inc ++ leBytes 1 r.1 ++ leBytes 1 slot ++ leBytes 2 (s.lastSsn g.core)
  let s := s.modPart part (fun p => { p with sampled := k })
  let n := c.traceLen.toNat / 32
  if n = 0 then s
  else
    match s.devWrite g.ctx (c.trace.toNat + 32 * (c.traceNext % n)) rec_ with
    | (s, .ok _) => s.modCtx g.ctx (fun c => { c with traceNext := c.traceNext + 1 })
    | (s, .error _) => s.logError 6 g.ctx

/-- STALL_SAMPLE: a sample cycle of a partition (R383). -/
def execStallSample (part : Nat) (s : State) : Host.Outcome State Fault Refusal :=
  let p := s.part part
  if s.bootStat ≠ 1 ∨ p.period = 0 ∨ s.steps < p.sampleNext then notEnabled "STALL_SAMPLE"
  else
    let s := s.modPart part (fun p => { p with sampleNext := s.steps + p.period })
    .next (match s.sampleOf part with
      | some k => s.sample part k
      | none => s)

/-- SNAPSHOT_TRIGGER: from the debugger for a context whose debugging is enabled, or from firmware; `snap`
makes its own (R388). -/
def execSnapshotTrigger (src tag ctx : Nat) (s : State) : Host.Outcome State Fault Refusal :=
  if tag = 0 ∧ s.bootStat = 1 ∧ (src = 2 ∨ (src = 1 ∧ (s.ctx ctx).used ∧ (s.ctx ctx).debug)) then .next (s.snapshot src 0)
  else notEnabled "SNAPSHOT_TRIGGER"

end Sys2Proof.Machine
end

