-- ==== Sys2Proof/Machine/Queues.lean ====
section
/-! DEFINITION. Command queues: wake registers, packets, entries, task graphs, admission, phases, the
completion queue and the mailboxes (R265 to R273, R277, R285 to R290, R353). -/

namespace Sys2Proof.Machine

/-! ### Packets (R269, R270, R276, R285) -/

/-- TYPE of an entry. -/
def entryType (e : List Byte) : Nat := field e 0 1

/-- Whether an entry's own fields are valid; `first` says that it stands first in its packet. LAUNCH bodies
are checked apart. DESIGN CHOICE (log 9): a SCOPE of a WRITE other than 101 and 110, and a CMP above 1, are invalid too. -/
def entryOk (first : Bool) (e : List Byte) : Bool :=
  decide (field e 1 1 < 4) && zeroField e 2 2 &&
  (match entryType e with
    | 0 => zeroField e 8 56
    | 1 => true
    | 2 => decide (field e 8 8 % 128 = 0 ∧ field e 16 2 ≤ 65534) && zeroField e 18 46
    | 3 => (field e 24 1 == 5 || field e 24 1 == 6) && zeroField e 25 39
    | 4 => first && decide (field e 24 1 ≤ 1) && zeroField e 25 39
    | 5 => zeroField e 24 40
    | _ => false)

/-- Whether a LAUNCH body keeps R276; the arrival window counts only when CODE names a kernel with PHASE. -/
def State.launchOk (s : State) (ctx : Nat) (r : List Byte) : State × Bool :=
  match s.kernelAt ctx (BitVec.ofNat 64 (field r 0 8)) with
  | (s, some k) => (s, recordOk r k.phase)
  | (s, none) => (s, recordOk r false)

/-- Whether a packet is valid (R270). -/
def State.packetOk (s : State) (ctx : Nat) (es : List (List Byte)) : State × Bool :=
  (es.zipIdx).foldl (fun a e =>
    if entryType e.1 = 1 then
      let r := a.1.launchOk ctx (e.1.drop 8)
      (r.1, a.2 && r.2 && entryOk (e.2 == 0) e.1)
    else (a.1, a.2 && entryOk (e.2 == 0) e.1)) (s, decide (es.length ≤ 8))

/-- The entries from an index up to the end of a packet: all of them, those before one that cannot be read
with its cause, or none when a later entry is not pending. -/
inductive Chain
  | whole (es : List (List Byte))
  | short
  | broken (es : List (List Byte)) (cause : Nat)
deriving DecidableEq, Repr

/-- Reads a packet from entry `k` of a queue's ring, with `n` entries pending. -/
def State.readChain (s : State) (ctx q : Nat) : Nat → Nat → List (List Byte) → State × Chain
  | 0, _, _ => (s, .short)
  | n + 1, k, got =>
    match s.devRead ctx (s.qBase ctx q + 64 * (k % 2 ^ s.qSize ctx q)) 64 with
    | (s, .error c) => (s, .broken got c)
    | (s, .ok e) =>
      if (field e 1 1).testBit 0 then s.readChain ctx q n (k + 1) (got ++ [e])
      else (s, .whole (got ++ [e]))

/-- Whether a context may run work of its queues. -/
def State.serves (s : State) (ctx : Nat) : Bool :=
  (s.ctx ctx).used && (s.ctx ctx).isOpen && !(s.ctx ctx).destroying && !s.stuck ctx

/-- Moves RD of a queue past `n` entries. -/
def State.moveRd (s : State) (ctx q n : Nat) : State := s.poke (s.qd ctx q + 16) 8 (s.qRd ctx q + n)

/-- What the Parser makes of the packet at RD; none when nothing complete is pending.
DESIGN CHOICE (log 9) where the ring is malformed. -/
def State.parse (s : State) (ctx q : Nat) : Option State :=
  let rd := s.qRd ctx q
  let inc := (s.ctx ctx).inc
  let fail := fun (s : State) (tag cause n : Nat) =>
    (s.moveRd ctx q n).record ctx (recordBytes 2 q inc tag 0 0 0 cause)
  match s.readChain ctx q (min (s.qWr ctx q - rd) (2 ^ s.qSize ctx q)) rd [] with
  | (_, .short) => none
  | (s, .broken [] cause) => some (fail s 0 cause 1)
  | (s, .broken (e :: es) _) => some (fail s (entryTag e) 0 (es.length + 1))
  | (s, .whole es) =>
    let (s, ok) := s.packetOk ctx es
    if ok then
      some ((s.moveRd ctx q es.length).modQueue ctx q (fun x => { x with packet := es, state := .ready }))
    else some (fail s (entryTag (es.headD [])) 0 es.length)

/-- PACKET_PARSE (R270). -/
def execPacketParse (ctx q : Nat) (s : State) : Host.Outcome State Fault Refusal :=
  if 1024 ≤ ctx ∨ 64 ≤ q then .next s
  else
    let x := (s.ctx ctx).queue q
    if s.serves ctx && (s.ctx ctx).running && s.qOn ctx q && x.state == .idle && x.packet.isEmpty then
      match s.parse ctx q with
      | some s => .next s
      | none => notEnabled "PACKET_PARSE"
    else notEnabled "PACKET_PARSE"

/-- QUEUE_WAKE: a write of a queue's wake register (R268). -/
def execQueueWake (ctx q : Nat) (v : W64) (s : State) : Host.Outcome State Fault Refusal :=
  if 1024 ≤ ctx ∨ 64 ≤ q then .next s else .next (s.wake ctx q v)

/-! ### Entries (R271, R272) -/

/-- The entry that a queue is ready to start, if it has the type. -/
def State.starts (s : State) (ctx q type : Nat) : Option (List Byte) :=
  let x := (s.ctx ctx).queue q
  match x.packet with
  | e :: _ => if s.serves ctx && x.state == .ready && entryType e == type then some e else none
  | [] => none

/-- Starts the head entry of a queue, or answers that the event is not possible. -/
def start (event : String) (ctx q type : Nat) (s : State) (body : List Byte → State) :
    Host.Outcome State Fault Refusal :=
  match s.starts ctx q type with
  | some e => .next (body e)
  | none => notEnabled event

/-- The head entry completes without a result. -/
def State.entryPlain (s : State) (ctx q : Nat) : State := s.entryDone ctx q none 0 0 0

/-- The head entry completes as failed with a record of a type. -/
def State.entryFails (s : State) (ctx q type cause : Nat) : State :=
  s.entryDone ctx q (some (failRecord type q (s.ctx ctx).inc (((s.ctx ctx).queue q).packet.headD []) cause)) 0 0 0

/-- CMD_NOP (R271). -/
def execCmdNop (ctx q : Nat) (s : State) : Host.Outcome State Fault Refusal :=
  start "CMD_NOP" ctx q 0 s (fun _ => s.entryPlain ctx q)

/-- Roots a spawn tree for a launch and enqueues the launch (R282, R287): the tree's key. -/
def State.root (s : State) (ctx q tag kind : Nat) (k : Kernel) (r : List Byte) (teams : Nat) : State × Nat :=
  let tk := s.trees.next
  let t : Tree :=
    { live := true
      ctx := ctx
      inc := (s.ctx ctx).inc
      queue := q
      tag := tag
      count := teams
      kind := kind }
  let s := { s with trees := s.trees.set Tree.none tk t }
  (s.enqueue (launchOf ctx (s.ctx ctx).inc q tk k r teams), tk)

/-- CMD_LAUNCH (R271, R275, R281). -/
def execCmdLaunch (ctx q : Nat) (s : State) : Host.Outcome State Fault Refusal :=
  start "CMD_LAUNCH" ctx q 1 s (fun e =>
    let r := e.drop 8
    match s.kernelAt ctx (BitVec.ofNat 64 (field r 0 8)) with
    | (s, none) => s.entryFails ctx q 5 0
    | (s, some k) =>
      if s.refuses k then s.entryFails ctx q 5 0
      else
        let x := s.root ctx q (entryTag e) 0 k r (field r 16 4)
        x.1.modQueue ctx q (fun y => { y with state := .launch x.2 }))

/-! ### Task graphs (R285, R286) -/

/-- Starts a node of a graph whose predecessor left the result `last`.
DESIGN CHOICE (log 10) for a node without teams. -/
def State.startNode (s : State) (ctx q gtab node : Nat) (last : W64) : State :=
  let e := ((s.ctx ctx).queue q).packet.headD []
  match s.devRead ctx (gtab + 128 * node) 128 with
  | (s, .error c) => s.entryFails ctx q 2 c
  | (s, .ok n) =>
    let taken := (field n 65 1).testBit 0
    let teams := if taken then (last.extractLsb' 32 24).toNat else field n 16 4
    let skip := taken && teams == 0
    let r := n.take 16 ++ leBytes 4 (if skip then 1 else teams) ++ (n.drop 20).take 36
    match s.kernelAt ctx (BitVec.ofNat 64 (field n 0 8)) with
    | (s, k) =>
      if !(recordOk r (match k with
            | some k => k.phase
            | none => false)) || !decide (field n 64 1 ≤ 1 ∧ field n 65 1 ≤ 1) || !zeroField n 66 62 then
        s.entryFails ctx q 2 0
      else if skip then
        let tk := s.trees.next
        let t : Tree :=
          { live := true
            ctx := ctx
            inc := (s.ctx ctx).inc
            queue := q
            tag := entryTag e
            kind := 1
            complete := true }
        { s with trees := s.trees.set Tree.none tk t }.modQueue ctx q (fun y =>
          { y with state := .graph (BitVec.ofNat 64 gtab) ((n.drop 56).take 10) tk })
      else
        match k with
        | none => s.entryFails ctx q 5 0
        | some k =>
          if s.refuses k then s.entryFails ctx q 5 0
          else
            let x := s.root ctx q (entryTag e) 1 k r teams
            x.1.modQueue ctx q (fun y =>
              { y with state := .graph (BitVec.ofNat 64 gtab) ((n.drop 56).take 10) x.2 })

/-- CMD_GRAPH: the graph starts at its START node (R286). -/
def execCmdGraph (ctx q : Nat) (s : State) : Host.Outcome State Fault Refusal :=
  start "CMD_GRAPH" ctx q 2 s (fun e => s.startNode ctx q (field e 8 8) (field e 16 2) 0)

/-- The successor that a node's bytes 56 to 65 choose for a result word (R285). -/
def successor (tail : List Byte) (r : W64) : Nat :=
  let x := (r.extractLsb' 0 32).toNat
  if field tail 8 1 = 0 then field tail (2 * min x 3) 2
  else if x = 0 then field tail 0 2 else field tail 2 2

/-- GRAPH_NODE_NEXT: a node whose tree is complete and whose phase has ended writes its record, and its
successor runs or the graph ends (R286). DESIGN CHOICE (log 10): the last node gives the entry its result. -/
def execGraphNodeNext (ctx q : Nat) (s : State) : Host.Outcome State Fault Refusal :=
  match ((s.ctx ctx).queue q).state with
  | .graph gtab tail tree =>
    let t := s.tree tree
    if !s.serves ctx || !t.complete || (s.treePhase tree).isSome then notEnabled "GRAPH_NODE_NEXT"
    else
      let e := ((s.ctx ctx).queue q).packet.headD []
      let s := if entryNotify e then
          s.record ctx (recordBytes 6 q t.inc (entryTag e) t.result t.surplus t.extra 0)
        else s
      let s := s.dropTree tree
      let n := successor tail t.result
      .next (if n = 65535 then s.entryDone ctx q none t.result t.surplus t.extra
        else s.startNode ctx q gtab.toNat n t.result)
  | _ => notEnabled "GRAPH_NODE_NEXT"

/-! ### WRITE, WAIT, SIGNAL (R271, R290) -/

/-- The place of the 8-byte word of an entry; one that is not aligned is cause 2 (R147, R271). -/
def State.wordAt (s : State) (ctx : Nat) (need : Need) (va : Nat) : State × Except Nat Nat :=
  if va % 8 ≠ 0 then (s, .error 2) else s.devXlat ctx need va 8

/-- CMD_WRITE: the value reaches its owning point, which every scope of a WRITE reads; a write in an arrival window
counts (R287). -/
def execCmdWrite (ctx q : Nat) (s : State) : Host.Outcome State Fault Refusal :=
  start "CMD_WRITE" ctx q 3 s (fun e =>
    match s.wordAt ctx .write (field e 8 8) with
    | (s, .ok pa) => ((s.sysWrite pa (leBytes 8 (field e 16 8)) (s.keyOf ctx)).arriveAt ctx (field e 8 8) pa).entryPlain ctx q
    | (s, .error c) => s.entryFails ctx q 2 c)

/-- One read of a WAIT entry: the entry completes, or the queue waits to read again. -/
def State.poll (s : State) (ctx q : Nat) (e : List Byte) : State :=
  match (if field e 8 8 % 8 ≠ 0 then (s, .error 2) else s.devRead ctx (field e 8 8) 8) with
  | (s, .error c) => s.entryFails ctx q 2 c
  | (s, .ok bs) =>
    let v := field e 16 8
    if (if field e 24 1 = 0 then decide (v ≤ leNat bs) else leNat bs == v) then s.entryPlain ctx q
    else s.modQueue ctx q (fun x => { x with state := .wait })

/-- CMD_WAIT: the first read. -/
def execCmdWait (ctx q : Nat) (s : State) : Host.Outcome State Fault Refusal :=
  start "CMD_WAIT" ctx q 4 s (fun e => s.poll ctx q e)

/-- WAIT_REPOLL: a later read. -/
def execWaitRepoll (ctx q : Nat) (s : State) : Host.Outcome State Fault Refusal :=
  let x := (s.ctx ctx).queue q
  match x.state, x.packet with
  | .wait, e :: _ => if s.serves ctx then .next (s.poll ctx q e) else notEnabled "WAIT_REPOLL"
  | _, _ => notEnabled "WAIT_REPOLL"

/-- CMD_SIGNAL: an add to a 64-bit word at its owning point (R163, R290); one to a package without a route is dropped and
logged (R396). -/
def execCmdSignal (ctx q : Nat) (s : State) : Host.Outcome State Fault Refusal :=
  start "CMD_SIGNAL" ctx q 5 s (fun e =>
    match s.wordAt ctx .rw (field e 8 8) with
    | (s, .error c) => s.entryFails ctx q 2 c
    | (s, .ok pa) =>
      if s.noRoute pa then (s.dropWrite pa).entryPlain ctx q
      else if s.poisoned pa then s.entryFails ctx q 2 0x17
      else
        let v := (leNat (s.seenBytes ctx pa 8) + field e 16 8) % 2 ^ 64
        ((s.sysWrite pa (leBytes 8 v) (s.keyOf ctx)).arriveAt ctx (field e 8 8) pa).entryPlain ctx q)

/-! ### Admission and phases (R277, R288) -/

/-- TEAM_ADMISSION: the Scheduler admits a launch's next team (R277). -/
def execTeamAdmission (launch core : Nat) (s : State) : Host.Outcome State Fault Refusal :=
  if 256 ≤ core then .next s
  else if s.chooses launch core then .next (s.admitTeam launch core)
  else notEnabled "TEAM_ADMISSION"

/-- PHASE_END: a slot's line is high on every die, its launch's tree is complete, and the phase gives up its slot: until
then later events count in OVER (R287, R288). -/
def execPhaseEnd (slot : Nat) (s : State) : Host.Outcome State Fault Refusal :=
  if 16 ≤ slot then .next s
  else
    match s.launches.find? (fun l => l.2.live && l.2.phaseSlot == some slot) with
    | some (lk, l) =>
      if s.phaseHigh slot && (s.tree l.tree).complete then
        let (s, n) := s.endPhase slot
        let s := s.modLaunch lk (fun l => { l with phaseSlot := none })
        let s := s.modTree l.tree (fun t => { t with extra := n })
        .next (s.settleTree l.tree).armWaiting
      else notEnabled "PHASE_END"
    | none => notEnabled "PHASE_END"

/-! ### The completion queue (R289) -/

/-- The cores without some of their cached shape records (R226, R349). -/
def dropRecords (gone : RecEntry → Bool) (cores : FMap Core) : FMap Core :=
  cores.map (fun c => (c.1, { c.2 with records := c.2.records.filter (fun r => !gone r) }))

/-- The context number is freed: nothing of the context is left, and its time slice goes on (R344, R394). -/
def State.freeCtx (s : State) (ctx : Nat) : State :=
  let s := if (s.ctx ctx).running then s.handOn ctx else s
  { s with
    ctxs := s.ctxs.erase ctx
    cores := dropRecords (fun r => r.ctx == ctx) s.cores
    l1 := s.l1.filter (fun p => p.2.ctx != ctx)
    l2 := s.l2.filter (fun p => p.2.ctx != ctx)
    tlb := s.tlb.filter (fun e => e.ctx != ctx)
    icache := s.icache.filter (fun l => l.ctx != ctx)
    triggers := s.triggers.filter (fun t => t.2.ctx != ctx)
    sieves := s.sieves.filter (fun w => w.2.ctx != ctx)
    estates := s.estates.filter (fun e => e.ctx != ctx)
    quota := s.quota.filter (fun q => q.data.ctx != ctx)
    ctxStat := 0 }.reframe

/-- A destroyed context is freed when it has no kill, no reclaim and no held record left (R289, R394). -/
def State.freeDestroyed (s : State) (ctx : Nat) : State :=
  let c := s.ctx ctx
  if c.used && c.destroying && c.kills.isEmpty && c.held.isNone && c.reclaims.isEmpty && c.heldRecs.isEmpty then
    s.freeCtx ctx
  else s

/-- Held records are written while there is room, after which a destroyed context may be freed. -/
def State.drainRecords (s : State) (ctx : Nat) : State := (s.cqDrain ctx (s.ctx ctx).heldRecs).freeDestroyed ctx

/-- CQRD_WRITE: the host advances CQRD, and held records are written while there is room. -/
def execCqrdWrite (ctx : Nat) (v : W64) (s : State) : Host.Outcome State Fault Refusal :=
  if 1024 ≤ ctx ∨ !(s.ctx ctx).used then .next s
  else
    let s := s.poke ((s.ctx ctx).desc + 0x90) 8 v.toNat
    .next (s.drainRecords ctx)

/-- CQ_WRITE_RETRY: held records are tried again: after a fault, or once CQRD leaves room, since the device
reads it live. -/
def execCqWriteRetry (ctx : Nat) (s : State) : Host.Outcome State Fault Refusal :=
  let c := s.ctx ctx
  if c.used && !c.heldRecs.isEmpty && !s.cqFull ctx then .next (s.drainRecords ctx)
  else notEnabled "CQ_WRITE_RETRY"

/-! ### Mailboxes (R266, R353) -/

/-- What the Fault core makes of an entry: a kill request, malformed or refused ones being ignored (R353).
DEDUCED (log 13): the reasons. -/
def State.faultMail (s : State) (e : Mail) : State :=
  let c := e.value.toNat % 1024
  if e.value.toNat / 2 ^ 24 ≠ 0 ∨ e.value.toNat / 65536 % 256 ≠ 1 ∨ e.value.toNat / 1024 % 64 ≠ 0 then s
  else if !(s.ctx c).used then s
  else if e.kind = 1 then s.wantKill c 1 0
  else if e.ctx = c then s.wantKill c 2 0
  else s

/-- MAILBOX_TAKE: a firmware core takes its oldest entry, and held writes move in (R266); after a failed boot none runs
(R398). -/
def execMailboxTake (fw : Nat) (s : State) : Host.Outcome State Fault Refusal :=
  if 8 ≤ fw then .next s
  else if s.bootStat ≠ 1 then notEnabled "MAILBOX_TAKE"
  else
    match (s.mail.get Mailbox.none fw).entries with
    | [] => notEnabled "MAILBOX_TAKE"
    | e :: es =>
      let s := { s with mail := s.mail.modify Mailbox.none fw (fun m =>
        { entries := es ++ m.held.take (64 - es.length), held := m.held.drop (64 - es.length) }) }
      let c := s.ctx e.ctx
      if e.kind = 0 ∧ ¬(c.used ∧ c.isOpen ∧ c.inc = e.inc) then .next s
      else .next (if fw = 3 then s.faultMail e else s)

end Sys2Proof.Machine
end

