-- ==== Sys2Proof/Machine/Kill.lean ====
section
/-! DEFINITION. Kills, wrap-around, orphaned responses, reclaim and the relaunch of teams (R308, R321,
R349 to R361, R374, R378, R397). -/

namespace Sys2Proof.Machine

/-! ### The incarnation block (R352) -/

/-- The 32 bytes of a context's incarnation block. -/
def Context.incb (c : Context) : List Byte :=
  leBytes 2 c.inc ++ leBytes 1 (if c.held.isSome then 2 else 0) ++ leBytes 1 c.reason ++
  leBytes 2 c.reclaims.length ++ leBytes 2 0 ++ leBytes 8 c.kseq ++ leBytes 8 c.rseq ++ leBytes 2 c.lastRec ++
  leBytes 2 0 ++ leBytes 4 c.orph

/-- Writes the incarnation block in the context's descriptor. -/
def State.putIncb (s : State) (ctx : Nat) : State :=
  s.sysWrite ((s.ctx ctx).desc + 0xA0) (s.ctx ctx).incb

/-! ### What a kill reports (R356) -/

/-- COUNT of a type-3 record with NOTADM. -/
def State.notAdmitted (s : State) (n : Nat) : Nat :=
  if n < 2 ^ 24 then n else (Config.countBits s.free).toNat

/-- Type-3 records of a tree: its teams that had not ended, then its launches with teams not admitted.
DEDUCED (log 13): their CAUSE. -/
def State.treeItems (s : State) (tree cause : Nat) : List (List Byte) :=
  let t := s.tree tree
  let ls := s.launches.filter (fun l => l.2.live && l.2.tree == tree)
  let item := fun (r : W64) => recordBytes 3 t.queue t.inc t.tag r 0 0 cause
  (ls.flatMap (fun l => (s.teams.filter (fun p => p.2.live && p.2.launch == l.1)).map (fun p =>
    item (itemResult false false 0 p.2.num)))) ++
  ((ls.filter (fun l => decide (l.2.admitted < l.2.teams))).map (fun l =>
    item (itemResult true false (s.notAdmitted (l.2.teams - l.2.admitted)) l.2.admitted)))

/-- Records of a kill for one queue, but for the entries that the Parser has not reached: those of its trees,
then one for each entry of its packet. -/
def State.queueItems (s : State) (ctx q cause : Nat) : List (List Byte) :=
  let c := s.ctx ctx
  ((s.trees.filter (fun t => t.2.live && t.2.ctx == ctx && t.2.queue == q)).flatMap (fun t => s.treeItems t.1 cause)) ++
  ((c.queue q).packet.map (fun e => failRecord 2 q c.inc e 0))

/-- Reports the pending entries of a queue's ring, WR and RD as they stand, and moves RD to WR. -/
def State.reportRing (s : State) (ctx q old : Nat) : State :=
  let rd := s.qRd ctx q
  let n := s.qWr ctx q - rd
  let base := s.qBase ctx q
  let size := s.qSize ctx q
  if n = 0 then s
  else
    let s := (List.range n).foldl (fun s k =>
      match s.devRead ctx (base + 64 * ((rd + k) % 2 ^ size)) 64 with
      | (s, .ok e) => s.record ctx (failRecord 2 q old e 0)
      | (s, .error _) => s.record ctx (recordBytes 2 q old 0 0 0 0 0)) s
    s.poke (s.qd ctx q + 16) 8 (s.qWr ctx q)

/-- Whether a wait is for the reply of a `sys`. -/
def Wait.awaitsReply : Wait → Bool
  | .sys .. => true
  | _ => false

/-- Responses still on their way to a context's groups: of the memory system one for each line that an instruction has
asked for and whose access has been performed, and the reply of a `sys` (R206, R351). -/
def State.onTheirWay (s : State) (ctx : Nat) : Nat :=
  ((s.groups.filter (fun g => g.2.ctx == ctx)).map (fun g =>
    ((g.2.pend.filter (fun e => e.access.isNone)).filterMap (fun e => e.resp.map (fun l => (e.pc, l)))).dedup.length +
    (if g.2.wait.awaitsReply then 1 else 0))).sum

/-! ### Kill (R353, R354) -/

/-- KILL_REQUEST: the host writes the Fault core's wake register (R353, R390). -/
def execKillRequest (v : W64) (s : State) : Host.Outcome State Fault Refusal :=
  .next (s.post 3 { value := v, ctx := 0, inc := 0, kind := 1, group := 0 })

/-- A team whose context is killed: of a saved one only its save slots and stack blocks remain until the
reclaim. -/
def Team.old (t : Team) : Team :=
  { t with
    live := false
    groups := []
    loc := []
    full := []
    holdsAcc := false
    arrived := []
    preempt := false
    saved := false
    savedAcc := []
    savedQuota := []
    scout := Option.none }

/-- Steps 1 and 2: the context is closed, and its groups are discarded (R354). DEDUCED (log 13). -/
def State.closeAndStop (s : State) (ctx : Nat) (r : KillReq) (more : List KillReq) : State :=
  let recs := (List.range 64).map (fun q => (q, s.queueItems ctx q r.cause.toNat))
  let n := s.onTheirWay ctx
  let mine := (s.groups.filter (fun g => g.2.ctx == ctx)).map Prod.fst
  let s := s.modCtx ctx (fun c => { c with
    kseq := c.kseq + 1
    reason := r.reason
    isOpen := false
    kills := more
    held := some (n, recs)
    queues := []
    shadows := c.shadows.map (fun b => { b with bytes := [], pending := false }) })
  { s with
    groups := s.groups.filter (fun g => g.2.ctx != ctx)
    parts := s.parts.map (fun (p : Nat × Partition) =>
      (p.1, { p.2 with order := p.2.order.filter (fun k => !mine.contains k) }))
    cores := s.cores.map (fun (c : Nat × Core) =>
      (c.1, { c.2 with queue := c.2.queue.filter (fun e => e.ctx != ctx) }))
    teams := s.teams.map (fun (t : Nat × Team) => (t.1, if t.2.ctx = ctx then t.2.old else t.2))
    trees := s.trees.filter (fun t => t.2.ctx != ctx)
    launches := s.launches.filter (fun l => l.2.ctx != ctx)
    quota := s.quota.filter (fun q => q.data.ctx != ctx)
    moving := s.moving.map (fun m => if m.ctx = ctx then { m with abandoned := true } else m)
    sieves := s.sieves.map (fun (w : Nat × Sieve) =>
      (w.1, if w.2.ctx = ctx then { w.2 with armReq := false, armed := false, written := [] } else w.2)) }

/-- Steps 4 and 5: the context advances, and its records are written (R354, R356); with its incarnation the key of a
confidential context changes (R397). DEDUCED (log 13): the order of the records. -/
def State.advanceCtx (s : State) (ctx : Nat) : State :=
  match (s.ctx ctx).held with
  | none => s
  | some (n, recs) =>
    let old := (s.ctx ctx).inc
    let s := s.modCtx ctx (fun c => { c with
      inc := c.kseq % 4096
      isOpen := true
      held := none
      reclaims := c.reclaims ++ [(old, n)] })
    let s := s.putIncb ctx
    recs.foldl (fun s q => (q.2.foldl (fun s r => s.record ctx r) s).reportRing ctx q.1 old) s

/-- Whether a kill need not wait for wrap-around (R357). -/
def Context.mayAdvance (c : Context) : Bool := decide (c.kseq ≤ c.rseq + 4095)

/-- KILL: the Fault core performs the next kill of a context (R354). -/
def execKill (ctx : Nat) (s : State) : Host.Outcome State Fault Refusal :=
  let c := s.ctx ctx
  match c.kills with
  | [] => notEnabled "KILL"
  | r :: more =>
    if !c.used || c.held.isSome then notEnabled "KILL"
    else
      let s := s.closeAndStop ctx r more
      .next (if (s.ctx ctx).mayAdvance then s.advanceCtx ctx else s.putIncb ctx)

/-- KILL_WRAP_RESUME: a kill that waited for wrap-around advances (R357). -/
def execKillWrapResume (ctx : Nat) (s : State) : Host.Outcome State Fault Refusal :=
  let c := s.ctx ctx
  if c.held.isSome && c.mayAdvance then .next (s.advanceCtx ctx) else notEnabled "KILL_WRAP_RESUME"

/-! ### Orphaned responses (R351) -/

/-- One response of the oldest incarnation that awaits some has come. -/
def takeOrphan : List (Nat × Nat) → Option (List (Nat × Nat))
  | [] => none
  | (i, 0) :: rs => (takeOrphan rs).map (fun x => (i, 0) :: x)
  | (i, n + 1) :: rs => some ((i, n) :: rs)

/-- ORPHANED_RESPONSE: a stale response is dropped at the core and counted (R351, R352). -/
def execOrphanedResponse (ctx : Nat) (s : State) : Host.Outcome State Fault Refusal :=
  match takeOrphan (s.ctx ctx).reclaims with
  | none => notEnabled "ORPHANED_RESPONSE"
  | some rs => .next ((s.modCtx ctx (fun c => { c with
      reclaims := rs
      orph := min (c.orph + 1) 4294967295 })).putIncb ctx)

/-! ### Reclaim (R308, R321, R358) -/

/-- Estates of an old incarnation are discarded, with one record for each domain that held any. -/
def State.dropEstates (s : State) (ctx inc : Nat) : State :=
  let mine := s.estates.filter (fun e => e.ctx == ctx && e.inc == inc)
  let s := { s with estates := s.estates.filter (fun e => !(e.ctx == ctx && e.inc == inc)) }
  (List.range 256).foldl (fun s d =>
    let es := mine.filter (fun e => e.domain == d)
    match oldest es with
    | none => s
    | some e => s.record ctx (recordBytes 4 e.queue inc 0 (BitVec.ofNat 64 es.length)
        ((es.map (fun x => x.slots.length + x.rowCount)).sum) 0 (d + 256 * 5))) s

/-- Call-ring slots of an old incarnation are freed. -/
def State.dropSlots (s : State) (ctx inc : Nat) : State :=
  (List.range 256).foldl (fun s n =>
    let x := (s.ctx ctx).slot n
    if x.used && !x.freeing && x.inc == inc then s.clearSlot ctx n else s) s

/-- The reclaim of incarnation `i` of a context, up to its fence. -/
def State.reclaimOf (s : State) (ctx i : Nat) : State :=
  let mine := fun (c j : Nat) => c == ctx && j == i
  let back := (s.moving.filter (fun m => mine m.ctx m.inc && m.abandoned && m.fromPool)).map (fun m => m.t / 65536)
  let s := { s with
    l1 := s.l1.filter (fun p => !mine p.2.ctx p.2.inc)
    l2 := s.l2.filter (fun p => !mine p.2.ctx p.2.inc)
    tlb := s.tlb.filter (fun e => !mine e.ctx e.inc)
    icache := s.icache.filter (fun l => !mine l.ctx l.inc)
    teams := s.teams.filter (fun t => !(mine t.2.ctx t.2.inc && !t.2.live))
    dies := s.dies.map (fun (d : Nat × Die) => (d.1, { d.2 with
      phases := d.2.phases.filter (fun p => !mine p.2.ctx p.2.inc)
      early := d.2.early.filter (fun e => !mine e.1 e.2.1) }))
    triggers := s.triggers.filter (fun t => !mine t.2.ctx t.2.inc)
    cores := dropRecords (fun r => mine r.ctx r.inc) s.cores
    moving := s.moving.filter (fun m => !(mine m.ctx m.inc && m.abandoned)) }
  let s := s.modCtx ctx (fun c => { c with poolUsed := c.poolUsed.filter (fun p => !back.contains p) })
  ((s.dropEstates ctx i).dropSlots ctx i).startMoves.armWaiting

/-- RECLAIM: the fixer reclaims the oldest killed incarnation, once no response of it is on its way (R358). -/
def execReclaim (ctx : Nat) (s : State) : Host.Outcome State Fault Refusal :=
  match (s.ctx ctx).reclaims with
  | (i, 0) :: rest =>
    let s := s.reclaimOf ctx i
    let s := (s.modCtx ctx (fun c => { c with
      reclaims := rest
      rseq := c.rseq + 1
      lastRec := i })).putIncb ctx
    .next (s.freeDestroyed ctx)
  | _ => notEnabled "RECLAIM"

/-! ### Relaunch (R361) -/

/-- Whether a team that is held for relaunch may be admitted again on a core: outside the cluster it ran on,
with room, where its claims allow. DEDUCED (log 25). -/
def State.canRelaunch (s : State) (team core : Nat) : Bool :=
  let t := s.team team
  let l := s.launch t.launch
  decide (core < 256) && s.relaunchWaits t && l.mayTake (some t.core) core &&
  s.claimsAllow l (some t.core) t.wids core && (s.plan l.kernel (List.range l.kernel.groups) core).isSome &&
  !s.barred l (some (2 * team + 1)) t.wids core

/-- Whether the Scheduler admits a team that is held for relaunch on a core now (R299, R301, R361). -/
def State.mayRelaunch (s : State) (team core : Nat) : Bool :=
  let t := s.team team
  let l := s.launch t.launch
  s.canRelaunch team core && prefers l.kernel.oneCore (s.preferred l t.wids) (s.canRelaunch team) core

/-- TEAM_RELAUNCH: the team is admitted again, with the same number, identities and arguments (R361). -/
def execTeamRelaunch (team core : Nat) (s : State) : Host.Outcome State Fault Refusal :=
  if 256 ≤ core then .next s
  else
    let t := s.team team
    let l := s.launch t.launch
    match s.plan l.kernel (List.range l.kernel.groups) core with
    | some parts =>
      if s.mayRelaunch team core then .next ((s.seat team parts t.wids t.args).afterSeat l t.num team)
      else notEnabled "TEAM_RELAUNCH"
    | none => notEnabled "TEAM_RELAUNCH"

end Sys2Proof.Machine
end

