-- ==== Sys2Proof/Machine/Moves.lean ====
section
/-! DEFINITION. The events of moves, marks and page-ins (R310 to R320, R330). -/

namespace Sys2Proof.Machine

/-! ### Policy moves (R311) -/

/-- Accesses to the 64 KiB page of an address by a core, and by the cores of a die. -/
def Context.useOf (c : Context) (va core : Nat) : Nat := c.uses.get 0 (va / 65536 * 512 + core) + c.uses.get 0 (va / 65536 * 512 + 256 + core)
def Context.dieUse (c : Context) (va die : Nat) : Nat := ((List.range 32).map (fun k => c.useOf va (32 * die + k))).sum

/-- Accesses to the page of an address that went to the L2 or a vault port. -/
def Context.portUse (c : Context) (va : Nat) : Nat :=
  ((List.range 256).map (fun k => c.uses.get 0 (va / 65536 * 512 + 256 + k))).sum

/-- Whether the class of `f` lets the Memory core move it to where `t` lies (R311). DESIGN CHOICE (log 34): accesses are
counted from the page's mapping or move on, and the threshold is a free value. -/
def State.classAllows (s : State) (ctx va cls fpa tpa : Nat) : Bool :=
  let c := s.ctx ctx
  let most := (List.range 256).all (fun k => decide (c.useOf va k ≤ c.useOf va (vaultCore tpa)))
  let mostDie := (List.range 8).all (fun d => decide (c.dieUse va d ≤ c.dieUse va (s.ownerDie tpa)))
  match cls with
  | 2 => isHbm fpa && isVault tpa && most
  | 3 => isVault tpa && most && !(isVault fpa && decide (c.useOf va (vaultCore tpa) ≤ c.useOf va (vaultCore fpa)))
  | 4 => isHbm fpa && isHbm tpa && mostDie && s.ownerDie fpa != s.ownerDie tpa
  | 5 => isVault fpa && isHbm tpa && decide (c.portUse va < Config.demoteBelow s.free)
  | _ => false

/-- Whether a page of a context's relocation pool is free. -/
def Context.poolFree (c : Context) (t : Nat) : Bool :=
  decide (c.pool.toNat ≤ t ∧ t + 65536 ≤ c.pool.toNat + c.poolLen.toNat) && !c.poolUsed.contains (t / 65536)

/-- Whether the Memory core may start a move of `f` to `t`. -/
def State.policyMay (s : State) (ctx f t : Nat) : Bool :=
  match s.pageLeaf ctx f, s.pageLeaf ctx t with
  | some a, some b =>
    (s.ctx ctx).used && (s.ctx ctx).isOpen && s.moveStatus ctx f t == 0 && (s.ctx ctx).poolFree t &&
    s.classAllows ctx f (pteRes a) (pteAddr a * 4096) (pteAddr b * 4096)
  | _, _ => false

/-- POLICY_MOVE: the Memory core starts a move under the residency policy (R311). -/
def execPolicyMove (ctx f t : Nat) (s : State) : Host.Outcome State Fault Refusal :=
  if f % 65536 = 0 ∧ t % 65536 = 0 ∧ s.policyMay ctx f t then
    .next (s.requestMove ctx f t none true)
  else notEnabled "POLICY_MOVE"

/-! ### The steps of a move (R313) -/

/-- Move `m`, if it stands at a step and has not been abandoned. -/
def State.moveAt (s : State) (m stage : Nat) : Option MoveRec :=
  match s.moving[m]? with
  | some r => if r.stage = stage ∧ !r.abandoned then some r else none
  | none => none

/-- Sets the steps that a move has completed. -/
def State.setStage (s : State) (m n : Nat) : State :=
  { s with moving := s.moving.modify m (fun r => { r with stage := n }) }

/-- MOVE_DRAIN_COMPLETE: steps 2 and 3. -/
def execMoveDrainComplete (m : Nat) (s : State) : Host.Outcome State Fault Refusal :=
  match s.moveAt m 1 with
  | some r => .next ((s.recall r.fpa).setStage m 3)
  | none => notEnabled "MOVE_DRAIN_COMPLETE"

/-- MOVE_COPY_COMPLETE: step 4, and the shootdown of step 5 starts. -/
def execMoveCopyComplete (m : Nat) (s : State) : Host.Outcome State Fault Refusal :=
  match s.moveAt m 3 with
  | some r =>
    let s := s.copyTile (some r.ctx) r.fpa r.tpa 65536
    .next (((s.shootdown r.ctx r.f 65536).shootdown r.ctx r.t 65536).setStage m 5)
  | none => notEnabled "MOVE_COPY_COMPLETE"

/-- MOVE_SHOOTDOWN_CONFIRMED: steps 6 to 8. -/
def execMoveShootdownConfirmed (m : Nat) (s : State) : Host.Outcome State Fault Refusal :=
  match s.moveAt m 5 with
  | some r => .next (s.endMove r)
  | none => notEnabled "MOVE_SHOOTDOWN_CONFIRMED"

/-! ### Marks (R318 to R320) -/

/-- Base of the page that a mark at an address names. -/
def State.markAt (s : State) (ctx va : Nat) : Option Nat :=
  match s.walk ctx va with
  | .fwd dest => some dest
  | _ => none

/-- Pages that the forwarding entries of a table name, with the address of each entry's page. -/
def State.marksFrom (s : State) : Nat → Nat → Nat → List (Nat × Nat)
  | 0, pa, va => (List.range 32).filterMap (fun k =>
    match Entry.read 0 (s.ownWord (pa + 128 * k)) with
    | .fwd dest => some (va + 65536 * k, dest)
    | _ => none)
  | level + 1, pa, va => (List.range (if level = 3 then 256 else 512)).flatMap (fun k =>
    match Entry.read (level + 1) (s.ownWord (pa + 8 * k)) with
    | .table next => s.marksFrom level next (va + k * 2 ^ (12 + 9 * (level + 1)))
    | _ => [])

/-- MARK_RETARGET: a mark that names a page which has itself moved names that page's destination (R320). -/
def execMarkRetarget (ctx f t : Nat) (s : State) : Host.Outcome State Fault Refusal :=
  match s.markAt ctx f with
  | some p =>
    if (s.markAt ctx p).isSome && (s.follow ctx 3 p).1 / 65536 == t / 65536 && (s.ctx ctx).used then
      .next ((s.putPage ctx f (fwdEntry t)).shootdown ctx (f / 65536 * 65536) 65536)
    else notEnabled "MARK_RETARGET"
  | none => notEnabled "MARK_RETARGET"

/-- The request word of the lowest active lane of a slot. -/
def State.askWord (s : State) (ctx slot : Nat) : Nat := (((s.ctx ctx).slot slot).req.headD 0).toNat

/-- A service that a firmware core provides for a slot in use: `serve` acts and answers. -/
def service (event : String) (svc ctx slot : Nat) (s : State) (serve : State → State) :
    Host.Outcome State Fault Refusal :=
  if provided s.featAcc svc && s.asks ctx slot svc then .next (serve s) else notEnabled event

/-- MARK_RETIRE: service 1,110 (R318, R319). -/
def execMarkRetire (ctx slot : Nat) (s : State) : Host.Outcome State Fault Refusal :=
  service "MARK_RETIRE" 1110 ctx slot s (fun s =>
    let f := s.askWord ctx slot / 65536 * 65536
    if (s.markAt ctx f).isNone then s.replyAll ctx slot 1
    else if (s.marksFrom 4 (s.ctx ctx).root.toNat 0).any (fun m => m.1 != f && m.2 / 65536 == f / 65536) then
      s.replyAll ctx slot 2
    else
      let s := (s.putPage ctx f 0).shootdown ctx f 65536
      (s.modCtx ctx (fun c => { c with hits := c.hits.erase (f / 65536) })).replyAll ctx slot 0)

/-- MARK_HIT_COUNT: service 1,111 (R318). -/
def execMarkHitCount (ctx slot : Nat) (s : State) : Host.Outcome State Fault Refusal :=
  service "MARK_HIT_COUNT" 1111 ctx slot s (fun s =>
    let f := s.askWord ctx slot
    s.replyAll ctx slot (if (s.markAt ctx f).isNone then 0xFFFFFFFF
      else BitVec.ofNat 32 ((s.ctx ctx).hits.get 0 (f / 65536))))

/-! ### Page-in (R330) -/

/-- PAGE_IN: service 1,024: each active lane's page is made present, where the mapping allows. -/
def execPageIn (ctx slot : Nat) (s : State) : Host.Outcome State Fault Refusal :=
  service "PAGE_IN" 1024 ctx slot s (fun s =>
    let c := (s.ctx ctx).slot slot
    let r := c.words.foldl (fun (a : State × List (Nat × W32)) w =>
      let p := a.1.pageIn ctx w.2.toNat
      (p.1, a.2 ++ [(w.1, if p.2 then 0 else 1)])) (s, [])
    r.1.reply ctx slot ((s.group c.group).ids.map (fun i =>
      ((r.2.find? (fun p => p.1 == i)).map Prod.snd).getD 0)))

end Sys2Proof.Machine
end

