-- ==== Sys2Proof/Machine/Errors.lean ====
section
/-! DEFINITION. Errors of caches, memory, state arrays and pipelines, quarantine, the retirement of regions,
and in-field tests (R322, R361 to R368). -/

namespace Sys2Proof.Machine

/-! ### Quarantine (R322, R363) -/

/-- Removes a way of a slice from every mask of a die; a mask left with no way takes every way that is not quarantined (R322,
R363). DESIGN CHOICE (log 37): in no slice. -/
def Die.dropWay (d : Die) (slice w : Nat) : Die :=
  let bad := if d.quarantined.contains (slice * 16 + w) then d.quarantined else d.quarantined ++ [slice * 16 + w]
  let rest : BitVec 16 := BitVec.ofNat 16 (((List.range 16).filter (fun k =>
    !bad.any (fun q => q % 16 == k))).map (fun k => 2 ^ k)).sum
  { d with
    quarantined := bad
    ways := (List.range 16).foldl (fun m q =>
      let x := m.get 0xFFFF q &&& ~~~(1#16 <<< w)
      FMap.set 0xFFFF m q (if x = 0 then rest else x)) d.ways }

/-- Quarantines a way of a slice of a die: its lines leave it, dirty ones being written back (R363). -/
def State.quarantine (s : State) (die slice w : Nat) : State :=
  let s := (s.l2.filter (fun p => p.1 % 8 == die && p.2.way == w && sliceOf (p.1 / 8) == slice)).foldl (fun s p =>
    s.evictL2 die (p.1 / 8)) s
  s.modDie die (fun d => d.dropWay slice w)

/-- The lines that stand in a way of a core's L1, those under a quota among them. -/
def State.l1InWay (s : State) (core w : Nat) : List Nat :=
  ((s.l1.filter (fun (p : Nat × Line) => p.1 % 256 == core && p.2.way == w)).map (fun (p : Nat × Line) => p.1 / 256) ++
    (s.quota.filter (fun (q : QuotaLine) => q.core == core && q.data.way == w)).map QuotaLine.line).dedup

/-- Quarantines a way of a core's L1: its lines leave it, dirty ones being written back (R362, R363). PRESUMED (log 37): it
has sixteen. -/
def State.quarantineL1 (s : State) (core w : Nat) : State :=
  ((s.l1InWay core w).foldl (fun s l => s.evictL1 core l) s).modCore core
    (fun c => { c with l1Out := if c.l1Out.contains w then c.l1Out else c.l1Out ++ [w] })

/-- An error in a region calls for its retirement (R364). -/
def State.dueAt (s : State) (region : Nat) : State := if s.due.contains region then s else { s with due := s.due ++ [region] }

/-- Poisons a line at its owning point, of which no byte has been written since: an error found there, or dirty bytes that are
lost (R362, R364). -/
def State.poisonLine (s : State) (line : Nat) : State :=
  let s := s.dueAt (line / 512)
  { s with poison := s.poison.set Option.none line (some 0) }

/-! ### The retirement of regions (R364) -/

/-- Tables below a table of a level, itself included. -/
def State.tablesFrom (s : State) : Nat → Nat → List Nat
  | 0, pa => [pa]
  | level + 1, pa => pa :: (List.range (if level = 3 then 256 else 512)).flatMap (fun k =>
    match Entry.read (level + 1) (s.ownWord (pa + 8 * k)) with
    | .table next => s.tablesFrom level next
    | _ => [])

/-- The run to be copied for a region: the page that maps it when that is larger, else the region itself. -/
def regionRun (leaves : List (Nat × Nat × Nat × W64)) (region : Nat) : Nat × Nat :=
  match leaves.find? (fun l => let r := leafRange l.2.2.2
      decide (65536 < r.2) && overlaps r.1 r.2 (region * 65536) 65536) with
  | some l => leafRange l.2.2.2
  | none => (region * 65536, 65536)

/-- Whether a run is spare: nothing maps it, it holds no table and no descriptor, and no part of it is
retired. DESIGN CHOICE (log 37). -/
def State.spareRun (s : State) (leaves : List (Nat × Nat × Nat × W64)) (a n : Nat) : Bool :=
  !leaves.any (fun l => let r := leafRange l.2.2.2
    overlaps r.1 r.2 a n) &&
  !s.ctxs.any (fun c => overlaps c.2.desc 4096 a n || (s.tablesFrom 4 c.2.root.toNat).any (fun t => overlaps t 4096 a n)) &&
  !s.retired.any (fun r => overlaps (r * 65536) 65536 a n) && s.hasRange a n &&
  !s.moving.any (fun m => overlaps m.fpa 65536 a n || overlaps m.tpa 65536 a n)

/-- Every access that has reached its place is performed. -/
def State.settleAll (s : State) : State :=
  s.groups.foldl (fun s g => if g.2.pend.any (fun e => e.access.any (fun a => a.pa.isSome)) then s.drainAll g.1 else s) s

/-- The entry of a leaf whose page moves from one run to another. -/
def movedEntry (e : W64) (a b : Nat) : W64 :=
  (e &&& ~~~0x000FFFFFFFFFF000#64) ||| BitVec.ofNat 64 ((pteAddr e * 4096 - a + b) / 4096 * 4096)

/-- The entries that map a run, as they are to map another. -/
def movedEntries (leaves : List (Nat × Nat × Nat × W64)) (a b n : Nat) : List (Nat × W64) :=
  (leaves.filter (fun l => let r := leafRange l.2.2.2
    overlaps r.1 r.2 a n)).map (fun l => (l.2.1, movedEntry l.2.2.2 a b))

/-- The sieve windows whose pages stand in a run, once it has moved. -/
def State.moveSieves (s : State) (a b n : Nat) : State :=
  { s with sieves := s.sieves.map (fun (w : Nat × Sieve) => (w.1, { w.2 with
      pages := w.2.pages.map (fun q => (q.1, if a ≤ q.2 ∧ q.2 < a + n then q.2 - a + b else q.2)) })) }

/-- Copies a run to a spare one and maps it there, and the shootdown is confirmed, once every access translated before has
been performed (R347, R364). -/
def State.moveRun (s : State) (leaves : List (Nat × Nat × Nat × W64)) (a b n : Nat) : State :=
  let s := s.settleAll.confirmed
  let s := (List.range (n / 65536)).foldl (fun s k => s.doomTx (a + 65536 * k)) s
  let s := (((s.copyTile none a b n).remap (movedEntries leaves a b n)).confirmed).moveSieves a b n
  { s with triggers := s.triggers.map (fun (t : Nat × Trigger) =>
      (t.1, { t.2 with word := if a ≤ t.2.word ∧ t.2.word < a + n then t.2.word - a + b else t.2.word })) }

/-- Whether a region is to be retired: a line of it has been poisoned, or it has had sixteen corrected errors; one that waits
for a spare stays due when its lines are rewritten (R364). DEDUCED (log 37): marks that a copy has brought call for no
retirement, or each spare region would be retired in turn. -/
def State.mustRetire (s : State) (region : Nat) : Bool :=
  s.due.contains region && !s.retired.contains region && !isFar (region * 65536)

/-- Whether a run is one that a region may be copied to (R364): spare, of its alignment and space; its mappings do not give
the spare frames a mode against theirs (R344), no sieve window leaves its stack (R369), and no byte comes to stand where its
frame is not usable (R344). -/
def State.maySpare (s : State) (leaves : List (Nat × Nat × Nat × W64)) (a b n : Nat) : Bool :=
  b % n == 0 && paSpace b == paSpace a && decide (¬isHbm b ∨ b % 2097152 ≤ a % 2097152 ∨ b % 2097152 + n ≤ usable 2) &&
  s.spareRun leaves b n && !(s.moveSieves a b n).sieveSplit && !s.protClash (movedEntries leaves a b n)

/-- The first run, of those below the `n`-th of its size in the space of a run and downwards, that it may be copied to. -/
def State.findSpare (s : State) (leaves : List (Nat × Nat × Nat × W64)) (run : Nat × Nat) : Nat → Option Nat
  | 0 => none
  | k + 1 =>
    let b := paSpace run.1 * 2 ^ 50 + k * run.2
    if s.maySpare leaves run.1 b run.2 then some b else s.findSpare leaves run k

/-- A spare run for a region, or for the larger page that holds it; the relocation engine has no move of theirs under way. -/
def State.spareFor (s : State) (region : Nat) : Option Nat :=
  let leaves := s.allLeaves
  let run := regionRun leaves region
  if s.moving.any (fun m => overlaps m.fpa 65536 run.1 run.2 || overlaps m.tpa 65536 run.1 run.2) then none
  else s.findSpare leaves run (2 ^ 40 / run.2)

/-- A region that must be retired and has no spare is logged, and stays in use (R364). -/
def State.noteRegion (s : State) (region : Nat) : State :=
  if s.mustRetire region && (s.spareFor region).isNone then s.logError 4 region else s

/-- The regions that are to be retired. -/
def State.badRegions (s : State) : List Nat := s.due.filter s.mustRetire

/-! ### Caches (R362) -/

/-- An uncorrectable error in the data of a line: a clean line is discarded; a dirty one costs its owner, and its home is
poisoned, to be retired. -/
def State.badLine (s : State) (l : Line) (line : Nat) : State :=
  if l.dirty = 0 then s else ((s.poisonLine line).noteRegion (line / 512)).wantKill l.ctx 5 0

/-- A line of a core's L1 is lost, with the bytes of it that stand under a relaunch quota. -/
def State.loseL1 (s : State) (core line : Nat) : State :=
  { s.setL1 core line Line.none with quota := s.quota.filter (fun q => !(q.core == core && q.line == line)) }

/-- What a core's L1 holds of a line: the ordinary bytes, and those under each team's quota. -/
def State.l1Copies (s : State) (core line : Nat) : List Line :=
  s.l1Line core line :: ((s.quota.filter (fun q => q.core == core && q.line == line)).map QuotaLine.data)

/-- The way in which an error is: that of the line, where a cache holds it. -/
def wayOf (ls : List Line) (way : Nat) : Nat := ((ls.find? (fun l => l.held != 0)).map Line.way).getD way

/-- Contexts with work on a die: resident groups, saves in its vaults, live lines in its caches. -/
def State.workOn (s : State) (die : Nat) : List Nat :=
  (((s.groups.filter (fun g => g.2.resident && g.2.die == die)).map (fun g => g.2.ctx)) ++
  ((s.teams.filter (fun t => t.2.live && t.2.savedIn.any (fun c => dieOfCore c.1 == die))).map (fun t => t.2.ctx)) ++
  ((s.l1.filter (fun p => dieOfCore (p.1 % 256) == die && s.lineLive p.2)).map (fun p => p.2.ctx)) ++
  ((s.quota.filter (fun q => dieOfCore q.core == die && s.lineLive q.data)).map (fun q => q.data.ctx)) ++
  ((s.l2.filter (fun p => p.1 % 8 == die && s.lineLive p.2)).map (fun p => p.2.ctx))).dedup

/-- An uncorrectable error in a tag: every context with work on the die is killed with reason 8. -/
def State.badTag (s : State) (die : Nat) : State := (s.workOn die).foldl (fun s c => s.wantKill c 8 0) s

/-- UNCORRECTABLE_CACHE_ERROR (R362, R363). A cache, or a way of it, that does not exist has none. -/
def execUncorrectableCacheError (pl : CachePlace) (unit line way : Nat) (s : State) :
    Host.Outcome State Fault Refusal :=
  let inL1 := pl == .l1Data || pl == .l1Tag
  if (if inL1 then 256 else 8) ≤ unit ∨ 16 ≤ way then .next s
  else
    match pl with
    | .l1Data =>
      let ls := s.l1Copies unit line
      .next ((ls.foldl (fun s l => s.badLine l line) (s.loseL1 unit line)).quarantineL1 unit (wayOf ls way))
    | .l2Data =>
      let l := s.l2Line unit line
      .next (((s.setL2 unit line Line.none).badLine l line).quarantine unit (sliceOf line) (wayOf [l] way))
    | .l1Tag => .next (((s.badTag (dieOfCore unit)).loseL1 unit line).quarantineL1 unit (wayOf (s.l1Copies unit line) way))
    | .l2Tag =>
      .next (((s.badTag unit).setL2 unit line Line.none).quarantine unit (sliceOf line) (wayOf [s.l2Line unit line] way))

/-- The steps of a way's corrected errors in the last 2^36 cycles, with one now. -/
def State.errorsNow (s : State) (ts : List Nat) : List Nat := ts.filter (fun t => decide (s.steps < t + 2 ^ 36)) ++ [s.steps]

/-! ### Memory (R364) -/

/-- MEMORY_POISON: an uncorrectable error at an owning point poisons the line there (R364). Host and peer memory have none
here. -/
def execMemoryPoison (line : Nat) (s : State) : Host.Outcome State Fault Refusal :=
  if isFar (line * 128) then .next s else .next ((s.poisonLine line).noteRegion (line / 512))

/-- Whether an error in a 64 KiB region can be corrected: its frame's mode is not detect-only, and vault windows use SEC-DED
(R364). -/
def State.corrects (s : State) (region : Nat) : Bool :=
  isVault (region * 65536) || (isHbm (region * 65536) && (s.frameProt.get none (region / 32)).any (fun p => p != 0))

/-- CORRECTED_ERROR: an error corrected in place is counted for its way or for its frame region; the eighth of a way within
2^36 cycles quarantines it (R362 to R364). -/
def execCorrectedError (a : ErrArray) (unit slice way : Nat) (s : State) : Host.Outcome State Fault Refusal :=
  match a with
  | .l2 =>
    if 8 ≤ unit ∨ 512 ≤ slice ∨ 16 ≤ way then .next s
    else
      let k := slice * 16 + way
      let seen := s.errorsNow ((s.die unit).corrected.get [] k)
      let s := s.modDie unit (fun d => { d with corrected := d.corrected.set [] k seen })
      .next (if 8 ≤ seen.length ∧ !(s.die unit).quarantined.contains k then s.quarantine unit slice way else s)
  | .l1 =>
    if 256 ≤ unit ∨ 16 ≤ way then .next s
    else
      let seen := s.errorsNow ((s.core unit).l1Errs.get [] way)
      let s := s.modCore unit (fun c => { c with l1Errs := c.l1Errs.set [] way seen })
      .next (if 8 ≤ seen.length then s.quarantineL1 unit way else s)
  | .memory =>
    if s.corrects unit then
      let s := { s with regionErrs := s.regionErrs.modify 0 unit (fun n => n + 1) }
      .next ((if 16 ≤ s.regionErrs.get 0 unit then s.dueAt unit else s).noteRegion unit)
    else notEnabled "CORRECTED_ERROR"

/-- REGION_RETIRE: the Memory core copies a bad region, or the larger page that holds it, to a spare run of its
size and alignment, and maps it there (R364). -/
def execRegionRetire (region spare : Nat) (s : State) : Host.Outcome State Fault Refusal :=
  let leaves := s.allLeaves
  let run := regionRun leaves region
  let b := spare * 65536
  if s.bootStat == 1 && s.mustRetire region && s.maySpare leaves run.1 b run.2 &&
      !s.moving.any (fun m => overlaps m.fpa 65536 run.1 run.2 || overlaps m.tpa 65536 run.1 run.2) then
    let s := s.moveRun leaves run.1 b run.2
    .next ({ s with
      retired := s.retired ++ [region]
      due := s.due.filter (fun r => r != region) }.logError 4 region)
  else notEnabled "REGION_RETIRE"

/-! ### State arrays and pipelines (R366 to R368) -/

/-- Whether a group is resident and its context runs. -/
def State.alive (s : State) (g : Nat) : Bool :=
  let gr := s.group g
  let c := s.ctx gr.ctx
  gr.resident && !gr.scout && c.used && c.isOpen && c.inc == gr.inc && gr.wait != .killed

/-- STATE_ARRAY_ERROR: a team reads an uncorrectable register, accumulator or local word (R366). -/
def execStateArrayError (g : Nat) (s : State) : Host.Outcome State Fault Refusal :=
  if s.alive g then .next (s.consumeArray (s.group g).team) else notEnabled "STATE_ARRAY_ERROR"

/-- Takes a partition, or the array of its core, out of service, or returns it (R367). -/
def State.service (s : State) (part : Nat) (array up : Bool) : State :=
  s.modCore (coreOfPart part) (fun c =>
    if array then { c with arrayOut := !up }
    else { c with partsOut := c.partsOut.filter (fun p => p != part) ++ (if up then [] else [part]) })

/-- Number of a unit that an in-field test is due on: a partition, or the array of its core. -/
def testUnit (part : Nat) (array : Bool) : Nat := if array then 1024 else part

/-- PIPELINE_ERROR: a check fails before an instruction retires; the unit leaves service and the team is
treated under R366 (R367). -/
def execPipelineError (g : Nat) (array : Bool) (s : State) : Host.Outcome State Fault Refusal :=
  if s.alive g then
    let gr := s.group g
    let s := (s.service gr.part array false).modCore gr.core (fun c =>
      { c with testDue := c.testDue ++ [testUnit gr.part array] })
    .next (s.consumeArray gr.team)
  else notEnabled "PIPELINE_ERROR"

/-- What a test kernel draws of a core's tokens: a number of array cycles, none while a group of the core is refused a draw
(R368). DESIGN CHOICE (log 42): how many is a free value. -/
def State.testDraw (s : State) (core : Nat) : State :=
  let refused := s.groups.any (fun g => g.2.resident && g.2.core == core && (match g.2.wait with
    | .token _ => true
    | _ => false))
  let c := s.core core
  let held := 128 * c.avail + c.credit
  let left := held - Config.testCycles s.free % (held + 1)
  if refused then s else s.tick.modCore core (fun c => { c with avail := left / 128, credit := left % 128 })

/-- INFIELD_TEST: a test kernel has run on a partition or an array; a mismatch takes it out of service, and a
pass returns it; what is out of service is tested again at once (R368). On a partition in service it takes a slot that no group
uses. DESIGN CHOICE (log 42): the outcome is a parameter. -/
def execInfieldTest (part : Nat) (array pass : Bool) (s : State) : Host.Outcome State Fault Refusal :=
  let core := coreOfPart part
  if 1024 ≤ part then .next s
  else if s.bootStat ≠ 1 then notEnabled "INFIELD_TEST"
  else if !(s.core core).partsOut.contains part && decide (16 ≤ (s.partUse part).1) then notEnabled "INFIELD_TEST"
  else
    let s := ((s.testDraw core).service part array pass).modCore core (fun c =>
      { c with testDue := c.testDue.filter (fun k => k != testUnit part array) ++ (if pass then [] else [testUnit part array]) })
    .next (if pass then s else s.logError 5 part)

end Sys2Proof.Machine
end

