-- ==== Sys2Proof/Machine/Floating.lean ====
section
/-! DEFINITION. Floating-point instructions and special functions (R130 to R136). -/

namespace Sys2Proof.Machine

/-- A result of A and B for each element of a format (R131). -/
def fp2 (f : FpFmt) (o : Ops) (op : Nat → Nat → Res) (g : Group) (i : Nat) : Res :=
  fpElems f (fun j => op (srcFp g i f o.a j) (srcFp g i f o.b j))

/-- A result of A for each element of a format. -/
def fp1 (f : FpFmt) (o : Ops) (op : Nat → Res) (g : Group) (i : Nat) : Res :=
  fpElems f (fun j => op (srcFp g i f o.a j))

/-- `fadd` (R131). -/
def execFadd (ftz : Bool) (f : FpFmt) (r : Rnd) (c : Ctl) (o : Ops) (s : State) :
    Host.Outcome State Fault Refusal :=
  perform (.fadd ftz f r c o) s (fun x s => s.alu x o.d 1 false (fp2 f o (fAdd f r ftz)))

/-- `fsub` (R131). -/
def execFsub (ftz : Bool) (f : FpFmt) (r : Rnd) (c : Ctl) (o : Ops) (s : State) :
    Host.Outcome State Fault Refusal :=
  perform (.fsub ftz f r c o) s (fun x s => s.alu x o.d 1 false (fp2 f o (fSub f r ftz)))

/-- `fmul` (R131). -/
def execFmul (ftz : Bool) (f : FpFmt) (r : Rnd) (c : Ctl) (o : Ops) (s : State) :
    Host.Outcome State Fault Refusal :=
  perform (.fmul ftz f r c o) s (fun x s => s.alu x o.d 1 false (fp2 f o (fMul f r ftz)))

/-- `fma`: A × B + D (R131). -/
def execFma (ftz : Bool) (f : FpFmt) (r : Rnd) (c : Ctl) (o : Ops) (s : State) :
    Host.Outcome State Fault Refusal :=
  perform (.fma ftz f r c o) s (fun x s => s.alu x o.d 1 false (fun g i =>
    fpElems f (fun j => fMa f r ftz (srcFp g i f o.a j) (srcFp g i f o.b j) (srcFp g i f o.d j))))

/-- `fdiv` (R131). -/
def execFdiv (ftz : Bool) (f : FpFmt) (r : Rnd) (c : Ctl) (o : Ops) (s : State) :
    Host.Outcome State Fault Refusal :=
  perform (.fdiv ftz f r c o) s (fun x s => s.alu x o.d 1 false (fp2 f o (fDiv f r ftz)))

/-- `fsqrt` (R131). -/
def execFsqrt (ftz : Bool) (f : FpFmt) (r : Rnd) (c : Ctl) (o : Ops) (s : State) :
    Host.Outcome State Fault Refusal :=
  perform (.fsqrt ftz f r c o) s (fun x s => s.alu x o.d 1 false (fp1 f o (fSqrt f r ftz)))

/-- `fmin` (R132). -/
def execFmin (ftz : Bool) (f : FpFmt) (c : Ctl) (o : Ops) (s : State) : Host.Outcome State Fault Refusal :=
  perform (.fmin ftz f c o) s (fun x s => s.alu x o.d 1 false (fp2 f o (fMinMax f ftz false)))

/-- `fmax` (R132). -/
def execFmax (ftz : Bool) (f : FpFmt) (c : Ctl) (o : Ops) (s : State) : Host.Outcome State Fault Refusal :=
  perform (.fmax ftz f c o) s (fun x s => s.alu x o.d 1 false (fp2 f o (fMinMax f ftz true)))

/-- `frnd` (R131). -/
def execFrnd (ftz : Bool) (f : FpFmt) (r : Rnd) (c : Ctl) (o : Ops) (s : State) :
    Host.Outcome State Fault Refusal :=
  perform (.frnd ftz f r c o) s (fun x s => s.alu x o.d 1 false (fp1 f o (fRnd f r ftz)))

/-- `fcmp` (R133). -/
def execFcmp (cc : Cond) (ftz : Bool) (c : Ctl) (o : Ops) (s : State) : Host.Outcome State Fault Refusal :=
  perform (.fcmp cc ftz c o) s (fun x s => s.alu x o.d 1 false (fun g i =>
    plainRes (if fCmp cc ftz (srcFp g i .f32 o.a 0) (srcFp g i .f32 o.b 0) then 1 else 0)))

/-- `fclass` (R134). -/
def execFclass (c : Ctl) (o : Ops) (s : State) : Host.Outcome State Fault Refusal :=
  perform (.fclass c o) s (fun x s => s.alu x o.d 1 false (fun g i =>
    plainRes (fClass (srcFp g i .f32 o.a 0))))

/-- `fdp2` (R135). -/
def execFdp2 (ftz : Bool) (f : FpFmt) (r : Rnd) (c : Ctl) (o : Ops) (s : State) :
    Host.Outcome State Fault Refusal :=
  perform (.fdp2 ftz f r c o) s (fun x s => s.alu x o.d 1 false (fun g i =>
    fDp2 f r ftz (srcFp g i .f32 o.d 0)
      (joinElems 16 [srcFp g i f o.a 0, srcFp g i f o.a 1]) (joinElems 16 [srcFp g i f o.b 0, srcFp g i f o.b 1])))

/-- `frcp` (R136). -/
def execFrcp (ftz : Bool) (c : Ctl) (o : Ops) (s : State) : Host.Outcome State Fault Refusal :=
  perform (.frcp ftz c o) s (fun x s => s.aluLate x o.d (fp1 .f32 o (fRcp ftz)))

/-- `frsq` (R136). -/
def execFrsq (ftz : Bool) (c : Ctl) (o : Ops) (s : State) : Host.Outcome State Fault Refusal :=
  perform (.frsq ftz c o) s (fun x s => s.aluLate x o.d (fp1 .f32 o (fRsq ftz)))

/-- `fex2` (R136). -/
def execFex2 (ftz : Bool) (c : Ctl) (o : Ops) (s : State) : Host.Outcome State Fault Refusal :=
  perform (.fex2 ftz c o) s (fun x s => s.aluLate x o.d (fp1 .f32 o (fEx2 ftz)))

/-- `flg2` (R136). -/
def execFlg2 (ftz : Bool) (c : Ctl) (o : Ops) (s : State) : Host.Outcome State Fault Refusal :=
  perform (.flg2 ftz c o) s (fun x s => s.aluLate x o.d (fp1 .f32 o (fLg2 ftz)))

/-- `fsinpi` (R136). -/
def execFsinpi (ftz : Bool) (c : Ctl) (o : Ops) (s : State) : Host.Outcome State Fault Refusal :=
  perform (.fsinpi ftz c o) s (fun x s => s.aluLate x o.d (fp1 .f32 o (fSinPi ftz)))

/-- `fcospi` (R136). -/
def execFcospi (ftz : Bool) (c : Ctl) (o : Ops) (s : State) : Host.Outcome State Fault Refusal :=
  perform (.fcospi ftz c o) s (fun x s => s.aluLate x o.d (fp1 .f32 o (fCosPi ftz)))

/-- `ftanh` (R136). -/
def execFtanh (ftz : Bool) (c : Ctl) (o : Ops) (s : State) : Host.Outcome State Fault Refusal :=
  perform (.ftanh ftz c o) s (fun x s => s.aluLate x o.d (fp1 .f32 o (fTanh ftz)))

end Sys2Proof.Machine
end

