-- ==== Sys2Proof/Machine/HostIf.lean ====
section
/-! DEFINITION. The host and the peers: features, contexts, power limits, registers, the host window, peer
accesses, links, bring-up, mapping changes and way masks (R257, R322, R340 to R347, R390 to R400). -/

namespace Sys2Proof.Machine

/-! ### Features and contexts (R392 to R394) -/

/-- FEATCAP: STEP, 0xB0 for stepping B0, and the features offered (R1, R390). DEDUCED (log 35): all ten. -/
def featCap : W64 := 0xB0000000000003FF

/-- FEATACC_WRITE: the first write after reset fixes the accepted set, what FEATCAP offers of it; later ones are ignored
(R392). -/
def execFeataccWrite (v : W64) (s : State) : Host.Outcome State Fault Refusal :=
  .next (if s.featWritten then s else { s with featAcc := (v &&& featCap).toNat % 1024, featWritten := true })

/-- Whether the fields of a context descriptor that the device copies keep R393. -/
def descOk (d : List Byte) : Bool :=
  let a := fun (o : Nat) => field d o 8
  [0x00, 0x10, 0x20, 0x28, 0x30, 0x40, 0x50, 0x60].all (fun o => a o % 4096 == 0) && a 0x08 % 4 == 0 &&
  isHbm (a 0x00) && decide (a 0x70 % 2 ^ 30 = 0 ∧ a 0x78 % 65536 = 0 ∧ a 0x80 % 65536 = 0) &&
  (a 0x80 == 0 || decide (a 0x70 ≤ a 0x78 ∧ a 0x78 + a 0x80 ≤ a 0x70 + 2 ^ 30)) &&
  decide (50 ≤ field d 0x88 4 ∧ field d 0x88 4 ≤ 1000000 ∧ field d 0x8C 1 < 16 ∧ field d 0x8D 1 < 4) &&
  zeroField d 0x8E 2 && zeroField d 0xC0 64 && zeroField d 0xB00 1280

/-- The context that a descriptor describes, at incarnation 0, open. DESIGN CHOICE (log 11): it has a time slice from its creation
on, beside those of other contexts (R273). -/
def contextOf (desc : Nat) (d : List Byte) : Context :=
  let a := fun (o : Nat) => BitVec.ofNat 64 (field d o 8)
  { used := true
    desc := desc
    root := a 0x00
    handler := a 0x08
    stack := a 0x10
    stackLen := a 0x18
    cq := a 0x20
    callRing := a 0x28
    spill := a 0x30
    spillLen := a 0x38
    save := a 0x40
    saveLen := a 0x48
    pool := a 0x50
    poolLen := a 0x58
    trace := a 0x60
    traceLen := a 0x68
    hwin := a 0x70
    hro := a 0x78
    hroLen := a 0x80
    slice := field d 0x88 4
    part := field d 0x8C 1
    debug := (field d 0x8D 1).testBit 0
    conf := (field d 0x8D 1).testBit 1
    isOpen := true }

/-- CTXSTAT of a create, and the descriptor's address when it is 0. -/
def State.createStatus (s : State) (ctx : Nat) : Nat × Nat :=
  if !s.featWritten then (3, 0)
  else if (s.ctx ctx).used then (4, 0)
  else
    let desc := s.peek (s.ctxTab + 8 * ctx) 8
    if desc = 0 ∨ desc % 4096 ≠ 0 then (2, 0)
    else
      let d := s.ownBytes desc 4096
      if !descOk d then (2, 0)
      else if (field d 0x8D 1).testBit 1 && !s.featAcc.testBit 6 then (3, 0)
      else (0, desc)

/-- Whether a command written to CTXCMD is discarded: an earlier one is busy (R394), or no firmware runs yet (R398).
DEDUCED (log 35): until FEATACC is written it is answered first (R392). -/
def State.cmdLost (s : State) : Bool := s.ctxStat == 1 || (s.featWritten && s.bootStat != 1)

/-- Pages of sieve windows in the contexts' mappings: the context, the window's base, the page's number in it, and its frame
(R369). -/
def State.sievePages (s : State) : List (Nat × Nat × Nat × Nat) :=
  s.allLeaves.filterMap (fun l =>
    let va := l.2.2.1
    let e := l.2.2.2
    if va % 65536 = 0 && pteSieve e && isHbm (pteAddr e * 4096) && pteSize e == 2 then
      some (l.1, va / 8388608 * 8388608, va % 8388608 / 65536, leafPa e va / 65536 * 65536)
    else none)

/-- The sieve windows once mappings have changed: each has the pages of its range with SIEVE set, one without such a page is no
more, and a range that has got such a page is one (R369). -/
def State.resieve (s : State) : State :=
  let ps := s.sievePages
  let of := fun (ctx base : Nat) => (ps.filter (fun p => p.1 == ctx && p.2.1 == base)).map (fun p => p.2.2)
  let kept := s.sieves.foldl (fun (m : FMap Sieve) w =>
    let mine := of w.2.ctx w.2.base
    m.set Sieve.none w.1 (if mine.isEmpty then Sieve.none else { w.2 with pages := mine })) s.sieves
  let fresh := ((ps.map (fun p => (p.1, p.2.1))).dedup).filter (fun p =>
    !kept.any (fun w => w.2.ctx == p.1 && w.2.base == p.2))
  { s with sieves := fresh.foldl (fun (m : FMap Sieve) p =>
      let k := match m.getLast? with
        | some w => w.1 + 1
        | none => 0
      m.set Sieve.none k { ctx := p.1, inc := (s.ctx p.1).inc, base := p.2, pages := of p.1 p.2 }) kept }

/-- Whether the Memory core refuses what a context's tables map once it is created: a page that it would not map, a frame under
another mode, or a sieve window in two stacks (R344, R369, R391). -/
def State.badTables (s : State) (ctx : Nat) : Bool :=
  s.clashes || s.resieve.sieveSplit || s.allLeaves.any (fun l => l.1 == ctx && s.refusesMap l.2.2.2)

/-- CTX_CREATE: a create written to CTXCMD (R394); its context field has ten bits. What the tables under its ROOT map is mapped
from then on (R344, R369). DESIGN CHOICE (log 35): tables that the Memory core would refuse make the descriptor invalid. -/
def execCtxCreate (ctx : Nat) (s : State) : Host.Outcome State Fault Refusal :=
  if 1024 ≤ ctx ∨ s.cmdLost then .next s
  else
    let r := s.createStatus ctx
    if r.1 ≠ 0 then .next { s with ctxStat := r.1 }
    else
      let c := contextOf r.2 (s.ownBytes r.2 4096)
      let t := { s with ctxs := s.ctxs.set Context.none ctx c, ctxStat := 0 }
      if t.badTables ctx then .next { s with ctxStat := 2 }
      else .next ((t.reframe.resieve.poke (r.2 + 0x98) 8 0).putIncb ctx)

/-- CTX_DESTROY: the context is killed with reason 1, and its number is freed at the reclaim (R394). -/
def execCtxDestroy (ctx : Nat) (s : State) : Host.Outcome State Fault Refusal :=
  if 1024 ≤ ctx ∨ s.cmdLost then .next s
  else if !s.featWritten then .next { s with ctxStat := 3 }
  else if !(s.ctx ctx).used then .next { s with ctxStat := 5 }
  else
    let s := s.modCtx ctx (fun c => { c with destroying := true })
    .next ({ s with ctxStat := 1 }.wantKill ctx 1 0)

/-! ### Power (R400) -/

/-- PWRCAP_WRITE: the value is clamped to the accepted range. DEDUCED (log 35): the upper end by form. -/
def execPwrcapWrite (v : W64) (s : State) : Host.Outcome State Fault Refusal :=
  let top := if Config.isCard then s.brdLim else 2800
  .next { s with pwrCap := max 2100 (min v.toNat top) }

/-- BRDLIM_WRITE: the management controller writes the limit once after reset.
DEDUCED (log 35): no other write is possible. -/
def execBrdlimWrite (v : W64) (s : State) : Host.Outcome State Fault Refusal :=
  if s.brdWritten ∨ v.toNat < 2100 ∨ 2800 < v.toNat then notEnabled "BRDLIM_WRITE"
  else .next { s with brdLim := v.toNat, brdWritten := true }

/-! ### Registers without a row of their own (R383, R384, R386, R390) -/

/-- What a WCTL keeps of a write: its reserved bits read zero (R384). -/
def wctlMask : W64 := 0x3FF0037

/-- What BAR 0 reads as at an offset of eight bytes (R10, R390, R392): its write-only registers and reserved offsets read
zero. DESIGN CHOICE (log 49): the DEBUG window holds what is written there. -/
def State.bar0 (s : State) (off : Nat) : W64 :=
  match off with
  | 0x00 => featCap
  | 0x08 => BitVec.ofNat 64 s.featAcc
  | 0x10 => BitVec.ofNat 64 s.ctxTab
  | 0x20 => BitVec.ofNat 64 s.ctxStat
  | 0x30 => BitVec.ofNat 64 s.bootStat
  | 0x38 => BitVec.ofNat 64 s.pwrCap
  | 0x40 => BitVec.ofNat 64 s.errLog
  | _ =>
    if 0x100 ≤ off ∧ off < 0x200 then BitVec.ofNat 64 (field s.meas (off - 0x100) 8)
    else if 0x1000 ≤ off ∧ off < 0x2000 then
      BitVec.ofNat 64 (leNat ((List.range 8).map (fun k => s.debugWin.get 0 (off - 0x1000 + k))))
    else 0

/-- A request of the debugger to the Trace core (R61, R380, R383, R384, R386, R388). -/
def State.traceWrite (s : State) (r : HostReg) (v : W64) : State :=
  match r with
  | .wctl part k =>
    let x := v &&& wctlMask
    if 1024 ≤ part ∨ 8 ≤ k ∨ (wctlEn x && !s.debugOk (wctlCtx x)) then s
    else s.modPart part (fun p => { p with wctl := p.wctl.set k x })
  | .wlo part k => if 1024 ≤ part ∨ 8 ≤ k then s else s.modPart part (fun p => { p with wlo := p.wlo.set k v })
  | .whi part k => if 1024 ≤ part ∨ 8 ≤ k then s else s.modPart part (fun p => { p with whi := p.whi.set k v })
  | .samplePeriod part =>
    let n := v.toNat
    if 1024 ≤ part ∨ ¬(n = 0 ∨ (8 ≤ n ∧ n ≤ 24)) then s
    else
      let t := if n = 0 then 0 else 2 ^ n
      s.modPart part (fun p => { p with period := t, sampleNext := s.steps + t })
  | .singleStep g =>
    if (s.group g).resident && !(s.group g).scout && s.debugOk (s.group g).ctx then s.setStep g (v.getLsbD 0) else s
  | .snapEnable ctx =>
    if (s.ctx ctx).used && (s.ctx ctx).debug then s.modCtx ctx (fun c => { c with snapOn := v.getLsbD 0 }) else s
  | _ => s

/-- REGISTER_WRITE, and a read of BAR 0 (R10, R380, R384, R390). A watchpoint that names a context whose debugging is not
accepted is refused, and changes nothing. A sampling period that R383 does not allow, and a register that does not exist,
are ignored, and so is every request of the Trace core before it runs (R398). DESIGN CHOICE (log 49). -/
def execRegisterWrite (r : HostReg) (v : W64) (s : State) : Host.Outcome State Fault Refusal :=
  match r with
  | .ctxtab => .next { s with ctxTab := v.toNat }
  | .debug off =>
    if 4096 < off + 8 then .next s
    else .next { s with debugWin := (leBytes 8 v.toNat).zipIdx.foldl (fun m b => FMap.set 0 m (off + b.2) b.1) s.debugWin }
  | .fixed _ => .next s
  | .read off => .next { s with hostData := leBytes 8 (s.bar0 off).toNat }
  | .wctl .. | .wlo .. | .whi .. | .samplePeriod _ | .singleStep _ | .snapEnable _ =>
    .next (if s.bootStat = 1 then s.traceWrite r v else s)

/-! ### The host window (R395, R397) -/

/-- Whether a range lies in a context's host read-only range, in whole or in part. -/
def Context.inHro (c : Context) (va n : Nat) (whole : Bool) : Bool :=
  let a := c.hro.toNat
  let e := a + c.hroLen.toNat
  if whole then decide (a ≤ va ∧ va + n ≤ e) else decide (va < e ∧ a < va + n)

/-- Number in R163 of the atomic that an AtomicOp is (R169), with the value a CAS compares. -/
def hostAtom : HostOp → Option (Nat × W64)
  | .fetchAdd => some (0, 0)
  | .swap => some (6, 0)
  | .cas c => some (8, c)
  | _ => none

/-- HOST_WINDOW_ACCESS: a read of as many bytes as `bytes` has, a write of `bytes`, or an AtomicOp with them (R169, R395). An
access that would fault is not performed, and no page is made present for it. One of a context that is closed, or of none, is
dropped without an answer (R351). DEDUCED (log 48): what a refused access returns, and what an AtomicOp needs. -/
def execHostWindowAccess (ctx off : Nat) (op : HostOp) (bytes : List Byte) (s : State) :
    Host.Outcome State Fault Refusal :=
  let n := bytes.length
  let c := s.ctx ctx
  let va := c.hwin.toNat + off
  let go := fun (need : Need) (s : State) (a m : Nat) (hit : Bool) => s.devWalk ctx need a m hit
  let ones := fun (s : State) => { s.logError 7 ctx with hostData := List.replicate n 255 }
  if 1024 ≤ ctx ∨ 2 ^ 30 < off + n ∨ n = 0 ∨ !c.used ∨ !c.isOpen then .next s
  else
    match op with
    | .read =>
      if c.conf && !c.inHro va n true then .next (ones s)
      else
        match s.readBy ctx (go .read) va n with
        | (s, .ok bs) => .next { s with hostData := bs }
        | (s, .error _) => .next (ones s)
    | .write =>
      if c.inHro va n false then .next (s.logError 7 ctx)
      else
        match s.writeBy ctx (go .write) va bytes with
        | (s, .ok _) => .next s
        | (s, .error _) => .next (s.logError 7 ctx)
    | _ =>
      if (n ≠ 4 ∧ n ≠ 8) ∨ va % n ≠ 0 ∨ c.conf ∨ c.inHro va n false then .next (ones s)
      else
        match go .rw s va n true with
        | (s, .error _) => .next (ones s)
        | (s, .ok pa) =>
          let old := s.seenBytes ctx pa n
          let k := (hostAtom op).getD (0, 0)
          if s.poisoned pa then .next (ones s)
          else if k.1 = 8 ∧ leNat old ≠ k.2.toNat then .next { s with hostData := old }
          else
            .next { s.sysWrite pa (leBytes n (atomValue k.1 (n == 8) false (leNat old) (leNat bytes) k.2.toNat)) (s.keyOf ctx) with
              hostData := old }

/-! ### Peers (R257, R396) -/

/-- Whether an address lies in a tile in transit, at whose owning point an access waits (R313). -/
def State.tileMoves (s : State) (pa : Nat) : Bool :=
  s.moving.any (fun m => m.fpa / 65536 == pa / 65536 && decide (1 ≤ m.stage ∧ m.stage < 7) && !m.abandoned)

/-- PEER_ACCESS: a read, write or atomic from a peer package reaches its owning point; a stale one is dropped (R257, R351).
An address that the package does not have, or does not show, is none of an owning point (R3, R4). One that meets a tile in transit waits there, and its core then translates it again (R313, R317). DEDUCED (log 36). -/
def execPeerAccess (ctx inc pa : Nat) (op : PeerOp) (bytes : List Byte) (s : State) :
    Host.Outcome State Fault Refusal :=
  let c := s.ctx ctx
  let n := bytes.length
  if isFar pa ∨ 2 ^ 52 ≤ pa ∨ !s.hasRange pa n ∨ !s.featAcc.testBit 7 ∨ !c.used ∨ !c.isOpen ∨ c.inc ≠ inc then .next s
  else if s.tileMoves pa then notEnabled "PEER_ACCESS"
  else
    let bad := (List.range n).any (fun k => s.poisoned (pa + k))
    match op with
    | .read => .next { s with hostData := if bad then [] else s.seenBytes ctx pa n }
    | .write => .next (s.ownWrite ctx true pa bytes)
    | .atomic k sgn v =>
      if (n ≠ 4 ∧ n ≠ 8) ∨ 9 ≤ k then .next s
      else if bad then .next { s with hostData := [] }
      else
        let old := s.seenBytes ctx pa n
        let s := { s with hostData := old }
        if k = 8 ∧ leNat old ≠ v.toNat then .next s
        else .next (s.ownWrite ctx false pa (leBytes n (atomValue k (n == 8) sgn (leNat old) (leNat bytes) v.toNat)))

/-- LINK_PORT_FAILURE: a port that fails retraining is removed from routing (R396). -/
def execLinkPortFailure (port : Nat) (s : State) : Host.Outcome State Fault Refusal :=
  if 24 ≤ port then .next s
  else if s.portsDown.contains port then notEnabled "LINK_PORT_FAILURE"
  else .next { s with portsDown := s.portsDown ++ [port] }

/-! ### Bring-up (R398) -/

/-- Bring-up sets the vault reservations of cores (R4): at most two save slots, and an estate store of 1 or 2 MiB. -/
def State.setVaults (s : State) (vs : List (Nat × Nat × Nat)) : State :=
  (vs.filter (fun v => decide (v.1 < 256 ∧ v.2.1 ≤ 2 ∧ (v.2.2 = 1048576 ∨ v.2.2 = 2097152)))).foldl
    (fun s v => s.modCore v.1 (fun c => { c with slots := v.2.1, store := v.2.2 })) s

/-- RESET_BOOT: the Security core has checked and measured the images; one that fails leaves BAR 0 alone. The Memory core
sets the vaults, and the Fabric core the domain number and the routes (R4, R396). DESIGN CHOICE (log 42): what it finds is a
parameter. -/
def execResetBoot (failed : Option Nat) (b : Boot) (s : State) : Host.Outcome State Fault Refusal :=
  if s.bootStat ≠ 0 ∨ b.meas.length ≠ 256 then notEnabled "RESET_BOOT"
  else
    match failed with
    | none =>
      .next ({ s with
        bootStat := 1
        meas := b.meas
        domainNo := b.domain % 256
        routes := b.routes.foldl (fun (m : FMap (List Nat)) (r : Nat × List Nat) => m.set (List.range 24) (r.1 % 256) r.2) s.routes }.setVaults b.vaults)
    | some n =>
      if 8 ≤ n then notEnabled "RESET_BOOT" else .next { s with bootStat := 2 + n, meas := b.meas }

/-! ### Mapping changes (R340 to R347, R369, R391) -/

/-- The Memory core changes mappings, once every access translated before has been performed (R344, R347), and the sieve windows
follow them (R369). -/
def State.changeMap (s : State) (writes : List (Nat × W64)) : State := (s.settleAll.remap writes).resieve

/-- MAPPING_CHANGE: the Memory core changes a range of a context's mapping, or takes note of a page that it can
make present later (R330, R347). A mapping that it refuses changes nothing, and one whose pages an open transaction still holds
waits for it. DESIGN CHOICE (log 35): pages to come, and that wait. -/
def execMappingChange (ctx va len : Nat) (writes : List (Nat × W64)) (backing : Bool) (s : State) :
    Host.Outcome State Fault Refusal :=
  if !(s.ctx ctx).used || s.bootStat != 1 then notEnabled "MAPPING_CHANGE"
  else if writes.any (fun w => w.1 % 8 != 0 || !isHbm w.1 || s.refusesMap w.2 || (backing && pteSieve w.2)) ||
      s.protClash writes then .next s
  else if backing then .next (s.modCtx ctx (fun c => { c with backing := c.backing ++ [⟨va, len, writes⟩] }))
  else if s.txHolds (s.unmaps writes) then notEnabled "MAPPING_CHANGE"
  else
    let t := s.changeMap writes
    .next (if t.sieveSplit then s else t)

/-- WAY_MASK_WRITE: the Memory core gives a partition's mask a value that leaves it a usable way; it refuses another
(R322). -/
def execWayMaskWrite (die q : Nat) (ways : BitVec 16) (s : State) : Host.Outcome State Fault Refusal :=
  if 8 ≤ die ∨ 16 ≤ q then .next s
  else if s.bootStat ≠ 1 then notEnabled "WAY_MASK_WRITE"
  else if (List.range 16).any (fun w => ways.getLsbD w && !(s.die die).quarantined.any (fun q => q % 16 == w)) then
    .next (s.modDie die (fun d => { d with ways := d.ways.set 0xFFFF q ways }))
  else .next s

end Sys2Proof.Machine
end

