-- ==== Sys2Proof/Machine/Integer.lean ====
section
/-! DEFINITION. Integer, bit, address, compare, select, move and predicate instructions (R118 to R129). -/

namespace Sys2Proof.Machine

/-! ### Arithmetic (R119 to R121) -/

/-- `add` (R119, R120). -/
def execAdd (t : IntTy) (sat : Bool) (c : Ctl) (o : Ops) (s : State) : Host.Outcome State Fault Refusal :=
  perform (.add t sat c o) s (fun x s => s.alu x o.d t.regs t.signed (arith t sat o (· + ·)))

/-- `sub` (R119, R120). -/
def execSub (t : IntTy) (sat : Bool) (c : Ctl) (o : Ops) (s : State) : Host.Outcome State Fault Refusal :=
  perform (.sub t sat c o) s (fun x s => s.alu x o.d t.regs t.signed (arith t sat o (· - ·)))

/-- `mul` (R119, R120). -/
def execMul (t : IntTy) (sat : Bool) (c : Ctl) (o : Ops) (s : State) : Host.Outcome State Fault Refusal :=
  perform (.mul t sat c o) s (fun x s => s.alu x o.d t.regs t.signed (arith t sat o (· * ·)))

/-- High half of a product (R121). -/
def mulHigh (t : IntTy) (x y : Int) : Nat := t.wrap (x * y / (2 ^ t.bits : Nat))

/-- `mulhi` (R121). -/
def execMulhi (t : IntTy) (c : Ctl) (o : Ops) (s : State) : Host.Outcome State Fault Refusal :=
  perform (.mulhi t c o) s (fun x s => s.alu x o.d t.regs t.signed (fun g i =>
    plainRes (mulHigh t (t.val (srcInt g i t o.a % 2 ^ t.bits)) (t.val (srcInt g i t o.b % 2 ^ t.bits)))))

/-- `mulw`: the exact product in 64 bits (R121). -/
def execMulw (t : IntTy) (c : Ctl) (o : Ops) (s : State) : Host.Outcome State Fault Refusal :=
  perform (.mulw t c o) s (fun x s => s.alu x o.d 2 t.signed (fun g i =>
    plainRes (IntTy.wrap .z64 (t.val (srcInt g i t o.a) * t.val (srcInt g i t o.b)))))

/-- `mad`: D is the third source (R120). -/
def execMad (t : IntTy) (sat : Bool) (c : Ctl) (o : Ops) (s : State) : Host.Outcome State Fault Refusal :=
  perform (.mad t sat c o) s (fun x s => s.alu x o.d t.regs t.signed (fun g i =>
    elemwise t (fun j => narrow t sat (t.val (srcElem g i t o.d j) +
      t.val (srcElem g i t o.a j) * t.val (srcElem g i t o.b j)))))

/-- Quotient truncated toward zero, with the cases of R121. -/
def divide (t : IntTy) (x y : Int) : Nat :=
  if y = 0 then t.wrap (-1)
  else if t.signed ∧ x = t.lo ∧ y = -1 then t.wrap t.lo
  else t.wrap (x.tdiv y)

/-- Remainder with the sign of `x`, with the cases of R121. -/
def remainder (t : IntTy) (x y : Int) : Nat :=
  if y = 0 then t.wrap x
  else if t.signed ∧ x = t.lo ∧ y = -1 then 0
  else t.wrap (x - y * x.tdiv y)

/-- `div` (R121). -/
def execDiv (t : IntTy) (c : Ctl) (o : Ops) (s : State) : Host.Outcome State Fault Refusal :=
  perform (.div t c o) s (fun x s => s.alu x o.d t.regs t.signed (fun g i =>
    plainRes (divide t (t.val (srcInt g i t o.a)) (t.val (srcInt g i t o.b)))))

/-- `rem` (R121). -/
def execRem (t : IntTy) (c : Ctl) (o : Ops) (s : State) : Host.Outcome State Fault Refusal :=
  perform (.rem t c o) s (fun x s => s.alu x o.d t.regs t.signed (fun g i =>
    plainRes (remainder t (t.val (srcInt g i t o.a)) (t.val (srcInt g i t o.b)))))

/-- `min` (R119). -/
def execMin (t : IntTy) (c : Ctl) (o : Ops) (s : State) : Host.Outcome State Fault Refusal :=
  perform (.min t c o) s (fun x s => s.alu x o.d t.regs t.signed (arith t false o (fun a b => min a b)))

/-- `max` (R119). -/
def execMax (t : IntTy) (c : Ctl) (o : Ops) (s : State) : Host.Outcome State Fault Refusal :=
  perform (.max t c o) s (fun x s => s.alu x o.d t.regs t.signed (arith t false o (fun a b => max a b)))

/-- `abs` (R119, R120). -/
def execAbs (t : IntTy) (sat : Bool) (c : Ctl) (o : Ops) (s : State) : Host.Outcome State Fault Refusal :=
  perform (.abs t sat c o) s (fun x s => s.alu x o.d t.regs t.signed (arith1 t sat o (fun a => (a.natAbs : Int))))

/-- `neg` (R119, R120). -/
def execNeg (t : IntTy) (sat : Bool) (c : Ctl) (o : Ops) (s : State) : Host.Outcome State Fault Refusal :=
  perform (.neg t sat c o) s (fun x s => s.alu x o.d t.regs t.signed (arith1 t sat o (fun a => -a)))

/-! ### Bits (R122 to R124) -/

/-- A bit instruction of two sources. -/
def bits2 (w64 : Bool) (o : Ops) (f : Nat → Nat → Nat) (g : Group) (i : Nat) : Res :=
  plainRes (f (srcBit g i w64 o.a) (srcBit g i w64 o.b))

/-- `and` (R122). -/
def execAnd (w64 : Bool) (c : Ctl) (o : Ops) (s : State) : Host.Outcome State Fault Refusal :=
  perform (.and w64 c o) s (fun x s => s.alu x o.d (regsOf w64) false (bits2 w64 o (· &&& ·)))

/-- `or` (R122). -/
def execOr (w64 : Bool) (c : Ctl) (o : Ops) (s : State) : Host.Outcome State Fault Refusal :=
  perform (.or w64 c o) s (fun x s => s.alu x o.d (regsOf w64) false (bits2 w64 o (· ||| ·)))

/-- `xor` (R122). -/
def execXor (w64 : Bool) (c : Ctl) (o : Ops) (s : State) : Host.Outcome State Fault Refusal :=
  perform (.xor w64 c o) s (fun x s => s.alu x o.d (regsOf w64) false (bits2 w64 o (· ^^^ ·)))

/-- `not` (R122). -/
def execNot (w64 : Bool) (c : Ctl) (o : Ops) (s : State) : Host.Outcome State Fault Refusal :=
  perform (.not w64 c o) s (fun x s => s.alu x o.d (regsOf w64) false (fun g i =>
    plainRes (2 ^ widthOf w64 - 1 - srcBit g i w64 o.a)))

/-- Left shift of an element (R123). -/
def shiftLeft (t : IntTy) (x n : Nat) : Nat := if t.bits ≤ n then 0 else x * 2 ^ n % 2 ^ t.bits

/-- Right shift of an element: zeros for `.z`, copies of the top bit for `.s` (R123). -/
def shiftRight (t : IntTy) (x n : Nat) : Nat := t.wrap (t.val x / (2 ^ min n t.bits : Nat))

/-- `shl` (R123). -/
def execShl (t : IntTy) (c : Ctl) (o : Ops) (s : State) : Host.Outcome State Fault Refusal :=
  perform (.shl t c o) s (fun x s => s.alu x o.d t.regs t.signed (fun g i =>
    elemwise t (fun j => plainRes (shiftLeft t (srcElem g i t o.a j) (srcElem g i t o.b j)))))

/-- `shr` (R123). -/
def execShr (t : IntTy) (c : Ctl) (o : Ops) (s : State) : Host.Outcome State Fault Refusal :=
  perform (.shr t c o) s (fun x s => s.alu x o.d t.regs t.signed (fun g i =>
    elemwise t (fun j => plainRes (shiftRight t (srcElem g i t o.a j) (srcElem g i t o.b j)))))

/-- Rotation left by `n` modulo the width (R122). -/
def rotateLeft (w x n : Nat) : Nat := (x * 2 ^ (n % w) + x / 2 ^ (w - n % w)) % 2 ^ w

/-- `rotl` (R122). -/
def execRotl (w64 : Bool) (c : Ctl) (o : Ops) (s : State) : Host.Outcome State Fault Refusal :=
  perform (.rotl w64 c o) s (fun x s => s.alu x o.d (regsOf w64) false (bits2 w64 o (rotateLeft (widthOf w64))))

/-- Number of one bits among the low `w`. -/
def popCount (w x : Nat) : Nat := ((List.range w).filter (fun k => x.testBit k)).length

/-- Leading zeros of a `w`-bit value. -/
def leadingZeros (w x : Nat) : Nat := if x = 0 then w else w - 1 - Nat.log2 x

/-- The low `w` bits in reverse order. -/
def bitReverse (w x : Nat) : Nat :=
  ((List.range w).map (fun k => if x.testBit k then 2 ^ (w - 1 - k) else 0)).sum

/-- `popc` (R122). -/
def execPopc (w64 : Bool) (c : Ctl) (o : Ops) (s : State) : Host.Outcome State Fault Refusal :=
  perform (.popc w64 c o) s (fun x s => s.alu x o.d 1 false (fun g i =>
    plainRes (popCount (widthOf w64) (srcBit g i w64 o.a))))

/-- `clz` (R122). -/
def execClz (w64 : Bool) (c : Ctl) (o : Ops) (s : State) : Host.Outcome State Fault Refusal :=
  perform (.clz w64 c o) s (fun x s => s.alu x o.d 1 false (fun g i =>
    plainRes (leadingZeros (widthOf w64) (srcBit g i w64 o.a))))

/-- `brev` (R122). -/
def execBrev (w64 : Bool) (c : Ctl) (o : Ops) (s : State) : Host.Outcome State Fault Refusal :=
  perform (.brev w64 c o) s (fun x s => s.alu x o.d (regsOf w64) false (fun g i =>
    plainRes (bitReverse (widthOf w64) (srcBit g i w64 o.a))))

/-- Start and length of a field in a value of width `w` (R124). -/
def fieldSpan (w b : Nat) : Nat × Nat :=
  let st := min (b % 256) w
  (st, min (b / 256 % 256) (w - st))

/-- A field, extended by the type (R124). -/
def extractField (t : IntTy) (a b : Nat) : Nat :=
  let p := fieldSpan t.bits b
  let f := a / 2 ^ p.1 % 2 ^ p.2
  if t.signed ∧ p.2 ≠ 0 ∧ 2 ^ (p.2 - 1) ≤ f then 2 ^ t.bits - 2 ^ p.2 + f else f

/-- A value with a field replaced (R124). -/
def insertField (w d a b : Nat) : Nat :=
  let p := fieldSpan w b
  d - (d / 2 ^ p.1 % 2 ^ p.2) * 2 ^ p.1 + a % 2 ^ p.2 * 2 ^ p.1

/-- `bfx` (R124). -/
def execBfx (t : IntTy) (c : Ctl) (o : Ops) (s : State) : Host.Outcome State Fault Refusal :=
  perform (.bfx t c o) s (fun x s => s.alu x o.d t.regs t.signed (fun g i =>
    plainRes (extractField t (srcInt g i t o.a) (srcInt g i .z32 o.b))))

/-- `bfi` (R124). -/
def execBfi (w64 : Bool) (c : Ctl) (o : Ops) (s : State) : Host.Outcome State Fault Refusal :=
  perform (.bfi w64 c o) s (fun x s => s.alu x o.d (regsOf w64) false (fun g i =>
    plainRes (insertField (widthOf w64) (srcBit g i w64 o.d) (srcBit g i w64 o.a) (srcBit g i false o.b))))

/-! ### Address, compare, select, move, predicates (R125 to R129) -/

/-- `lea` (R125). -/
def execLea (z : Bool) (sh : Nat) (c : Ctl) (o : Ops) (s : State) : Host.Outcome State Fault Refusal :=
  perform (.lea z sh c o) s (fun x s => s.alu x o.d 2 false (fun g i =>
    let b := (srcInt g i .z32 o.b : Nat)
    plainRes (IntTy.wrap .z64 ((srcInt g i .z64 o.a : Nat) + (if z then (b : Int) else IntTy.val .s32 b) * 2 ^ sh))))

/-- Whether a condition holds of two integers (R126). -/
def Cond.holds (cc : Cond) (x y : Int) : Bool :=
  match cc with
  | .eq => x == y
  | .ne => x != y
  | .lt => decide (x < y)
  | .le => decide (x ≤ y)
  | .gt => decide (y < x)
  | .ge => decide (y ≤ x)
  | .un => false

/-- A predicate result. -/
def predRes (b : Bool) : Res := plainRes (if b then 1 else 0)

/-- `cmp` (R126). -/
def execCmp (cc : Cond) (t : IntTy) (c : Ctl) (o : Ops) (s : State) : Host.Outcome State Fault Refusal :=
  perform (.cmp cc t c o) s (fun x s => s.alu x o.d 1 false (fun g i =>
    predRes (Cond.holds cc (t.val (srcInt g i t o.a)) (t.val (srcInt g i t o.b)))))

/-- `sel` (R127). -/
def execSel (w64 : Bool) (inv : Bool) (k : Nat) (c : Ctl) (o : Ops) (s : State) :
    Host.Outcome State Fault Refusal :=
  perform (.sel w64 inv k c o) s (fun x s => s.alu x o.d (regsOf w64) false (fun g i =>
    plainRes (if (g.lane i).pred k != inv then srcBit g i w64 o.a else srcBit g i w64 o.b)))

/-- `mov` (R128). -/
def execMov (w64 : Bool) (c : Ctl) (o : Ops) (s : State) : Host.Outcome State Fault Refusal :=
  perform (.mov w64 c o) s (fun x s => s.alu x o.d (regsOf w64) false (fun g i =>
    plainRes (srcBit g i w64 o.a)))

/-- An operation on predicates (R129). -/
def PlogOp.on (op : PlogOp) (a b : Bool) : Bool :=
  match op with
  | .and => a && b
  | .or => a || b
  | .xor => a != b
  | .andn => a && !b

/-- `plog` (R129). -/
def execPlog (op : PlogOp) (c : Ctl) (o : Ops) (s : State) : Host.Outcome State Fault Refusal :=
  perform (.plog op c o) s (fun x s => s.alu x o.d 1 false (fun g i =>
    predRes (PlogOp.on op ((g.lane i).pred (Opnd.idx o.a)) ((g.lane i).pred (Opnd.idx o.b)))))

end Sys2Proof.Machine
end

