-- ==== Sys2Proof/Machine/Lanes.lean ====
section
/-! DEFINITION. Cross-lane instructions (R140 to R144). -/

namespace Sys2Proof.Machine

/-- `xlane` (R140). -/
def execXlane (m : XlaneMode) (w64 : Bool) (c : Ctl) (o : Ops) (s : State) :
    Host.Outcome State Fault Refusal :=
  perform (.xlane m w64 c o) s (fun x s => s.alu x o.d (regsOf w64) false (fun g i =>
    plainRes (g.value (xlaneFrom m g.width i (srcInt g i .z32 o.b)) o.a (regsOf w64)).toNat))

/-- Active lanes whose predicate A is true. -/
def polled (g : Group) (act : List Nat) (a : Opnd) : List Nat :=
  act.filter (fun i => (g.lane i).pred (Opnd.idx a))

/-- The value of `lpoll` (R141). -/
def pollValue (m : PollMode) (g : Group) (act : List Nat) (a : Opnd) : Nat :=
  let t := polled g act a
  match m with
  | .every => if t.length = act.length then 1 else 0
  | .some => if t.isEmpty then 0 else 1
  | .mask => (t.map (fun i => 2 ^ i)).sum
  | .count => t.length

/-- `lpoll` (R141). -/
def execLpoll (m : PollMode) (c : Ctl) (o : Ops) (s : State) : Host.Outcome State Fault Refusal :=
  perform (.lpoll m c o) s (fun x s => s.alu x o.d (match m with | .mask => 2 | _ => 1) false (fun g _ =>
    plainRes (pollValue m g x.act o.a)))

/-- One step of a fold (R142). -/
def foldStep (op : FoldOp) (t : IntTy) (a b : Nat) : Nat :=
  match op with
  | .add => t.wrap (t.val a + t.val b)
  | .min => if t.val b < t.val a then b else a
  | .max => if t.val a < t.val b then b else a
  | .and => a &&& b
  | .or => a ||| b
  | .xor => a ^^^ b

/-- A fold over values, the first of which starts it (R142). -/
def foldAll (op : FoldOp) (t : IntTy) : List Nat → Nat
  | [] => 0
  | v :: vs => vs.foldl (foldStep op t) v

/-- `lfold` (R142). -/
def execLfold (op : FoldOp) (t : IntTy) (c : Ctl) (o : Ops) (s : State) : Host.Outcome State Fault Refusal :=
  perform (.lfold op t c o) s (fun x s => s.alu x o.d t.regs t.signed (fun g _ =>
    plainRes (foldAll op t (x.act.map (fun i => srcInt g i t o.a)))))

/-- One step of a floating-point fold, with the flags so far. -/
def ffoldStep (op : FoldOp) (r : Rnd) (acc : Res) (v : Nat) : Res :=
  match op with
  | .min => ⟨(fMinMax .f32 false false acc.bits v).bits, acc.flags⟩
  | .max => ⟨(fMinMax .f32 false true acc.bits v).bits, acc.flags⟩
  | _ =>
    let x := fAdd .f32 r false acc.bits v
    ⟨x.bits, acc.flags.or x.flags⟩

/-- A floating-point fold: a NaN that starts it becomes generated, cause 1 (R142). -/
def ffoldAll (op : FoldOp) (r : Rnd) : List Nat → Res
  | [] => plainRes 0
  | v :: vs => vs.foldl (ffoldStep op r)
      (plainRes (if (FVal.ofBits .f32 v).isNan then FpFmt.f32.nan 1 else v))

/-- `ffold` (R142). -/
def execFfold (op : FoldOp) (r : Rnd) (c : Ctl) (o : Ops) (s : State) : Host.Outcome State Fault Refusal :=
  perform (.ffold op r c o) s (fun x s => s.alu x o.d 1 false (fun g _ =>
    ffoldAll op r (x.act.map (fun i => srcFp g i .f32 o.a 0))))

/-- The identity of a scan's operation (R143). -/
def scanUnit (op : FoldOp) (t : IntTy) : Nat :=
  match op with
  | .min => t.wrap t.hi
  | .max => t.wrap t.lo
  | _ => 0

/-- `scan` (R143). -/
def execScan (op : FoldOp) (excl z : Bool) (c : Ctl) (o : Ops) (s : State) :
    Host.Outcome State Fault Refusal :=
  perform (.scan op excl z c o) s (fun x s => s.alu x o.d 1 false (fun g i =>
    let t : IntTy := if z then .z32 else .s32
    let below := x.act.filter (fun j => if excl then decide (j < i) else decide (j ≤ i))
    plainRes ((below.map (fun j => srcInt g j t o.a)).foldl (foldStep op t) (scanUnit op t))))

/-- The four lanes of a lane's quad. -/
def quad (i : Nat) : List Nat := [0, 1, 2, 3].map (fun k => i / 4 * 4 + k)

/-- A lane's word of the memory layout of its quad's sixteen elements (R144). -/
def packSix (g : Group) (a : Opnd) (i : Nat) : Nat :=
  let els := (quad i).flatMap (fun l => (List.range 4).map (fun k => (g.value l a 1).toNat / 256 ^ k % 64))
  if i % 4 = 3 then 0 else joinElems 6 els / 2 ^ (32 * (i % 4)) % 2 ^ 32

/-- A lane's slots of the register layout of its quad's 96-bit stream (R144). -/
def unpackSix (g : Group) (a : Opnd) (i : Nat) : Nat :=
  let stream := joinElems 32 (((quad i).take 3).map (fun l => (g.value l a 1).toNat % 2 ^ 32))
  joinElems 8 ((List.range 4).map (fun k => stream / 2 ^ (6 * (4 * (i % 4) + k)) % 64))

/-- `pk6` (R144). -/
def execPk6 (c : Ctl) (o : Ops) (s : State) : Host.Outcome State Fault Refusal :=
  perform (.pk6 c o) s (fun x s => s.alu x o.d 1 false (fun g i => plainRes (packSix g o.a i)))

/-- `upk6` (R144). -/
def execUpk6 (c : Ctl) (o : Ops) (s : State) : Host.Outcome State Fault Refusal :=
  perform (.upk6 c o) s (fun x s => s.alu x o.d 1 false (fun g i => plainRes (unpackSix g o.a i)))

end Sys2Proof.Machine
end

