-- ==== Sys2Proof/Machine/LoadStore.lean ====
section
/-! DEFINITION. Loads, stores and prefetch (R149 to R162). -/

namespace Sys2Proof.Machine

/-- Whether a load or store acts once for the group: a scalar D and a scalar base, or a scalar base with
scalar or immediate data (R152). -/
def Ops.once (o : Ops) : Bool := o.a.isSca && !o.d.isVec

/-- `ld` (R149 to R152). -/
def execLd (z : Size) (c : Ctl) (o : Ops) (s : State) : Host.Outcome State Fault Refusal :=
  performMem (.ld z c o) s (fun x s =>
    s.accesses x (Ops.once o) (fun _ _ => .load z) o.d o.a (fun g i => offsetOf g i o.b) (fun _ _ => []) none none)

/-- `st` (R149 to R152). -/
def execSt (z : Size) (c : Ctl) (o : Ops) (s : State) : Host.Outcome State Fault Refusal :=
  performMem (.st z c o) s (fun x s =>
    s.accesses x (Ops.once o) (fun _ _ => .store z) .none o.a (fun g i => offsetOf g i o.b)
      (fun g i => storeBytes g i z o.d) none none)

/-- `ld.acq` (R153, R156): the load, then the acquire at its scope. -/
def execLdAcq (sc : Scope) (z : Size) (c : Ctl) (o : Ops) (s : State) : Host.Outcome State Fault Refusal :=
  performMem (.ldAcq sc z c o) s (fun x s =>
    let r := s.refuseTx x
    let lvl := r.1.scopeLevel (r.1.group x.g).team sc
    r.1.accesses r.2 (Ops.once o) (fun _ _ => .load z) o.d o.a (fun g i => offsetOf g i o.b)
      (fun _ _ => []) (some lvl) none)

/-- `st.rel` (R153, R155): the release at its scope, then the store, performed at the scope. -/
def execStRel (sc : Scope) (z : Size) (c : Ctl) (o : Ops) (s : State) : Host.Outcome State Fault Refusal :=
  performMem (.stRel sc z c o) s (fun x s =>
    let r := s.refuseTx x
    let lvl := r.1.scopeLevel (r.1.group x.g).team sc
    r.1.releaseThen r.2 sc (fun s =>
      s.accesses r.2 (Ops.once o) (fun _ _ => .store z) .none o.a (fun g i => offsetOf g i o.b)
        (fun g i => storeBytes g i z o.d) none (some lvl)))

/-- `ldl` (R157 to R159). -/
def execLdl (fe : LoadFe) (z : Size) (c : Ctl) (o : Ops) (s : State) : Host.Outcome State Fault Refusal :=
  performMem (.ldl fe z c o) s (fun x s =>
    let g := s.group x.g
    match x.act with
    | [] => s
    | first :: _ =>
      if Ops.once o then s.localLoad x none x.act fe z o.d (localAddr g first o.a o.b)
      else x.act.foldl (fun s i => s.localLoad x (some i) [i] fe z o.d (localAddr g i o.a o.b)) s)

/-- `stl` (R157 to R160). -/
def execStl (fe : StoreFe) (z : Size) (c : Ctl) (o : Ops) (s : State) : Host.Outcome State Fault Refusal :=
  performMem (.stl fe z c o) s (fun x s =>
    let g := s.group x.g
    match x.act with
    | [] => s
    | first :: _ =>
      if Ops.once o then
        s.localStore x x.act fe z (localAddr g first o.a o.b) (storeBytes g first z o.d)
      else x.act.foldl (fun s i =>
        s.localStore x [i] fe z (localAddr g i o.a o.b) (storeBytes g i z o.d)) s)

/-- Requests the line of an address for a lane (R162): an address that would fault is dropped, and one in a tile in transit
waits there (R314). -/
def State.prefetch (s : State) (x : Issue) (l2 : Bool) (i : Nat) (va : W64) : State :=
  let g := s.group x.g
  match s.translate g.core g.ctx .read va.toNat 1 (!g.scout) with
  | (s, .ok pa _ rva _) =>
    let s := if g.scout then s else s.noteUse g.ctx g.core rva (s.goesBelow g.core (.pref l2) pa)
    (s.access g (.pref l2) pa rva [] 0).1
  | (s, .transit rva hops) => s.push x.g
      { pc := x.pc
        lane := some i
        lanes := g.issuedOf [i]
        writes := []
        access := some
          { op := .pref l2
            va := BitVec.ofNat 64 rva
            va0 := va
            hops := hops
            data := []
            dst := .none
            base := none
            acq := none
            rel := none } }
  | (s, .fault _) => s

/-- `pref` (R162). -/
def execPref (l2 : Bool) (c : Ctl) (o : Ops) (s : State) : Host.Outcome State Fault Refusal :=
  performMem (.pref l2 c o) s (fun x s =>
    let g := s.group x.g
    (if o.a.isSca then x.act.take 1 else x.act).foldl (fun s i =>
      s.prefetch x l2 i (g.value i o.a 2 + offsetOf g i o.b)) s)

end Sys2Proof.Machine
end

