-- ==== Sys2Proof/Machine/Preempt.lean ====
section
/-! DEFINITION. Time slices, and the saving and restoring of teams (R263, R273, R331 to R339). -/

namespace Sys2Proof.Machine

/-! ### Time slices (R272, R273) -/

/-- Whether a context stands between two steps of one packet (R272). -/
def Context.midPacket (c : Context) : Bool := c.queues.any (fun q => q.2.state == .ready)

/-- TIME_SLICE_END: the context gives its slice to the first context that has none; alone, it runs on.
DESIGN CHOICE (log 11): which context follows. -/
def execTimeSliceEnd (ctx : Nat) (s : State) : Host.Outcome State Fault Refusal :=
  let c := s.ctx ctx
  if !c.used || !c.running || (c.midPacket && !s.stuck ctx) then notEnabled "TIME_SLICE_END"
  else
    match (s.ctxs.filter (fun p => p.1 != ctx && p.2.used)) with
    | [] => .next (s.modCtx ctx (fun c => { c with sliceFrom := s.steps }))
    | _ =>
      .next (((s.modCtx ctx (fun c => { c with running := false })).requestPreempt (fun _ t => t.ctx == ctx)).handOn ctx)

/-! ### The save (R263, R331 to R335, R338) -/

/-- Waits of an instruction that has issued and completes before a save (R331). -/
def Wait.mustEnd : Wait → Bool
  | .txe _ | .publ .. | .confirm | .killed => true
  | _ => false

/-- Whether a group waits for a fetch of which a part stands at a tile in transit, where its chase has led so far. -/
def State.fetchWaits (s : State) (g : Group) : Bool :=
  match g.wait with
  | .fetch _ reached => reached.any (fun r => s.inTransit g.ctx (s.follow g.ctx (3 - r.2.2) r.2.1).1)
  | _ => false

/-- Whether a group is drained for a save: its results are written or held, no access of it waits at a tile in transit, and with
TM set it waits as R338 says (R321, R332). DEDUCED (log 12). -/
def State.drained (s : State) (g : Group) : Bool :=
  g.ended ||
  (g.pend.all (fun e => e.held && !e.sweep.any (fun r => r.reached.isSome)) && !g.wait.mustEnd && !s.fetchWaits g &&
    (!g.tm || g.halted || g.halts))

/-- A fetch that has waited at a tile chases before the save of its group (R321). -/
def State.fetchOn (s : State) (k : Nat) : State :=
  let g := s.group k
  match g.wait with
  | .fetch pc reached =>
    let r := reached.foldl (fun (a : State × List (Nat × Nat × Nat)) p =>
      match a.1.chase g.core g.ctx .fetch 1 (firstPiece pc.toNat p.1) (3 - p.2.2) p.2.1 with
      | (s, .ok _ _ va hops) => (s, a.2 ++ [(p.1, va, hops)])
      | (s, .transit va hops) => (s, a.2 ++ [(p.1, va, hops)])
      | (_, .fault _) => (a.1, a.2 ++ [p])) (s, [])
    r.1.modGroup k (fun g => { g with wait := .fetch pc r.2 })
  | _ => s

/-- Bytes of a save slot (R4). -/
def slotBytes : Nat := 2097152

/-- Bytes of a team's save that stand in a slot of the vault of a core. -/
def Team.inSlot (t : Team) (core k : Nat) : Nat :=
  ((t.savedIn.filter (fun p => p.1 == core && p.2.1 == k)).map (fun p => p.2.2)).sum
/-- The teams with a save in a slot of the vault of a core. -/
def State.slotTeams (s : State) (core k : Nat) : List (Nat × Team) :=
  s.teams.filter (fun t => t.2.savedIn.any (fun p => p.1 == core && p.2.1 == k))
/-- Bytes of the saves in a slot. -/
def State.slotUse (s : State) (core k : Nat) : Nat := ((s.slotTeams core k).map (fun t => t.2.inSlot core k)).sum

/-- Whether a save of `size` bytes of a context fits in a slot beside saves of its own. -/
def State.slotShares (s : State) (owner : Nat × Nat) (core size k : Nat) : Bool :=
  !(s.slotTeams core k).isEmpty && (s.slotTeams core k).all (fun t => (t.2.ctx, t.2.inc) == owner) &&
  decide (s.slotUse core k + size ≤ slotBytes)

/-- The slot of a core's vault that takes a save without another leaving: one with saves of its context where it fits, so that a
full core takes one slot (R7), or else a free one (R335). DESIGN CHOICE (log 12). -/
def State.slotFor (s : State) (owner : Nat × Nat) (core size : Nat) : Option Nat :=
  let ks := List.range (s.core core).slots
  (ks.find? (s.slotShares owner core size)).or (ks.find? (fun k => (s.slotTeams core k).isEmpty))

/-- The slot of a core's vault that holds the oldest save. -/
def State.oldestSlot (s : State) (core : Nat) : Nat :=
  let age := fun k => ((s.slotTeams core k).map (fun t => t.2.savedStep)).foldl min s.steps
  (List.range (s.core core).slots).foldl (fun m k => if age k < age m then k else m) 0

/-- Bytes that a group takes in a save: registers up to its allocation, lanes, its A latch, and wills (R333, R334). -/
def Group.saveBytes (g : Group) : Nat :=
  g.width * g.alloc * 4 + 48 * g.width + 576 + (match g.latch with
    | some l => 4 * l.vals.length
    | none => 0) + 40 * (g.ids.map (fun i => (g.lane i).will.length)).sum

/-- Size of the part of a team's save that a core's vault receives: all of it, S of R334, unless the team spans a cluster.
A group that has ended holds no allocation, and takes no part (R7).
DESIGN CHOICE (log 12): each part of a cluster team's save is sized as a save of its own. -/
def State.saveSize (s : State) (team core : Nat) : Nat :=
  let t := s.team team
  let loc := localShare t.locLen t.cluster (decide (t.core < core))
  64 + loc + loc / 128 + (if t.holdsAcc then 262144 else 0) +
    ((t.groups.filter (fun k => !(s.group k).ended && coreOfPart (s.group k).part == core)).map (fun k =>
      (s.group k).saveBytes)).sum

/-- The saves in a slot of a core's vault move to the save area of their context (R335). -/
def State.vacate (s : State) (core k : Nat) : State :=
  { s with teams := s.teams.map (fun (t : Nat × Team) => (t.1, { t.2 with
      savedIn := t.2.savedIn.filter (fun p => !(p.1 == core && p.2.1 == k))
      savedOut := t.2.savedOut + t.2.inSlot core k })) }

/-- Gives a part of a team's save, of `size` bytes, room in a slot of a core's vault: with no slot free, the slot whose save is
the oldest is emptied into its context's save area. A vault without slots sends the part there, and what is beyond a slot's
bytes goes there too (R7, R335). -/
def State.takeSlot (s : State) (team core size : Nat) : State :=
  if (s.core core).slots = 0 then s.modTeam team (fun t => { t with savedOut := t.savedOut + size })
  else
    let (s, k) := match s.slotFor ((s.team team).ctx, (s.team team).inc) core size with
      | some k => (s, k)
      | none => (s.vacate core (s.oldestSlot core), s.oldestSlot core)
    let m := min size slotBytes
    s.modTeam team (fun t => { t with
      savedIn := t.savedIn ++ [(core, k, m)]
      savedOut := t.savedOut + (size - m) })

/-- A wait without a lane, whose PC it no longer moves. -/
def Wait.without (w : Wait) (i : Nat) : Wait :=
  match w with
  | .bar min => .bar (min.filter (fun j => j != i))
  | .donate give d p k min => .donate give d p k (min.filter (fun j => j != i))
  | .ring op d hdr v min => .ring op d hdr v (min.filter (fun j => j != i))
  | w => w

/-- The open transactions of a group abort with D = 5, and their lanes stand at the abort targets (R332). -/
def State.abortAll (s : State) (k cause : Nat) : State :=
  (s.group k).ids.foldl (fun s i =>
    if ((s.group k).lane i).tx.isSome then
      (s.txAbort k i cause).modGroup k (fun g => { g with wait := g.wait.without i })
    else s) s

/-- The save of a drained team. No lane state changes: lanes that the debugger stopped stay parked (R40). The quota bytes of a
team that spans a cluster are saved as both cores then see them, since a restore may give its groups the other core (R263). -/
def State.save (s : State) (team : Nat) : State :=
  let t := s.team team
  let sizes := t.cores.map (fun c => (c, s.saveSize team c))
  let s := t.groups.foldl (fun s k => (s.fetchOn k).abortAll k 5) s
  let s := s.dropScout team
  let s := t.cores.foldl (fun s c => s.releaseAt c t.ctx 2) s
  let s := if t.cluster then t.cores.foldl (fun s c => s.publish team c) s else s
  let quota := (s.quota.filter (fun q => q.team == team)).foldl (fun (m : FMap Line) q =>
    m.set Line.none (q.line * 2 + (q.core - t.core)) q.data) []
  let rows := t.cores.zipIdx.flatMap (fun c => (s.core c.1).acc.map (fun r => (c.2 * 512 + r.1, r.2)))
  let s := { s with quota := s.quota.filter (fun q => q.team != team) }
  let s := if t.holdsAcc then
      t.cores.foldl (fun s c => s.modCore c (fun x =>
        if s.estates.any (fun e => e.inArray && e.arrayCore == c) then x else { x with acc := [] })) s
    else s
  let s := t.groups.foldl (fun s k => s.modGroup k (fun g => { g with
    resident := false
    halted := false
    made := []
    opcache := [none, none, none] })) s
  let s := { s with parts := s.parts.map (fun (p : Nat × Partition) =>
    (p.1, { p.2 with order := p.2.order.filter (fun k => !t.groups.contains k) })) }
  let s := s.modTeam team (fun t => { t with
    preempt := false
    saved := true
    savedStep := s.steps
    savedAcc := if t.holdsAcc then rows else []
    savedQuota := quota })
  sizes.foldl (fun s c => s.takeSlot team c.1 c.2) s

/-- PREEMPTION_SAVE: a team that is stopped and drained is saved (R331 to R335). -/
def execPreemptionSave (team : Nat) (s : State) : Host.Outcome State Fault Refusal :=
  let t := s.team team
  let c := s.ctx t.ctx
  if t.live && t.preempt && !t.saved && !t.groups.isEmpty && c.isOpen && c.inc == t.inc &&
      t.groups.all (fun k => s.drained (s.group k)) &&
      !s.cores.any (fun x => x.2.queue.any (fun e => e.team == team)) then .next (s.save team)
  else notEnabled "PREEMPTION_SAVE"

/-- MASKED_HANDLER_OVERRUN: a group with TM set has issued more than 65,536 instructions since the request,
and its context is killed with reason 4 and CAUSE 0 (R338). -/
def execMaskedHandlerOverrun (team : Nat) (s : State) : Host.Outcome State Fault Refusal :=
  let t := s.team team
  if t.live && t.preempt && t.groups.any (fun k =>
      let g := s.group k
      g.tm && g.wait != .killed && decide (65536 < g.maskedIssues)) then .next ((s.freeze team).wantKill t.ctx 4 0)
  else notEnabled "MASKED_HANDLER_OVERRUN"

/-! ### The restore (R263, R337) -/

/-- Groups of a team that have not ended. -/
def State.unended (s : State) (team : Nat) : List Nat := (s.team team).groups.filter (fun k => !(s.group k).ended)

/-- Whether a saved team may be placed on a core, and its groups' partitions: one that holds the accumulator memory stands
back from rows that an heir waits to claim (R301). -/
def State.restorePlan (s : State) (team core : Nat) : Option (List Nat) :=
  let t := s.team team
  let c := s.ctx t.ctx
  if t.live && t.saved && c.used && c.isOpen && c.running && c.inc == t.inc &&
      !(t.holdsAcc && (if t.cluster then [core, core + 1] else [core]).any (s.heirWaits none [])) then
    s.plan (s.launch t.launch).kernel ((s.unended team).map (fun k => (s.group k).gid)) core
  else none

/-- A line of a team's quota bytes returns to a core's L1, where the other core of its cluster sees it too, or, when the team is
relaunchable no more or no way is left, to its owning point (R263, R360). It stands over what other teams hold there. -/
def State.placeQuota (s : State) (team core line : Nat) (l : Line) : State :=
  let ctx := (s.team team).ctx
  if (s.team team).relaunch then
    match ((s.overQuota core team line l.held).ownLine core ctx line).l1Room core line with
    | (s, some w) =>
      if (s.team team).relaunch then
        { s with quota := s.quota ++ [⟨core, team, line, { l with way := w }, if (s.team team).cluster then l.held else 0⟩] }
      else s.toOwner ctx line l.dirtyBytes l.arr
    | (s, none) => (s.endRelaunch team).toOwner ctx line l.dirtyBytes l.arr
  else s.toOwner ctx line l.dirtyBytes l.arr

/-- Places a saved team on a core. -/
def State.restore (s : State) (team core : Nat) (parts : List Nat) : State :=
  let t := s.team team
  let cores := if t.cluster then [core, core + 1] else [core]
  let s := if t.holdsAcc then cores.foldl (fun s c => s.swapOut c (fun _ => false)) s else s
  let s := (s.unended team).zipIdx.foldl (fun s k => s.modGroup k.1 (fun g => { g with
    part := parts.getD k.2 0
    resident := true
    stall := 0
    yielded := false
    lastIssue := s.steps })) s
  let s := cores.foldl (fun s c => s.acquireAt c t.ctx 2) s
  let s := t.savedQuota.foldl (fun s q => s.placeQuota team (core + q.1 % 2) (q.1 / 2) q.2) s
  let s := if t.holdsAcc then
      cores.zipIdx.foldl (fun s c => s.modCore c.1 (fun x => { x with
        acc := (t.savedAcc.filter (fun r => r.1 / 512 == c.2)).map (fun r => (r.1 % 512, r.2)) })) s
    else s
  s.modTeam team (fun t => { t with
    core := core
    saved := false
    savedIn := []
    savedOut := 0
    savedAcc := []
    savedQuota := [] })

/-- TEAM_RESTORE: a saved team returns to a core with room (R337). -/
def execTeamRestore (team core : Nat) (s : State) : Host.Outcome State Fault Refusal :=
  if 256 ≤ core then .next s
  else
    match s.restorePlan team core with
    | some parts => .next (s.restore team core parts)
    | none => notEnabled "TEAM_RESTORE"

end Sys2Proof.Machine
end

