-- ==== Sys2Proof/Machine/Digest.lean ====
section
/-! DEFINITION. SHA-256, which an attestation report takes of a table (R399). PRESUMED (log 38): the manual names the hash and
leaves its definition to its standard. -/

namespace Sys2Proof.Machine

/-- The eight working words of the hash. -/
structure Digest where
  a : W32
  b : W32
  c : W32
  d : W32
  e : W32
  f : W32
  g : W32
  h : W32
deriving DecidableEq, Repr

/-- The constants of the rounds: of the first 64 primes, the cube roots' fractions. -/
def shaK : List W32 :=
  [0x428a2f98, 0x71374491, 0xb5c0fbcf, 0xe9b5dba5, 0x3956c25b, 0x59f111f1, 0x923f82a4, 0xab1c5ed5] ++
  [0xd807aa98, 0x12835b01, 0x243185be, 0x550c7dc3, 0x72be5d74, 0x80deb1fe, 0x9bdc06a7, 0xc19bf174] ++
  [0xe49b69c1, 0xefbe4786, 0x0fc19dc6, 0x240ca1cc, 0x2de92c6f, 0x4a7484aa, 0x5cb0a9dc, 0x76f988da] ++
  [0x983e5152, 0xa831c66d, 0xb00327c8, 0xbf597fc7, 0xc6e00bf3, 0xd5a79147, 0x06ca6351, 0x14292967] ++
  [0x27b70a85, 0x2e1b2138, 0x4d2c6dfc, 0x53380d13, 0x650a7354, 0x766a0abb, 0x81c2c92e, 0x92722c85] ++
  [0xa2bfe8a1, 0xa81a664b, 0xc24b8b70, 0xc76c51a3, 0xd192e819, 0xd6990624, 0xf40e3585, 0x106aa070] ++
  [0x19a4c116, 0x1e376c08, 0x2748774c, 0x34b0bcb5, 0x391c0cb3, 0x4ed8aa4a, 0x5b9cca4f, 0x682e6ff3] ++
  [0x748f82ee, 0x78a5636f, 0x84c87814, 0x8cc70208, 0x90befffa, 0xa4506ceb, 0xbef9a3f7, 0xc67178f2]

/-- The initial words: of the first eight primes, the square roots' fractions. -/
def Digest.start : Digest :=
  ⟨0x6a09e667, 0xbb67ae85, 0x3c6ef372, 0xa54ff53a, 0x510e527f, 0x9b05688c, 0x1f83d9ab, 0x5be0cd19⟩

/-- The words of the message schedule, latest first, extended by `n`. -/
def schedule (w : List W32) : Nat → List W32
  | 0 => w
  | n + 1 =>
    let x := w.getD 14 0
    let y := w.getD 1 0
    let s0 := x.rotateRight 7 ^^^ x.rotateRight 18 ^^^ (x >>> 3)
    let s1 := y.rotateRight 17 ^^^ y.rotateRight 19 ^^^ (y >>> 10)
    schedule ((w.getD 15 0 + s0 + w.getD 6 0 + s1) :: w) n

/-- One round, with the constant and the schedule's word added. -/
def Digest.round (x : Digest) (kw : W32) : Digest :=
  let s1 := x.e.rotateRight 6 ^^^ x.e.rotateRight 11 ^^^ x.e.rotateRight 25
  let ch := (x.e &&& x.f) ^^^ (~~~x.e &&& x.g)
  let t1 := x.h + s1 + ch + kw
  let s0 := x.a.rotateRight 2 ^^^ x.a.rotateRight 13 ^^^ x.a.rotateRight 22
  let maj := (x.a &&& x.b) ^^^ (x.a &&& x.c) ^^^ (x.b &&& x.c)
  ⟨t1 + s0 + maj, x.a, x.b, x.c, x.d + t1, x.e, x.f, x.g⟩

/-- Takes a block of 16 words into the hash. -/
def Digest.block (x : Digest) (ws : List W32) : Digest :=
  let w := (schedule ws.reverse 48).reverse
  let y := (List.zipWith (fun k v => k + v) shaK w).foldl Digest.round x
  ⟨x.a + y.a, x.b + y.b, x.c + y.c, x.d + y.d, x.e + y.e, x.f + y.f, x.g + y.g, x.h + y.h⟩

/-- A word of four bytes, the high byte first. -/
def highFirst (bs : List Byte) : W32 := BitVec.ofNat 32 (leNat (bs.take 4).reverse)

/-- The bytes of a word, the high byte first. -/
def highBytes (w : W32) : List Byte := (leBytes 4 w.toNat).reverse

/-- The message with its padding: a one bit, zeros, and its length in bits. -/
def shaPad (m : List Byte) : List Byte :=
  m ++ [0x80] ++ List.replicate ((119 - m.length % 64) % 64) 0 ++ (leBytes 8 (8 * m.length)).reverse

/-- SHA-256 of bytes. -/
def sha256 (m : List Byte) : List Byte :=
  let p := shaPad m
  let d := (List.range (p.length / 64)).foldl (fun d k =>
    d.block ((List.range 16).map (fun j => highFirst (p.drop (64 * k + 4 * j))))) Digest.start
  [d.a, d.b, d.c, d.d, d.e, d.f, d.g, d.h].flatMap highBytes

end Sys2Proof.Machine
end

