-- ==== Sys2Proof/Machine/Services.lean ====
section
/-! DEFINITION. The services of the Memory core, the Parser and the Security core for estates, step triggers
and attestation (R304 to R306, R377, R378, R399). -/

namespace Sys2Proof.Machine

/-! ### Estate images (R304, R305) -/

/-- Bytes of an entry of an image. -/
def entrySize (nslot tiles r : Nat) : Nat := (16 + 4 * nslot + 512 * r * (tilesOf tiles).length + 15) / 16 * 16

/-- The bytes of an estate in an image. -/
def Estate.image (e : Estate) : List Byte :=
  let b := leBytes 8 e.wid.toNat ++ leBytes 1 e.slots.length ++ leBytes 1 e.tiles ++ leBytes 1 e.r ++ leBytes 5 0 ++
    e.slots.flatMap (fun x => leBytes 4 x.toNat) ++
    (e.rows.take e.rowCount).flatMap (fun r => r.flatMap (fun x => leBytes 4 x.toNat))
  b ++ List.replicate (entrySize e.slots.length e.tiles e.r - b.length) 0

/-- The image of a list of estates. -/
def estateImage (feat d : Nat) (es : List Estate) : List Byte :=
  let body := es.flatMap Estate.image
  leBytes 4 0x5A4C4553 ++ leBytes 4 es.length ++ leBytes 8 feat ++ leBytes 8 (64 + body.length) ++ leBytes 1 d ++
  leBytes 39 0 ++ body

/-- An image of a confidential context in the clear, from its sealed bytes and back (R304). -/
def sealBytes (ctx : Nat) (bs : List Byte) : List Byte :=
  bs.zipIdx.map (fun b => b.1 ^^^ Config.keyStream ctx b.2)

/-- The estate of an image's entry at an offset, with the bytes it takes; none when the entry is invalid. DESIGN CHOICE (log 24): `r`
of an entry without tiles is the rows of a lane of its width, and any value but 2, 4 and 8 is invalid (R305). -/
def readEstate (ctx inc d queue : Nat) (img : List Byte) (o : Nat) : Option (Estate × Nat) :=
  let n := field img (o + 8) 1
  let tiles := field img (o + 9) 1
  let r := field img (o + 10) 1
  let size := entrySize n tiles r
  if 32 < n ∨ 15 < tiles ∨ (n = 0 ∧ tiles = 0) ∨ !(r = 2 ∨ r = 4 ∨ r = 8) ∨ !zeroField img (o + 11) 5 ∨
      img.length < o + size then none
  else
    let rows := r * (tilesOf tiles).length
    some ({ ctx := ctx
            inc := inc
            domain := d
            wid := BitVec.ofNat 64 (field img o 8)
            slots := (List.range n).map (fun k => BitVec.ofNat 32 (field img (o + 16 + 4 * k) 4))
            tiles := tiles
            r := r
            rows := (List.range rows).map (fun j => (List.range 128).map (fun k =>
              BitVec.ofNat 32 (field img (o + 16 + 4 * n + 512 * j + 4 * k) 4)))
            inArray := false
            arrayCore := 0
            queue := queue
            age := 0
            made := 0
            place := .spill }, size)

/-- The estates of an image's entries from an offset, `count` of them, up to its end. -/
def readEstates (ctx inc d queue : Nat) (img : List Byte) : Nat → Nat → Option (List Estate)
  | 0, o => if o = img.length then some [] else none
  | n + 1, o =>
    match readEstate ctx inc d queue img o with
    | none => none
    | some (e, size) => (readEstates ctx inc d queue img n (o + size)).map (fun es => e :: es)

/-- Whether a header is valid for this part (R304, R305). -/
def headerOk (feat : Nat) (h : List Byte) : Bool :=
  decide (field h 0 4 = 0x5A4C4553 ∧ field h 8 8 = feat ∧ 64 ≤ field h 16 8) && zeroField h 25 39

/-- The descriptor of an export or import: none when its read faults or a reserved field is nonzero. -/
def State.estateDesc (s : State) (ctx a : Nat) : State × Option (List Byte) :=
  if a % 8 ≠ 0 then (s, none)
  else
    match s.devRead ctx a 32 with
    | (s, .ok d) => (s, if field d 0 8 % 64 = 0 ∧ zeroField d 19 13 then some d else none)
    | (s, .error _) => (s, none)

/-- Writes LEN back; the reply is 2 when the write faults. -/
def State.putLen (s : State) (ctx a n reply : Nat) : State × Nat :=
  match s.devWrite ctx (a + 8) (leBytes 8 n) with
  | (s, .ok _) => (s, reply)
  | (s, .error _) => (s, 2)

/-- An export: the reply word. DESIGN CHOICE (log 24) for a malformed descriptor, and for the order of the entries, which is that in
which State lists the estates (R305). -/
def State.exportEstates (s : State) (ctx a : Nat) : State × Nat :=
  match s.estateDesc ctx a with
  | (s, none) => (s, 2)
  | (s, some d) =>
    let c := s.ctx ctx
    let dom := field d 16 1
    let es := s.estates.filter (fun e => e.ctx == ctx && e.inc == c.inc && e.domain == dom)
    let img := estateImage s.featAcc dom es
    if field d 8 8 < img.length then s.putLen ctx a img.length 1
    else
      let img := if c.conf then sealBytes ctx img else img
      match s.devWrite ctx (field d 0 8) img with
      | (s, .error _) => (s, 2)
      | (s, .ok _) =>
        match s.putLen ctx a img.length 0 with
        | (s, 0) =>
          let s := if c.conf then s.modCtx ctx (fun c => { c with images := c.images ++ [img] }) else s
          ({ s with estates := s.estates.filter (fun e => !es.contains e) }, 0)
        | r => r

/-- ESTATE_EXPORT: service 1,100 (R304). -/
def execEstateExport (ctx slot : Nat) (s : State) : Host.Outcome State Fault Refusal :=
  service "ESTATE_EXPORT" 1100 ctx slot s (fun s =>
    let r := s.exportEstates ctx (s.askWord ctx slot)
    r.1.replyAll ctx slot (BitVec.ofNat 32 r.2))

/-- Reads `n` bytes of an image; a confidential context's is opened. -/
def State.readImage (s : State) (ctx a n : Nat) : State × Option (List Byte) :=
  match s.devRead ctx a n with
  | (s, .ok bs) => (s, some (if (s.ctx ctx).conf then sealBytes ctx bs else bs))
  | (s, .error _) => (s, none)

/-- An import for a launch's queue: the reply word. DESIGN CHOICE (log 24) for a malformed descriptor. -/
def State.importEstates (s : State) (ctx queue a : Nat) : State × Nat :=
  match s.estateDesc ctx a with
  | (s, none) => (s, 2)
  | (s, some d) =>
    let buf := field d 0 8
    let len := field d 8 8
    let core := field d 17 1 * 32 + field d 18 1
    if 7 < field d 17 1 ∨ 31 < field d 18 1 then (s, 2)
    else if len < 64 then s.putLen ctx a 64 1
    else
      match s.readImage ctx buf 64 with
      | (s, none) => (s, 2)
      | (s, some h) =>
        let total := field h 16 8
        if !headerOk s.featAcc h then (s, 3)
        else if len < total then s.putLen ctx a total 1
        else
          match s.readImage ctx buf total with
          | (s, none) => (s, 2)
          | (s, some img) =>
            let c := s.ctx ctx
            let raw := sealBytes ctx img
            if c.conf && !(c.images.contains raw || Config.authentic ctx raw) then (s, 3)
            else
              match readEstates ctx c.inc (field d 16 1) queue img (field h 4 4) 64 with
              | none => (s, 3)
              | some es =>
                match s.putLen ctx a total 0 with
                | (s, 0) => (es.foldl (fun s e => s.makeEstate core e) s, 0)
                | r => r

/-- ESTATE_IMPORT: service 1,101 (R306). -/
def execEstateImport (ctx slot : Nat) (s : State) : Host.Outcome State Fault Refusal :=
  service "ESTATE_IMPORT" 1101 ctx slot s (fun s =>
    let g := s.group ((s.ctx ctx).slot slot).group
    let r := s.importEstates ctx (s.launch g.launch).queue (s.askWord ctx slot)
    r.1.replyAll ctx slot (BitVec.ofNat 32 r.2))

/-! ### Step triggers (R377, R378) -/

/-- Physical address of a trigger word on die 0, when no armed trigger has it. -/
def State.triggerPlace (s : State) (ctx w : Nat) : State × Option Nat :=
  if w % 8 ≠ 0 then (s, none)
  else
    match s.devXlat ctx .write w 8 with
    | (s, .ok pa) =>
      (s, if !isFar pa && s.ownerDie pa == 0 && !s.triggers.any (fun t => t.2.live && t.2.armed && t.2.word == pa)
        then some pa else none)
    | (s, .error _) => (s, none)

/-- Arms a step trigger from the descriptor at an address: the reply word. DEDUCED (log 41): the replies. -/
def State.armTrigger (s : State) (ctx a : Nat) : State × Nat :=
  if a % 8 ≠ 0 then (s, 3)
  else
    match s.devRead ctx a 32 with
    | (s, .error _) => (s, 3)
    | (s, .ok d) =>
      if field d 8 8 % 8 ≠ 0 then (s, 3)
      else
        match s.devRead ctx (field d 8 8) 56 with
        | (s, .error _) => (s, 3)
        | (s, .ok r) =>
          match s.kernelAt ctx (BitVec.ofNat 64 (field r 0 8)) with
          | (s, none) => (s, 1)
          | (s, some k) =>
            if !recordOk r k.phase || decide (63 < field d 16 1 ∨ 1 < field d 17 1) || !zeroField d 20 12 then (s, 1)
            else
              match s.triggerPlace ctx (field d 0 8) with
              | (s, none) => (s, 2)
              | (s, some pa) =>
                let t : Trigger :=
                  { live := true
                    armed := true
                    ctx := ctx
                    inc := (s.ctx ctx).inc
                    word := pa
                    tag := field d 0 4
                    record := r
                    queue := field d 16 1
                    rearm := field d 17 1 == 1
                    phnum := field d 18 2 }
                ({ s with triggers := s.triggers.set Trigger.none s.triggers.next t }, 0)

/-- STEP_TRIGGER_ARM: service 1,000 (R377). -/
def execStepTriggerArm (ctx slot : Nat) (s : State) : Host.Outcome State Fault Refusal :=
  service "STEP_TRIGGER_ARM" 1000 ctx slot s (fun s =>
    let r := s.armTrigger ctx (s.askWord ctx slot)
    r.1.replyAll ctx slot (BitVec.ofNat 32 r.2))

/-- Enters a trigger's copied launch into its queue's spawn list, rooting a tree of its own (R378).
DEDUCED (log 41). -/
def State.fireLaunch (s : State) (trig : Nat) (t : Trigger) : State :=
  match s.kernelAt t.ctx (BitVec.ofNat 64 (field t.record 0 8)) with
  | (s, none) => s.record t.ctx (recordBytes 5 t.queue t.inc t.tag 0 0 0 0)
  | (s, some k) =>
    if s.refuses k then s.record t.ctx (recordBytes 5 t.queue t.inc t.tag 0 0 0 0)
    else
      let teams := field t.record 16 4
      let tk := s.trees.next
      let tree : Tree :=
        { live := true
          ctx := t.ctx
          inc := t.inc
          queue := t.queue
          tag := t.tag
          count := teams
          kind := 2 }
      let s := { s with trees := s.trees.set Tree.none tk tree }
      let lk := s.launches.next
      let l := launchOf t.ctx t.inc t.queue tk k t.record teams
      let s := { s with launches := s.launches.set Launch.none lk { l with
        spawned := true
        trigger := some trig } }
      ((s.modQueue t.ctx t.queue (fun q => { q with spawns := q.spawns ++ [lk] })).armWaiting).makeWay lk

/-- STEP_TRIGGER_FIRE: a write that fired a trigger counts its token message and enters its launch (R378). -/
def execStepTriggerFire (trig : Nat) (s : State) : Host.Outcome State Fault Refusal :=
  let t := s.triggers.get Trigger.none trig
  let c := s.ctx t.ctx
  match t.fired with
  | [] => notEnabled "STEP_TRIGGER_FIRE"
  | _ :: rest =>
    if !t.live || !c.used || !c.isOpen || c.inc != t.inc then notEnabled "STEP_TRIGGER_FIRE"
    else
      let t' : Trigger := { t with fired := rest, live := t.rearm || !rest.isEmpty }
      let s := { s with triggers := s.triggers.set Trigger.none trig t' }
      let s := if t.phnum = 65535 then s else s.arrive 0 t.ctx t.phnum
      .next (s.fireLaunch trig t)

/-! ### Attestation (R399) -/

/-- What a report tells of a context, after the nonce and the measurements: FEATACC and STEP, the context and its incarnation,
CFLAGS, and the SHA-256 of the level-4 table. -/
def State.attested (s : State) (ctx : Nat) : List Byte :=
  let c := s.ctx ctx
  leBytes 8 s.featAcc ++ [0xB0] ++ leBytes 2 ctx ++ leBytes 2 c.inc ++
    leBytes 1 ((if c.debug then 1 else 0) + (if c.conf then 2 else 0)) ++ sha256 (s.ownBytes c.root.toNat 4096)

/-- The 4,096 bytes of a report: what it tells, in the manual's order, then bytes whose values it does not give, the
signature's 3,604 among them. PRESUMED (log 38): the places. -/
def State.report (s : State) (ctx : Nat) (nonce : List Byte) : List Byte :=
  let told := nonce ++ s.meas ++ s.attested ctx
  told ++ (List.range (4096 - told.length)).map (fun k => Config.sealedByte told s.free k)

/-- Writes an attestation report: the reply word. -/
def State.attest (s : State) (ctx a : Nat) : State × Nat :=
  match s.devRead ctx a 64 with
  | (s, .error _) => (s, 2)
  | (s, .ok r) =>
    if field r 40 8 < 4096 then (s, 1)
    else if field r 32 8 % 64 ≠ 0 then (s, 2)
    else
      match s.devWrite ctx (field r 32 8) (s.report ctx (r.take 32)) with
      | (s, .ok _) => (s.tick, 0)
      | (s, .error _) => (s, 2)

/-- ATTESTATION: service 1,536 (R399). -/
def execAttestation (ctx slot : Nat) (s : State) : Host.Outcome State Fault Refusal :=
  service "ATTESTATION" 1536 ctx slot s (fun s =>
    let r := s.attest ctx (s.askWord ctx slot)
    r.1.replyAll ctx slot (BitVec.ofNat 32 r.2))

end Sys2Proof.Machine
end

