-- ==== Sys2Proof/Machine/Sieve.lean ====
section
/-! DEFINITION. Sieve units: arming, the pass and its record (R369 to R374). -/

namespace Sys2Proof.Machine

/-! ### The window -/

/-- Physical address of an offset of a window, when its page is mapped. -/
def Sieve.pa (w : Sieve) (o : Nat) : Option Nat :=
  (w.pages.find? (fun q => q.1 == o / 65536)).map (fun q => q.2 + o % 65536)

/-- Bytes of a window at an offset; none when some byte is not mapped or its line is poisoned. -/
def State.sieveBytes (s : State) (w : Sieve) (o n : Nat) : Option (List Byte) :=
  (List.range n).foldr (fun k acc =>
    match acc, w.pa (o + k) with
    | some bs, some pa => if s.poisoned pa then none else some (s.ownSeen w.ctx pa :: bs)
    | _, _ => none) (some [])

/-- Whether the header of a window is valid (R370). -/
def sieveHeaderOk (h : List Byte) : Bool :=
  decide (field h 0 4 = 0x5A4C5356 ∧ 1 ≤ field h 4 4 ∧ field h 4 4 ≤ 1048576 ∧ 1 ≤ field h 8 1 ∧ field h 8 1 ≤ 64) &&
  (field h 9 1 == 0 || field h 9 1 == 2) && zeroField h 10 6 && zeroField h 28 4 && zeroField h 32 32

/-- Physical address of a record, when SUMADDR is valid: a multiple of 1,024, global, writable, in no SIEVE
page. A page that can be made present is, and a tile in transit is waited for (R314, R330). -/
def State.sumPlace (s : State) (ctx sum : Nat) : State × Option Nat :=
  if sum % 1024 ≠ 0 then (s, none)
  else
    match s.devXlat ctx .write sum 1024 with
    | (s, .ok pa) => (s, match s.walkChase ctx .write 1024 3 sum with
      | .ok _ leaf _ _ => if pteSieve leaf && isHbm pa then none else some pa
      | _ => none)
    | (s, .error _) => (s, none)

/-- Writes a record as one tile (R373). -/
def State.sieveRecord (s : State) (ctx sum : Nat) (r : List Byte) : State :=
  match s.sumPlace ctx sum with
  | (s, some pa) => s.ownWrite ctx false pa (r ++ List.replicate (1024 - r.length) 0)
  | (s, none) => s

/-! ### The computation (R372) -/

/-- An entry widened to FP32. -/
def widen (bf16 : Bool) (bs : List Byte) : Nat := if bf16 then leNat bs * 65536 else leNat bs

/-- Place of an FP32 code in the order of values; `zeros` keeps −0 below +0. -/
def orderKey (zeros : Bool) (x : Nat) : Int :=
  let m : Nat := x % 2 ^ 31
  if x < 2 ^ 31 then (2 * m : Nat) else if m = 0 then (if zeros then -1 else 0) else -(2 * m : Nat)

/-- The largest non-NaN value. -/
def sieveMax (xs : List Nat) : Nat :=
  xs.foldl (fun m x => if orderKey true m < orderKey true x then x else m) 0xFF800000

/-- TERM of an entry. -/
def sieveTerm (mx x : Nat) : Nat :=
  if orderKey false x = orderKey false mx then 0x3F800000
  else fExpNeg (fSub .f32 .rn false x mx).bits

/-- Inserts an entry in a shortlist kept largest first, an equal value after those before it. -/
def insertShort (k : Nat) (e : Nat × Nat × Nat) : List (Nat × Nat × Nat) → List (Nat × Nat × Nat)
  | [] => [e]
  | f :: fs =>
    if orderKey false f.1 < orderKey false e.1 then (e :: f :: fs).take k else f :: insertShort (k - 1) e fs

/-- The shortlist of at most `k` entries: value, index and term. -/
def shortlist (k : Nat) (es : List (Nat × Nat × Nat)) : List (Nat × Nat × Nat) :=
  es.foldl (fun l e => (insertShort k e l).take k) []

/-- The record of a pass over the entries, in index order (R372, R373). -/
def sieveResult (seq len k : Nat) (xs : List Nat) : List Byte :=
  let good := xs.zipIdx.filter (fun p => !(FVal.ofBits .f32 p.1).isNan)
  let ncnt := xs.length - good.length
  let head := fun (kout mx sum : Nat) =>
    leBytes 4 seq ++ [0, BitVec.ofNat 8 kout, 0, 0] ++ leBytes 4 len ++ leBytes 4 ncnt ++ leBytes 4 mx ++ leBytes 4 sum
  if good.isEmpty then head 0 0x7FC00001 0
  else
    let mx := sieveMax (good.map Prod.fst)
    let es := good.map (fun p => (p.1, p.2, sieveTerm mx p.1))
    let sum := es.foldl (fun a e => (fAdd .f32 .rn false a e.2.2).bits) 0
    let top := shortlist k es
    head top.length mx sum ++ List.replicate 40 0 ++
      top.flatMap (fun e => leBytes 4 e.1 ++ leBytes 4 e.2.1 ++ leBytes 4 e.2.2)

/-! ### Events -/

/-- SIEVE_ARM: a write of ARM arms or disarms the window (R371). -/
def execSieveArm (win : Nat) (s : State) : Host.Outcome State Fault Refusal :=
  let w := s.sieves.get Sieve.none win
  if !w.armReq then notEnabled "SIEVE_ARM"
  else
    let put := fun (s : State) (w : Sieve) => { s with sieves := s.sieves.set Sieve.none win w }
    let off := { w with armReq := false, armed := false, written := [] }
    match s.sieveBytes w 0 64 with
    | none => .next (put s off)
    | some h =>
      let seq := field h 0x18 4
      let sum := field h 0x10 8
      if seq = 0 then .next (put s off)
      else if sieveHeaderOk h && (s.sumPlace w.ctx sum).2.isSome then
        .next (put (s.sumPlace w.ctx sum).1 { off with
          armed := true
          inc := (s.ctx w.ctx).inc
          seq := seq
          len := field h 4 4
          k := field h 8 1
          bf16 := field h 9 1 == 2
          sum := BitVec.ofNat 64 sum })
      else
        .next ((put s off).sieveRecord w.ctx sum (leBytes 4 seq ++ [1, 0, 0, 0] ++ leBytes 4 (field h 4 4)))

/-- Whether every byte of a window's vector has been written since it was armed. -/
def Sieve.full (w : Sieve) : Bool := w.armed && w.written.length == w.len * w.entryBytes

/-- SIEVE_PASS: the unit computes and writes the record; the window stays disarmed (R371 to R374).
DEDUCED (log 41): NCNT under STATUS 2 is free. -/
def execSievePass (win : Nat) (s : State) : Host.Outcome State Fault Refusal :=
  let w := s.sieves.get Sieve.none win
  if !w.full then notEnabled "SIEVE_PASS"
  else
    let n := w.entryBytes
    let off := { s with sieves := s.sieves.set Sieve.none win { w with armed := false, written := [] } }
    match s.sieveBytes w 4096 (w.len * n) with
    | none =>
      .next (off.tick.sieveRecord w.ctx w.sum.toNat (leBytes 4 w.seq ++ [2, 0, 0, 0] ++ leBytes 4 w.len ++
        leBytes 4 (Config.nanCount s.free).toNat))
    | some bs =>
      .next (off.sieveRecord w.ctx w.sum.toNat (sieveResult w.seq w.len w.k
        ((List.range w.len).map (fun j => widen w.bf16 ((bs.drop (n * j)).take n)))))

end Sys2Proof.Machine
end

