-- ==== Sys2Proof/Machine/Sync.lean ====
section
/-! DEFINITION. Fences, publish, record fence, instruction-cache invalidation, sweep and tile move
(R177 to R182), and the confirmations they wait for. -/

namespace Sys2Proof.Machine

/-- Whether a fence acquires, or releases (R177). -/
def fenceAcquires (k : Order) : Bool := k == .acq || k == .ar
def fenceReleases (k : Order) : Bool := k == .rel || k == .ar

/-- `fence` (R177). -/
def execFence (k : Order) (sc : Scope) (c : Ctl) (o : Ops) (s : State) : Host.Outcome State Fault Refusal :=
  performMem (.fence k sc c o) s (fun x s =>
    let r := s.refuseTx x
    if r.2.act.isEmpty then r.1
    else
      let g := r.1.group x.g
      let s := if fenceReleases k then r.1.release g sc else r.1
      if fenceAcquires k then s.acquire g sc else s)

/-- Register number of an optional scalar operand. -/
def Opnd.scalar? : Opnd → Option Nat
  | .s n => some n
  | _ => none

/-- `publ` (R178): the release, then the wait for the swap. -/
def execPubl (sc : Scope) (c : Ctl) (o : Ops) (s : State) : Host.Outcome State Fault Refusal :=
  performMem (.publ sc c o) s (fun x s =>
    let r := s.refuseTx x
    if r.2.act.isEmpty then r.1
    else
      let g := r.1.group x.g
      (r.1.release g sc).modGroup x.g (fun g => { g with
        wait := .publ (Opnd.scalar? o.d) (g.sreg (Opnd.idx o.a)) sc r.2.act }))

/-- The buffer with a shadow destination at an address, once its marks are chased (R178, R321).
DESIGN CHOICE (log 23): no rule lets software name a buffer. -/
def State.shadowAt (s : State) (ctx : Nat) (b : W64) : Option Shadow :=
  (s.ctx ctx).shadows.find? (fun h => h.offset (s.follow ctx 3 b.toNat).1 == some 0)

/-- Drops every cached copy of a line, its dirty bytes first reaching the owning point. -/
def State.cleanLine (s : State) (line : Nat) : State :=
  let s := (s.l1.filter (fun p => p.1 / 256 == line)).foldl (fun s p =>
    (s.flushL1 (p.1 % 256) line true).setL1 (p.1 % 256) line Line.none) s
  (List.range 8).foldl (fun s d =>
    if s.ownerDie (line * 128) = d then s else (s.flushVisitor d line).setL2 d line Line.none) s

/-- Where a byte of a buffer with a shadow destination stands: nothing while its tile is in transit, and `some none` when it
has no place. The swap asks for no permission; a page that is not present is made present where the Memory core can
(R178, R314, R330). -/
def State.shadowPlace (s : State) (ctx va : Nat) : State × Option (Option Nat) :=
  let (s, _) := match s.walk ctx (s.follow ctx 3 va).1 with
    | .absent => s.pageIn ctx (s.follow ctx 3 va).1
    | _ => (s, true)
  let at_ := (s.follow ctx 3 va).1
  (s, if s.inTransit ctx at_ then none
    else match s.walk ctx at_ with
      | .leaf e => some (some (leafPa e at_))
      | _ => some none)

/-- Where the bytes that shadow writes have reached stand, without those that have no place; nothing while one of them is in
transit. -/
def State.shadowPlaces (s : State) (ctx : Nat) (h : Shadow) : State × Option (List (Nat × Byte)) :=
  h.bytes.foldl (fun a b =>
    match a with
    | (s, none) => (s, none)
    | (s, some ps) =>
      match s.shadowPlace ctx (h.place b.1) with
      | (s, none) => (s, none)
      | (s, some none) => (s, some ps)
      | (s, some (some pa)) => (s, some (ps ++ [(pa, b.2)]))) (s, some [])

/-- The swap (R178, R231, R261): each byte that a shadow write has reached takes the shadow byte, wherever a cache holds it.
DESIGN CHOICE (log 23): one step, and a store that was issued before it and still stands in a store buffer is performed after it,
over the shadow byte. -/
def State.swapShadow (s : State) (ctx : Nat) (h : Shadow) (places : List (Nat × Byte)) : State :=
  (places.foldl (fun s b =>
    ((s.cleanLine (b.1 / 128)).dropQuota (fun _ => true) (b.1 / 128) (byteMask (b.1 % 128) 1)).ownWrite ctx false b.1 [b.2]) s).modCtx ctx (fun c =>
    { c with shadows := c.shadows.map (fun b => if b.base = h.base then { b with bytes := [], pending := false } else b) })

/-- Whether a shadow-mode command of a team to a buffer is still queued (R178 step 2). -/
def State.shadowQueued (s : State) (team : Nat) (h : Shadow) : Bool :=
  s.cores.any (fun c => c.2.queue.any (fun e => e.team == team && recMode e.record == 2 && e.kind.writes &&
    (s.shadowFor e.ctx (recBits e.record) (s.cmdRows e)).any (fun b => b.base == h.base)))

/-- A `publ` ends with a status in D. -/
def State.publEnd (s : State) (g : Nat) (d : Option Nat) (st : Nat) : State :=
  s.modGroup g (fun x =>
    let x := { x with wait := .none }
    match d with
    | some n => x.write (.sca n) (BitVec.ofNat 64 st)
    | none => x)

/-- SWAP_TAKEN_EFFECT: the buffer's swap, and the status in D (R178). -/
def execSwapTakenEffect (g : Nat) (s : State) : Host.Outcome State Fault Refusal :=
  let no : Host.Outcome State Fault Refusal := .fault (.notEnabled "SWAP_TAKEN_EFFECT")
  match (s.group g).wait with
  | .publ d b _ _ =>
    let gr := s.group g
    match s.shadowAt gr.ctx b with
    | none => .next (s.publEnd g d 2)
    | some h =>
      if s.shadowQueued gr.team h then no
      else if !h.pending then .next (s.publEnd g d 1)
      else
        match s.shadowPlaces gr.ctx h with
        | (s, some ps) => .next ((s.swapShadow gr.ctx h ps).publEnd g d 0)
        | (_, none) => no
  | _ => no

/-- Cores within a scope of a group, for record caches (R179). -/
def State.scopeCores (s : State) (g : Group) (sc : Scope) (core : Nat) : Bool :=
  match sc with
  | .thr | .grp | .tem =>
    let t := s.team g.team
    core == t.core || (t.cluster && core == t.core + 1)
  | .clu => core / 2 == g.core / 2
  | .die => dieOfCore core == g.die
  | .dev | .sys => true

/-- `rcfence` (R179). -/
def execRcfence (sc : Scope) (c : Ctl) (o : Ops) (s : State) : Host.Outcome State Fault Refusal :=
  performMem (.rcfence sc c o) s (fun x s =>
    let r := s.refuseTx x
    if r.2.act.isEmpty then r.1
    else
      let g := r.1.group x.g
      let b := (Opnd.scalar? o.a).map (fun n => (g.sreg n).toNat)
      if (b.getD 0) % 64 ≠ 0 then r.1.faultAll r.2 r.2.act 2 2 0
      else
        let s := r.1.release g sc
        let s := { s with cores := s.cores.map (fun (p : Nat × Core) =>
          if s.scopeCores g sc p.1 then
            (p.1, { p.2 with records := p.2.records.filter (fun e =>
              !(e.ctx == g.ctx && (match b with
                | some a => e.addr == a
                | none => true))) })
          else p) }
        s.modGroup x.g (fun g => { g with wait := .confirm }))

/-- Cores within a scope of a group, for instruction caches (R180). -/
def icacheIn (g : Group) (sc : Scope) (core : Nat) : Bool :=
  match sc with
  | .thr | .grp | .tem => core == g.core
  | .clu => core / 2 == g.core / 2
  | .die => dieOfCore core == g.die
  | .dev | .sys => true

/-- `icinv` (R180). -/
def execIcinv (sc : Scope) (c : Ctl) (o : Ops) (s : State) : Host.Outcome State Fault Refusal :=
  performMem (.icinv sc c o) s (fun x s =>
    let r := s.refuseTx x
    match r.2.act with
    | [] => r.1
    | i :: _ =>
      let g := r.1.group x.g
      let b := (g.sreg (Opnd.idx o.a)).toNat
      let n := (g.value i o.b 2).toNat
      if n = 0 then r.1
      else
        { r.1 with icache := r.1.icache.filter (fun l =>
            !(icacheIn g sc l.core && l.ctx == g.ctx && decide (l.line * 64 < b + n ∧ b < l.line * 64 + 64))) }.modGroup
          x.g (fun g => { g with wait := .confirm }))

/-- INVALIDATION_CONFIRMED: every cache in scope has confirmed (R179, R180). -/
def execInvalidationConfirmed (g : Nat) (s : State) : Host.Outcome State Fault Refusal :=
  match (s.group g).wait with
  | .confirm => .next (s.modGroup g (fun x => { x with wait := .none }))
  | _ => .fault (.notEnabled "INVALIDATION_CONFIRMED")

/-- `sweep` (R181). -/
def execSweep (c : Ctl) (o : Ops) (s : State) : Host.Outcome State Fault Refusal :=
  performMem (.sweep c o) s (fun x s =>
    let r := s.refuseTx x
    match r.2.act with
    | [] => r.1
    | i :: _ =>
      let g := r.1.group x.g
      r.1.sweep r.2 (Opnd.idx o.d) (g.sreg (Opnd.idx o.a)) (g.value i o.b 2))

/-- `tmov` (R182). -/
def execTmov (c : Ctl) (o : Ops) (s : State) : Host.Outcome State Fault Refusal :=
  performMem (.tmov c o) s (fun x s =>
    let r := s.refuseTx x
    if r.2.act.isEmpty then r.1
    else
      let g := r.1.group x.g
      let f := (g.sreg (Opnd.idx o.a)).toNat
      let t := (g.sreg (Opnd.idx o.b)).toNat
      if f % 65536 ≠ 0 ∨ t % 65536 ≠ 0 then r.1.faultAll r.2 r.2.act 2 2 0
      else r.1.tileMove r.2 (Opnd.idx o.d) f t)

end Sys2Proof.Machine
end

