-- ==== Sys2Proof/Machine/Dispatch.lean ====
section
/-! DEFINITION. One arm per instruction: each calls its meaning. -/

namespace Sys2Proof.Machine

/-- The meaning of an instruction or event. -/
def exec (i : Instr) (s : State) : Host.Outcome State Fault Refusal :=
  match i with
  -- integer, bit, address, compare, select, move, predicate (R118 to R129)
  | .add t sat c o => Sys2Proof.Machine.execAdd t sat c o s
  | .sub t sat c o => Sys2Proof.Machine.execSub t sat c o s
  | .mul t sat c o => Sys2Proof.Machine.execMul t sat c o s
  | .mulhi t c o => Sys2Proof.Machine.execMulhi t c o s
  | .mulw t c o => Sys2Proof.Machine.execMulw t c o s
  | .mad t sat c o => Sys2Proof.Machine.execMad t sat c o s
  | .div t c o => Sys2Proof.Machine.execDiv t c o s
  | .rem t c o => Sys2Proof.Machine.execRem t c o s
  | .min t c o => Sys2Proof.Machine.execMin t c o s
  | .max t c o => Sys2Proof.Machine.execMax t c o s
  | .abs t sat c o => Sys2Proof.Machine.execAbs t sat c o s
  | .neg t sat c o => Sys2Proof.Machine.execNeg t sat c o s
  | .and w64 c o => Sys2Proof.Machine.execAnd w64 c o s
  | .or w64 c o => Sys2Proof.Machine.execOr w64 c o s
  | .xor w64 c o => Sys2Proof.Machine.execXor w64 c o s
  | .not w64 c o => Sys2Proof.Machine.execNot w64 c o s
  | .shl t c o => Sys2Proof.Machine.execShl t c o s
  | .shr t c o => Sys2Proof.Machine.execShr t c o s
  | .rotl w64 c o => Sys2Proof.Machine.execRotl w64 c o s
  | .popc w64 c o => Sys2Proof.Machine.execPopc w64 c o s
  | .clz w64 c o => Sys2Proof.Machine.execClz w64 c o s
  | .brev w64 c o => Sys2Proof.Machine.execBrev w64 c o s
  | .bfx t c o => Sys2Proof.Machine.execBfx t c o s
  | .bfi w64 c o => Sys2Proof.Machine.execBfi w64 c o s
  | .lea z sh c o => Sys2Proof.Machine.execLea z sh c o s
  | .cmp cc t c o => Sys2Proof.Machine.execCmp cc t c o s
  | .sel w64 inv k c o => Sys2Proof.Machine.execSel w64 inv k c o s
  | .mov w64 c o => Sys2Proof.Machine.execMov w64 c o s
  | .plog op c o => Sys2Proof.Machine.execPlog op c o s
  -- floating point (R130 to R136)
  | .fadd ftz f r c o => Sys2Proof.Machine.execFadd ftz f r c o s
  | .fsub ftz f r c o => Sys2Proof.Machine.execFsub ftz f r c o s
  | .fmul ftz f r c o => Sys2Proof.Machine.execFmul ftz f r c o s
  | .fma ftz f r c o => Sys2Proof.Machine.execFma ftz f r c o s
  | .fdiv ftz f r c o => Sys2Proof.Machine.execFdiv ftz f r c o s
  | .fsqrt ftz f r c o => Sys2Proof.Machine.execFsqrt ftz f r c o s
  | .fmin ftz f c o => Sys2Proof.Machine.execFmin ftz f c o s
  | .fmax ftz f c o => Sys2Proof.Machine.execFmax ftz f c o s
  | .frnd ftz f r c o => Sys2Proof.Machine.execFrnd ftz f r c o s
  | .fcmp cc ftz c o => Sys2Proof.Machine.execFcmp cc ftz c o s
  | .fclass c o => Sys2Proof.Machine.execFclass c o s
  | .fdp2 ftz f r c o => Sys2Proof.Machine.execFdp2 ftz f r c o s
  | .frcp ftz c o => Sys2Proof.Machine.execFrcp ftz c o s
  | .frsq ftz c o => Sys2Proof.Machine.execFrsq ftz c o s
  | .fex2 ftz c o => Sys2Proof.Machine.execFex2 ftz c o s
  | .flg2 ftz c o => Sys2Proof.Machine.execFlg2 ftz c o s
  | .fsinpi ftz c o => Sys2Proof.Machine.execFsinpi ftz c o s
  | .fcospi ftz c o => Sys2Proof.Machine.execFcospi ftz c o s
  | .ftanh ftz c o => Sys2Proof.Machine.execFtanh ftz c o s
  -- conversions (R137 to R139)
  | .cvtFloatToFloat t f nsat r c o => Sys2Proof.Machine.execCvtFloatToFloat t f nsat r c o s
  | .cvtFloatToInt t f r c o => Sys2Proof.Machine.execCvtFloatToInt t f r c o s
  | .cvtIntToFloat t f nsat r c o => Sys2Proof.Machine.execCvtIntToFloat t f nsat r c o s
  | .cvtIntWrap t f c o => Sys2Proof.Machine.execCvtIntWrap t f c o s
  | .cvtIntSat t f c o => Sys2Proof.Machine.execCvtIntSat t f c o s
  | .cvtQuantise q8 f r c o => Sys2Proof.Machine.execCvtQuantise q8 f r c o s
  | .cvtDequantise q8 c o => Sys2Proof.Machine.execCvtDequantise q8 c o s
  -- cross-lane (R140 to R144)
  | .xlane m w64 c o => Sys2Proof.Machine.execXlane m w64 c o s
  | .lpoll m c o => Sys2Proof.Machine.execLpoll m c o s
  | .lfold op t c o => Sys2Proof.Machine.execLfold op t c o s
  | .ffold op r c o => Sys2Proof.Machine.execFfold op r c o s
  | .scan op excl z c o => Sys2Proof.Machine.execScan op excl z c o s
  | .pk6 c o => Sys2Proof.Machine.execPk6 c o s
  | .upk6 c o => Sys2Proof.Machine.execUpk6 c o s
  -- loads, stores, prefetch (R149 to R162)
  | .ld z c o => Sys2Proof.Machine.execLd z c o s
  | .st z c o => Sys2Proof.Machine.execSt z c o s
  | .ldAcq sc z c o => Sys2Proof.Machine.execLdAcq sc z c o s
  | .stRel sc z c o => Sys2Proof.Machine.execStRel sc z c o s
  | .ldl fe z c o => Sys2Proof.Machine.execLdl fe z c o s
  | .stl fe z c o => Sys2Proof.Machine.execStl fe z c o s
  | .pref l2 c o => Sys2Proof.Machine.execPref l2 c o s
  -- atomics, compare-and-swap, transactions (R163 to R176)
  | .atomAdd w64 sgn ord sc c o => Sys2Proof.Machine.execAtomAdd w64 sgn ord sc c o s
  | .atomMin w64 sgn ord sc c o => Sys2Proof.Machine.execAtomMin w64 sgn ord sc c o s
  | .atomMax w64 sgn ord sc c o => Sys2Proof.Machine.execAtomMax w64 sgn ord sc c o s
  | .atomAnd w64 ord sc c o => Sys2Proof.Machine.execAtomAnd w64 ord sc c o s
  | .atomOr w64 ord sc c o => Sys2Proof.Machine.execAtomOr w64 ord sc c o s
  | .atomXor w64 ord sc c o => Sys2Proof.Machine.execAtomXor w64 ord sc c o s
  | .atomXchg w64 ord sc c o => Sys2Proof.Machine.execAtomXchg w64 ord sc c o s
  | .atomAddF32 ord sc c o => Sys2Proof.Machine.execAtomAddF32 ord sc c o s
  | .cas w64 ord sc c o => Sys2Proof.Machine.execCas w64 ord sc c o s
  | .txb c o => Sys2Proof.Machine.execTxb c o s
  | .txe c o => Sys2Proof.Machine.execTxe c o s
  | .txa c o => Sys2Proof.Machine.execTxa c o s
  -- fences and cache, record and tile control (R177 to R182)
  | .fence k sc c o => Sys2Proof.Machine.execFence k sc c o s
  | .publ sc c o => Sys2Proof.Machine.execPubl sc c o s
  | .rcfence sc c o => Sys2Proof.Machine.execRcfence sc c o s
  | .icinv sc c o => Sys2Proof.Machine.execIcinv sc c o s
  | .invalidationConfirmed g => Sys2Proof.Machine.execInvalidationConfirmed g s
  | .sweep c o => Sys2Proof.Machine.execSweep c o s
  | .tmov c o => Sys2Proof.Machine.execTmov c o s
  -- control (R184 to R203)
  | .bra c o => Sys2Proof.Machine.execBra c o s
  | .brx c o => Sys2Proof.Machine.execBrx c o s
  | .call c o => Sys2Proof.Machine.execCall c o s
  | .callx c o => Sys2Proof.Machine.execCallx c o s
  | .ret c o => Sys2Proof.Machine.execRet c o s
  | .rejoin c o => Sys2Proof.Machine.execRejoin c o s
  | .exit c o => Sys2Proof.Machine.execExit c o s
  | .beq tiles c o => Sys2Proof.Machine.execBeq tiles c o s
  | .estq c o => Sys2Proof.Machine.execEstq c o s
  | .estdrop c o => Sys2Proof.Machine.execEstdrop c o s
  | .spawn c o => Sys2Proof.Machine.execSpawn c o s
  | .post c o => Sys2Proof.Machine.execPost c o s
  | .bar c o => Sys2Proof.Machine.execBar c o s
  | .donateGive c o => Sys2Proof.Machine.execDonateGive c o s
  | .donateTake c o => Sys2Proof.Machine.execDonateTake c o s
  | .donationRendezvous g => Sys2Proof.Machine.execDonationRendezvous g s
  | .ralloc c o => Sys2Proof.Machine.execRalloc c o s
  | .yield c o => Sys2Proof.Machine.execYield c o s
  | .nop c o => Sys2Proof.Machine.execNop c o s
  -- system (R204 to R210)
  | .trap c o => Sys2Proof.Machine.execTrap c o s
  | .sys c o => Sys2Proof.Machine.execSys c o s
  | .sysReply ctx slot => Sys2Proof.Machine.execSysReply ctx slot s
  | .sigw c o => Sys2Proof.Machine.execSigw c o s
  | .tret c o => Sys2Proof.Machine.execTret c o s
  | .tretSkip c o => Sys2Proof.Machine.execTretSkip c o s
  | .tretExit c o => Sys2Proof.Machine.execTretExit c o s
  | .snap c o => Sys2Proof.Machine.execSnap c o s
  | .mfsr c o => Sys2Proof.Machine.execMfsr c o s
  | .mtsr c o => Sys2Proof.Machine.execMtsr c o s
  -- matrix array, copy engine, stage rings (R213 to R235)
  | .mma blk f c o => Sys2Proof.Machine.execMma blk f c o s
  | .mmq q8 f g c o => Sys2Proof.Machine.execMmq q8 f g c o s
  | .mlda n c o => Sys2Proof.Machine.execMlda n c o s
  | .ald c o => Sys2Proof.Machine.execAld c o s
  | .ast fe c o => Sys2Proof.Machine.execAst fe c o s
  | .aclr c o => Sys2Proof.Machine.execAclr c o s
  | .drain c o => Sys2Proof.Machine.execDrain c o s
  | .cpin c o => Sys2Proof.Machine.execCpin c o s
  | .cpout c o => Sys2Proof.Machine.execCpout c o s
  | .gath c o => Sys2Proof.Machine.execGath c o s
  | .engineCommandComplete core => Sys2Proof.Machine.execEngineCommandComplete core s
  | .racq c o => Sys2Proof.Machine.execRacq c o s
  | .rput c o => Sys2Proof.Machine.execRput c o s
  | .rget c o => Sys2Proof.Machine.execRget c o s
  | .rrel c o => Sys2Proof.Machine.execRrel c o s
  -- events of groups
  | .resultReturn g k => Sys2Proof.Machine.execResultReturn g k s
  | .dirtyWriteback pl unit line => Sys2Proof.Machine.execDirtyWriteback pl unit line s
  | .handlerEntry g => Sys2Proof.Machine.execHandlerEntry g s
  | .groupEnd g => Sys2Proof.Machine.execGroupEnd g s
  | .scoutEnd g => Sys2Proof.Machine.execScoutEnd g s
  | .tokenPeriodStart core => Sys2Proof.Machine.execTokenPeriodStart core s
  | .thermalLimit die => Sys2Proof.Machine.execThermalLimit die s
  -- queues, commands and launches
  | .queueWake ctx q v => Sys2Proof.Machine.execQueueWake ctx q v s
  | .packetParse ctx q => Sys2Proof.Machine.execPacketParse ctx q s
  | .cmdNop ctx q => Sys2Proof.Machine.execCmdNop ctx q s
  | .cmdLaunch ctx q => Sys2Proof.Machine.execCmdLaunch ctx q s
  | .cmdGraph ctx q => Sys2Proof.Machine.execCmdGraph ctx q s
  | .graphNodeNext ctx q => Sys2Proof.Machine.execGraphNodeNext ctx q s
  | .cmdWrite ctx q => Sys2Proof.Machine.execCmdWrite ctx q s
  | .cmdWait ctx q => Sys2Proof.Machine.execCmdWait ctx q s
  | .waitRepoll ctx q => Sys2Proof.Machine.execWaitRepoll ctx q s
  | .cmdSignal ctx q => Sys2Proof.Machine.execCmdSignal ctx q s
  | .teamAdmission launch core => Sys2Proof.Machine.execTeamAdmission launch core s
  | .phaseEnd slot => Sys2Proof.Machine.execPhaseEnd slot s
  | .cqrdWrite ctx v => Sys2Proof.Machine.execCqrdWrite ctx v s
  | .cqWriteRetry ctx => Sys2Proof.Machine.execCqWriteRetry ctx s
  | .callRingRetry g => Sys2Proof.Machine.execCallRingRetry g s
  | .mailboxTake fw => Sys2Proof.Machine.execMailboxTake fw s
  -- preemption
  | .timeSliceEnd ctx => Sys2Proof.Machine.execTimeSliceEnd ctx s
  | .preemptionSave team => Sys2Proof.Machine.execPreemptionSave team s
  | .maskedHandlerOverrun team => Sys2Proof.Machine.execMaskedHandlerOverrun team s
  | .teamRestore team core => Sys2Proof.Machine.execTeamRestore team core s
  -- movable tiles and Memory-core services
  | .policyMove ctx f t => Sys2Proof.Machine.execPolicyMove ctx f t s
  | .moveDrainComplete m => Sys2Proof.Machine.execMoveDrainComplete m s
  | .moveCopyComplete m => Sys2Proof.Machine.execMoveCopyComplete m s
  | .moveShootdownConfirmed m => Sys2Proof.Machine.execMoveShootdownConfirmed m s
  | .markRetarget ctx f t => Sys2Proof.Machine.execMarkRetarget ctx f t s
  | .markRetire ctx slot => Sys2Proof.Machine.execMarkRetire ctx slot s
  | .markHitCount ctx slot => Sys2Proof.Machine.execMarkHitCount ctx slot s
  | .pageIn ctx slot => Sys2Proof.Machine.execPageIn ctx slot s
  | .estateExport ctx slot => Sys2Proof.Machine.execEstateExport ctx slot s
  | .estateImport ctx slot => Sys2Proof.Machine.execEstateImport ctx slot s
  | .stepTriggerArm ctx slot => Sys2Proof.Machine.execStepTriggerArm ctx slot s
  | .stepTriggerFire trig => Sys2Proof.Machine.execStepTriggerFire trig s
  | .attestation ctx slot => Sys2Proof.Machine.execAttestation ctx slot s
  | .sieveArm win => Sys2Proof.Machine.execSieveArm win s
  | .sievePass win => Sys2Proof.Machine.execSievePass win s
  -- kill and containment
  | .killRequest v => Sys2Proof.Machine.execKillRequest v s
  | .kill ctx => Sys2Proof.Machine.execKill ctx s
  | .killWrapResume ctx => Sys2Proof.Machine.execKillWrapResume ctx s
  | .orphanedResponse ctx => Sys2Proof.Machine.execOrphanedResponse ctx s
  | .reclaim ctx => Sys2Proof.Machine.execReclaim ctx s
  | .teamRelaunch team core => Sys2Proof.Machine.execTeamRelaunch team core s
  | .uncorrectableCacheError pl unit line way => Sys2Proof.Machine.execUncorrectableCacheError pl unit line way s
  | .correctedError a unit slice way => Sys2Proof.Machine.execCorrectedError a unit slice way s
  | .memoryPoison line => Sys2Proof.Machine.execMemoryPoison line s
  | .regionRetire region spare => Sys2Proof.Machine.execRegionRetire region spare s
  | .stateArrayError g => Sys2Proof.Machine.execStateArrayError g s
  | .pipelineError g array => Sys2Proof.Machine.execPipelineError g array s
  | .infieldTest part array pass => Sys2Proof.Machine.execInfieldTest part array pass s
  -- debug
  | .partitionStop part => Sys2Proof.Machine.execPartitionStop part s
  | .partitionResume part => Sys2Proof.Machine.execPartitionResume part s
  | .laneStop g lane => Sys2Proof.Machine.execLaneStop g lane s
  | .laneResume g lane => Sys2Proof.Machine.execLaneResume g lane s
  | .singleStep g => Sys2Proof.Machine.execSingleStep g s
  | .stallSample part => Sys2Proof.Machine.execStallSample part s
  | .snapshotTrigger src tag ctx => Sys2Proof.Machine.execSnapshotTrigger src tag ctx s
  -- host, peers, bring-up
  | .feataccWrite v => Sys2Proof.Machine.execFeataccWrite v s
  | .ctxCreate ctx => Sys2Proof.Machine.execCtxCreate ctx s
  | .ctxDestroy ctx => Sys2Proof.Machine.execCtxDestroy ctx s
  | .pwrcapWrite v => Sys2Proof.Machine.execPwrcapWrite v s
  | .brdlimWrite v => Sys2Proof.Machine.execBrdlimWrite v s
  | .registerWrite r v => Sys2Proof.Machine.execRegisterWrite r v s
  | .hostWindowAccess ctx off op bytes => Sys2Proof.Machine.execHostWindowAccess ctx off op bytes s
  | .peerAccess ctx inc pa op bytes => Sys2Proof.Machine.execPeerAccess ctx inc pa op bytes s
  | .linkPortFailure port => Sys2Proof.Machine.execLinkPortFailure port s
  | .resetBoot failed b => Sys2Proof.Machine.execResetBoot failed b s
  | .mappingChange ctx va len writes backing => Sys2Proof.Machine.execMappingChange ctx va len writes backing s
  | .wayMaskWrite die q ways => Sys2Proof.Machine.execWayMaskWrite die q ways s
  | .thermalLimitClear die => Sys2Proof.Machine.execThermalLimitClear die s
  | .commitComplete g => Sys2Proof.Machine.execCommitComplete g s
  | .swapTakenEffect g => Sys2Proof.Machine.execSwapTakenEffect g s

end Sys2Proof.Machine
end

