-- ==== Sys2Proof/Machine/Auto.lean ====
section
/-! DEFINITION. What happens next: the clock, what the device must do at once, a partition's issue, and the
events that the device's own agents have to do, in turn (R30, R41, R46, R47, R49, R265, R371, R378, R386;
log 3). -/

namespace Sys2Proof.Machine

/-! ### The clock (R49, log 6) -/

/-- A step passes: the token period of one core after another begins, 8,192 steps after its last. -/
def State.clock (s : State) : State :=
  let s := { s with steps := s.steps + 1 }
  let c := s.steps % 8192
  if c < 256 then
    let n := s.grantOf c
    s.modCore c (fun x => { x with grant := n, avail := n })
  else s

/-! ### What cannot wait (R371, R378) -/

/-- A sieve pass whose vector is complete, a write of ARM, a write that fired a trigger. -/
def State.urgent (s : State) : Option Instr :=
  match s.sieves.find? (fun w => w.2.full) with
  | some w => some (.sievePass w.1)
  | none =>
    match s.sieves.find? (fun w => w.2.armReq) with
    | some w => some (.sieveArm w.1)
    | none =>
      match s.triggers.find? (fun t => t.2.live && !t.2.fired.isEmpty && (s.ctx t.2.ctx).used &&
          (s.ctx t.2.ctx).isOpen && (s.ctx t.2.ctx).inc == t.2.inc) with
      | some t => some (.stepTriggerFire t.1)
      | none => none

/-! ### The issue of a partition (R46, R47, R235, R386) -/

/-- Ring waits of a partition's groups that are over act (R235). -/
def State.ringWaits (s : State) (part : Nat) : State :=
  ((s.groups.filter (fun g => g.2.resident && g.2.part == part)).map Prod.fst).foldl (fun s k =>
    match (s.group k).wait with
    | .ring op _ hdr x _ => if s.current (s.group k) && s.ringReady k op hdr x then s.ringStep k else s
    | _ => s) s

/-- Under SS, a group that has issued is stopped for the debugger (R386). -/
def State.stepStop (s : State) (k : Nat) : State :=
  let g := s.group k
  if g.ss && !g.scout && !g.wait.unissued then s.modGroup k (fun g => { g with dbgStop := true }) else s

/-- A group with TM set that an instruction leaves in a wait that a save keeps stands still for a preemption request
(R338). -/
def State.haltMasked (s : State) (k : Nat) : State :=
  let g := s.group k
  if (s.team g.team).preempt && !g.scout && g.halts then s.modGroup k (fun g => { g with halted := true }) else s

/-- Executes the instruction that a group issues; the first of group 0 starts the scout (R51). -/
def issueInstr (k : Nat) (i : Instr) (s : State) : Host.Outcome State Fault Refusal :=
  match exec i { s with cur := k } with
  | .next t => .next (((t.startScout k (s.group k)).stepStop k).haltMasked k)
  | r => r

/-- A partition issues the group that the order of R47 picks, if one is ready. -/
def issueOn (part : Nat) (s : State) : Host.Outcome State Fault Refusal :=
  let s := s.ringWaits part
  match s.pick part with
  | none => .next (s.idleTurn part)
  | some k =>
    match s.nextInstr k with
    | (s, some i) => issueInstr k i s
    | (t, none) => .next (((t.startScout k (s.group k)).stepStop k).haltMasked k)

/-! ### Events that the device's agents may have to do -/

/-- Keys of a map. -/
def keysOf {V : Type} (m : FMap V) : List Nat := m.map Prod.fst

/-- Events of groups: results, handler entry, ends, and waits that the memory system ends. -/
def State.groupEvents (s : State) : List Instr :=
  s.groups.flatMap (fun (g : Nat × Group) =>
    ((List.range g.2.pend.length).filter (fun j => (g.2.pend[j]?.map (fun e => !e.held || e.sweep.isSome)).getD false)).map
      (fun j => Instr.resultReturn g.1 j) ++
    (if g.2.wantsHandler then [Instr.handlerEntry g.1] else []) ++
    (if g.2.resident && g.2.running.isEmpty && !g.2.ended then [Instr.groupEnd g.1] else []) ++
    (if g.2.scout then [Instr.scoutEnd g.1] else []) ++
    (match g.2.wait with
      | .donate .. => [Instr.donationRendezvous g.1]
      | .confirm => [Instr.invalidationConfirmed g.1]
      | .txe _ => [Instr.commitComplete g.1]
      | .publ .. => [Instr.swapTakenEffect g.1]
      | .callRing .. | .sys .. => [Instr.callRingRetry g.1]
      | _ => []) ++
    (if g.2.dbgStop then [Instr.singleStep g.1] else []))

/-- In-field tests: at once on what has been taken out of service, and on every partition in turn (R368). DESIGN CHOICE
(log 42): the period, and the outcome, which is free. -/
def State.testEvents (s : State) : List Instr :=
  let test := fun (part : Nat) (array : Bool) => Instr.infieldTest part array (Config.testPasses s.steps part)
  s.cores.flatMap (fun c => c.2.testDue.flatMap (fun k => if k = 1024 then (List.range 4).map (fun j => test (4 * c.1 + j) true) else [test k false])) ++
  (if s.steps / 6 % 2 ^ 18 = 0 ∧ s.bootStat = 1 then [test (s.steps / 6 / 2 ^ 18 % 1024) false] else [])

/-- Regions that are to be retired, each to its spare run (R364). -/
def State.retireEvents (s : State) : List Instr :=
  s.badRegions.filterMap (fun r => (s.spareFor r).map (fun b => Instr.regionRetire r (b / 65536)))

/-- Events of engines, of moves, of tests, of retirement, and of sampling. -/
def State.unitEvents (s : State) : List Instr :=
  (s.cores.filter (fun c => !c.2.queue.isEmpty)).map (fun c => Instr.engineCommandComplete c.1) ++
  (List.range s.moving.length).flatMap (fun m =>
    [Instr.moveDrainComplete m, Instr.moveCopyComplete m, Instr.moveShootdownConfirmed m]) ++
  s.testEvents ++ s.retireEvents ++ (s.parts.filter (fun p => p.2.period != 0)).map (fun p => Instr.stallSample p.1)

/-- Services of the firmware cores and the replies of `sys`. -/
def State.serviceEvents (s : State) : List Instr :=
  s.ctxs.flatMap (fun c => (c.2.slots.filter (fun x => x.2.used)).flatMap (fun x =>
    (match x.2.svc with
      | 1000 => [Instr.stepTriggerArm c.1 x.1]
      | 1024 => [Instr.pageIn c.1 x.1]
      | 1100 => [Instr.estateExport c.1 x.1]
      | 1101 => [Instr.estateImport c.1 x.1]
      | 1110 => [Instr.markRetire c.1 x.1]
      | 1111 => [Instr.markHitCount c.1 x.1]
      | 1536 => [Instr.attestation c.1 x.1]
      | _ => []) ++ [Instr.sysReply c.1 x.1]))

/-- Events of queues, admission, phases, the completion queue and the mailboxes. -/
def State.queueEvents (s : State) : List Instr :=
  s.ctxs.flatMap (fun c => (List.range 64).flatMap (fun q =>
    match (c.2.queue q).state with
    | .idle => if s.qOn c.1 q then [Instr.packetParse c.1 q] else []
    | .ready => [Instr.cmdNop c.1 q, Instr.cmdLaunch c.1 q, Instr.cmdGraph c.1 q, Instr.cmdWrite c.1 q, Instr.cmdWait c.1 q, Instr.cmdSignal c.1 q]
    | .graph .. => [Instr.graphNodeNext c.1 q]
    | .wait => [Instr.waitRepoll c.1 q]
    | .launch _ => [])) ++
  s.launches.flatMap (fun l =>
    if s.admissible l.1 then ((List.range 256).find? (fun k => s.chooses l.1 k)).toList.map (fun k => Instr.teamAdmission l.1 k)
    else []) ++
  (List.range 16).map (fun p => Instr.phaseEnd p) ++
  (keysOf s.mail).map (fun f => Instr.mailboxTake f) ++
  (s.ctxs.filter (fun c => !c.2.heldRecs.isEmpty)).map (fun c => Instr.cqWriteRetry c.1)

/-- Events of kills, reclaim, relaunch, preemption and restore. -/
def State.contextEvents (s : State) : List Instr :=
  s.ctxs.flatMap (fun c =>
    [Instr.kill c.1, Instr.killWrapResume c.1, Instr.orphanedResponse c.1, Instr.reclaim c.1] ++
    (if decide (c.2.sliceFrom + 800 * c.2.slice ≤ s.steps) then [Instr.timeSliceEnd c.1] else [])) ++
  s.teams.flatMap (fun t =>
    if t.2.preempt then [Instr.preemptionSave t.1, Instr.maskedHandlerOverrun t.1]
    else if t.2.saved then
      ((List.range 256).find? (fun k => (s.restorePlan t.1 k).isSome)).toList.map (fun k => Instr.teamRestore t.1 k)
    else if t.2.live && t.2.groups.isEmpty && t.2.relaunched then
      ((List.range 256).filter (fun k => s.mayRelaunch t.1 k)).map (fun k => Instr.teamRelaunch t.1 k)
    else [])

/-- Partitions with a resident group. -/
def State.busyParts (s : State) : List Nat := ((s.groups.filter (fun g => g.2.resident)).map (fun g => g.2.part)).dedup

/-! ### Taking turns (log 3) -/

/-- A list that begins at its element `n`, taken modulo its length. -/
def rotate {α : Type} (n : Nat) (l : List α) : List α := l.drop (n % l.length) ++ l.take (n % l.length)

/-- The first event of a list that can happen. -/
def firstPossible (s : State) : List Instr → Option State
  | [] => none
  | i :: is =>
    match exec i s with
    | .next s => some s
    | _ => firstPossible s is

/-- The partition whose turn it is to issue. -/
def State.issueTurn (s : State) : Option Nat :=
  (rotate (s.steps / 6) s.busyParts).find? (fun p => ((s.ringWaits p).pick p).isSome)

/-- What one class of agents does, when it has anything to do. -/
def State.turn (s : State) (cls : Nat) : Option (Host.Outcome State Fault Refusal) :=
  let go := fun (l : List Instr) => (firstPossible s (rotate (s.steps / 6) l)).map Host.Outcome.next
  match cls with
  | 0 => s.issueTurn.map (fun p => issueOn p s)
  | 1 => go s.groupEvents
  | 2 => go s.unitEvents
  | 3 => go s.serviceEvents
  | 4 => go s.queueEvents
  | _ => go s.contextEvents

/-- With nothing determined beforehand, the device's agents take turns; when none has anything to do, time
passes. -/
def auto (s : State) : Host.Outcome State Fault Refusal :=
  ((rotate s.steps [0, 1, 2, 3, 4, 5]).findSome? (fun c => s.turn c)).getD (.next s)

/-- A move that was determined beforehand. A program instruction is no event: a group issues it. -/
def perform1 (m : Move) (s : State) : Host.Outcome State Fault Refusal :=
  match m with
  | .issue part => issueOn part s
  | .event i => if i.isEvent then exec i s else notEnabled "ISSUE"

/-- What happens at a state whose clock has been advanced. -/
def happen (s : State) : Host.Outcome State Fault Refusal :=
  match s.urgent with
  | some i => exec i s
  | none =>
    match s.moves with
    | m :: ms => perform1 m { s with moves := ms }
    | [] => auto s

/-! ### A program in place (log 7) -/

/-- Words of an instruction as memory holds them: 12 bytes, low byte first. -/
def fetchBytes (nbits w : Nat) : List Byte := leBytes 12 (w % 2 ^ nbits)

/-- The cached translation through which partition 0 fetches: virtual 0 to 65,535 at physical 2 MiB. -/
def fetchEntry : TlbEntry :=
  { place := .instr 0
    ctx := 0
    inc := 0
    base := 0
    size := 65536
    entry := 0x200000000020001D }

/-- A group of 64 lanes at address 0 in partition 0, with its context, launch and team, and an instruction in
memory there: what an admitted launch leaves. -/
def State.placeWord (s : State) (bs : List Byte) : State :=
  let c : Context := { used := true, isOpen := true }
  let l : Launch := { live := true, teams := 1, admitted := 1 }
  let t : Team := { live := true, groups := [0] }
  let g : Group := { width := 64, resident := true, regs := 256, alloc := 256 }
  { s with
    cur := 0
    ctxs := s.ctxs.set Context.none 0 c
    launches := s.launches.set Launch.none 0 l
    teams := s.teams.set Team.none 0 t
    groups := s.groups.set Group.empty 0 g
    tlb := s.tlb ++ [fetchEntry]
    mem := Memory.setBytes s.mem 2097152 bs
    moves := [.issue 0] }

end Sys2Proof.Machine
end

