-- ==== Sys2Proof/Machine/Step.lean ====
section
/-! DEFINITION. One step of the machine, and an instruction placed where the next step fetches. -/

namespace Sys2Proof.Machine

/-- One step: the clock advances, and what comes next happens. -/
def step (s : State) : Host.Outcome State Fault Refusal := happen s.clock

/-- The state with an instruction stored where the next step fetches. -/
def State.withFetchWord (s : State) (nbits w : Nat) : State := s.placeWord (fetchBytes nbits w)

end Sys2Proof.Machine
end

