-- ==== Sys2Proof/Safety.lean ====
section
/-! DEFINITION. The terms that statements about the machine use: when an instruction issues and nothing in
the state stands in its way, what an instruction with a fixed latency leaves, what a step may leave alone, and
what counts as a safe run. -/

namespace Sys2Proof.Machine

/-! ### Runs -/

/-- A step that neither faults nor refuses. -/
def State.Steps (s : State) : Prop := ∃ t, step s = .next t

/-- A run of `n` steps that neither faults nor refuses. -/
def State.Safe : Nat → State → Prop
  | 0, _ => True
  | n + 1, s => ∃ t, step s = .next t ∧ State.Safe n t

/-- The memory below the caches is in its canonical form. -/
def State.Canonical (s : State) : Prop := Memory.wf s.mem = true

/-! ### When an instruction issues (R38, R97, R103, R107, R385) -/

/-- The active lanes of a group for an instruction at an address: at the minimum, with a true guard. -/
def Group.active (g : Group) (i : Instr) (pc : W64) : List Nat :=
  (g.atMin pc).filter (fun l => g.guard i.ctl l)

/-- The current group issues a well-formed instruction at its smallest PC: it is no scout, no decode step
refuses the instruction, no lane would read a register with a result pending, and no register watchpoint
matches. -/
structure Issues (s : State) (i : Instr) (pc : W64) : Prop where
  wf     : i.wf (s.group s.cur).width = true
  atPc   : (s.group s.cur).issuePc = some pc
  body   : (s.group s.cur).scout = false
  gate   : s.gateCheck (s.group s.cur) i = none
  guards : ∀ l ∈ (s.group s.cur).atMin pc, ∀ u ∈ guardUnits i.ctl l, (s.group s.cur).pending u = false
  reads  : ∀ l ∈ (s.group s.cur).active i pc,
    ∀ u ∈ sources i (s.group s.cur) ((s.group s.cur).active i pc) l, (s.group s.cur).pending u = false
  watch  : s.watchedLanes s.cur i ((s.group s.cur).active i pc) = []

/-- The issue of an instruction by the current group. -/
def State.issueOf (s : State) (i : Instr) (pc : W64) : Issue :=
  { s.issueAt s.cur pc with act := (s.group s.cur).active i pc }

/-- The state in which an instruction has issued, before its effect: PCs are past it, and its hints stand. -/
def State.issued (s : State) (i : Instr) (pc : W64) : State :=
  (s.advance (s.issueOf i pc)).hints (s.issueOf i pc) i

/-- No access of the current group is on its way or waits at a tile in transit (R153, R248). -/
def State.free_ (s : State) : Prop := ∀ e ∈ (s.group s.cur).pend, e.access = none

/-- An instruction issues that may first perform accesses of its group, and finds none on its way. -/
structure IssuesMem (s : State) (i : Instr) (pc : W64) : Prop extends Issues s i pc where
  calm : s.free_

/-- No active lane has an open transaction (R175). -/
def State.noTx (s : State) (i : Instr) (pc : W64) : Prop :=
  ∀ l ∈ (s.group s.cur).active i pc, ((s.group s.cur).lane l).tx = none

/-! ### What a step leaves alone -/

/-- Two states that differ at most in the current group and in the issue order and cycles of partitions. -/
structure OnlyGroup (s t : State) : Prop where
  others : ∀ k, k ≠ s.cur → t.group k = s.group k
  parts  : ∀ p, { t.part p with
    order := (s.part p).order, turns := (s.part p).turns, joined := (s.part p).joined, left := (s.part p).left
    leadAt := (s.part p).leadAt, lead := (s.part p).lead
    now := (s.part p).now } = s.part p
  rest   : { t with groups := s.groups, parts := s.parts } = s

/-- Two groups that differ at most in lanes, scalars, status, results on their way, and issue hints. -/
def Group.Alike (g h : Group) : Prop :=
  { h with
    lanes := g.lanes, sregs := g.sregs, gsw := g.gsw, pend := g.pend, opcache := g.opcache, marker := g.marker
    stall := g.stall, yielded := g.yielded, yieldTurn := g.yieldTurn, lastPc := g.lastPc, made := g.made
    lastIssue := g.lastIssue, wait := g.wait
    maskedIssues := g.maskedIssues, scoutIssues := g.scoutIssues } = g

/-- Two lanes that differ at most in PC, issue count, vector registers and predicates. -/
def Lane.Alike (l m : Lane) : Prop := { m with pc := l.pc, issued := l.issued, v := l.v, p := l.p } = l

/-- Lanes at the minimum stand past the instruction, and every other lane is as it was. -/
structure Advanced (s t : State) (pc : W64) : Prop where
  past  : ∀ l ∈ (s.group s.cur).atMin pc, ((t.group s.cur).lane l).pc = pc + 12 ∧
    ((s.group s.cur).lane l).Alike ((t.group s.cur).lane l)
  still : ∀ l, l ∉ (s.group s.cur).atMin pc → (t.group s.cur).lane l = (s.group s.cur).lane l

/-! ### Results of a fixed latency (R111, R112, R115) -/

/-- Whether a destination of `n` registers covers vector register `r`. -/
def Opnd.covers (d : Opnd) (n r : Nat) : Prop :=
  match d with
  | .v r0 _ => r0 ≤ r ∧ r < r0 + n
  | _ => False

/-- What a destination of `n` registers holds for a lane. -/
def Group.dval (g : Group) (d : Opnd) (n l : Nat) : Nat :=
  match d with
  | .v r _ => if n = 2 then ((g.lane l).vpair r).toNat else ((g.lane l).vreg r).toNat
  | .s r => (g.sreg r).toNat
  | .p k => if (g.lane l).pred k then 1 else 0
  | _ => 0

/-- The lanes whose results an instruction computes: every active lane, and the lowest one in a scalar form. -/
def Opnd.lanes (d : Opnd) (act : List Nat) : List Nat :=
  match d with
  | .s _ => act.take 1
  | _ => act

/-- The lanes for which a destination takes a value: `p7` discards what is written (R56). -/
def Opnd.takers (d : Opnd) (act : List Nat) : List Nat := if d = .p 7 then [] else Opnd.lanes d act

/-- The register units of a destination of `n` registers over those lanes. -/
def Opnd.units (d : Opnd) (n : Nat) (act : List Nat) : List PUnit :=
  (Opnd.lanes d act).flatMap (fun l => (destUnits d n l 0).map Prod.fst)

/-- The sticky flags that any of several lanes raises. -/
def flagsOf (fl : Nat → Nat) (ls : List Nat) : W64 := ls.foldl (fun m l => m ||| BitVec.ofNat 64 (fl l)) 0

/-- What an instruction with a destination of `n` registers leaves: `ok` holds of each lane that takes a
value and the value's low `32 × n` bits; a 32-bit value of a scalar is extended by its type; the sticky flags
are those that were set and those that `fl` names for a computing lane; older results on their way into the
destination are dropped; and every other register and all other state of the machine is as it was. -/
structure Result (s t : State) (i : Instr) (pc : W64) (n : Nat) (signed : Bool) (fl : Nat → Nat)
    (ok : Nat → Nat → Prop) : Prop where
  frame  : OnlyGroup s t
  group  : (s.group s.cur).Alike (t.group s.cur)
  pcs    : Advanced s t pc
  value  : ∀ l ∈ Opnd.takers i.ops.d ((s.group s.cur).active i pc),
    ok l ((t.group s.cur).dval i.ops.d n l % 2 ^ (32 * n))
  extend : ∀ r, i.ops.d = .s r → (s.group s.cur).active i pc ≠ [] → n = 1 →
    (t.group s.cur).sreg r = extendTo64 signed (((t.group s.cur).sreg r).toNat % 2 ^ 32)
  vregs  : ∀ l r, ¬(l ∈ (s.group s.cur).active i pc ∧ Opnd.covers i.ops.d n r) →
    ((t.group s.cur).lane l).vreg r = ((s.group s.cur).lane l).vreg r
  preds  : ∀ l k, ¬(l ∈ (s.group s.cur).active i pc ∧ i.ops.d = .p k) →
    ((t.group s.cur).lane l).pred k = ((s.group s.cur).lane l).pred k
  sregs  : ∀ r, ¬((s.group s.cur).active i pc ≠ [] ∧ i.ops.d = .s r) →
    (t.group s.cur).sreg r = (s.group s.cur).sreg r
  sticky : (t.group s.cur).gsw =
    (s.group s.cur).gsw ||| flagsOf fl (Opnd.lanes i.ops.d ((s.group s.cur).active i pc))
  late   : (t.group s.cur).pend = (s.group s.cur).pend.map
    (fun e => (Opnd.units i.ops.d n ((s.group s.cur).active i pc)).foldl Pend.drop e)

/-- An instruction answers a next state with its result, wherever it issues. -/
def Gives (i : Instr) (n : Nat) (signed : Bool) (fl : Group → Nat → Nat) (ok : Group → Nat → Nat → Prop) : Prop :=
  ∀ s pc, Issues s i pc →
    ∃ t, exec i s = .next t ∧ Result s t i pc n signed (fl (s.group s.cur)) (fun l v => ok (s.group s.cur) l v)

/-- The same for a result that several lanes' registers enter: what is said depends on the active set too. -/
def GivesOver (i : Instr) (n : Nat) (signed : Bool) (fl : Group → List Nat → Nat → Nat)
    (ok : Group → List Nat → Nat → Nat → Prop) : Prop :=
  ∀ s pc, Issues s i pc →
    ∃ t, exec i s = .next t ∧
      Result s t i pc n signed (fl (s.group s.cur) ((s.group s.cur).active i pc))
        (fun l v => ok (s.group s.cur) ((s.group s.cur).active i pc) l v)

/-- No register, predicate or flag of the current group changes: its lanes at the minimum stand past the
instruction, and nothing else of the machine differs but results on their way and issue hints. -/
structure Quiet (s t : State) (pc : W64) : Prop where
  frame  : OnlyGroup s t
  group  : (s.group s.cur).Alike (t.group s.cur)
  pcs    : Advanced s t pc
  lanes  : ∀ l, ((t.group s.cur).lane l).v = ((s.group s.cur).lane l).v ∧
    ((t.group s.cur).lane l).p = ((s.group s.cur).lane l).p
  sregs  : (t.group s.cur).sregs = (s.group s.cur).sregs
  sticky : (t.group s.cur).gsw = (s.group s.cur).gsw

/-- The active lanes of the current group go to their targets, the others at the minimum past the instruction, and nothing
else changes but issue hints. -/
structure Jumps (s t : State) (i : Instr) (pc : W64) (target : Nat → W64) : Prop where
  frame  : OnlyGroup s t
  group  : (s.group s.cur).Alike (t.group s.cur)
  late   : (t.group s.cur).pend = (s.group s.cur).pend
  sregs  : (t.group s.cur).sregs = (s.group s.cur).sregs
  sticky : (t.group s.cur).gsw = (s.group s.cur).gsw
  lanes  : ∀ l, ((s.group s.cur).lane l).Alike ((t.group s.cur).lane l) ∧
    ((t.group s.cur).lane l).v = ((s.group s.cur).lane l).v ∧ ((t.group s.cur).lane l).p = ((s.group s.cur).lane l).p
  pcs    : ∀ l, ((t.group s.cur).lane l).pc =
    if l ∈ (s.group s.cur).active i pc then target l
    else if l ∈ (s.group s.cur).atMin pc then pc + 12 else ((s.group s.cur).lane l).pc

/-- The entry of a result of variable latency for lane `l` (R102, R103). -/
def State.lateEntry (s : State) (i : Instr) (pc : W64) (l : Nat) (r : Res) : Pend :=
  { pc := pc
    lane := some l
    lanes := [(l, (((s.issued i pc).group s.cur).lane l).issued)]
    writes := (destUnits i.ops.d 1 l (BitVec.ofNat 64 r.bits)).map (fun p => (p.1, some p.2))
    flags := r.flags.mask }

/-- The register file and flags of the current group stay as they were and its lanes at the minimum stand past
the instruction; other groups are as they were. Caches, local memory and results on their way may differ. -/
structure Untouched (s t : State) (pc : W64) : Prop where
  others : ∀ k, k ≠ s.cur → t.group k = s.group k
  group  : (s.group s.cur).Alike (t.group s.cur)
  pcs    : Advanced s t pc
  lanes  : ∀ l, ((t.group s.cur).lane l).v = ((s.group s.cur).lane l).v ∧
    ((t.group s.cur).lane l).p = ((s.group s.cur).lane l).p
  sregs  : (t.group s.cur).sregs = (s.group s.cur).sregs
  sticky : (t.group s.cur).gsw = (s.group s.cur).gsw

/-- A lane stands parked at an address with a cause, its detail and the faulting address (R62, R327). -/
def Lane.ParkedAt (l : Lane) (pc : W64) (code detail : Nat) (addr : W64) : Prop :=
  l.lst = .parked ∧ l.pc = pc ∧ l.cause = BitVec.ofNat 32 (code + 16 * detail) ∧ l.addr = addr

/-- Two lanes that differ at most in PC, issue count and return stack. -/
def Lane.SameButStack (l m : Lane) : Prop :=
  { m with pc := l.pc, issued := l.issued, stack := l.stack, depth := l.depth } = l

/-- The active lanes of an instruction, each with its count of instructions issued, as its results name them (R382). -/
def State.actors (s : State) (i : Instr) (pc : W64) : List (Nat × Nat) :=
  Group.issuedOf ((s.issued i pc).group s.cur) ((s.group s.cur).active i pc)

/-- A scalar result on its way, of an instruction that acts once for the group (R115). -/
def scalarEntry (pc : W64) (lanes : List (Nat × Nat)) (d : Opnd) (v : W64) : Pend :=
  { pc := pc
    lane := none
    lanes := lanes
    writes := [(.sca (Opnd.idx d), some v)] }

/-- The status of a tile move that is under way, held until it ends (R106, R182). -/
def moveEntry (pc : W64) (lanes : List (Nat × Nat)) (d : Opnd) (f : Nat) : Pend :=
  { pc := pc
    lane := none
    lanes := lanes
    writes := [(.sca (Opnd.idx d), none)]
    held := true
    tag := f }

/-- An instruction enters one result on its way for each active lane, and changes nothing else. -/
def Enters (i : Instr) (res : Group → Nat → Res) : Prop :=
  ∀ s pc, Issues s i pc →
    ∃ t, exec i s = .next t ∧ Quiet s t pc ∧
      (t.group s.cur).pend = (s.group s.cur).pend ++
        ((s.group s.cur).active i pc).map (fun l => s.lateEntry i pc l (res (s.group s.cur) l))

/-! ### Values of elements -/

/-- The value of element `j` of a result's bits. -/
def intElem (t : IntTy) (x j : Nat) : Int := t.val (x / 2 ^ (t.bits * j) % 2 ^ t.bits)

/-- The value of element `j` of a lane's source. -/
def srcVal (t : IntTy) (o : Opnd) (g : Group) (l j : Nat) : Int := t.val (srcElem g l t o j)

/-- The value of a lane's source as a whole. -/
def wholeVal (t : IntTy) (o : Opnd) (g : Group) (l : Nat) : Int := t.val (srcInt g l t o)

/-- Each element of a result is an exact integer narrowed to its type: clamped under `.sat`, else wrapped. -/
def Narrowed (t : IntTy) (sat : Bool) (e : Nat → Int) (x : Nat) : Prop :=
  ∀ j < t.slots,
    if sat then intElem t x j = max t.lo (min t.hi (e j)) else (intElem t x j - e j) % (2 ^ t.bits : Nat) = 0

/-- The flags of a narrowing: SAT when it clamps some element. -/
def satMask (t : IntTy) (sat : Bool) (e : Nat → Int) : Nat :=
  if sat && (List.range t.slots).any (fun j => decide (e j < t.lo) || decide (t.hi < e j)) then 32 else 0

/-- An instruction of two integer sources gives `f` of the exact values of each element. -/
def Arith2 (i : Instr) (t : IntTy) (sat : Bool) (f : Int → Int → Int) : Prop :=
  Gives i t.regs t.signed
    (fun g l => satMask t sat (fun j => f (srcVal t i.ops.a g l j) (srcVal t i.ops.b g l j)))
    (fun g l x => Narrowed t sat (fun j => f (srcVal t i.ops.a g l j) (srcVal t i.ops.b g l j)) x)

/-- The same of one source. -/
def Arith1 (i : Instr) (t : IntTy) (sat : Bool) (f : Int → Int) : Prop :=
  Gives i t.regs t.signed (fun g l => satMask t sat (fun j => f (srcVal t i.ops.a g l j)))
    (fun g l x => Narrowed t sat (fun j => f (srcVal t i.ops.a g l j)) x)

/-- An instruction raises no flag and gives what `ok` says. -/
def GivesPlain (i : Instr) (n : Nat) (signed : Bool) (ok : Group → Nat → Nat → Prop) : Prop :=
  Gives i n signed (fun _ _ => 0) ok

/-- Each element of a result is the operation's code for that element. -/
def Elementwise (f : FpFmt) (r : Nat → Res) (x : Nat) : Prop :=
  ∀ j < f.slots, x / 2 ^ (f.bits * j) % 2 ^ f.bits = (r j).bits

/-- The flags of every element's operation together. -/
def fpMask (f : FpFmt) (r : Nat → Res) : Nat :=
  (((List.range f.slots).map (fun j => (r j).flags)).foldl Flags.or {}).mask

/-- A floating-point instruction gives an operation's code in each element, with its flags. -/
def GivesFloat (i : Instr) (f : FpFmt) (r : Group → Nat → Nat → Res) : Prop :=
  Gives i 1 false (fun g l => fpMask f (r g l)) (fun g l x => Elementwise f (r g l) x)

/-! ### Rounding (R71, R77 to R81) -/

/-- The exact value of a finite datum; 0 of the others. -/
def FVal.rat : FVal → ℚ
  | .fin neg m e => (if neg then -1 else 1) * (m : ℚ) * (2 : ℚ) ^ e
  | _ => 0

/-- A real number by the rationals that are at most it, and those that are at least it. -/
structure Cut where
  le : ℚ → Prop
  ge : ℚ → Prop

/-- A rational number. -/
def Cut.of (x : ℚ) : Cut := ⟨fun q => q ≤ x, fun q => x ≤ q⟩
/-- The square root of a positive rational number. -/
def Cut.sqrt (x : ℚ) : Cut := ⟨fun q => q ≤ 0 ∨ q * q ≤ x, fun q => 0 ≤ q ∧ x ≤ q * q⟩

/-- The values that a format selects among, its exponent range unbounded above (R71, R77). -/
def FmtValue (f : FpFmt) (v : ℚ) : Prop :=
  ∃ n e : Int, n.natAbs < 2 ^ (f.mbits + 1) ∧ f.qmin ≤ e ∧ v = n * (2 : ℚ) ^ e

/-- The values whose last fraction bit is even. -/
def EvenValue (f : FpFmt) (v : ℚ) : Prop :=
  ∃ n e : Int, n.natAbs < 2 ^ (f.mbits + 1) ∧ (2 ^ f.mbits ≤ n.natAbs ∧ f.qmin ≤ e ∨ e = f.qmin) ∧ n % 2 = 0 ∧
    v = n * (2 : ℚ) ^ e

/-- The value that a rounding mode selects for a number (R77). -/
def Chosen (f : FpFmt) (r : Rnd) (x : Cut) (v : ℚ) : Prop :=
  FmtValue f v ∧
  match r with
  | .rn => ∀ w, FmtValue f w → w ≠ v → let mid := (v + w) / 2
      (w < v → x.le mid) ∧ (v < w → x.ge mid) ∧ (x.le mid → x.ge mid → EvenValue f v)
  | .rz => (x.le 0 → 0 ≤ v ∧ x.le v ∧ ∀ w, FmtValue f w → x.le w → w ≤ v) ∧
      (x.ge 0 → v ≤ 0 ∧ x.ge v ∧ ∀ w, FmtValue f w → x.ge w → v ≤ w)
  | .rd => x.le v ∧ ∀ w, FmtValue f w → x.le w → w ≤ v
  | .ru => x.ge v ∧ ∀ w, FmtValue f w → x.ge w → v ≤ w

/-- Least normal magnitude of a format (R71). -/
def smallOf (f : FpFmt) : ℚ := (2 : ℚ) ^ (1 - (f.bias : Int))

/-- Greatest finite magnitude of a format (R71). -/
def largeOf (f : FpFmt) : ℚ := (FVal.ofBits f f.maxFinite).rat

/-- A selected value that the format holds is the result for a number, with the flags of R80. -/
def Delivers (f : FpFmt) (neg : Bool) (x : Cut) (v : ℚ) (res : Res) : Prop :=
  let exact := x.le v ∧ x.ge v
  res.bits < 2 ^ f.bits ∧
  (∃ m e, FVal.ofBits f res.bits = .fin neg m e ∧ (FVal.fin neg m e).rat = v) ∧
  ∃ uf nx, res.flags = { uf := uf, nx := nx } ∧ (nx = true ↔ ¬exact) ∧
    (uf = true ↔ ¬exact ∧ ¬x.le (smallOf f) ∧ ¬x.ge (-smallOf f))

/-- `Round` of a nonzero number of a sign: the selected value, or the overflow result of R78, with the flags of R80 and the
flush of R81. -/
def Rounds (f : FpFmt) (r : Rnd) (ftz neg : Bool) (x : Cut) (res : Res) : Prop :=
  ∃ v, Chosen f r x v ∧
    if largeOf f < |v| then
      res = ⟨(match r, neg with
        | .rn, _ | .rd, true | .ru, false => infBits f neg
        | _, _ => withSign f neg f.maxFinite), { ov := true, nx := true }⟩
    else if ftz = true ∧ v ≠ 0 ∧ |v| < smallOf f then res = ⟨zeroBits f neg, { uf := true, nx := true }⟩
    else Delivers f neg x v res

/-- The integer that a rounding mode selects for a number (R77). -/
def Nearest (r : Rnd) (x : ℚ) (k : Int) : Prop :=
  match r with
  | .rn => |x - k| ≤ 1 / 2 ∧ (|x - k| = 1 / 2 → k % 2 = 0)
  | .rz => k = if 0 ≤ x then ⌊x⌋ else ⌈x⌉
  | .rd => k = ⌊x⌋
  | .ru => k = ⌈x⌉

/-- The rounded exact sum of terms none of which is NaN and whose infinities agree, with the zeros of R79. -/
def SumRounds (f : FpFmt) (r : Rnd) (ftz : Bool) (ts : List FVal) (res : Res) : Prop :=
  let x := (ts.map FVal.rat).sum
  let zeros := fun neg => ∀ t ∈ ts, t.isZero = true ∧ t.sign = neg
  (∀ neg, FVal.inf neg ∈ ts → res = ⟨infBits f neg, {}⟩) ∧
  ((∀ t ∈ ts, t.isInf = false) →
    (x = 0 → ∃ neg, res = ⟨zeroBits f neg, {}⟩ ∧ (zeros neg ∨ ((∀ n, ¬zeros n) ∧ (neg = true ↔ r = .rd)))) ∧
    (x ≠ 0 → Rounds f r ftz (decide (x < 0)) (.of x) res))

/-- The rounded sum of terms (R79, R82, R131): NaN of cause 1 for a NaN term, of cause 3 for opposed infinities. -/
def SumOf (f : FpFmt) (r : Rnd) (ftz : Bool) (ts : List FVal) (res : Res) : Prop :=
  let clash := FVal.inf true ∈ ts ∧ FVal.inf false ∈ ts
  ((∃ t ∈ ts, t.isNan = true) → res = ⟨f.nan 1, {}⟩) ∧
  ((∀ t ∈ ts, t.isNan = false) →
    (clash → res = ⟨f.nan 3, { nv := true }⟩) ∧ (¬clash → SumRounds f r ftz ts res))

/-- Whether one operand is zero and the other infinite. -/
def ZeroInf (a b : FVal) : Prop := a.isZero = true ∧ b.isInf = true ∨ a.isInf = true ∧ b.isZero = true

/-- A × B + the terms `ts`, rounded once (R131): 0 × ∞ before ∞ − ∞. -/
def ProductOf (f : FpFmt) (r : Rnd) (ftz : Bool) (a b : FVal) (ts : List FVal) (res : Res) : Prop :=
  ((∃ t ∈ a :: b :: ts, t.isNan = true) → res = ⟨f.nan 1, {}⟩) ∧
  ((∀ t ∈ a :: b :: ts, t.isNan = false) →
    (ZeroInf a b → res = ⟨f.nan 4, { nv := true }⟩) ∧ (¬ZeroInf a b → SumOf f r ftz (a.mul b :: ts) res))

/-- A / B, rounded (R131). -/
def QuotientOf (f : FpFmt) (r : Rnd) (ftz : Bool) (a b : FVal) (res : Res) : Prop :=
  let neg := a.sign != b.sign
  (a.isNan = true ∨ b.isNan = true → res = ⟨f.nan 1, {}⟩) ∧
  (a.isZero = true ∧ b.isZero = true ∨ a.isInf = true ∧ b.isInf = true → res = ⟨f.nan 5, { nv := true }⟩) ∧
  (a.isInf = true → b.isNan = false → b.isInf = false → res = ⟨infBits f neg, {}⟩) ∧
  (b.isInf = true → a.isNan = false → a.isInf = false → res = ⟨zeroBits f neg, {}⟩) ∧
  (∀ s m e t n k, a = .fin s m e → b = .fin t n k →
    (n = 0 → m ≠ 0 → res = ⟨infBits f neg, { dz := true }⟩) ∧
    (n ≠ 0 → m = 0 → res = ⟨zeroBits f neg, {}⟩) ∧
    (n ≠ 0 → m ≠ 0 → Rounds f r ftz neg (.of (a.rat / b.rat)) res))

/-- √A, rounded (R131). -/
def RootOf (f : FpFmt) (r : Rnd) (ftz : Bool) (a : FVal) (res : Res) : Prop :=
  match a with
  | .nan _ => res = ⟨f.nan 1, {}⟩
  | .inf neg => res = if neg then ⟨f.nan 5, { nv := true }⟩ else ⟨infBits f false, {}⟩
  | .fin neg m e =>
    if m = 0 then res = ⟨zeroBits f neg, {}⟩
    else if neg then res = ⟨f.nan 5, { nv := true }⟩
    else Rounds f r ftz false (.sqrt (FVal.fin neg m e).rat) res

/-- A rounded to an integral value in its own format (R131); no flag. -/
def IntegralOf (f : FpFmt) (r : Rnd) (a : FVal) (res : Res) : Prop :=
  match a with
  | .nan _ => res = ⟨f.nan 1, {}⟩
  | .inf neg => res = ⟨infBits f neg, {}⟩
  | .fin neg m e =>
    let x := (FVal.fin neg m e).rat
    res.flags = {} ∧ res.bits < 2 ^ f.bits ∧
    ∃ (k : Int) (n : Nat) (q : Int), FVal.ofBits f res.bits = .fin neg n q ∧ (FVal.fin neg n q).rat = k ∧ Nearest r x k

/-- 1 / A, rounded (R136). -/
def RecipOf (f : FpFmt) (ftz : Bool) (a : FVal) (res : Res) : Prop :=
  match a with
  | .nan _ => res = ⟨f.nan 1, {}⟩
  | .inf neg => res = ⟨zeroBits f neg, {}⟩
  | .fin neg m e =>
    if m = 0 then res = ⟨infBits f neg, { dz := true }⟩
    else Rounds f .rn ftz neg (.of (1 / (FVal.fin neg m e).rat)) res

/-- 1 / √A, rounded (R136). -/
def RecipRootOf (f : FpFmt) (ftz : Bool) (a : FVal) (res : Res) : Prop :=
  match a with
  | .nan _ => res = ⟨f.nan 1, {}⟩
  | .inf neg => res = if neg then ⟨f.nan 5, { nv := true }⟩ else ⟨zeroBits f false, {}⟩
  | .fin neg m e =>
    if m = 0 then res = ⟨infBits f neg, { dz := true }⟩
    else if neg then res = ⟨f.nan 5, { nv := true }⟩
    else Rounds f .rn ftz false (.sqrt (1 / (FVal.fin neg m e).rat)) res

/-! ### Conversions (R84, R138, R139) -/

/-- A nonzero number of a sign into a float format: `Round`, and beyond the range of a format without infinity its largest
magnitude, or under `.nsat` E4M3's NaN (R84). -/
def NumberTo (t : FpFmt) (nsat : Bool) (r : Rnd) (neg : Bool) (x : ℚ) (res : Res) : Prop :=
  if t.hasInf then Rounds t r false neg (.of x) res
  else ∃ v, Chosen t r (.of x) v ∧
    if largeOf t < |v| then
      res = ⟨withSign t neg (if t = .e4m3 ∧ nsat = true then 0x7F else t.maxFinite), { ov := true, nx := true }⟩
    else Delivers t neg (.of x) v res

/-- The rows of R84 for a float source and a float target; into the same format it is a move. -/
def FloatToFloat (t s : FpFmt) (nsat : Bool) (r : Rnd) (x : Nat) (res : Res) : Prop :=
  if t = s then res = ⟨x % 2 ^ s.bits, {}⟩
  else
    match FVal.ofBits s x with
    | .nan neg => res = if t.hasInf then ⟨t.nan 1, {}⟩ else if t = .e4m3 then ⟨withSign t neg 0x7F, {}⟩
        else ⟨withSign t neg t.maxFinite, { nv := true }⟩
    | .inf neg => res = if t.hasInf then ⟨infBits t neg, {}⟩
        else ⟨withSign t neg (if t = .e4m3 ∧ nsat = true then 0x7F else t.maxFinite), { nv := true }⟩
    | .fin neg m e =>
      if m = 0 then res = ⟨zeroBits t neg, {}⟩ else NumberTo t nsat r neg (FVal.fin neg m e).rat res

/-- The rows of R84 for a float source and an integer target. -/
def FloatToInt (t : IntTy) (s : FpFmt) (r : Rnd) (x : Nat) (res : Res) : Prop :=
  let code := fun (v : Int) => (v % (2 ^ t.bits : Nat)).toNat
  match FVal.ofBits s x with
  | .nan _ => res = ⟨0, { nv := true }⟩
  | .inf neg => res = ⟨code (if neg then t.lo else t.hi), { nv := true }⟩
  | .fin neg m e => ∃ k, Nearest r (FVal.fin neg m e).rat k ∧
    if k < t.lo then res = ⟨code t.lo, { nv := true }⟩
    else if t.hi < k then res = ⟨code t.hi, { nv := true }⟩
    else ∃ nx, res = ⟨code k, { nx := nx }⟩ ∧ (nx = true ↔ (k : ℚ) ≠ (FVal.fin neg m e).rat)

/-- The row of R84 for an integer source and a float target. -/
def IntToFloat (t : FpFmt) (s : IntTy) (nsat : Bool) (r : Rnd) (x : Nat) (res : Res) : Prop :=
  let v := s.val x
  if v = 0 then res = ⟨0, {}⟩ else NumberTo t nsat r (decide (v < 0)) (v : ℚ) res

/-- The rows of R84 for the quantised targets: `e` is a scale entry, with the scale in FP16 below its zero point (R76). -/
def Quantises (q8 : Bool) (f : FpFmt) (r : Rnd) (x e : Nat) (res : Res) : Prop :=
  let top := 2 ^ codeBits q8 - 1
  let z := e / 65536 % 2 ^ codeBits q8
  let a := FVal.ofBits f x
  let s := FVal.ofBits .f16 (e % 65536)
  (a.isNan = true ∨ s.isNan = true ∨ s.isInf = true ∨ s.isZero = true → res = ⟨z, { nv := true }⟩) ∧
  (∀ neg t n k, a = .inf neg → s = .fin t n k → n ≠ 0 → res = ⟨if neg = t then top else 0, { nv := true }⟩) ∧
  (∀ neg m q t n k, a = .fin neg m q → s = .fin t n k → n ≠ 0 → ∃ y, Nearest r (a.rat / s.rat) y ∧
    let v := (z : Int) + y
    if v < 0 then res = ⟨0, { sat := true, nx := true }⟩
    else if (top : Int) < v then res = ⟨top, { sat := true, nx := true }⟩
    else ∃ nx, res = ⟨v.toNat, { nx := nx }⟩ ∧ (nx = true ↔ (y : ℚ) ≠ a.rat / s.rat))

/-- The scale times the difference of a code and the zero point, exact in FP32 (R139). -/
def Dequantises (q8 : Bool) (code e v : Nat) : Prop :=
  let d : Int := ((code % 2 ^ codeBits q8 : Nat) : Int) - (e / 65536 % 2 ^ codeBits q8 : Nat)
  match FVal.ofBits .f16 (e % 65536) with
  | .nan _ => v = FpFmt.f32.nan 2
  | .inf neg => v = if d = 0 then FpFmt.f32.nan 4 else infBits .f32 (neg != decide (d < 0))
  | .fin neg m k => v < 2 ^ 32 ∧
    ∃ n q, FVal.ofBits .f32 v = .fin (neg != decide (d < 0)) n q ∧
      (FVal.fin (neg != decide (d < 0)) n q).rat = (FVal.fin neg m k).rat * d

/-! ### Order and folds (R132, R133, R142) -/

/-- One number is below another, neither being NaN; the two zeros are equal. -/
def FVal.Less (a b : FVal) : Prop :=
  match a, b with
  | .inf s, .inf t => s = true ∧ t = false
  | .inf s, .fin .. => s = true
  | .fin .., .inf t => t = false
  | .fin s m e, .fin t n k => (FVal.fin s m e).rat < (FVal.fin t n k).rat
  | _, _ => False

/-- Two numbers are equal, neither being NaN; the two zeros are equal. -/
def FVal.Same (a b : FVal) : Prop :=
  match a, b with
  | .inf s, .inf t => s = t
  | .fin s m e, .fin t n k => (FVal.fin s m e).rat = (FVal.fin t n k).rat
  | _, _ => False

/-- The order of R132, in which −0 stands below +0. -/
def FVal.Below (a b : FVal) : Prop :=
  match a, b with
  | .inf s, .inf t => s = true ∧ t = false
  | .inf s, .fin .. => s = true
  | .fin .., .inf t => t = false
  | .fin s m e, .fin t n k =>
    (FVal.fin s m e).rat < (FVal.fin t n k).rat ∨ m = 0 ∧ n = 0 ∧ s = true ∧ t = false
  | _, _ => False

/-- The lesser of two inputs, or the greater (R132). -/
def Extreme (f : FpFmt) (ftz isMax : Bool) (x y : Nat) (res : Res) : Prop :=
  let a := readFtz f ftz x
  let b := readFtz f ftz y
  let better := fun (p q : FVal) => if isMax then ¬p.Below q else ¬q.Below p
  res.flags = {} ∧
  (a.isNan = true → b.isNan = true → res.bits = f.nan 1) ∧
  (a.isNan = true → b.isNan = false → res.bits = ftzBits f ftz y) ∧
  (a.isNan = false → b.isNan = true → res.bits = ftzBits f ftz x) ∧
  (a.isNan = false → b.isNan = false →
    res.bits = ftzBits f ftz x ∧ better a b ∨ res.bits = ftzBits f ftz y ∧ better b a)

/-- The steps of a fold from a code on, each adding its flags to those before it (R142). -/
def FoldSteps (step : Nat → Nat → Res → Prop) (t : Nat) (fl : Flags) : List Nat → Res → Prop
  | [], res => res = ⟨t, fl⟩
  | x :: xs, res => ∃ q, step t x q ∧ FoldSteps step q.bits (fl.or q.flags) xs res

/-- A floating-point fold of codes in order, the first one starting it, as a generated NaN where it is a NaN (R142). -/
def FoldOf (op : FoldOp) (r : Rnd) (x : Nat) (xs : List Nat) (res : Res) : Prop :=
  let step := match op with
    | .min => Extreme .f32 false false
    | .max => Extreme .f32 false true
    | _ => fun t x => SumOf .f32 r false [FVal.ofBits .f32 t, FVal.ofBits .f32 x]
  FoldSteps step (if (FVal.ofBits .f32 x).isNan then FpFmt.f32.nan 1 else x) {} xs res

/-- A conversion's result: the whole register, or, when the target is narrower than 32 bits, one slot of it
with every other bit of D kept (R138). -/
def Placed (bits stride : Nat) (d : Opnd) (r : Group → Nat → Res) (g : Group) (l v : Nat) : Prop :=
  if bits < 32 then
    v / 2 ^ (stride * Opnd.slot d) % 2 ^ stride = (r g l).bits % 2 ^ stride ∧
      ∀ k < 32, (k < stride * Opnd.slot d ∨ stride * Opnd.slot d + stride ≤ k) →
        v.testBit k = (g.value l d 1).toNat.testBit k
  else v = (r g l).bits

/-- A conversion gives its result in its slot, with its flags. -/
def Converts (i : Instr) (n : Nat) (signed : Bool) (bits stride : Nat) (r : Group → Nat → Res) : Prop :=
  Gives i n signed (fun g l => (r g l).flags.mask) (Placed bits stride i.ops.d r)

/-! ### Accesses to memory -/

/-- A byte as an access of a context that goes below L1 reads it in a die (R237, R239, R246): from the copy of another die's
line that is whole or holds the byte dirty, else from the owning point. -/
def State.belowByte (s : State) (die ctx pa : Nat) : Byte :=
  let v := s.l2Line die (pa / 128)
  if isHbm pa && s.ownerDie pa != die && (v.held == BitVec.allOnes 128 || v.isDirty (pa % 128)) then v.byte (pa % 128)
  else s.ownSeen ctx pa

/-- A byte as a core reads it for a context (R238, R239, R360): from what its L1 holds, bytes under a relaunch quota first,
else from below. -/
def State.coreByte (s : State) (core ctx pa : Nat) : Byte :=
  let l := s.l1Line core (pa / 128)
  (s.quotaByte core pa).getD (if l.has (pa % 128) then l.byte (pa % 128) else s.belowByte (dieOfCore core) ctx pa)

/-- The bytes that a load of a core reads within one line: all from its L1 when that holds them all, else the dirty ones of
it, and the others from below (R238, R246). -/
def State.coreBytes (s : State) (core ctx pa n : Nat) : List Byte :=
  let l := s.l1Line core (pa / 128)
  (List.range n).map (fun k => (s.quotaByte core (pa + k)).getD (
    if s.l1Hit core pa n || l.isDirty (pa % 128 + k) then l.byte (pa % 128 + k)
    else s.belowByte (dieOfCore core) ctx (pa + k)))

/-- The virtual address of a lane's load or store (R146). -/
def Group.accessVa (g : Group) (i : Instr) (l : Nat) : W64 := g.value l i.ops.a 2 + offsetOf g l i.ops.b

/-- A core's L1 holds a line, or has a free place for it (R3). -/
def State.l1Fits (s : State) (core line : Nat) : Prop := ∃ w, s.l1Room core line = (s, some w)

/-- A die's L2 holds a line for a context, or has a free way of its set for it that the context may use (R3, R322). -/
def State.l2Fits (s : State) (die ctx line : Nat) : Prop :=
  ((s.l2Line die line).dirty = 0 ∨ (s.l2Line die line).ctx = ctx) ∧ ∃ w, s.takeWay die ctx line = (s, some w)

/-- No other line has to leave a die's L2, or that of the owning die, for an access below L1 to a line (R322). -/
def State.roomBelow (s : State) (die ctx line : Nat) : Prop :=
  isHbm (line * 128) = true →
    (∃ w, s.takeWay (s.ownerDie (line * 128)) ctx line = (s, w)) ∧ (s.ownerDie (line * 128) ≠ die → s.l2Fits die ctx line)

/-- No other line has to leave a cache for an access of a core to a line. -/
def State.Roomy (s : State) (core ctx line : Nat) : Prop := s.l1Fits core line ∧ s.roomBelow (dieOfCore core) ctx line

/-- One access of an instruction reaches physical address `pa`: by one active lane for itself, or once for
`lanes` in a scalar form. It is aligned and mapped, meets no watchpoint, transaction or tile that may move,
and its context is open. `q` is the state in which it is translated, `u` the state after the translation. -/
structure Reaches (s : State) (i : Instr) (pc : W64) (q : State) (once : Bool) (va : W64) (need : Need) (n : Nat)
    (lane : Option Nat) (lanes : List Nat) (u : State) (pa : Nat) : Prop where
  issues  : IssuesMem s i pc
  resides : (s.group s.cur).resident = true
  acts    : (s.group s.cur).active i pc = lanes
  form    : (once = true ∧ lane = none ∧ lanes ≠ []) ∨ (once = false ∧ ∃ l, lane = some l ∧ lanes = [l])
  noTx    : s.noTx i pc
  aligned : va.toNat % n = 0
  inLine  : pa % 128 + n ≤ 128
  xlat    : ∃ leaf, q.translate (s.group s.cur).core (s.group s.cur).ctx need va.toNat n = (u, .ok pa leaf va.toNat 0)
  clear   : u.watchBytes (q.group s.cur) 0 va.toNat n (need != .write) (need != .read) = none
  fixed   : u.pageMoves (s.group s.cur).core (s.group s.cur).ctx va.toNat = false
  ctxOpen : (s.ctx (s.group s.cur).ctx).used = true ∧ (s.ctx (s.group s.cur).ctx).isOpen = true
  onDie   : dieOfCore (s.group s.cur).core < 8

/-- One access of the only active lane `l`, in its open transaction `x`, reaches physical address `pa`, aligned and mapped and
not in host or peer memory; it meets no watchpoint or tile that may move. `u` is the state after the translation (R171). -/
structure ReachesTx (s : State) (i : Instr) (pc : W64) (va : W64) (need : Need) (n l : Nat) (x : Tx) (u : State) (pa : Nat) :
    Prop where
  issues  : IssuesMem s i pc
  acts    : (s.group s.cur).active i pc = [l]
  inTx    : ((s.group s.cur).lane l).tx = some x
  aligned : va.toNat % n = 0
  inLine  : pa % 128 + n ≤ 128
  near    : ((s.issued i pc).spaceAt (s.group s.cur).core (s.group s.cur).ctx 3 va.toNat).any (fun k => decide (2 ≤ k)) = false
  xlat    : ∃ leaf, (s.issued i pc).translate (s.group s.cur).core (s.group s.cur).ctx need va.toNat n =
    (u, .ok pa leaf va.toNat 0)
  clear   : u.watchBytes (s.group s.cur) 0 va.toNat n (need != .write) (need != .read) = none
  fixed   : u.pageMoves (s.group s.cur).core (s.group s.cur).ctx va.toNat = false

/-- A lane's transaction has ended at its abort target with a cause in its D (R174). -/
def AbortedWith (t : State) (k l : Nat) (x : Tx) (cause : Nat) : Prop :=
  ((t.group k).lane l).tx = none ∧ ((t.group k).lane l).pc = x.target ∧
    ((t.group k).lane l).vreg x.dreg = BitVec.ofNat 32 cause

/-- Of an access of a lane in a transaction: it aborts with cause 6 when a move has reached a line of its sets, else with cause
3 or 4 where the set of the lane, or those of the group, have no room for its line; else `done` holds of the next state (R172,
R174). -/
def TxAccess (s : State) (i : Instr) (u : State) (pa l : Nat) (x : Tx) (write : Bool) (done : State → Prop) : Prop :=
  let g := s.group s.cur
  let mine := if write then x.wlines else x.rlines
  let own := decide ((if write then 8 else 16) ≤ mine.length)
  let all := decide ((if write then 64 else 256) ≤ g.txLines write)
  ∃ t, exec i s = .next t ∧
    if u.txMoved x then AbortedWith t s.cur l x 6
    else if !mine.contains (pa / 128) && own then AbortedWith t s.cur l x 3
    else if !mine.contains (pa / 128) && all then AbortedWith t s.cur l x 4
    else done t

/-- A release at a scope level has been performed for a context on a core (R155): no dirty byte of the context stands in
the core's L1 from the die's level on, in its die's copies of other dies' lines from the package's, and at the home lines
from the host's. Bytes under a relaunch quota stand apart (R360). -/
structure State.Released (t : State) (core ctx lvl : Nat) : Prop where
  l1   : 1 ≤ lvl → ∀ line, (t.l1Line core line).ctx = ctx → (t.l1Line core line).dirty = 0
  copy : 2 ≤ lvl → ∀ line, t.ownerDie (line * 128) ≠ dieOfCore core → (t.l2Line (dieOfCore core) line).ctx = ctx →
    (t.l2Line (dieOfCore core) line).dirty = 0
  home : 3 ≤ lvl → ∀ line, (t.l2Line (t.ownerDie (line * 128)) line).ctx = ctx →
    (t.l2Line (t.ownerDie (line * 128)) line).dirty = 0

/-- The caches are kept in their canonical form. -/
def State.CachesWf (s : State) : Prop := FMap.wf Line.none s.l1 = true ∧ FMap.wf Line.none s.l2 = true

/-- An access of the current group has been performed, as `done` says, or is on its way: then its entry is the last of the
scoreboard, no byte of memory has changed, and the RESULT_RETURN of that entry performs it (R152, R240, R248). -/
def Performs (s t : State) (pc : W64) (done : State → Prop) : Prop :=
  done t ∨
    (Untouched s t pc ∧ (∀ a, t.ownByte a = s.ownByte a) ∧ (∀ c x a, t.coreByte c x a = s.coreByte c x a) ∧
      ∃ e u, (t.group s.cur).pend = (s.group s.cur).pend ++ [e] ∧ e.access.isSome = true ∧
        exec (.resultReturn s.cur (s.group s.cur).pend.length) t = .next u ∧ done u)

/-- A global access of any number of lanes (R145 to R152, R324): every lane at the minimum goes past it or, when it is active,
parks at it with a cause of an access; no register, flag, other lane or other group changes, and what the instruction enters
in the scoreboard, for active lanes, stands behind what was there. An entry without a result to come leaves the scoreboard at
once, so none stands there before. -/
def LanesAccess (i : Instr) : Prop :=
  ∀ s pc,
    let g := s.group s.cur
    IssuesMem s i pc → s.noTx i pc → (∀ e ∈ g.pend, e.done = false) →
    ∃ t es, exec i s = .next t ∧ (∀ k, k ≠ s.cur → t.group k = s.group k) ∧ g.Alike (t.group s.cur) ∧
      (t.group s.cur).sregs = g.sregs ∧ (t.group s.cur).gsw = g.gsw ∧ (t.group s.cur).pend = g.pend ++ es ∧
      (∀ e ∈ es, e.pc = pc ∧ ∀ m ∈ e.lanes, m.1 ∈ g.active i pc) ∧
      ∀ l, ((t.group s.cur).lane l).v = (g.lane l).v ∧ ((t.group s.cur).lane l).p = (g.lane l).p ∧
        (l ∉ g.atMin pc → (t.group s.cur).lane l = g.lane l) ∧
        (l ∈ g.atMin pc → ((g.lane l).Alike ((t.group s.cur).lane l) ∧ ((t.group s.cur).lane l).pc = pc + 12) ∨
          (l ∈ g.active i pc ∧ ∃ code detail addr, code ∈ [2, 4, 5, 6, 7, 8] ∧
            ((t.group s.cur).lane l).ParkedAt pc code detail addr))

/-- The entry of an access's result on its way: the bytes read, extended into D (R102, R149). -/
def State.readEntry (s : State) (i : Instr) (pc : W64) (z : Size) (lane : Option Nat) (lanes : List Nat) (pa : Nat)
    (bs : List Byte) : Pend :=
  { pc := pc
    lane := lane
    lanes := Group.issuedOf ((s.issued i pc).group s.cur) lanes
    writes := (loadUnits z i.ops.d (lane.getD 0) bs).map (fun p => (p.1, some p.2))
    tag := s.steps
    resp := some (pa / 128) }

/-- The state after an instruction has issued and its release has been performed (R153, R168). -/
def State.releasedAt (s : State) (i : Instr) (pc : W64) (sc : Scope) : State :=
  (s.issued i pc).release ((s.issued i pc).group s.cur) sc

/-- The state in which an atomic's access is made: its release has been performed (R168). -/
def State.atomBase (s : State) (i : Instr) (pc : W64) (ord : Order) (sc : Scope) : State :=
  if Order.releases ord then s.releasedAt i pc sc else s.issued i pc

/-- An access reaches memory before the release of its instruction too, so that the instruction takes no fault and performs
its release (R147, R168). `host` says that it may act on host memory. -/
def State.goes (s : State) (i : Instr) (pc : W64) (once : Bool) (va : W64) (need : Need) (n : Nat) (lane : Option Nat)
    (lanes : List Nat) (host : Bool) : Prop :=
  ∃ u pa, Reaches s i pc (s.issued i pc) once va need n lane lanes u pa ∧ (paSpace pa = 2 → host = true)

/-- An atomic of one lane, or once in a scalar form, replaces the value at the owning point by `new` of the old
value, B and D, and its result on the way is the old value (R163 to R168); it is performed at issue when it is ordered.
`host` says that it may act on host memory. -/
def AtomicGives (i : Instr) (w64 sgn : Bool) (ord : Order) (sc : Scope) (host : Bool)
    (new : Nat → Nat → Nat → Nat) : Prop :=
  ∀ s pc lane lanes u pa,
    let g := s.group s.cur
    let n := if w64 then 8 else 4
    let l := lane.getD (lanes.headD 0)
    let v := ((if ord = .relaxed ∧ u.staleNow = [] then u.tick else u).endRelaunch g.team).gather g.core (pa / 128)
    let home := v.ownerDie pa
    let old := v.seenBytes g.ctx pa n
    let val := fun (o : Opnd) => (g.value l o (regsOf w64)).toNat % 2 ^ (8 * n)
    let done := fun (x : State) => Untouched s x pc ∧
      (∀ k < n, x.ownByte (pa + k) = (leBytes n (new (leNat old) (val i.ops.b) (val i.ops.d))).getD k 0) ∧
      ((isHbm pa = true → v.l2Fits home g.ctx (pa / 128)) → ∀ a, (∀ k < n, a ≠ pa + k) → x.ownByte a = v.ownByte a) ∧
      (x.group s.cur).pend = g.pend ++
        (if i.ops.d = .none then []
          else [s.readEntry i pc (if w64 then .d64 else if sgn then .s32 else .z32) lane lanes pa old])
    let va := g.value l i.ops.a 2 + atomOffset w64 i.ops.a
    Reaches s i pc (s.atomBase i pc ord sc) (Ops.atomOnce i.ops) va .rw n lane lanes u pa →
    (Order.releases ord = true → s.goes i pc (Ops.atomOnce i.ops) va .rw n lane lanes host) →
    v.poisoned pa = false → (paSpace pa = 2 → host = true) →
    ∃ t, exec i s = .next t ∧ Performs s t pc done ∧ (ord ≠ .relaxed → done t)

/-! ### The matrix array -/

/-- The rows of a tile that `mine` names take the words `word` and the update enters the scoreboard, with a result for each
of their row groups, and its flags; the core is otherwise `x`, no register or flag of the group changes, and of other groups at most the
noted old contents of rows (R102, R222, R224). -/
structure RowsTake (s t : State) (pc : W64) (x : Core) (tile : Nat) (mine : Nat → Prop) (word : Nat → Nat → W32)
    (flags : Nat → Prop) : Prop where
  rows   : ∀ m, mine m → ∀ n < 128, ((t.core (s.group s.cur).core).accRow tile m).getD n 0 = word m n
  rest   : ∀ u m, m < 128 → ¬(u = tile ∧ mine m) → (t.core (s.group s.cur).core).accRow u m = x.accRow u m
  core   : { t.core (s.group s.cur).core with acc := x.acc } = x
  cores  : ∀ k, k ≠ (s.group s.cur).core → t.core k = s.core k
  pcs    : Advanced s t pc
  lanes  : ∀ l, ((t.group s.cur).lane l).v = ((s.group s.cur).lane l).v ∧
    ((t.group s.cur).lane l).p = ((s.group s.cur).lane l).p
  sregs  : (t.group s.cur).sregs = (s.group s.cur).sregs
  sticky : (t.group s.cur).gsw = (s.group s.cur).gsw
  others : ∀ k, k ≠ s.cur → { t.group k with pend := (s.group k).pend } = s.group k
  update : (∃ m, mine m) → ∃ e : Pend, (t.group s.cur).pend = (s.group s.cur).pend ++ [e] ∧
    (∀ w, w ∈ e.writes ↔ ∃ m, mine m ∧ w = (.acc tile (m / 8), some 0)) ∧ ∀ k, e.flags.testBit k = true ↔ flags k

/-- A row of a tile that one of several lanes owns. -/
def OwnedBy (w : Nat) (act : List Nat) (m : Nat) : Prop := ∃ l ∈ act, m ∈ ownedRows w l

/-- A named row of an operand that one of several lanes owns. -/
def NamedBy (w : Nat) (act : List Nat) (o : Opnd) (m : Nat) : Prop := ∃ l ∈ act, m ∈ laneRows w l o

/-- A matrix instruction of `cycles` array cycles: each word of the rows that active lanes own takes `elem` of
the rows of B, the lane's A registers, the row within the lane, the column and the old word as the group reads it (R224),
with the flags of every word; with its draw refused, the group only waits for tokens. A block at a misaligned address parks
the active lanes with cause 2, and one that is not wholly within local memory with cause 5 (R217). -/
def ArrayGives (i : Instr) (cycles : Nat) (n : Group → Nat) (k bits : Nat) (base : Group → Nat)
    (elem : Group → List Nat → List W32 → Nat → Nat → Nat → Res) : Prop :=
  ∀ s pc,
    let g := s.group s.cur
    let act := g.active i pc
    let tile := Opnd.idx i.ops.d
    let r := 128 / g.width
    let res := fun m col => elem g ((s.team g.team).blockRows (base g) k bits) ((g.takeA i.ctl i.ops.a (n g)).1 (m / r)) (m % r) col
      ((s.readRow s.cur g.core tile m).getD col 0).toNat
    IssuesMem s i pc →
    ((s.core g.core).draw cycles = none →
      exec i s = .next (s.modGroup s.cur (fun h => h.hold (.token cycles)))) ∧
    (∀ x, (s.core g.core).draw cycles = some x → s.noTx i pc → act ≠ [] →
      let parks := fun code => ∃ t, exec i s = .next t ∧ t.core g.core = x ∧
        ∀ l ∈ act, ((t.group s.cur).lane l).ParkedAt pc code 2 0
      (base g % 64 ≠ 0 → parks 2) ∧
      (base g % 64 = 0 → (s.team g.team).locLen < base g + 16 * bits * k → parks 5)) ∧
    (∀ x, (s.core g.core).draw cycles = some x → base g % 64 = 0 → base g + 16 * bits * k ≤ (s.team g.team).locLen →
      (∀ l ∈ act, s.watchBytes g 1 (base g) (16 * bits * k) true false = none ∧
        s.watchMine g tile (ownedRows g.width l) true true = none) →
      ∃ t, exec i s = .next t ∧ (t.group s.cur).latch = (g.takeA i.ctl i.ops.a (n g)).2 ∧
        RowsTake s t pc x tile (OwnedBy g.width act) (fun m col => BitVec.ofNat 32 (res m col).bits)
          (fun b => ∃ m, OwnedBy g.width act m ∧ ∃ col < 128, (res m col).flags.mask.testBit b = true))

/-! ### Engine commands -/

/-- The coordinate block that three scalars hold (R229). -/
def Group.coordBlock (g : Group) (cb : Nat) : List Byte :=
  leBytes 8 (g.sreg cb).toNat ++ leBytes 8 (g.sreg (cb + 1)).toNat ++ leBytes 8 (g.sreg (cb + 2)).toNat

/-- Rows of the box of a drain of an operand; none of another command (R230). -/
def boxOfDrain (kind : EngKind) (acc : Opnd) : Option Nat := if kind = .drain then some (namedRows acc).2 else none

/-- The state in which an engine command's record has been fetched after its release at `.die`, and the record or the
cause that its fetch meets (R226, R245, R327). -/
def State.recordAt (s : State) (i : Instr) (pc : W64) : State × Except (Nat × Nat × Nat) (List Byte × List Nat) :=
  let g := s.group s.cur
  ((s.issued i pc).release ((s.issued i pc).group s.cur) .die).fetchRecord g.core g.ctx (g.sreg (Opnd.idx i.ops.a)).toNat

/-- An engine command issues with an aligned record that no tile in transit holds and an aligned local side. -/
structure Commands (s : State) (i : Instr) (pc : W64) (loc : Nat) : Prop where
  issues  : IssuesMem s i pc
  noTx    : s.noTx i pc
  acts    : (s.group s.cur).active i pc ≠ []
  aligned : ((s.group s.cur).sreg (Opnd.idx i.ops.a)).toNat % 64 = 0 ∧ loc % 16 = 0
  still   : s.rangeMoves (s.group s.cur).ctx ((s.group s.cur).sreg (Opnd.idx i.ops.a)).toNat 192 = false

/-- An engine command whose record passes every check joins its core's queue with its operands, its record and, for a drain,
the rows of its tile as the group reads them; the group goes on (R223, R226 to R230, R232). With it stand the pages that the
fetch of its record has chased, for R315. -/
def CommandJoins (i : Instr) (kind : EngKind) (acc : Opnd) (loc : Group → Nat) : Prop :=
  ∀ s pc r chased,
    let g := s.group s.cur
    let u := (s.recordAt i pc).1
    let tm := u.team g.team
    let coord := g.coordBlock (Opnd.idx i.ops.b)
    let rows := boxOfDrain kind acc
    Commands s i pc (loc g) → (s.recordAt i pc).2 = .ok (r, chased) → loc g < 2 ^ 32 →
    shapeFault u.featAcc tm kind r rows (loc g) coord = none → signalOk tm coord = true →
    (kind.writes = true → recMode r = 2 → u.rowsMove g.ctx r (boxRows r rows coord (tm.gathList kind coord)) = false) →
    (u.core g.core).queue.length < 32 →
    ∃ t, exec i s = .next t ∧ Untouched s t pc ∧ (∀ a, t.ownByte a = u.ownByte a) ∧
      (t.core g.core).queue = (u.core g.core).queue ++ [{
        kind := kind
        group := s.cur
        team := g.team
        ctx := g.ctx
        inc := g.inc
        loc := BitVec.ofNat 64 (loc g)
        record := r
        coord := coord
        rows := rows
        data := if kind = .drain then (List.range (namedRows acc).2).map (fun m =>
            u.readRow s.cur g.core (Opnd.idx acc) ((namedRows acc).1 + m)) else []
        chased := chased }]

/-- The causes of an engine command at issue: 2 for a misaligned record or local address; of the fetch's cause and of a
local address or SIGNAL field out of range, the lower; 3 for a record that a check refuses (R226 to R229, R324, R327). A
poison read in the fetch of a team of a `.relaunch` launch, which the release has made unrelaunchable, is a kill instead
(R366). Two causes 5 of one command give the detail of the fetch, by the model's choice (log 22). -/
def CommandFaults (i : Instr) (kind : EngKind) (acc : Opnd) (loc : Group → Nat) : Prop :=
  ∀ s pc,
    let g := s.group s.cur
    let u := (s.recordAt i pc).1
    let tm := u.team g.team
    let rva := g.sreg (Opnd.idx i.ops.a)
    let coord := g.coordBlock (Opnd.idx i.ops.b)
    let fits := loc g < 2 ^ 32 ∧ signalOk tm coord = true
    let stops := fun code detail addr => ∃ t, exec i s = .next t ∧
      ∀ l ∈ g.active i pc, ((t.group s.cur).lane l).ParkedAt pc code detail addr
    (IssuesMem s i pc → s.noTx i pc → rva.toNat % 64 ≠ 0 → stops 2 2 rva) ∧
    (IssuesMem s i pc → s.noTx i pc → rva.toNat % 64 = 0 → loc g % 16 ≠ 0 → stops 2 2 0) ∧
    (∀ c d va, Commands s i pc (loc g) → (s.recordAt i pc).2 = .error (c, d, va) →
      let eats := c = 7 ∧ d = 1 ∧ (tm.relaunched = true ∨ (u.launch tm.launch).kernel.relaunch = true)
      (¬fits → 5 < c → stops 5 3 0) ∧
      (fits ∨ c ≤ 5 → ¬eats → stops c d (BitVec.ofNat 64 va)) ∧
      (fits → eats → ∃ t, exec i s = .next t ∧
        (t.ctx tm.ctx).kills = (u.ctx tm.ctx).kills ++ [⟨if tm.relaunched then 7 else 6, 0x17⟩])) ∧
    (∀ r chased, Commands s i pc (loc g) → (s.recordAt i pc).2 = .ok (r, chased) →
      let refused := shapeFault u.featAcc tm kind r (boxOfDrain kind acc) (loc g % 2 ^ 32) coord
      (∀ d, refused = some d → stops 3 d 0) ∧ (refused = none → ¬fits → stops 5 3 0))

/-- Element `x` of row `j` of a command's local box, whose dense bytes stand where the swizzle places them (R228). -/
def Team.boxElem (t : Team) (e : EngCmd) (j x : Nat) : Nat :=
  let bits := recBits e.record
  let len := boxOf e.record e.rows 0 * bits / 8
  getBits (leNat (t.dense e (j * len) len)) (x * bits) bits

/-- The element of a row that a command writes through its record: of the local box, or of a drain's row converted to the
record's format (R230). -/
def State.sourceElem (s : State) (e : EngCmd) (j x : Nat) : Nat :=
  match e.rows with
  | none => (s.team e.team).boxElem e j x
  | some _ => drainCode (recFmt e.record) ((e.data.getD j []).getD x 0).toNat

/-- The command of a core's queue at a place may run: no older one of its context stands before it, and its tensor has no tile in
transit (R232, R321). -/
def State.mayRun (s : State) (core n : Nat) (e : EngCmd) : Prop :=
  (s.core core).queue[n]? = some e ∧ (∀ f ∈ (s.core core).queue.take n, f.ctx ≠ e.ctx) ∧
    s.rowsMove e.ctx e.record (s.cmdRows e) = false

/-! ### Stage rings -/

/-- Operand B of a ring instruction that names a stage, and the scalar that takes an offset (R235). -/
def ringStage (op : Nat) (g : Group) (o : Ops) : W64 := if op = 1 ∨ op = 3 then g.sreg (Opnd.idx o.b) else 0
def ringDest (op : Nat) (o : Ops) : Option Nat := if op = 1 ∨ op = 3 then none else some (Opnd.idx o.d)

/-- A ring instruction issues with a header in local memory that is valid and that no watchpoint covers, and, where it names a stage, with one in the
state that it asks for (R234, R235). -/
structure RingIssues (s : State) (i : Instr) (op : Nat) (pc : W64) : Prop where
  issues : IssuesMem s i pc
  noTx   : s.noTx i pc
  acts   : (s.group s.cur).active i pc ≠ []
  place  : ((s.group s.cur).sreg (Opnd.idx i.ops.a)).toNat % 16 = 0 ∧
    ((s.group s.cur).sreg (Opnd.idx i.ops.a)).toNat + 16 ≤ (s.team (s.group s.cur).team).locLen
  valid  : hdrOk ((s.team (s.group s.cur).team).header ((s.group s.cur).sreg (Opnd.idx i.ops.a)).toNat)
    (s.team (s.group s.cur).team).locLen = true
  stage  : op = 1 ∨ op = 3 → ∃ q, let h := (s.team (s.group s.cur).team).header ((s.group s.cur).sreg (Opnd.idx i.ops.a)).toNat
    hdrStage h (ringStage op (s.group s.cur) i.ops) = some q ∧ hdrState h q = op
  clear  : s.watchBytes (s.group s.cur) 1 ((s.group s.cur).sreg (Opnd.idx i.ops.a)).toNat 16 true true = none

/-- The stage that a ring instruction waits for has come to it: `racq` finds stage PI free and `rget` stage CI full; no queued
command of the group still writes into the stage of `rput`, or reads in that of `rrel` (R234, R235). -/
def State.stageCome (s : State) (op hdr : Nat) (v : W64) : Prop :=
  let g := s.group s.cur
  let tm := s.team g.team
  let h := tm.header hdr
  let apart := fun (r : Nat × Nat) => v.toNat + hdrSize h ≤ r.1 ∨ r.1 + r.2 ≤ v.toNat
  let mine := fun (e : EngCmd) => e ∈ (s.core g.core).queue ∧ e.group = s.cur
  (op = 0 → hdrState h (hdrPi h) = 0) ∧ (op = 2 → hdrState h (hdrCi h) = 2) ∧
  (op = 1 → ∀ e, mine e → ∀ r ∈ e.localDst tm, apart r) ∧ (op = 3 → ∀ e, mine e → ∀ r ∈ e.localSrc tm, apart r)

/-- A header that the ring instructions refuse, in local memory of `loc` bytes: a count of stages outside 2 to 8, a place or
size that is no multiple of 64, no size, stages beyond local memory, a reserved bit, or an index at or above the count (R234,
R235). -/
def BadHeader (h loc : Nat) : Prop :=
  let reserved := fun k => k = 67 ∨ k = 71 ∨ 24 ≤ k ∧ k < 32 ∨ 52 ≤ k ∧ k < 64 ∨ 96 ≤ k ∧ k < 128
  hdrNst h < 2 ∨ 8 < hdrNst h ∨ hdrBase h % 64 ≠ 0 ∨ hdrSize h % 64 ≠ 0 ∨ hdrSize h = 0 ∨
  loc < hdrBase h + hdrNst h * hdrSize h ∨ (∃ k, reserved k ∧ h.testBit k = true) ∨ hdrNst h ≤ hdrPi h ∨ hdrNst h ≤ hdrCi h

/-- The checks of a ring instruction, each of which parks the active lanes: cause 2 for a misaligned header, 5 for one beyond
local memory, 3 for a bad one, and 5 for a stage that is none, or in another state than the instruction asks for (R235). -/
def RingFaults (i : Instr) (op : Nat) : Prop :=
  ∀ s pc,
    let g := s.group s.cur
    let tm := s.team g.team
    let hdr := (g.sreg (Opnd.idx i.ops.a)).toNat
    let h := tm.header hdr
    let v := ringStage op g i.ops
    let parks := fun code detail => ∃ t, exec i s = .next t ∧ t.team g.team = tm ∧
      ∀ l ∈ g.active i pc, ((t.group s.cur).lane l).ParkedAt pc code detail 0
    IssuesMem s i pc → s.noTx i pc →
    (hdr % 16 ≠ 0 → parks 2 2) ∧
    (hdr % 16 = 0 → tm.locLen < hdr + 16 → parks 5 2) ∧
    (hdr % 16 = 0 → hdr + 16 ≤ tm.locLen → BadHeader h tm.locLen → parks 3 4) ∧
    (hdr % 16 = 0 → hdr + 16 ≤ tm.locLen → ¬BadHeader h tm.locLen → op = 1 ∨ op = 3 →
      (∀ q < hdrNst h, hdrBase h + q * hdrSize h = v.toNat → hdrState h q ≠ op) → parks 5 3)

/-- A ring instruction acts at once when its stage has come to it, and else its lanes wait at it (R235). -/
def RingActs (i : Instr) (op : Nat) : Prop :=
  ∀ s pc,
    let g := s.group s.cur
    let tm := s.team g.team
    let hdr := (g.sreg (Opnd.idx i.ops.a)).toNat
    let v := ringStage op g i.ops
    let act := hdrAct (tm.header hdr) op v
    RingIssues s i op pc →
    (s.stageCome op hdr v → ∃ t, exec i s = .next t ∧ Advanced s t pc ∧ (t.group s.cur).gsw = g.gsw ∧
      (∀ l, ((t.group s.cur).lane l).v = (g.lane l).v ∧ ((t.group s.cur).lane l).p = (g.lane l).p) ∧
      (t.team g.team).header hdr = act.1 % 2 ^ 128 ∧
      (∀ n, (t.group s.cur).sreg n = if ringDest op i.ops = some n then act.2 else g.sreg n) ∧
      ∀ b, b < hdr ∨ hdr + 16 ≤ b → (t.team g.team).locByte b = tm.locByte b) ∧
    (¬s.stageCome op hdr v → ∃ t, exec i s = .next t ∧
      (t.group s.cur).wait = .ring op (ringDest op i.ops) hdr v (g.atMin pc) ∧ (t.group s.cur).sregs = g.sregs ∧
      (t.group s.cur).gsw = g.gsw ∧ t.team g.team = tm ∧ ∀ l ∈ g.atMin pc, ((t.group s.cur).lane l).pc = pc)

/-! ### Stall samples -/

/-- What REASON `r` and BLAME `b` of a group's sample tell: the lowest reason that holds, with the address that the table names
(R383). Reasons 2 and 3 may hold beside each other reason but 1, as free values say. -/
def State.SampleTells (s : State) (k r : Nat) (b : W64) : Prop :=
  let g := s.group k
  let at_ := g.issuePc.getD 0
  let w := if g.stray then Wait.none else g.wait
  let results := g.records.filter Pend.isResult
  let marked := g.marker = true ∧ results ≠ []
  let ring := ∃ op d h v ls, w = .ring op d h v ls
  let team := (∃ ls, w = .bar ls) ∨ (∃ give d h n ls, w = .donate give d h n ls) ∨ (∃ q d ls, w = .sys q d ls) ∨
    (∃ pc n d req ls, w = .callRing pc n d req ls)
  let token := ∃ n, w = .token n
  let slow := s.partClock g.part < g.stall ∨ (g.yielded = true ∧ g.yieldTurn + 1 = (s.part g.part).turns)
  let gone := g.running = [] ∧ g.inState .waiting ≠ []
  let tells := fun n (x : W64) => (r = 2 ∧ ∃ m ∈ g.made, b = m.1) ∨ (r = 3 ∧ b = at_) ∨ (r = n ∧ b = x)
  (marked → r = 1 ∧ some b = results.head?.map Pend.pc) ∧
  (¬marked →
    (ring → tells 4 g.lastPc) ∧ (team → tells 5 g.lastPc) ∧ (token → tells 6 at_) ∧
    (¬ring → ¬team → ¬token →
      (slow → tells 7 g.lastPc) ∧
      (¬slow → gone → ∃ l, (g.inState .waiting).head? = some l ∧ tells 8 (g.lane l).pc) ∧
      (¬slow → ¬gone → (s.ready g = true → tells 9 0) ∧
        (s.ready g = false → g.dbgStop = true ∨ (s.part g.part).stopped = true → tells 10 0))))

/-! ### Command queues -/

/-- The head entry of a queue's packet has completed: the next entry is ready, or the queue is idle (R271, R272). -/
def EntryDone (s t : State) (ctx q : Nat) : Prop :=
  ((t.ctx ctx).queue q).packet = ((s.ctx ctx).queue q).packet.tail ∧
  ((t.ctx ctx).queue q).state = if ((s.ctx ctx).queue q).packet.tail = [] then .idle else .ready

/-- An event completes the head entry of a queue with what `u` records of it. -/
def Completes (i : Instr) (s : State) (ctx q : Nat) (u : State) : Prop := exec i s = .next u ∧ EntryDone s u ctx q

/-- An event completes the head entry of a queue as failed: one record of type 2 with a cause, after what `u` holds (R271,
R289). -/
def FailsWith (i : Instr) (s : State) (ctx q : Nat) (e : List Byte) (u : State) (cause : Nat) : Prop :=
  ∃ t, exec i s = .next t ∧ EntryDone s t ctx q ∧
    ∀ v, u.record ctx (recordBytes 2 q (s.ctx ctx).inc (entryTag e) 0 0 0 cause) = v →
      t.mem = v.mem ∧ (t.ctx ctx).cqCount = (v.ctx ctx).cqCount ∧ (t.ctx ctx).heldRecs = (v.ctx ctx).heldRecs

/-- A clean byte of the home line of an address stands in memory as it does in the line, as every clean byte of a home line
does (R237). -/
def State.HomeTrue (s : State) (pa : Nat) : Prop :=
  let l := s.l2Line (s.ownerDie pa) (pa / 128)
  ∀ j < 128, l.has j = true → l.isDirty j = false → l.byte j = s.memByte (pa / 128 * 128 + j)

/-- The tree that a launch of a queue's entry roots (R282). -/
def rootTree (s : State) (ctx q tag kind teams : Nat) : Tree :=
  { live := true
    ctx := ctx
    inc := (s.ctx ctx).inc
    queue := q
    tag := tag
    count := teams
    kind := kind }

/-- A team's groups as an admission seats them (R277, R278): resident on their partitions, every lane running at
CODE with its `$wid`, the argument words in the scalars. -/
def Seated (t : State) (tk : Nat) (k : Kernel) (parts : List Nat) (ws args : List W64) : Prop :=
  (t.team tk).groups.length = k.groups ∧ (t.team tk).locLen = k.loc ∧
  ∀ j < k.groups, ∀ gk, (t.team tk).groups[j]? = some gk →
    let g := t.group gk
    g.resident = true ∧ g.gid = j ∧ g.width = k.width ∧ g.alloc = k.regs ∧ g.part = parts.getD j 0 ∧ g.team = tk ∧
    (∀ n, g.sreg n = args.getD n 0) ∧
    ∀ i < k.width, (g.lane i).pc = k.code ∧ (g.lane i).lst = .running ∧ (g.lane i).wid = ws.getD (j * k.width + i) 0

end Sys2Proof.Machine
end

