-- ==== Sys2Proof/Certificates/Slice0/Obligations.lean ====
section
/-! DEFINITION. The statements about the machine that are to be proved, each from numbered rules of spec/. -/

open Sys2Proof Sys2Proof.Machine

/-! ### Integer, bit, address, compare, select, move and predicate instructions -/

/-- R119, R120: each element of an integer result is the exact result, clamped under `.sat` and else wrapped, in every
lane that takes a value; SAT is set when an element is clamped, and nothing else changes. -/
def Obligations.IntegerArithmetic : Prop :=
  ∀ (t : IntTy) (sat : Bool) (c : Ctl) (o : Ops),
    Arith2 (.add t sat c o) t sat (· + ·) ∧ Arith2 (.sub t sat c o) t sat (· - ·) ∧
    Arith2 (.mul t sat c o) t sat (· * ·) ∧
    Gives (.mad t sat c o) t.regs t.signed
      (fun g l => satMask t sat (fun j => srcVal t o.d g l j + srcVal t o.a g l j * srcVal t o.b g l j))
      (fun g l x => Narrowed t sat (fun j => srcVal t o.d g l j + srcVal t o.a g l j * srcVal t o.b g l j) x) ∧
    Arith2 (.min t c o) t false min ∧ Arith2 (.max t c o) t false max ∧
    Arith1 (.abs t sat c o) t sat (fun a => (a.natAbs : Int)) ∧ Arith1 (.neg t sat c o) t sat (fun a => -a)

/-- R121: `mulhi` gives the high half of the exact product, `mulw` all of it, and `div` and `rem` the quotient
truncated toward zero and the remainder with the dividend's sign, with the two corners of the table; no flag. -/
def Obligations.ProductsAndQuotients : Prop :=
  ∀ (t : IntTy) (c : Ctl) (o : Ops),
    GivesPlain (.mulhi t c o) t.regs t.signed (fun g l v => ∃ low < 2 ^ t.bits,
      wholeVal t o.a g l * wholeVal t o.b g l = t.val v * (2 ^ t.bits : Nat) + (low : Nat)) ∧
    GivesPlain (.mulw t c o) 2 t.signed (fun g l v =>
      IntTy.val (if t.signed then .s64 else .z64) v = wholeVal t o.a g l * wholeVal t o.b g l) ∧
    GivesPlain (.div t c o) t.regs t.signed (fun g l v =>
      let x := wholeVal t o.a g l
      let y := wholeVal t o.b g l
      if y = 0 then v % 2 ^ t.bits = 2 ^ t.bits - 1
      else if t.signed = true ∧ x = t.lo ∧ y = -1 then t.val v = t.lo
      else t.val v = x.tdiv y) ∧
    GivesPlain (.rem t c o) t.regs t.signed (fun g l v =>
      let x := wholeVal t o.a g l
      let y := wholeVal t o.b g l
      if y = 0 then t.val v = x
      else if t.signed = true ∧ x = t.lo ∧ y = -1 then v = 0
      else t.val v = x - y * x.tdiv y)

/-- R122: the bit instructions, each bit of the result or the count; no flag. -/
def Obligations.BitInstructions : Prop :=
  ∀ (w64 : Bool) (c : Ctl) (o : Ops),
    let w := widthOf w64
    let a := fun g l => srcBit g l w64 o.a
    let b := fun g l => srcBit g l w64 o.b
    GivesPlain (.and w64 c o) (regsOf w64) false (fun g l v =>
      v < 2 ^ w ∧ ∀ k < w, v.testBit k = ((a g l).testBit k && (b g l).testBit k)) ∧
    GivesPlain (.or w64 c o) (regsOf w64) false (fun g l v =>
      v < 2 ^ w ∧ ∀ k < w, v.testBit k = ((a g l).testBit k || (b g l).testBit k)) ∧
    GivesPlain (.xor w64 c o) (regsOf w64) false (fun g l v =>
      v < 2 ^ w ∧ ∀ k < w, v.testBit k = ((a g l).testBit k != (b g l).testBit k)) ∧
    GivesPlain (.not w64 c o) (regsOf w64) false (fun g l v =>
      v < 2 ^ w ∧ ∀ k < w, v.testBit k = !(a g l).testBit k) ∧
    GivesPlain (.rotl w64 c o) (regsOf w64) false (fun g l v =>
      v < 2 ^ w ∧ ∀ k < w, v.testBit k = (a g l).testBit ((k + w - b g l % w) % w)) ∧
    GivesPlain (.popc w64 c o) 1 false (fun g l v => v = ((List.range w).filter (fun k => (a g l).testBit k)).length) ∧
    GivesPlain (.clz w64 c o) 1 false (fun g l v =>
      v ≤ w ∧ (∀ k < w, w - v ≤ k → (a g l).testBit k = false) ∧ (v < w → (a g l).testBit (w - 1 - v) = true)) ∧
    GivesPlain (.brev w64 c o) (regsOf w64) false (fun g l v =>
      v < 2 ^ w ∧ ∀ k < w, v.testBit k = (a g l).testBit (w - 1 - k))

/-- R123, R124: shifts per element, and extraction and insertion of a field; no flag. -/
def Obligations.ShiftsAndFields : Prop :=
  (∀ (t : IntTy) (c : Ctl) (o : Ops),
    GivesPlain (.shl t c o) t.regs t.signed (fun g l v => ∀ j < t.slots,
      v / 2 ^ (t.bits * j) % 2 ^ t.bits =
        if t.bits ≤ srcElem g l t o.b j then 0 else srcElem g l t o.a j * 2 ^ srcElem g l t o.b j % 2 ^ t.bits) ∧
    GivesPlain (.shr t c o) t.regs t.signed (fun g l v => ∀ j < t.slots,
      intElem t v j = srcVal t o.a g l j / (2 ^ srcElem g l t o.b j : Nat)) ∧
    GivesPlain (.bfx t c o) t.regs t.signed (fun g l v =>
      let b := srcInt g l .z32 o.b
      let st := min (b % 256) t.bits
      let ln := min (b / 256 % 256) (t.bits - st)
      ∀ k < t.bits, v.testBit k =
        if k < ln then (srcInt g l t o.a).testBit (st + k)
        else decide (0 < ln) && t.signed && (srcInt g l t o.a).testBit (st + ln - 1))) ∧
  (∀ (w64 : Bool) (c : Ctl) (o : Ops),
    GivesPlain (.bfi w64 c o) (regsOf w64) false (fun g l v =>
      let b := srcBit g l false o.b
      let w := widthOf w64
      let st := min (b % 256) w
      let ln := min (b / 256 % 256) (w - st)
      ∀ k < w, v.testBit k =
        if st ≤ k ∧ k < st + ln then (srcBit g l w64 o.a).testBit (k - st) else (srcBit g l w64 o.d).testBit k))

/-- R125 to R129: addresses, compares, selects, moves and predicate logic; a write to `p7` is discarded, and there is
no flag. -/
def Obligations.AddressCompareSelect : Prop :=
  (∀ (z : Bool) (sh : Nat) (c : Ctl) (o : Ops),
    GivesPlain (.lea z sh c o) 2 false (fun g l v =>
      ((v : Int) - (srcInt g l .z64 o.a +
        (if z then (srcInt g l .z32 o.b : Int) else wholeVal .s32 o.b g l) * 2 ^ sh)) % (2 ^ 64 : Nat) = 0)) ∧
  (∀ (cc : Cond) (t : IntTy) (c : Ctl) (o : Ops),
    GivesPlain (.cmp cc t c o) 1 false (fun g l v => v < 2 ∧ (v = 1 ↔
      match cc with
      | .eq => wholeVal t o.a g l = wholeVal t o.b g l
      | .ne => wholeVal t o.a g l ≠ wholeVal t o.b g l
      | .lt => wholeVal t o.a g l < wholeVal t o.b g l
      | .le => wholeVal t o.a g l ≤ wholeVal t o.b g l
      | .gt => wholeVal t o.a g l > wholeVal t o.b g l
      | .ge => wholeVal t o.a g l ≥ wholeVal t o.b g l
      | .un => False))) ∧
  (∀ (w64 inv : Bool) (k : Nat) (c : Ctl) (o : Ops),
    GivesPlain (.sel w64 inv k c o) (regsOf w64) false (fun g l v =>
      v = if (g.lane l).pred k = !inv then srcBit g l w64 o.a else srcBit g l w64 o.b)) ∧
  (∀ (w64 : Bool) (c : Ctl) (o : Ops),
    GivesPlain (.mov w64 c o) (regsOf w64) false (fun g l v => v = srcBit g l w64 o.a)) ∧
  (∀ (op : PlogOp) (c : Ctl) (o : Ops),
    GivesPlain (.plog op c o) 1 false (fun g l v =>
      let a := (g.lane l).pred (Opnd.idx o.a)
      let b := (g.lane l).pred (Opnd.idx o.b)
      v < 2 ∧ (v = 1 ↔
        match op with
        | .and => a = true ∧ b = true
        | .or => a = true ∨ b = true
        | .xor => a ≠ b
        | .andn => a = true ∧ b = false)))

/-! ### Floating-point instructions and conversions -/

/-- R77 to R82, R131, R132, R135: the arithmetic of `fadd` to `frnd` and `fmin` and `fmax` on each element, and of
`fdp2`: each completes with the value that the exact result rounds to, read here from the formats themselves, with the
special cases and the flags of the rules, and nothing else changes. Of `fdp2`, the flag NV where an operand is NaN, and
the place of an event of opposed infinities between the old D and a product, which is that of the product's element, are
the model's choices (log 58). -/
def Obligations.FloatArithmetic : Prop :=
  ∀ (ftz : Bool) (f : FpFmt) (r : Rnd) (c : Ctl) (o : Ops), f = .f32 ∨ f = .f16 ∨ f = .bf16 →
    let a := fun g l j => srcFp g l f o.a j
    let b := fun g l j => srcFp g l f o.b j
    let d := fun g l j => srcFp g l f o.d j
    let rd := readFtz f ftz
    let two := fun (i : Instr) (ok : Nat → Nat → Res → Prop) => ∃ op : Nat → Nat → Res,
      GivesFloat i f (fun g l j => op (a g l j) (b g l j)) ∧ ∀ x y, ok x y (op x y)
    let one := fun (i : Instr) (ok : Nat → Res → Prop) => ∃ op : Nat → Res,
      GivesFloat i f (fun g l j => op (a g l j)) ∧ ∀ x, ok x (op x)
    two (.fadd ftz f r c o) (fun x y => SumOf f r ftz [rd x, rd y]) ∧
    two (.fsub ftz f r c o) (fun x y => SumOf f r ftz [rd x, negF (rd y)]) ∧
    two (.fmul ftz f r c o) (fun x y => ProductOf f r ftz (rd x) (rd y) []) ∧
    (∃ op : Nat → Nat → Nat → Res, GivesFloat (.fma ftz f r c o) f (fun g l j => op (a g l j) (b g l j) (d g l j)) ∧
      ∀ x y z, ProductOf f r ftz (rd x) (rd y) [rd z] (op x y z)) ∧
    two (.fdiv ftz f r c o) (fun x y => QuotientOf f r ftz (rd x) (rd y)) ∧
    one (.fsqrt ftz f r c o) (fun x => RootOf f r ftz (rd x)) ∧
    one (.frnd ftz f r c o) (fun x => IntegralOf f r (rd x)) ∧
    two (.fmin ftz f c o) (Extreme f ftz false) ∧
    two (.fmax ftz f c o) (Extreme f ftz true) ∧
    (f ≠ .f32 → ∃ op : Nat → List Nat → List Nat → Res,
      Gives (.fdp2 ftz f r c o) 1 false
        (fun g l => (op (srcFp g l .f32 o.d 0) [a g l 0, a g l 1] [b g l 0, b g l 1]).flags.mask)
        (fun g l x => x = (op (srcFp g l .f32 o.d 0) [a g l 0, a g l 1] [b g l 0, b g l 1]).bits) ∧
      ∀ z x0 x1 y0 y1,
        let acc := readFtz .f32 ftz z
        let ps := [(rd x0, rd y0), (rd x1, rd y1)]
        let cause := if acc.isNan then 1 else firstEvent (if acc.isInf then [acc] else []) ps
        let res := op z [x0, x1] [y0, y1]
        (cause ≠ 0 → res = ⟨FpFmt.f32.nan cause,
          { nv := !(acc.isNan || ps.any (fun p => p.1.isNan || p.2.isNan)) }⟩) ∧
        (cause = 0 → SumRounds .f32 r ftz (acc :: ps.map (fun p => p.1.mul p.2)) res))

/-- R131, R132: the invalid and special cases of the arithmetic, on codes: a NaN input gives the generated NaN of
cause 1 and no flag, opposed infinities cause 3, zero times infinity cause 4, 0/0 and ∞/∞ and the root of a negative
number cause 5, each with NV; a finite nonzero number over zero gives an infinity and DZ. -/
def Obligations.FloatInvalid : Prop :=
  ∀ (f : FpFmt) (r : Rnd) (ftz : Bool) (x y d : Nat), (f = .f32 ∨ f = .f16 ∨ f = .bf16) →
    let inf := fun neg => infBits f neg
    let nan := fun z => (FVal.ofBits f z).isNan = true
    ((nan x ∨ nan y) → fAdd f r ftz x y = ⟨f.nan 1, {}⟩ ∧ fSub f r ftz x y = ⟨f.nan 1, {}⟩ ∧
      fMul f r ftz x y = ⟨f.nan 1, {}⟩ ∧ fDiv f r ftz x y = ⟨f.nan 1, {}⟩ ∧ fMa f r ftz x y d = ⟨f.nan 1, {}⟩) ∧
    (nan x → fSqrt f r ftz x = ⟨f.nan 1, {}⟩ ∧ fRnd f r ftz x = ⟨f.nan 1, {}⟩) ∧
    (nan x → nan y → fMinMax f ftz false x y = ⟨f.nan 1, {}⟩ ∧ fMinMax f ftz true x y = ⟨f.nan 1, {}⟩) ∧
    (∀ neg, fAdd f r ftz (inf neg) (inf (!neg)) = ⟨f.nan 3, { nv := true }⟩ ∧
      fSub f r ftz (inf neg) (inf neg) = ⟨f.nan 3, { nv := true }⟩ ∧
      fMul f r ftz (inf neg) (zeroBits f false) = ⟨f.nan 4, { nv := true }⟩ ∧
      fMul f r ftz (zeroBits f true) (inf neg) = ⟨f.nan 4, { nv := true }⟩ ∧
      (¬nan d → fMa f r ftz (inf neg) (zeroBits f false) d = ⟨f.nan 4, { nv := true }⟩) ∧
      fDiv f r ftz (inf neg) (inf false) = ⟨f.nan 5, { nv := true }⟩ ∧
      fDiv f r ftz (zeroBits f neg) (zeroBits f true) = ⟨f.nan 5, { nv := true }⟩ ∧
      fSqrt f r ftz (inf true) = ⟨f.nan 5, { nv := true }⟩ ∧ fSqrt f r ftz (zeroBits f neg) = ⟨zeroBits f neg, {}⟩) ∧
    (∀ sg m e, readFtz f ftz x = .fin sg m e → m ≠ 0 →
      fDiv f r ftz x (zeroBits f false) = ⟨infBits f sg, { dz := true }⟩ ∧
      fDiv f r ftz x (zeroBits f true) = ⟨infBits f (!sg), { dz := true }⟩ ∧
      (sg = true → fSqrt f r ftz x = ⟨f.nan 5, { nv := true }⟩))

/-- R133, R134: `fcmp` with a NaN input holds only for `.ne` and `.un`, and otherwise follows the order of the two exact
numbers, in which +0 equals −0 and each infinity stands beyond every finite number; `fclass` sets exactly one of nine bits, by the class; no flag. -/
def Obligations.FloatCompare : Prop :=
  (∀ (cc : Cond) (ftz : Bool) (c : Ctl) (o : Ops),
    GivesPlain (.fcmp cc ftz c o) 1 false (fun g l v =>
      let a := readFtz .f32 ftz (srcFp g l .f32 o.a 0)
      let b := readFtz .f32 ftz (srcFp g l .f32 o.b 0)
      v < 2 ∧
      (a.isNan = true ∨ b.isNan = true → (v = 1 ↔ cc = .ne ∨ cc = .un)) ∧
      (a.isNan = false → b.isNan = false → (v = 1 ↔
        match cc with
        | .eq => a.Same b
        | .ne => ¬a.Same b
        | .lt => a.Less b
        | .le => a.Less b ∨ a.Same b
        | .gt => b.Less a
        | .ge => b.Less a ∨ a.Same b
        | .un => False)))) ∧
  (∀ (c : Ctl) (o : Ops),
    GivesPlain (.fclass c o) 1 false (fun g l v => ∃ k < 9, v = 2 ^ k ∧
      match FVal.ofBits .f32 (srcFp g l .f32 o.a 0) with
      | .nan _ => k = 8
      | .inf neg => k = if neg then 0 else 7
      | .fin neg m _ =>
        k = if m = 0 then (if neg then 3 else 4)
          else if m < 2 ^ 23 then (if neg then 2 else 5)
          else if neg then 1 else 6))

/-- R102, R115, R136: a special function enters one result on its way for each active lane, and changes no register or
flag when it issues. The result of `frcp` and of `frsq` is the exact value rounded once, and that of each other function is
so at the arguments where the function is rational, with the special cases and the flags of the table; elsewhere `fex2`,
`flg2` and `ftanh` are inexact. How a transcendental value is rounded is the model's reading (log 15). -/
def Obligations.SpecialFunctions : Prop :=
  ∀ (ftz : Bool) (c : Ctl) (o : Ops),
    let gives := fun (i : Instr) (ok : FVal → Res → Prop) => ∃ op : Nat → Res,
      Enters i (fun g l => op (srcFp g l .f32 o.a 0)) ∧ ∀ x, ok (readFtz .f32 ftz x) (op x)
    let nan := fun (cause : Nat) (res : Res) => res = ⟨FpFmt.f32.nan cause, { nv := decide (cause = 5) }⟩
    let near := fun (neg : Bool) (x : ℚ) (res : Res) => Rounds .f32 .rn ftz neg (.of x) res
    let inexact := fun (res : Res) => res.flags.nx = true ∧ res.flags.nv = false ∧ res.flags.dz = false
    gives (.frcp ftz c o) (RecipOf .f32 ftz) ∧ gives (.frsq ftz c o) (RecipRootOf .f32 ftz) ∧
    gives (.fex2 ftz c o) (fun a res => match a with
      | .nan _ => nan 1 res
      | .inf neg => res = ⟨if neg then 0 else infBits .f32 false, {}⟩
      | .fin neg m e => let x := (FVal.fin neg m e).rat
        (∀ k : Int, x = k → near false ((2 : ℚ) ^ k) res) ∧ ((∀ k : Int, x ≠ k) → inexact res)) ∧
    gives (.flg2 ftz c o) (fun a res => match a with
      | .nan _ => nan 1 res
      | .inf neg => if neg then nan 5 res else res = ⟨infBits .f32 false, {}⟩
      | .fin neg m e => let x := (FVal.fin neg m e).rat
        if m = 0 then res = ⟨infBits .f32 true, { dz := true }⟩
        else if neg then nan 5 res
        else (x = 1 → res = ⟨0, {}⟩) ∧ (∀ k : Int, k ≠ 0 → x = (2 : ℚ) ^ k → near (decide (k < 0)) k res) ∧
          ((∀ k : Int, x ≠ (2 : ℚ) ^ k) → inexact res)) ∧
    gives (.fsinpi ftz c o) (fun a res => match a with
      | .nan _ => nan 1 res
      | .inf _ => nan 5 res
      | .fin neg m e => ∀ k : Int, (FVal.fin neg m e).rat = k → res = ⟨zeroBits .f32 neg, {}⟩) ∧
    gives (.fcospi ftz c o) (fun a res => match a with
      | .nan _ => nan 1 res
      | .inf _ => nan 5 res
      | .fin neg m e => ∀ k : Int, (FVal.fin neg m e).rat = k + 1 / 2 → res = ⟨0, {}⟩) ∧
    gives (.ftanh ftz c o) (fun a res => match a with
      | .nan _ => nan 1 res
      | .inf neg => res = ⟨withSign .f32 neg 0x3F800000, {}⟩
      | .fin neg m _ => if m = 0 then res = ⟨zeroBits .f32 neg, {}⟩ else inexact res)

/-- R84, R137 to R139: a conversion writes the converted value, into one slot of D when its target is narrow, keeping
D's other bits: the value that the table of R84 gives for the exact source, rounded as the formats say, with its flags. That
a short immediate is read by the source's type (log 58), and NX beside SAT where a quantised value is clamped (log 14), are
the model's readings. -/
def Obligations.Conversions : Prop :=
  (∀ (t f : FpFmt) (nsat : Bool) (r : Rnd) (c : Ctl) (o : Ops), ∃ op : Nat → Res,
    Converts (.cvtFloatToFloat t f nsat r c o) 1 false t.bits (FpFmt.stride t) (fun g l => op (cvtFloat g l f o.a)) ∧
    ∀ x, FloatToFloat t f nsat r x (op x)) ∧
  (∀ (t : IntTy) (f : FpFmt) (r : Rnd) (c : Ctl) (o : Ops), ∃ op : Nat → Res,
    Converts (.cvtFloatToInt t f r c o) t.regs t.signed t.bits t.bits (fun g l => op (cvtFloat g l f o.a)) ∧
    ∀ x, FloatToInt t f r x (op x)) ∧
  (∀ (t : FpFmt) (f : IntTy) (nsat : Bool) (r : Rnd) (c : Ctl) (o : Ops), ∃ op : Nat → Res,
    Converts (.cvtIntToFloat t f nsat r c o) 1 false t.bits (FpFmt.stride t) (fun g l => op (cvtInt g l f o.a)) ∧
    ∀ x, IntToFloat t f nsat r x (op x)) ∧
  (∀ (t f : IntTy) (c : Ctl) (o : Ops),
    Converts (.cvtIntWrap t f c o) t.regs t.signed t.bits t.bits
      (fun g l => ⟨(f.val (cvtInt g l f o.a) % (2 ^ t.bits : Nat)).toNat, {}⟩) ∧
    Converts (.cvtIntSat t f c o) t.regs t.signed t.bits t.bits
      (fun g l =>
        let v := f.val (cvtInt g l f o.a)
        ⟨(max t.lo (min t.hi v) % (2 ^ t.bits : Nat)).toNat, { sat := decide (v < t.lo) || decide (t.hi < v) }⟩)) ∧
  (∀ (q8 : Bool) (f : FpFmt) (r : Rnd) (c : Ctl) (o : Ops),
    (∃ op : Nat → Nat → Res,
      Converts (.cvtQuantise q8 f r c o) 1 false (codeBits q8) (codeBits q8)
        (fun g l => op (cvtFloat g l f o.a) (srcInt g l .z32 o.b)) ∧ ∀ x e, Quantises q8 f r x e (op x e)) ∧
    Gives (.cvtDequantise q8 c o) 1 false (fun _ _ => 0)
      (fun g l v => Dequantises q8 (cvtRead g l (codeBits q8) (codeBits q8) 1 o.a) (srcInt g l .z32 o.b) v))

/-! ### Cross-lane instructions -/

/-- R140, R141: `xlane` gives each lane the register of the lane that its mode and distance name, inside the group;
`lpoll` polls a predicate over the active lanes; no flag. -/
def Obligations.LaneExchange : Prop :=
  (∀ (m : XlaneMode) (w64 : Bool) (c : Ctl) (o : Ops),
    GivesPlain (.xlane m w64 c o) (regsOf w64) false (fun g l v =>
      let b := srcInt g l .z32 o.b
      let w := g.width
      let j := match m with
        | .pick => b % w
        | .rotu => (l + (w - b % w)) % w
        | .rotd => (l + b) % w
        | .flip => l ^^^ (b % w)
      v = (g.value j o.a (regsOf w64)).toNat % 2 ^ (32 * regsOf w64))) ∧
  (∀ (m : PollMode) (c : Ctl) (o : Ops),
    GivesOver (.lpoll m c o) (if m = .mask then 2 else 1) false (fun _ _ _ => 0) (fun g act _ v =>
      let p := fun l => (g.lane l).pred (Opnd.idx o.a)
      match m with
      | .every => v < 2 ∧ (v = 1 ↔ ∀ l ∈ act, p l = true)
      | .some => v < 2 ∧ (v = 1 ↔ ∃ l ∈ act, p l = true)
      | .mask => ∀ k < 64, v.testBit k = true ↔ k ∈ act ∧ p k = true
      | .count => v = (act.filter p).length % 2 ^ 32))

/-- R142, R143: `lfold` and `ffold` fold a register over the active lanes in ascending order, the steps of `ffold` being
rounded sums or the extremes of R132, from its first value on, with the flags of them all, and `scan` forms the
prefix of each active lane, the identity for the first lane of an exclusive form. A source A that is no vector is
folded once for each active lane, by the model's choice (log 58). -/
def Obligations.FoldsAndPrefixes : Prop :=
  (∀ (op : FoldOp) (t : IntTy) (c : Ctl) (o : Ops),
    GivesOver (.lfold op t c o) t.regs t.signed (fun _ _ _ => 0) (fun g act _ v =>
      let a := fun l => wholeVal t o.a g l
      let bit := fun k l => (srcInt g l t o.a).testBit k
      match op with
      | .add => (t.val v - (act.map a).sum) % (2 ^ t.bits : Nat) = 0
      | .min => (∃ l ∈ act, t.val v = a l) ∧ ∀ l ∈ act, t.val v ≤ a l
      | .max => (∃ l ∈ act, t.val v = a l) ∧ ∀ l ∈ act, a l ≤ t.val v
      | .and => ∀ k < t.bits, v.testBit k = act.all (bit k)
      | .or => ∀ k < t.bits, v.testBit k = act.any (bit k)
      | .xor => ∀ k < t.bits, v.testBit k = ((act.filter (bit k)).length % 2 == 1))) ∧
  (∀ (op : FoldOp) (r : Rnd) (c : Ctl) (o : Ops),
    ∃ fold : List Nat → Res, GivesOver (.ffold op r c o) 1 false
      (fun g act _ => (fold (act.map (fun l => srcFp g l .f32 o.a 0))).flags.mask)
      (fun g act _ v => v = (fold (act.map (fun l => srcFp g l .f32 o.a 0))).bits) ∧
    ∀ x xs, FoldOf op r x xs (fold (x :: xs))) ∧
  (∀ (op : FoldOp) (excl z : Bool) (c : Ctl) (o : Ops),
    GivesOver (.scan op excl z c o) 1 false (fun _ _ _ => 0) (fun g act l v =>
      let t : IntTy := if z then .z32 else .s32
      let below := (act.filter (fun j => if excl then decide (j < l) else decide (j ≤ l))).map (wholeVal t o.a g)
      match op with
      | .min => t.val v = below.foldl min t.hi
      | .max => t.val v = below.foldl max t.lo
      | .add => (t.val v - below.sum) % (2 ^ 32 : Nat) = 0
      | _ => True))

/-- R144: `pk6` and `upk6` move six-bit elements between their slots and the 96-bit stream of a quad, bit by bit; the
quad's last lane receives zero from `pk6`. -/
def Obligations.PackedSix : Prop :=
  ∀ (c : Ctl) (o : Ops),
    GivesPlain (.pk6 c o) 1 false (fun g l v => ∀ k < 32,
      let n := 32 * (l % 4) + k
      v.testBit k = (decide (l % 4 < 3) &&
        (g.value (l / 4 * 4 + n / 6 / 4) o.a 1).toNat.testBit (8 * (n / 6 % 4) + n % 6))) ∧
    GivesPlain (.upk6 c o) 1 false (fun g l v => ∀ k < 32,
      let n := 6 * (4 * (l % 4) + k / 8) + k % 8
      v.testBit k = (decide (k % 8 < 6) && (g.value (l / 4 * 4 + n / 32) o.a 1).toNat.testBit (n % 32)))

/-! ### Memory -/

/-- R149 to R153, R162: a load of any number of lanes completes, each lane past it or parked at it with a cause; one that
reaches memory, by one lane or once for the group, completes: it is performed, at once or when its entry returns, and
its result on the way is the bytes as the core reads them; no register changes, and, where no line has to leave a cache,
no byte at an owning point, and what the core reads changes at most in the line it fetches, to what stands below its L1.
`ld.acq` is performed at once and also drops every clean byte of the core's L1 beyond team scope; a prefetch enters no
result, and waits only at a tile in transit. That a load may be on its way before it is performed is the model's
reading (log 51). -/
def Obligations.Loads : Prop :=
  (∀ (sc : Scope) (z : Size) (c : Ctl) (o : Ops), LanesAccess (.ld z c o) ∧ LanesAccess (.ldAcq sc z c o)) ∧
  (∀ (z : Size) (c : Ctl) (o : Ops) s pc lane lanes u pa,
    let i := Instr.ld z c o
    let g := s.group s.cur
    Reaches s i pc (s.issued i pc) (Ops.once o) (g.accessVa i (lane.getD (lanes.headD 0))) .read z.bytes lane lanes u pa →
    s.poisoned pa = false →
    ∃ t, exec i s = .next t ∧ Performs s t pc (fun v => Untouched s v pc ∧
      (v.group s.cur).pend = g.pend ++ [s.readEntry i pc z lane lanes pa (s.coreBytes g.core g.ctx pa z.bytes)] ∧
      (s.Roomy g.core g.ctx (pa / 128) → (∀ a, v.ownByte a = s.ownByte a) ∧
        ∀ a, v.coreByte g.core g.ctx a = s.coreByte g.core g.ctx a ∨
          (a / 128 = pa / 128 ∧ v.coreByte g.core g.ctx a = s.belowByte (dieOfCore g.core) g.ctx a)))) ∧
  (∀ (sc : Scope) (z : Size) (c : Ctl) (o : Ops) s pc lane lanes u pa,
    let i := Instr.ldAcq sc z c o
    let g := s.group s.cur
    Reaches s i pc (s.issued i pc) (Ops.once o) (g.accessVa i (lane.getD (lanes.headD 0))) .read z.bytes lane lanes u pa →
    s.poisoned pa = false → FMap.wf Line.none s.l1 = true →
    ∃ t, exec i s = .next t ∧ Untouched s t pc ∧
      (s.Roomy g.core g.ctx (pa / 128) → ∀ a, t.ownByte a = s.ownByte a) ∧
      (1 ≤ s.scopeLevel g.team sc → ∀ line k, (t.l1Line g.core line).has k = true →
        (t.l1Line g.core line).isDirty k = true) ∧
      (t.group s.cur).pend = g.pend ++ [s.readEntry i pc z lane lanes pa (s.coreBytes g.core g.ctx pa z.bytes)]) ∧
  (∀ (l2 : Bool) (c : Ctl) (o : Ops) s pc, IssuesMem s (.pref l2 c o) pc → dieOfCore (s.group s.cur).core < 8 →
    let g := s.group s.cur
    ∃ t es, exec (.pref l2 c o) s = .next t ∧ Untouched s t pc ∧ (t.group s.cur).pend = g.pend ++ es ∧
      (∀ e ∈ es, e.writes = [] ∧ e.access.any Access.isPref = true) ∧
      ((g.active (.pref l2 c o) pc).length ≤ 1 → (∀ line, s.Roomy g.core g.ctx line) → ∀ a, t.ownByte a = s.ownByte a))

/-- R149, R152, R153, R155: a store of any number of lanes completes, each lane past it or parked at it with a cause; one
that reaches memory, by one lane or once for the group, on a line of which no other context has dirty bytes in the L1 and
none stand under a relaunch quota in its cluster, completes: it is performed, at once or when its entry returns, and then the
core reads its bytes; where no line has to leave the L1 no other byte changes, and none at an owning point. `st.rel` is
performed at once after its release, when its lane takes no fault: the core reads its bytes, and, where no line has to leave a
cache, no dirty byte of the context is left above the level of its scope and no byte of another line has changed since the
release. When a store that is on its way is performed is the model's choice (log 51), and so is that a release takes all bytes
of the context (log 54). -/
def Obligations.Stores : Prop :=
  (∀ (sc : Scope) (z : Size) (c : Ctl) (o : Ops), LanesAccess (.st z c o) ∧ LanesAccess (.stRel sc z c o)) ∧
  (∀ (z : Size) (c : Ctl) (o : Ops) s pc lane lanes u pa,
    let i := Instr.st z c o
    let g := s.group s.cur
    let l := lane.getD (lanes.headD 0)
    let line := s.l1Line g.core (pa / 128)
    Reaches s i pc (s.issued i pc) (Ops.once o) (g.accessVa i l) .write z.bytes lane lanes u pa →
    (line.dirty = 0 ∨ line.ctx = g.ctx) → (∀ q ∈ s.quota, q.core / 2 = g.core / 2 → q.line ≠ pa / 128) →
    (s.team g.team).relaunch = false →
    ∃ t, exec i s = .next t ∧ Performs s t pc (fun v => Untouched s v pc ∧ (v.group s.cur).pend = g.pend ∧
      (s.l1Fits g.core (pa / 128) →
        (∀ k < z.bytes, v.coreByte g.core g.ctx (pa + k) = (storeBytes g l z o.d).getD k 0) ∧
        (∀ a, (∀ k < z.bytes, a ≠ pa + k) → v.coreByte g.core g.ctx a = s.coreByte g.core g.ctx a) ∧
        ∀ a, v.ownByte a = s.ownByte a))) ∧
  (∀ (sc : Scope) (z : Size) (c : Ctl) (o : Ops) s pc lane lanes u pa,
    let i := Instr.stRel sc z c o
    let g := s.group s.cur
    let l := lane.getD (lanes.headD 0)
    let line := pa / 128
    let q := s.releasedAt i pc sc
    Reaches s i pc q (Ops.once o) (g.accessVa i l) .write z.bytes lane lanes u pa →
    s.goes i pc (Ops.once o) (g.accessVa i l) .write z.bytes lane lanes true → s.CachesWf →
    ((q.l1Line g.core line).dirty = 0 ∨ (q.l1Line g.core line).ctx = g.ctx) →
    (∀ x ∈ q.quota, x.core / 2 = g.core / 2 → x.line ≠ line) → (q.team g.team).relaunch = false →
    ∃ t, exec i s = .next t ∧ Untouched s t pc ∧ (t.group s.cur).pend = g.pend ∧
      (q.l1Fits g.core line →
        ∀ k < z.bytes, t.coreByte g.core g.ctx (pa + k) = (storeBytes g l z o.d).getD k 0) ∧
      (q.Roomy g.core g.ctx line → (isHbm pa = true → q.l2Fits (q.ownerDie pa) g.ctx line) →
        t.Released g.core g.ctx (s.scopeLevel g.team sc) ∧
        ∀ a, a / 128 ≠ line → t.coreByte g.core g.ctx a = q.coreByte g.core g.ctx a ∧ t.ownByte a = q.ownByte a))

/-- R157, R158, R160: a local load of each active lane, or once for the group, whose bytes lie inside the team's local
memory and whose granules are full, enters each lane's bytes; under `.wf` and `.wc` a lane that finds its granule empty
waits at the instruction, and of the lanes of a `.wc` on one full granule the lowest takes its bytes and empties it, and
the others wait; a local store of the active lanes, or once for the group, writes exactly their bytes, a higher lane over a
lower, and its granules become full under `.sf` and empty under `.se`. -/
def Obligations.LocalAccesses : Prop :=
  (∀ (fe : LoadFe) (z : Size) (c : Ctl) (o : Ops) s pc,
    let i := Instr.ldl fe z c o
    let g := s.group s.cur
    let tm := s.team g.team
    let act := g.active i pc
    let at_ := fun l => (localAddr g l o.a o.b).toNat
    IssuesMem s i pc → fe ≠ .wc →
    (∀ l ∈ act, localFault tm.locLen (localAddr g l o.a o.b) z.bytes = none ∧
      s.watchBytes g 1 (at_ l) z.bytes true false = none) →
    (fe = .wf → ∀ l ∈ act, tm.isFull (at_ l / 16) = true) →
    ∃ t, exec i s = .next t ∧ Quiet s t pc ∧
      (t.group s.cur).pend = g.pend ++ (if Ops.once o then (act.take 1).map (fun l =>
          { s.readEntry i pc z none act 0 (tm.locBytes (at_ l) z.bytes) with resp := none, tag := 0 })
        else act.map (fun l =>
          { s.readEntry i pc z (some l) [l] 0 (tm.locBytes (at_ l) z.bytes) with resp := none, tag := 0 }))) ∧
  (∀ (fe : LoadFe) (z : Size) (c : Ctl) (o : Ops) s pc,
    let i := Instr.ldl fe z c o
    let g := s.group s.cur
    let tm := s.team g.team
    let act := g.active i pc
    let at_ := fun l => (localAddr g l o.a o.b).toNat
    let acts := if Ops.once o then act.take 1 else act
    let takes := fun l => tm.isFull (at_ l / 16) = true ∧ (fe = .wf ∨ ∀ m ∈ acts, m < l → at_ m / 16 ≠ at_ l / 16)
    let entry := fun l => { s.readEntry i pc z (if Ops.once o then none else some l) (if Ops.once o then act else [l]) 0
      (tm.locBytes (at_ l) z.bytes) with resp := none, tag := 0 }
    IssuesMem s i pc → fe ≠ .plain →
    (∀ l ∈ acts, localFault tm.locLen (localAddr g l o.a o.b) z.bytes = none ∧
      s.watchBytes g 1 (at_ l) z.bytes true false = none) →
    ∃ (t : State) (ls : List Nat), exec i s = .next t ∧ (∀ k, k ≠ s.cur → t.group k = s.group k) ∧ ls.Sublist acts ∧
      (∀ l ∈ acts, l ∈ ls ↔ takes l) ∧ (t.group s.cur).pend = g.pend ++ ls.map entry ∧
      (∀ l ∈ act, let by_ := if Ops.once o then act.headD 0 else l
        if by_ ∈ ls then ((t.group s.cur).lane l).pc = pc + 12 ∧ ((t.group s.cur).lane l).lst = .running
        else ((t.group s.cur).lane l).pc = pc ∧ ((t.group s.cur).lane l).lst = .waiting ∧
          ((t.group s.cur).lane l).gran = at_ by_ / 16) ∧
      (∀ b, (t.team g.team).locByte b = tm.locByte b) ∧
      ∀ q, (t.team g.team).isFull q = (tm.isFull q && !(fe == .wc && ls.any (fun l => at_ l / 16 == q)))) ∧
  (∀ (fe : StoreFe) (z : Size) (c : Ctl) (o : Ops) s pc,
    let i := Instr.stl fe z c o
    let g := s.group s.cur
    let tm := s.team g.team
    let act := g.active i pc
    let stores := if Ops.once o then act.take 1 else act
    let at_ := fun l => (localAddr g l o.a o.b).toNat
    IssuesMem s i pc →
    (∀ l ∈ stores, localFault tm.locLen (localAddr g l o.a o.b) z.bytes = none ∧
      s.watchBytes g 1 (at_ l) z.bytes false true = none) →
    ∃ t, exec i s = .next t ∧ (t.group s.cur).pend = g.pend ∧
      (∀ m, ((t.group s.cur).lane m).v = (g.lane m).v ∧ ((t.group s.cur).lane m).p = (g.lane m).p) ∧
      (t.group s.cur).sregs = g.sregs ∧ (t.group s.cur).gsw = g.gsw ∧
      (∀ l ∈ act, ((t.group s.cur).lane l).pc = pc + 12) ∧
      (∀ b, t.ownByte b = s.ownByte b) ∧ (∀ k, k ≠ g.team → t.team k = s.team k) ∧
      (∀ b, (t.team g.team).locByte b = stores.foldl (fun x l =>
        if at_ l ≤ b ∧ b < at_ l + z.bytes then (storeBytes g l z o.d).getD (b - at_ l) 0 else x) (tm.locByte b)) ∧
      (∀ gr, (t.team g.team).isFull gr =
        if fe ≠ .plain ∧ stores.any (fun l => gr == at_ l / 16) then decide (fe = .sf) else tm.isFull gr))

/-- R163 to R168: the atomics and `cas` of any number of lanes complete, each lane past or parked with a cause; one lane's
operation, or that of a scalar form, replaces the value at the owning point and returns the old one. That an atomic with a
scalar destination, and no other, acts once for the group is the model's reading (log 20), and that a relaxed one may be
performed later, by the RESULT_RETURN of its entry, while an ordered one is performed when it issues, is its choice (log 51). -/
def Obligations.Atomics : Prop :=
  (∀ (w64 sgn : Bool) (ord : Order) (sc : Scope) (c : Ctl) (o : Ops),
    ∀ i ∈ [Instr.atomAdd w64 sgn ord sc c o, .atomMin w64 sgn ord sc c o, .atomMax w64 sgn ord sc c o,
      .atomAnd w64 ord sc c o, .atomOr w64 ord sc c o, .atomXor w64 ord sc c o, .atomXchg w64 ord sc c o,
      .cas w64 ord sc c o, .atomAddF32 ord sc c o], LanesAccess i) ∧
  (∀ (w64 sgn : Bool) (ord : Order) (sc : Scope) (c : Ctl) (o : Ops),
    let w := if w64 then 64 else 32
    let val := fun (x : Nat) => if sgn then (BitVec.ofNat w x).toInt else (x : Int)
    AtomicGives (.atomAdd w64 sgn ord sc c o) w64 sgn ord sc true (fun old b _ => (old + b) % 2 ^ w) ∧
    AtomicGives (.atomMin w64 sgn ord sc c o) w64 sgn ord sc false (fun old b _ => if val b < val old then b else old) ∧
    AtomicGives (.atomMax w64 sgn ord sc c o) w64 sgn ord sc false (fun old b _ => if val old < val b then b else old)) ∧
  (∀ (w64 : Bool) (ord : Order) (sc : Scope) (c : Ctl) (o : Ops),
    AtomicGives (.atomAnd w64 ord sc c o) w64 false ord sc false (fun old b _ => old &&& b) ∧
    AtomicGives (.atomOr w64 ord sc c o) w64 false ord sc false (fun old b _ => old ||| b) ∧
    AtomicGives (.atomXor w64 ord sc c o) w64 false ord sc false (fun old b _ => old ^^^ b) ∧
    AtomicGives (.atomXchg w64 ord sc c o) w64 false ord sc true (fun _ b _ => b) ∧
    AtomicGives (.cas w64 ord sc c o) w64 false ord sc true (fun old b d => if old = d then b else old)) ∧
  (∀ (ord : Order) (sc : Scope) (c : Ctl) (o : Ops),
    AtomicGives (.atomAddF32 ord sc c o) false false ord sc false (fun old b _ => (fAdd .f32 .rn false old b).bits))

/-- R171 to R175: `txb` opens an empty transaction in each active lane with D zero. A load in a transaction adds its line
to the read set and returns the lane's buffered bytes, and else those at the owning point once the dirty bytes of the core
and its die have gone there; a store adds its line to the write set and its bytes to the buffer, and no memory or cache
changes. Either aborts with cause 6, 3 or 4 where a move has reached the sets or they have no room. `txe` makes the group
wait for the transactions of its active lanes, `txa` aborts each with cause 7 and its code, which lands the lane at its
transaction's target with the cause in D. COMMIT_COMPLETE ends the wait and every transaction: cause 6 where a move has
reached it, 2 for a conflict with a lower lane, and a lane alone commits its write set when every byte it read is
unchanged, else aborts with cause 1. That a moved transaction conflicts with none, and that cause 3 comes before cause 4
where both limits are passed, are the model's choices (log 55). -/
def Obligations.Transactions : Prop :=
  (∀ (c : Ctl) (o : Ops) s pc n,
    let i := Instr.txb c o
    let g := s.group s.cur
    IssuesMem s i pc → s.noTx i pc → o.a = .imm n →
    ∃ t, exec i s = .next t ∧ OnlyGroup s t ∧ ∀ l,
      if l ∈ g.active i pc then
        ((t.group s.cur).lane l).tx = some ⟨Opnd.idx o.d, pc + BitVec.ofInt 64 (12 * n), [], [], [], [], [], false⟩ ∧
        ∀ r, ((t.group s.cur).lane l).vreg r = if r = Opnd.idx o.d then 0 else (g.lane l).vreg r
      else ((t.group s.cur).lane l).tx = (g.lane l).tx ∧ ((t.group s.cur).lane l).v = (g.lane l).v) ∧
  (∀ (z : Size) (c : Ctl) (o : Ops) s pc l x u pa,
    let i := Instr.ld z c o
    let g := s.group s.cur
    let base := if s.quota.any (fun q => q.core == g.core && q.team == g.team && q.line == pa / 128) then u.endRelaunch g.team
      else u
    let v := base.gather g.core (pa / 128)
    let held := fun a => x.writes.find? (fun w => w.1 == a)
    let at_ := (List.range z.bytes).map (fun k => pa + k)
    ReachesTx s i pc (g.accessVa i l) .read z.bytes l x u pa → v.poisoned pa = false →
    TxAccess s i u pa l x false (fun t =>
      ((t.group s.cur).lane l).tx = some { x with
        rlines := if x.rlines.contains (pa / 128) then x.rlines else x.rlines ++ [pa / 128]
        reads := x.reads ++ (at_.filter (fun a => (held a).isNone)).map (fun a => (a, v.ownSeen g.ctx a)) } ∧
      ((t.group s.cur).lane l).pc = pc + 12 ∧
      (t.group s.cur).pend = g.pend ++ [s.readEntry i pc z (if Ops.once o then none else some l) [l] pa
        (at_.map (fun a => ((held a).map Prod.snd).getD (v.ownSeen g.ctx a)))] ∧
      ∀ a, t.ownByte a = v.ownByte a)) ∧
  (∀ (z : Size) (c : Ctl) (o : Ops) s pc l x u pa,
    let i := Instr.st z c o
    let g := s.group s.cur
    let va := g.accessVa i l
    ReachesTx s i pc va .write z.bytes l x u pa →
    TxAccess s i u pa l x true (fun t =>
      ((t.group s.cur).lane l).tx = some { x with
        wlines := if x.wlines.contains (pa / 128) then x.wlines else x.wlines ++ [pa / 128]
        writes := putTx x.writes pa (storeBytes g l z o.d)
        arr := x.arr ++ [(va.toNat, pa)] } ∧
      ((t.group s.cur).lane l).pc = pc + 12 ∧ (t.group s.cur).pend = g.pend ∧
      t.mem = s.mem ∧ t.l1 = s.l1 ∧ t.l2 = s.l2 ∧ t.quota = s.quota)) ∧
  (∀ (c : Ctl) (o : Ops) s pc,
    let i := Instr.txe c o
    let g := s.group s.cur
    let open_ := (g.active i pc).filter (fun l => (g.lane l).tx.isSome)
    IssuesMem s i pc →
    ∃ t, exec i s = .next t ∧ Quiet s t pc ∧ (t.group s.cur).wait = (if open_ = [] then .none else .txe open_)) ∧
  (∀ (c : Ctl) (o : Ops) s pc n,
    let i := Instr.txa c o
    let g := s.group s.cur
    IssuesMem s i pc → o.a = .imm (n : Nat) →
    ∃ t, exec i s = .next t ∧ OnlyGroup s t ∧ ∀ l,
      match (g.lane l).tx with
      | some x =>
        if l ∈ g.active i pc then AbortedWith t s.cur l x (7 + 256 * n)
        else ((t.group s.cur).lane l).tx = some x
      | none => ((t.group s.cur).lane l).tx = none ∧ ((t.group s.cur).lane l).v = (g.lane l).v) ∧
  (∀ (k : Nat) (s : State) (lanes : List Nat), (s.group k).wait = .txe lanes →
    let tx := fun l => ((s.group k).lane l).tx
    ∃ t, exec (.commitComplete k) s = .next t ∧ (t.group k).wait = .none ∧ ∀ l ∈ lanes, ∀ x, tx l = some x →
      ((t.group k).lane l).tx = none ∧
      (s.txMoved x = true → AbortedWith t k l x 6) ∧
      (s.txMoved x = false → (∃ m ∈ lanes, ∃ y, m < l ∧ tx m = some y ∧ s.txMoved y = false ∧ txConflict x y = true) →
        AbortedWith t k l x 2)) ∧
  (∀ (k l : Nat) (s : State) (x : Tx), (s.group k).wait = .txe [l] →
    let g := s.group k
    let valid := ∀ r ∈ x.reads, s.ownSeen g.ctx r.1 = r.2
    (g.lane l).tx = some x → s.txMoved x = false →
    ∃ t, exec (.commitComplete k) s = .next t ∧ ((t.group k).lane l).tx = none ∧
      (¬valid → AbortedWith t k l x 1 ∧ ∀ a, t.ownByte a = s.ownByte a) ∧
      (valid → ((t.group k).lane l).pc = (g.lane l).pc ∧ ((t.group k).lane l).v = (g.lane l).v ∧
        ∀ line, let v := ((s.endRelaunch g.team).releaseAt g.core g.ctx 2).gather g.core line
          x.wlines = [line] → (∀ w ∈ x.writes, w.1 / 128 = line) → (x.writes.map Prod.fst).Nodup →
          s.noRoute (line * 128) = false → (s.ctx g.ctx).used = true → (s.ctx g.ctx).isOpen = true →
          (isHbm (line * 128) = true → v.l2Fits (v.ownerDie (line * 128)) g.ctx line) →
          (∀ w ∈ x.writes, t.ownByte w.1 = w.2) ∧
          ∀ a, (∀ w ∈ x.writes, w.1 ≠ a) → t.ownByte a = v.ownByte a))

/-- R155, R156, R177 to R180: a fence beyond team scope releases, so that no dirty byte of the context, outside a relaunch
quota, is left above the level of its scope, and acquires, so that the L1 holds no clean byte; it changes no register.
`publ` releases in the same way and waits for the swap, whose status then reaches a D that is given; `rcfence` and
`icinv` drop the entries they name in scope and wait for the confirmation. A confirmation ends that wait; a swap gives
status 2 where no shadow buffer stands at the address, 1 where nothing is pending, else 0, and then each shadow byte
stands at its place in memory and nothing is pending. The swap of a buffer in one step (log 23), and a release that takes the
bytes of all teams of the context (log 54), are the model's choices. -/
def Obligations.Fences : Prop :=
  (∀ (k : Order) (sc : Scope) (c : Ctl) (o : Ops) s pc,
    let i := Instr.fence k sc c o
    let g := s.group s.cur
    IssuesMem s i pc → s.noTx i pc → g.active i pc ≠ [] → dieOfCore g.core < 8 → s.CachesWf →
    1 ≤ s.scopeLevel g.team sc →
    ∃ t, exec i s = .next t ∧ Untouched s t pc ∧ (t.group s.cur).pend = g.pend ∧
      (k = .rel ∨ k = .ar → t.Released g.core g.ctx (s.scopeLevel g.team sc)) ∧
      (k = .acq ∨ k = .ar → ∀ line j, (t.l1Line g.core line).has j = true → (t.l1Line g.core line).isDirty j = true) ∧
      (k = .acq → ∀ a, t.ownByte a = s.ownByte a)) ∧
  (∀ (sc : Scope) (c : Ctl) (o : Ops) s pc,
    let i := Instr.publ sc c o
    let g := s.group s.cur
    IssuesMem s i pc → s.noTx i pc → g.active i pc ≠ [] → dieOfCore g.core < 8 → s.CachesWf →
    ∃ t, exec i s = .next t ∧ Untouched s t pc ∧ (t.group s.cur).pend = g.pend ∧
      t.Released g.core g.ctx (s.scopeLevel g.team sc) ∧
      (t.group s.cur).wait = .publ (Opnd.scalar? o.d) (g.sreg (Opnd.idx o.a)) sc (g.active i pc)) ∧
  (∀ (sc : Scope) (c : Ctl) (o : Ops) s pc,
    let i := Instr.rcfence sc c o
    let g := s.group s.cur
    let b := (Opnd.scalar? o.a).map (fun n => (g.sreg n).toNat)
    IssuesMem s i pc → s.noTx i pc → g.active i pc ≠ [] → b.getD 0 % 64 = 0 →
    ∃ t, exec i s = .next t ∧ Untouched s t pc ∧ (t.group s.cur).wait = .confirm ∧
      ∀ core ∈ t.cores, s.scopeCores g sc core.1 = true →
        ∀ e ∈ core.2.records, e.ctx = g.ctx → ∃ a, b = some a ∧ e.addr ≠ a) ∧
  (∀ (sc : Scope) (c : Ctl) (o : Ops) s pc l,
    let i := Instr.icinv sc c o
    let g := s.group s.cur
    let b := (g.sreg (Opnd.idx o.a)).toNat
    let n := (g.value l o.b 2).toNat
    IssuesMem s i pc → s.noTx i pc → (g.active i pc).head? = some l →
    ∃ t, exec i s = .next t ∧ Quiet s { t with icache := s.icache } pc ∧
      if n = 0 then t.icache = s.icache
      else (t.group s.cur).wait = .confirm ∧ ∀ x, x ∈ t.icache ↔ x ∈ s.icache ∧
        ¬(icacheIn g sc x.core = true ∧ x.ctx = g.ctx ∧ x.line * 64 < b + n ∧ b < x.line * 64 + 64)) ∧
  (∀ (k : Nat) (s : State), (s.group k).wait = .confirm →
    exec (.invalidationConfirmed k) s = .next (s.modGroup k (fun x => { x with wait := .none }))) ∧
  (∀ (k : Nat) (s : State) d b sc lanes, (s.group k).wait = .publ d b sc lanes →
    let g := s.group k
    let ends := fun (t : State) (st : W64) => (t.group k).wait = .none ∧
      ∀ n, (t.group k).sreg n = if d = some n then st else g.sreg n
    (s.shadowAt g.ctx b = none → ∃ t, exec (.swapTakenEffect k) s = .next t ∧ ends t 2 ∧ t.mem = s.mem) ∧
    (∀ h, s.shadowAt g.ctx b = some h → s.shadowQueued g.team h = false →
      (h.pending = false → ∃ t, exec (.swapTakenEffect k) s = .next t ∧ ends t 1 ∧ t.mem = s.mem) ∧
      (h.pending = true →
        let va := fun (p : Nat × Byte) => (s.follow g.ctx 3 (h.place p.1)).1
        let place := fun (p : Nat × Byte) => match s.walk g.ctx (va p) with
          | .leaf e => leafPa e (va p)
          | _ => 0
        (s.ctx g.ctx).used = true → (s.ctx g.ctx).isOpen = true → s.CachesWf →
        (∀ p ∈ h.bytes, (∃ e, s.walk g.ctx (va p) = .leaf e) ∧ s.inTransit g.ctx (va p) = false ∧
          s.noRoute (place p) = false) → (h.bytes.map place).Nodup →
        ∃ t, exec (.swapTakenEffect k) s = .next t ∧ ends t 0 ∧ (∀ p ∈ h.bytes, t.ownByte (place p) = p.2) ∧
          ∀ x ∈ (t.ctx g.ctx).shadows, x.base = h.base → x.pending = false ∧ x.bytes = [])))

/-- R181, R182, R310: `sweep` faults with cause 2 on a misaligned address, and else sets out: the group goes on, or
its lanes wait at the instruction where some page of the range faults. Each RESULT_RETURN of the sweep does one word,
in which a pointer that a chain of marks forwards is replaced and counted, and after the last D takes the status.
`tmov` faults alike on a misaligned address; a move that is refused gives its status at once, and one that is accepted
joins the relocation queue with its status held. One word a step, and a faulting page before a watchpoint, are the
model's choices (log 17). -/
def Obligations.SweepAndMove : Prop :=
  (∀ (c : Ctl) (o : Ops) s pc l,
    let i := Instr.sweep c o
    let g := s.group s.cur
    let b := g.sreg (Opnd.idx o.a)
    let n := (g.value l o.b 2).toNat
    let words := min n 1048576
    IssuesMem s i pc → s.noTx i pc → (g.active i pc).head? = some l →
    (b.toNat % 8 ≠ 0 → ∃ t, exec i s = .next t ∧ OnlyGroup s t ∧
      ∀ m ∈ g.active i pc, ((t.group s.cur).lane m).ParkedAt pc 2 2 b) ∧
    (b.toNat % 8 = 0 → s.watchBytes g 0 b.toNat (8 * words) true true = none →
      ∃ t e r, exec i s = .next t ∧ (∀ a, t.ownByte a = s.ownByte a) ∧ (t.group s.cur).pend = g.pend ++ [e] ∧
        e.writes = [(.sca (Opnd.idx o.d), none)] ∧ e.sweep = some r ∧
        r.next = b.toNat ∧ r.left = words ∧ r.count = 0 ∧ r.trunc = decide (1048576 < n) ∧
        (r.stays = false → Untouched s t pc) ∧
        (r.stays = true → (t.group s.cur).wait = .sweep (g.active i pc) ∧
          ∀ m ∈ g.active i pc, ((t.group s.cur).lane m).pc = pc))) ∧
  (∀ (k n : Nat) (s u : State) e r pa leaf va hops,
    let g := s.group k
    let v := (u.noteUse g.ctx g.core va true).gather g.core (pa / 128)
    let x := leNat (v.seenBytes g.ctx pa 8)
    let q := v.follow g.ctx 3 x
    let moved := decide (x < 2 ^ 56) && q.1 != x
    g.pend[n]? = some e → e.sweep = some r → e.access = none → e.fault = none → g.resident = true →
    (s.team g.team).preempt = false →
    (r.left = 0 → ∃ t e', exec (.resultReturn k n) s = .next t ∧ (t.group k).pend[n]? = some e' ∧ e'.held = false ∧
      e'.sweep = none ∧ e'.writes = e.writes.map (fun w => (w.1, some (BitVec.ofNat 64 ((if r.chain then 2 ^ 63 else 0) +
        (if r.trunc then 2 ^ 62 else 0) + (if r.poison then 2 ^ 61 else 0) + r.count % 2 ^ 32))))) ∧
    (r.left ≠ 0 → r.next % 8 = 0 → r.reached = none → s.translate g.core g.ctx .rw r.next 8 = (u, .ok pa leaf va hops) →
      v.poisoned pa = false → pa % 128 + 8 ≤ 128 → (s.ctx g.ctx).used = true → (s.ctx g.ctx).isOpen = true →
      (x < 2 ^ 56 → v.inTransit g.ctx q.1 = false) →
      ∃ t e', exec (.resultReturn k n) s = .next t ∧ (t.group k).pend[n]? = some e' ∧
        e'.sweep = some { r with next := r.next + 8, left := r.left - 1, count := r.count + (if moved then 1 else 0),
                                 chain := r.chain || (moved && q.2), reached := none } ∧
        (moved = true → t.ownBytes pa 8 = leBytes 8 q.1) ∧ (moved = false → ∀ a, t.ownByte a = v.ownByte a))) ∧
  (∀ (c : Ctl) (o : Ops) s pc,
    let i := Instr.tmov c o
    let g := s.group s.cur
    let f := g.sreg (Opnd.idx o.a)
    let dest := g.sreg (Opnd.idx o.b)
    IssuesMem s i pc → s.noTx i pc → g.active i pc ≠ [] →
    ∃ t, exec i s = .next t ∧
      (f.toNat % 65536 ≠ 0 ∨ dest.toNat % 65536 ≠ 0 →
        OnlyGroup s t ∧ ∀ m ∈ g.active i pc, ((t.group s.cur).lane m).ParkedAt pc 2 2 0) ∧
      (f.toNat % 65536 = 0 → dest.toNat % 65536 = 0 →
        let st := s.moveStatus g.ctx f.toNat dest.toNat
        (st ≠ 0 → Quiet s t pc ∧ (t.group s.cur).pend = g.pend ++ [scalarEntry pc (s.actors i pc) o.d (BitVec.ofNat 64 st)]) ∧
        (st = 0 → t.moving.length = s.moving.length + 1 ∧ (∀ a, t.ownByte a = s.ownByte a) ∧
          (t.group s.cur).pend = g.pend ++ [moveEntry pc (s.actors i pc) o.d f.toNat])))

/-! ### Control -/

/-- R93, R186, R187: `bra` completes with every active lane at PC + 12n, and `brx` with every active lane at the
address in its register, the other lanes at the minimum past the branch, and no register, flag or byte changed; a lane
of `brx` whose target is not a multiple of 4 parks at the branch with cause 2, detail 1. -/
def Obligations.Branches : Prop :=
  (∀ (c : Ctl) (o : Ops) s pc n, Issues s (.bra c o) pc → o.a = .imm n → pc.toNat % 4 = 0 →
    ∃ t, exec (.bra c o) s = .next t ∧ Jumps s t (.bra c o) pc (fun _ => pc + BitVec.ofInt 64 (12 * n))) ∧
  (∀ (c : Ctl) (o : Ops) s pc,
    let i := Instr.brx c o
    let g := s.group s.cur
    let target := fun l => g.value l o.a 2
    Issues s i pc →
    ((∀ l ∈ g.active i pc, (target l).toNat % 4 = 0) → ∃ t, exec i s = .next t ∧ Jumps s t i pc target) ∧
    (s.noTx i pc → ∃ t, exec i s = .next t ∧ OnlyGroup s t ∧ ∀ l ∈ g.active i pc,
      if (target l).toNat % 4 = 0 then ((t.group s.cur).lane l).pc = target l ∧ ((t.group s.cur).lane l).lst = .running
      else ((t.group s.cur).lane l).ParkedAt pc 2 1 0))

/-- R188 to R190: a call pushes PC + 12 on the lane's return stack and goes to its target, spilling its fifth entry;
with the stack full it parks with cause 9; a return pops the newest entry and goes there, and with an empty stack it
parks with cause 9, detail 1; at a depth over four it refills the oldest entry on chip from the lane's stack segment, and a
fault of that refill is held for the lane's next call or return. -/
def Obligations.CallsAndReturns : Prop :=
  (∀ (i : Instr) (target : Group → W64 → Nat → W64) (o : Ops) (c : Ctl) s pc,
    let g := s.group s.cur
    ((i = .call c o ∧ ∃ n, o.a = .imm n ∧ target = fun _ pc _ => pc + BitVec.ofInt 64 (12 * n)) ∨
      (i = .callx c o ∧ target = fun g _ l => g.value l o.a 2)) →
    IssuesMem s i pc →
    ((∀ l ∈ g.active i pc, (g.lane l).depth < 4 ∧ (g.lane l).refill = none ∧ (target g pc l).toNat % 4 = 0) →
      ∃ t, exec i s = .next t ∧ OnlyGroup s t ∧ ∀ l ∈ g.active i pc,
        ((t.group s.cur).lane l).stack = ((pc + 12) :: (g.lane l).stack).take 4 ∧
        ((t.group s.cur).lane l).depth = (g.lane l).depth + 1 ∧ ((t.group s.cur).lane l).pc = target g pc l ∧
        (g.lane l).SameButStack ((t.group s.cur).lane l)) ∧
    (∀ l u bs, g.active i pc = [l] → 4 ≤ (g.lane l).depth → (g.lane l).depth ≠ 4 + g.segCap → (g.lane l).refill = none →
      (target g pc l).toNat % 4 = 0 → s.stackMoves g .write (g.stackAddr ((g.lane l).depth - 4) l) = false →
      (s.issued i pc).stackAccess s.cur (.store .d64) (g.stackAddr ((g.lane l).depth - 4) l)
        (leBytes 8 ((g.lane l).stack.getD 3 0).toNat) = (u, .ok bs) →
      exec i s = .next (u.modLane s.cur l (fun x => x.pushed (pc + 12) (target g pc l)))) ∧
    (∀ l, g.active i pc = [l] → s.noTx i pc → (g.lane l).depth = 4 + g.segCap → (g.lane l).refill = none →
      (target g pc l).toNat % 4 = 0 → s.stackMoves g .write (g.stackAddr ((g.lane l).depth - 4) l) = false →
      ∃ t, exec i s = .next t ∧ OnlyGroup s t ∧ ((t.group s.cur).lane l).ParkedAt pc 9 0 0)) ∧
  (∀ (c : Ctl) (o : Ops) s pc,
    let i := Instr.ret c o
    let g := s.group s.cur
    IssuesMem s i pc → s.noTx i pc → (∀ l ∈ g.active i pc, (g.lane l).depth ≤ 4 ∧ (g.lane l).refill = none ∧
      ((g.lane l).depth ≠ 0 → ((g.lane l).stack.getD 0 0).toNat % 4 = 0)) →
    ∃ t, exec i s = .next t ∧ OnlyGroup s t ∧ ∀ l ∈ g.active i pc,
      if (g.lane l).depth = 0 then ((t.group s.cur).lane l).ParkedAt pc 9 1 0
      else ((t.group s.cur).lane l).pc = (g.lane l).stack.getD 0 0 ∧
        ((t.group s.cur).lane l).stack = (g.lane l).stack.drop 1 ∧
        ((t.group s.cur).lane l).depth = (g.lane l).depth - 1 ∧ (g.lane l).SameButStack ((t.group s.cur).lane l)) ∧
  (∀ (c : Ctl) (o : Ops) s pc l,
    let i := Instr.ret c o
    let g := s.group s.cur
    let n := g.lane l
    let va := g.stackAddr (n.depth - 5) l
    let found := ((s.issued i pc).translate g.core g.ctx .read va.toNat 8).2
    IssuesMem s i pc → g.active i pc = [l] → 5 ≤ n.depth → n.refill = none → (n.stack.getD 0 0).toNat % 4 = 0 →
    s.stackMoves g .read va = false →
    ∃ t, exec i s = .next t ∧ (∀ k, k ≠ s.cur → t.group k = s.group k) ∧ (t.group s.cur).pend = g.pend ∧
      (t.group s.cur).sregs = g.sregs ∧
      (∀ pa leaf rva hops, found = .ok pa leaf rva hops → s.watchBytes g 0 va.toNat 8 true false = none →
        s.poisoned pa = false → pa % 128 + 8 ≤ 128 →
        { (t.group s.cur).lane l with issued := n.issued } = { n with
          pc := n.stack.getD 0 0
          depth := n.depth - 1
          stack := n.stack.drop 1 ++ [BitVec.ofNat 64 (leNat (s.coreBytes g.core g.ctx pa 8))] }) ∧
      (∀ code, found = .fault code →
        { (t.group s.cur).lane l with issued := n.issued } = { n with
          pc := n.stack.getD 0 0
          depth := n.depth - 1
          stack := n.stack.drop 1
          refill := some (code, stackDetail code va, va) }))

/-- R191, R192, R203: `exit` ends each active lane, `rejoin` stays at its place and asks for handler entry where a
lane is parked outside a handler, `yield` keeps the group from issuing for its count, and `nop` only issues. -/
def Obligations.LaneControl : Prop :=
  (∀ (c : Ctl) (o : Ops) s pc,
    let i := Instr.exit c o
    let g := s.group s.cur
    Issues s i pc → s.noTx i pc →
    ∃ t, exec i s = .next t ∧ OnlyGroup s t ∧ ∀ l, ((t.group s.cur).lane l).v = (g.lane l).v ∧
      ((t.group s.cur).lane l).lst = if l ∈ g.active i pc then .exited else (g.lane l).lst) ∧
  (∀ (c : Ctl) (o : Ops) s pc,
    let i := Instr.rejoin c o
    let g := s.group s.cur
    Issues s i pc → g.active i pc ≠ [] →
    ∃ t, exec i s = .next t ∧ OnlyGroup s t ∧
      if g.tm = true ∨ g.inState .parked = [] then Quiet s t pc
      else (t.group s.cur).rejoin = true ∧ ∀ l ∈ g.active i pc, ((t.group s.cur).lane l).pc = pc) ∧
  (∀ (c : Ctl) (o : Ops) s pc n,
    let i := Instr.yield c o
    Issues s i pc → (s.group s.cur).active i pc ≠ [] → o.a = .imm n →
    ∃ t, exec i s = .next t ∧ Quiet s t pc ∧ (t.group s.cur).yielded = true ∧
      t.partClock (s.group s.cur).part + 1 + n.toNat ≤ (t.group s.cur).stall) ∧
  (∀ (c : Ctl) (o : Ops) s pc, Issues s (.nop c o) pc →
    exec (.nop c o) s = .next (s.issued (.nop c o) pc) ∧ Quiet s (s.issued (.nop c o) pc) pc)

/-- R193, R195, R196: `beq` adds registers and tiles to a domain of each active lane's will, or takes the domain out
of it, and parks a lane whose will has no room with cause 1, detail 5; `estq` enters the status of each lane's estate;
`estdrop` closes the domain and enters the count of its estates. That `estq` tells what stands when it issues, and that
`estdrop` closes its domain then, are the model's choices (log 58); the records of the estates that expire are not stated. -/
def Obligations.Estates : Prop :=
  (∀ (tiles : Nat) (c : Ctl) (o : Ops) s pc n,
    let i := Instr.beq tiles c o
    let g := s.group s.cur
    let d := fun l => domainOf g l o.d
    Issues s i pc → s.noTx i pc → o.b = .imm (n : Nat) → (tiles = 0 ∨ (s.team g.team).holdsAcc = true) →
    ∃ t, exec i s = .next t ∧ OnlyGroup s t ∧ ∀ l ∈ g.active i pc,
      if n = 0 ∧ tiles = 0 then ((t.group s.cur).lane l).will = (g.lane l).will.filter (fun b => b.domain != d l)
      else if ((g.lane l).will.any (fun b => b.domain == d l) = false ∧ 4 ≤ (g.lane l).will.length) ∨
          32 < slotsOf (g.lane l).will (d l) + n then ((t.group s.cur).lane l).ParkedAt pc 1 5 0
      else ((t.group s.cur).lane l).will =
        addBequest (g.lane l).will (d l) ((List.range n).map (fun j => Opnd.idx o.a + j)) tiles) ∧
  (∀ (c : Ctl) (o : Ops) s pc,
    let i := Instr.estq c o
    let g := s.group s.cur
    Issues s i pc →
    ∃ t, exec i s = .next t ∧ Quiet s t pc ∧ (t.group s.cur).pend = g.pend ++ (g.active i pc).map (fun l =>
      { pc := pc
        lane := some l
        lanes := Group.issuedOf ((s.issued i pc).group s.cur) [l]
        writes := [(.vec l (Opnd.idx o.d), some (BitVec.ofNat 64
          (match s.findEstate g.ctx g.inc (domainOf g l o.a) (g.lane l).wid with
            | none => 0
            | some e => 1 + (if 0 < e.rowCount then 2 else 0) + (if e.place = .spill then 4 else 0) +
              (if e.place = .store g.core then 8 else 0))))] })) ∧
  (∀ (c : Ctl) (o : Ops) s pc l,
    let i := Instr.estdrop c o
    let g := s.group s.cur
    let mine := fun (e : Estate) => e.ctx == g.ctx && e.inc == g.inc && e.domain == domainOf g l o.a
    Issues s i pc → (g.active i pc).head? = some l →
    ∃ t, exec i s = .next t ∧ Untouched s t pc ∧
      (t.group s.cur).pend = g.pend ++ [scalarEntry pc (s.actors i pc) o.d (BitVec.ofNat 64 (s.estates.filter mine).length)] ∧
      t.estates.filter mine = [] ∧ t.estates.filter (fun e => !mine e) = s.estates.filter (fun e => !mine e))

/-- R197 to R199, R207, R266, R282, R283: `spawn` faults on a record that is not 64-byte aligned and else releases and
enters its status: 2 where the record cannot be read, holds no code object or breaks a limit, or its queue is not enabled, 1
for a full spawn list, 3 where the tree's counter has no room, and else 0, with TEAMS added to the counter and, unless its
kernel cannot run, the child at the end of the queue's spawn list. Status 1 before 3 is the model's choice (log 27), and so is
when a launch leaves that list. `post` gives the tree's result word its value unless the tree is complete; `sigw` faults on a
target that does not exist, and else signals a queue or places an entry in a firmware mailbox. -/
def Obligations.SpawnPostSignal : Prop :=
  (∀ (c : Ctl) (o : Ops) s pc,
    let i := Instr.spawn c o
    let g := s.group s.cur
    let va := g.sreg (Opnd.idx o.a)
    IssuesMem s i pc → s.noTx i pc → g.active i pc ≠ [] →
    (va.toNat % 64 ≠ 0 → ∃ t, exec i s = .next t ∧ OnlyGroup s t ∧
      ∀ l ∈ g.active i pc, ((t.group s.cur).lane l).ParkedAt pc 2 2 va) ∧
    (∀ u pa leaf rva hops, va.toNat % 64 = 0 →
      (s.issued i pc).translate g.core g.ctx .read va.toNat 64 = (u, .ok pa leaf rva hops) →
      s.watchBytes g 0 va.toNat 64 true false = none →
      let base := (u.endRelaunch g.team).release ((s.issued i pc).group s.cur) .dev
      let root := base.launch g.launch
      let answers := fun (st : Nat) (ok : State → Prop) => ∃ t,
        exec i s = .next (t.push s.cur (scalarEntry pc (s.actors i pc) o.d (BitVec.ofNat 64 st))) ∧ ok t
      (∀ v e, base.devRead g.ctx va.toNat 64 = (v, .error e) → answers 2 (fun t => t = v)) ∧
      (∀ v w r k, base.devRead g.ctx va.toNat 64 = (v, .ok r) →
        v.kernelAt g.ctx (BitVec.ofNat 64 (field r 0 8)) = (w, k) →
        let teams := field r 16 4
        let q := field r 21 1
        let legal := ∃ x, k = some x ∧ (field r 20 1 = 0 ∨ field r 8 8 % 8 = 0) ∧ 1 ≤ teams ∧ teams ≤ 2 ^ 24 ∧
          field r 20 1 = x.nargs ∧ q ≤ 63 ∧ (∀ j, 22 ≤ j → j < 64 → r.getD j 0 = 0) ∧ w.qOn g.ctx q = true
        let full := 4096 ≤ (w.spawnList g.ctx q).length
        let tops := 2 ^ 32 ≤ (base.tree root.tree).count + teams
        (¬legal → answers 2 (fun t => t = w)) ∧ (legal → full → answers 1 (fun t => t = w)) ∧
        (legal → ¬full → tops → answers 3 (fun t => t = w)) ∧
        (∀ x, k = some x → legal → ¬full → ¬tops → answers 0 (fun t => w.refuses x = false →
          let l := t.launch w.launches.next
          t.tree root.tree = { w.tree root.tree with count := (w.tree root.tree).count + teams } ∧
          ((t.ctx g.ctx).queue q).spawns = ((w.ctx g.ctx).queue q).spawns ++ [w.launches.next] ∧
          l.live = true ∧ l.ctx = g.ctx ∧ l.inc = g.inc ∧ l.queue = q ∧ l.tree = root.tree ∧ l.kernel = x ∧
          l.args = BitVec.ofNat 64 (field r 8 8) ∧ l.teams = teams ∧ l.admitted = 0 ∧ l.waiting = false))))) ∧
  (∀ (c : Ctl) (o : Ops) s pc l,
    let i := Instr.post c o
    let g := s.group s.cur
    let k := (s.launch g.launch).tree
    IssuesMem s i pc → (g.active i pc).head? = some l →
    ∃ t, exec i s = .next t ∧ Untouched s t pc ∧
      t.tree k = if (s.tree k).complete then s.tree k else { s.tree k with result := g.value l o.a 2 }) ∧
  (∀ (c : Ctl) (o : Ops) s pc l,
    let i := Instr.sigw c o
    let g := s.group s.cur
    let target := (g.value l o.a 2).toNat
    IssuesMem s i pc → s.noTx i pc → (g.active i pc).head? = some l →
    ∃ t, exec i s = .next t ∧
      if 1 < target / 256 ∨ (if target / 256 = 0 then 63 else 7) < target % 256 then
        OnlyGroup s t ∧ ∀ m ∈ g.active i pc, ((t.group s.cur).lane m).ParkedAt pc 5 3 0
      else Untouched s t pc ∧
        let r := ((s.issued i pc).endRelaunch g.team).release ((s.issued i pc).group s.cur) .dev
        if target / 256 = 0 then t = r.wake g.ctx (target % 256) (g.value l o.b 2)
        else t = r.post (target % 256) { value := g.value l o.b 2, ctx := g.ctx, inc := g.inc, kind := 0, group := s.cur })

/-- R200: `bar` with the rest of the team at the barrier or ended completes it: its group and every group that waits
go on past their barriers, with no arrival left; else the group waits at the barrier, and is counted. No register or
flag changes. -/
def Obligations.TeamBarrier : Prop :=
  ∀ (c : Ctl) (o : Ops) s pc,
    let i := Instr.bar c o
    let g := s.group s.cur
    let tm := s.team g.team
    let same := fun (t : State) (k : Nat) => (t.group k).pend = (s.group k).pend ∧ (t.group k).sregs = (s.group k).sregs ∧
      (t.group k).gsw = (s.group k).gsw ∧
      ∀ l, ((t.group k).lane l).v = ((s.group k).lane l).v ∧ ((t.group k).lane l).p = ((s.group k).lane l).p ∧
        ((t.group k).lane l).lst = ((s.group k).lane l).lst
    IssuesMem s i pc → g.active i pc ≠ [] → s.cur ∉ tm.arrived →
    ((∀ k ∈ tm.groups, k = s.cur ∨ k ∈ tm.arrived ∨ (s.group k).ended = true) →
      ∃ t, exec i s = .next t ∧ (∀ k, same t k) ∧ (t.team g.team).arrived = [] ∧ (t.group s.cur).wait = .none ∧
        (∀ l ∈ g.atMin pc, ((t.group s.cur).lane l).pc = pc + 12) ∧
        ∀ k ∈ tm.arrived, ∀ lanes, (s.group k).wait = .bar lanes → lanes.Nodup →
          (t.group k).wait = .none ∧ ∀ l ∈ lanes, ((s.group k).lane l).lst = .running →
            ((t.group k).lane l).pc = ((s.group k).lane l).pc + 12) ∧
    ((∃ k ∈ tm.groups, k ≠ s.cur ∧ k ∉ tm.arrived ∧ (s.group k).ended = false) →
      ∃ t, exec i s = .next t ∧ (∀ k, same t k) ∧ (t.team g.team).arrived = tm.arrived ++ [s.cur] ∧
        (t.group s.cur).wait = .bar (g.atMin pc) ∧ (∀ l ∈ g.atMin pc, ((t.group s.cur).lane l).pc = pc) ∧
        ∀ k, k ≠ s.cur → t.group k = s.group k)

/-- R68, R69, R201, R202: a donation that cannot match gives status 3 at once and one that can waits; when two
donations meet, both take status 0, 1 or 2 by the rule, and under 0 the donor's top registers become the heir's next
ones; `ralloc` refuses a number that is not a legal allocation, and else keeps the registers below it and frees the
rest. -/
def Obligations.RegisterDonation : Prop :=
  (∀ (give : Bool) (i : Instr) (c : Ctl) (o : Ops) s pc l,
    let g := s.group s.cur
    let dest := (g.value l o.a 2).toNat
    let k := (g.value l o.b 2).toNat
    i = (if give then .donateGive c o else .donateTake c o) → Issues s i pc → (g.active i pc).head? = some l →
    ∃ t, exec i s = .next t ∧ OnlyGroup s t ∧
      (∀ m, ((t.group s.cur).lane m).v = (g.lane m).v ∧ ((t.group s.cur).lane m).p = (g.lane m).p) ∧
      if dest = g.gid ∨ s.partner g.team dest = none ∨ k < 1 ∨ 31 < k then
        (t.group s.cur).sreg (Opnd.idx o.d) = 3 ∧ Advanced s t pc
      else (t.group s.cur).wait = .donate give (Opnd.idx o.d) dest k (g.atMin pc) ∧
        (t.group s.cur).sregs = g.sregs ∧ ∀ m ∈ g.atMin pc, ((t.group s.cur).lane m).pc = pc) ∧
  (∀ (a b : Nat) (s : State) giveA giveB da db destA destB ka kb la lb,
    let donor := if giveA then a else b
    let heir := if giveA then b else a
    let st := if giveA = giveB ∨ ka ≠ kb then 2
      else if (s.group donor).alloc < 8 * ka + 8 ∨ (s.group heir).regs < (s.group heir).alloc + 8 * ka then 1 else 0
    a ≠ b → (s.group a).wait = .donate giveA da destA ka la → (s.group b).wait = .donate giveB db destB kb lb →
    s.partner (s.group a).team destA = some b → destB = (s.group a).gid →
    (s.group a).pend = [] → (s.group b).pend = [] → (s.group a).resident = true → (s.group b).resident = true →
    ∃ t, exec (.donationRendezvous a) s = .next t ∧ (t.group a).sreg da = BitVec.ofNat 64 st ∧
      (t.group b).sreg db = BitVec.ofNat 64 st ∧ (t.group a).wait = .none ∧ (t.group b).wait = .none ∧
      if st = 0 then
        (t.group donor).alloc = (s.group donor).alloc - 8 * ka ∧ (t.group heir).alloc = (s.group heir).alloc + 8 * ka ∧
        ∀ l < (s.group heir).width, ∀ j < 8 * ka, ((t.group heir).lane l).vreg ((s.group heir).alloc + j) =
          ((s.group donor).lane l).vreg ((s.group donor).alloc - 8 * ka + j)
      else (t.group a).alloc = (s.group a).alloc ∧ (t.group b).alloc = (s.group b).alloc) ∧
  (∀ (c : Ctl) (o : Ops) s pc l,
    let i := Instr.ralloc c o
    let g := s.group s.cur
    let n := (g.value l o.a 2).toNat
    Issues s i pc → (g.active i pc).head? = some l → g.pendingFrom n = false →
    ∃ t, exec i s = .next t ∧ (∀ k, k ≠ s.cur → t.group k = s.group k) ∧
      if n % 8 ≠ 0 ∨ n < 8 ∨ g.regs < n then
        (t.group s.cur).sreg (Opnd.idx o.d) = 1 ∧ (t.group s.cur).alloc = g.alloc
      else (t.group s.cur).sreg (Opnd.idx o.d) = 0 ∧ (t.group s.cur).alloc = n ∧
        ∀ m < g.width, ∀ r, ((t.group s.cur).lane m).vreg r =
          if r < n ∧ r < g.alloc then (g.lane m).vreg r else 0)

/-! ### Traps, services and special registers -/

/-- R204, R328, R329: `trap n` parks each active lane at its place with cause 8 and detail `0x80` + n; at handler
entry every lane that has not exited runs at the context's HANDLER with `s62` at the frame, TM set, and the lanes' PCs
and states kept for the return; a fault in the handler is a kill of the context for reason 3. -/
def Obligations.TrapEntry : Prop :=
  (∀ (c : Ctl) (o : Ops) s pc n,
    let i := Instr.trap c o
    let g := s.group s.cur
    Issues s i pc → s.noTx i pc → o.a = .imm (n : Nat) →
    ∃ t, exec i s = .next t ∧ OnlyGroup s t ∧ (t.group s.cur).pend = g.pend ∧ (t.group s.cur).sregs = g.sregs ∧
      ∀ l, ((t.group s.cur).lane l).v = (g.lane l).v ∧ ((t.group s.cur).lane l).p = (g.lane l).p ∧
        (l ∈ g.active i pc → ((t.group s.cur).lane l).ParkedAt pc 8 (0x80 + n) 0) ∧
        (l ∉ g.atMin pc → (t.group s.cur).lane l = g.lane l)) ∧
  (∀ (k : Nat) (s : State),
    let g := s.group k
    g.wantsHandler = true → g.pend = [] → s.current g = true → (s.part g.part).stopped = false →
    s.rangeMoves g.ctx g.frame.toNat (64 + 32 * g.width) = false →
    ∃ t, exec (.handlerEntry k) s = .next t ∧
      (g.tm = true → (t.ctx g.ctx).kills.getLast? = some ⟨3, BitVec.ofNat 32 g.causeImage⟩ ∧ (t.group k).wait = .killed) ∧
      (g.tm = false → (s.ctx g.ctx).handler = 0 → t = s.failTeam g.team g.causeImage) ∧
      (∀ u, g.tm = false → (s.ctx g.ctx).handler ≠ 0 →
        s.groupStore k g.frame.toNat (g.trapFrame (if g.rejoin then 2 else 1)) = (u, true) →
        (t.group k).tm = true ∧ (t.group k).sreg 62 = g.frame ∧
        (t.group k).handler = some ((List.range g.width).map (fun l => ((g.lane l).pc, (g.lane l).lst))) ∧
        ∀ l < g.width, if (g.lane l).lst = .exited then (t.group k).lane l = g.lane l
          else ((t.group k).lane l).lst = .running ∧ ((t.group k).lane l).pc = (s.ctx g.ctx).handler))

/-- R40, R205: a return from the handler gives every lane that has not exited its state and PC of entry, a parked lane
running at its instruction (`tret`), past it (`tret.skip`) or exited (`tret.exit`), and clears TM; outside a handler
the lanes at the minimum park with cause 1, detail 7. -/
def Obligations.HandlerReturn : Prop :=
  ∀ (how : Resume) (i : Instr) (c : Ctl) (o : Ops) s pc,
    let g := s.group s.cur
    let after := fun l => ((s.issued i pc).group s.cur).lane l
    i = (match how with
      | .replay => .tret c o
      | .skip => .tretSkip c o
      | .exit => .tretExit c o) →
    Issues s i pc → g.active i pc ≠ [] →
    ∃ t, exec i s = .next t ∧ OnlyGroup s t ∧
      match g.handler with
      | none => ∀ l ∈ g.atMin pc, ((t.group s.cur).lane l).ParkedAt pc 1 7 0
      | some img => (t.group s.cur).tm = false ∧ (t.group s.cur).handler = none ∧ ∀ l p, img[l]? = some p →
          ((t.group s.cur).lane l).v = (g.lane l).v ∧
          if (g.lane l).lst = .exited then (t.group s.cur).lane l = after l
          else (((t.group s.cur).lane l).lst, ((t.group s.cur).lane l).pc) =
            match p.2, how with
            | .parked, .replay => (.running, p.1)
            | .parked, .skip => (.running, p.1 + 12)
            | .parked, .exit => (.exited, p.1)
            | .waiting, _ => (.running, p.1)
            | st, _ => (st, p.1)

/-- R206, R291: `sys` enters a request in the lowest free slot of the call ring and waits for its reply, or waits to
try again when no slot is free; the reply's words reach D of the lanes that asked, and free the slot. That STATE is a word of
32 bits, and that a faulting write of its 0 keeps the slot, are the model's readings (log 28), and the kind of a logged error
its choice (log 37). -/
def Obligations.CallsOut : Prop :=
  (∀ (c : Ctl) (o : Ops) s pc n,
    let i := Instr.sys c o
    let g := s.group s.cur
    let act := g.active i pc
    let req := act.map (fun l => g.value l o.a 2)
    let w := (s.issued i pc).endRelaunch g.team
    IssuesMem s i pc → s.noTx i pc → act ≠ [] → o.b = .imm (n : Nat) →
    ∃ t, exec i s = .next t ∧
      ((s.ctx g.ctx).freeSlot = none → Untouched s t pc ∧ (t.group s.cur).pend = g.pend ∧
        (t.group s.cur).wait = .callRing pc n (Opnd.idx o.d) req act) ∧
      (∀ slot u v, (s.ctx g.ctx).freeSlot = some slot →
        w.devWrite g.ctx (s.slotVa g.ctx slot) (callRecord g (s.team g.team).num pc n act req) = (u, .ok ()) →
        u.devWrite g.ctx (u.slotVa g.ctx slot + 640) (leBytes 4 1) = (v, .ok ()) →
        (t.group s.cur).wait = .sys slot (Opnd.idx o.d) act ∧
        (t.ctx g.ctx).slot slot =
          { used := true, group := s.cur, inc := g.inc, svc := n, act := act, d := Opnd.idx o.d, req := req })) ∧
  (∀ (ctx slot : Nat) (s u v : State) st bs,
    let c := (s.ctx ctx).slot slot
    c.used = true → c.freeing = false → (s.ctx ctx).isOpen = true → c.inc = (s.ctx ctx).inc →
    (s.group c.group).resident = true →
    s.devRead ctx (s.slotVa ctx slot + 640) 4 = (u, .ok st) → leNat st = 2 →
    u.devRead ctx (u.slotVa ctx slot + 768) (4 * (u.group c.group).width) = (v, .ok bs) → c.act.Nodup →
    (∀ w, v.devWrite ctx (v.slotVa ctx slot + 640) (leBytes 4 0) = (w, .ok ()) →
      ∃ t, exec (.sysReply ctx slot) s = .next t ∧ (t.group c.group).wait = .none ∧
        ((t.ctx ctx).slot slot).used = false ∧
        ∀ l ∈ c.act, ((t.group c.group).lane l).vreg c.d = BitVec.ofNat 32 (field bs (4 * l) 4)) ∧
    (∀ w e, v.devWrite ctx (v.slotVa ctx slot + 640) (leBytes 4 0) = (w, .error e) →
      exec (.sysReply ctx slot) s = .next (w.logError 2 ctx))) ∧
  (∀ (k : Nat) (s : State),
    (∀ pc svc d req act, (s.group k).wait = .callRing pc svc d req act → (s.ctx (s.group k).ctx).freeSlot ≠ none →
      exec (.callRingRetry k) s = .next (s.sysEnter k pc svc d req act)) ∧
    (∀ slot d act w ws, (s.group k).wait = .sys slot d act → ((s.ctx (s.group k).ctx).slot slot).hold = w :: ws →
      exec (.callRingRetry k) s = .next (s.reply (s.group k).ctx slot (w :: ws))))

/-- R59 to R62, R208 to R210, R388: `mfsr` gives each special register's value; `mtsr` of `$gsw` takes TM and HC and
clears the sticky flags whose bits are written with 1, and of `$cause` takes DETAIL and CODE; `snap` latches a
snapshot when it is enabled for the context. That `$cyc` goes on by a free number of cycles (logs 4 and 6), and that every
core latches a snapshot in one step (log 29), are the model's choices. -/
def Obligations.SpecialRegisters : Prop :=
  (∀ (c : Ctl) (o : Ops) s pc n sub,
    let i := Instr.mfsr c o
    let g := s.group s.cur
    let act := g.active i pc
    let wide := if n = 5 ∨ n = 8 ∨ n = 10 ∨ 12 ≤ n then 2 else 1
    Issues s i pc → o.a = .sp n sub → n ≠ 14 →
    ∃ t, exec i s = .next t ∧ OnlyGroup s t ∧ (t.group s.cur).gsw = g.gsw ∧
      (∀ l, ((t.group s.cur).lane l).p = (g.lane l).p) ∧
      (∀ l r, ¬(l ∈ act ∧ Opnd.covers o.d wide r) → ((t.group s.cur).lane l).vreg r = (g.lane l).vreg r) ∧
      (∀ r, ¬(act ≠ [] ∧ o.d = .s r) → (t.group s.cur).sreg r = g.sreg r) ∧
      ∀ l ∈ Opnd.lanes o.d act,
        let m := if o.d.isSca ∧ 128 ≤ sub then sub - 128 else l
        let x := g.lane m
        let k := if sub < 128 then sub else 0
        (t.group s.cur).dval o.d wide l % 2 ^ (32 * wide) = (match n with
          | 0 => m
          | 1 => g.gid
          | 2 => (s.team g.team).num
          | 3 => g.core % 32
          | 4 => g.die
          | 5 => x.wid.toNat
          | 6 => (x.heir.getD k (0, 0)).1.toNat
          | 7 => (x.heir.getD k (0, 0)).2.toNat
          | 8 => (if m ∈ g.atMin pc then pc else x.pc).toNat
          | 9 => x.lst.code
          | 10 => (g.gsw ||| (BitVec.ofNat 64 g.csum <<< 28)).toNat
          | 11 => x.cause.toNat
          | 12 => g.ctx
          | 13 => g.inc
          | _ => (s.core g.core).grant * 2 ^ 24 + (s.core g.core).avail * 2 ^ 8 + (s.core g.core).credit) % 2 ^ (32 * wide)) ∧
  (∀ (c : Ctl) (o : Ops) s pc d,
    let i := Instr.mfsr c o
    let g := s.group s.cur
    Issues s i pc → (g.active i pc) ≠ [] → o.a = .sp 14 0 → o.d = .s d →
    ∃ t, exec i s = .next t ∧ (t.group s.cur).sreg d = (t.core g.core).cyc ∧
      (t.core g.core).cyc = (s.core g.core).cyc + BitVec.ofNat 64 (Config.cycles s.free)) ∧
  (∀ (c : Ctl) (o : Ops) s pc n,
    let i := Instr.mtsr c o
    let g := s.group s.cur
    Issues s i pc → o.d = .sp n 0 →
    ∃ t, exec i s = .next t ∧ OnlyGroup s t ∧ (t.group s.cur).sregs = g.sregs ∧
      (∀ l, ((t.group s.cur).lane l).v = (g.lane l).v) ∧
      (∀ l, n = 10 → (g.active i pc).head? = some l → ∀ k < 64, (t.group s.cur).gsw.getLsbD k =
        if k = 23 ∨ k = 21 then (g.value l o.a 2).getLsbD k
        else if k < 7 then g.gsw.getLsbD k && !(g.value l o.a 2).getLsbD k
        else g.gsw.getLsbD k) ∧
      (n = 11 → (t.group s.cur).gsw = g.gsw ∧ ∀ l, ∀ k < 32, ((t.group s.cur).lane l).cause.getLsbD k =
        if l ∈ g.active i pc ∧ k < 12 then (g.value l o.a 1).getLsbD k else (g.lane l).cause.getLsbD k)) ∧
  (∀ (c : Ctl) (o : Ops) s pc n,
    let i := Instr.snap c o
    let g := s.group s.cur
    Issues s i pc → g.active i pc ≠ [] → o.a = .imm (n : Nat) →
    ∃ t, exec i s = .next t ∧ (∀ k, k ≠ s.cur → t.group k = s.group k) ∧
      ((s.ctx g.ctx).snapOn = false → Quiet s t pc) ∧
      ((s.ctx g.ctx).snapOn = true → s.ssn ≤ 1 → t.ssn = s.ssn + 1 ∧
        ∀ core < 256, (t.snaps.get Snap.none core).ssn = s.ssn ∧ (t.snaps.get Snap.none core).tag = n ∧
          (t.snaps.get Snap.none core).src = 3))


/-! ### The matrix array and the accumulators -/

/-- R50, R63, R67, R213, R216 to R220: `mma` and `mmq` update every word of the rows that active lanes own from the A
registers of the lane, the B block in local memory and the word's old value, draw their array cycles, and change
nothing else; refused their draw, the group waits; a B block that is misaligned or not wholly in local memory parks the active
lanes. That the rows and the A latch take their values when the instruction issues is the model's reading (log 32). -/
def Obligations.MatrixMultiply : Prop :=
  (∀ (blk : Nat) (f : MmaFmt) (c : Ctl) (o : Ops),
    let k := f.depth
    let bits := elemBits (mmaFp f)
    ArrayGives (.mma blk f c o) 32 (fun g => mmaBlock g.width f) k bits
      (fun g => (g.sreg (Opnd.idx o.b)).toNat + blk * (16 * bits * k))
      (fun _ b regs rho col old =>
        let ps := (List.range k).map (fun j =>
          (aElem regs f.slot (k * f.slot / 32) bits rho j, packed bits (b.getD j 0) col))
        if f = .s8 then mmaInt (ps.map (fun p => (IntTy.val .s8 p.1, IntTy.val .s8 p.2))) old
        else mmaElem (ps.map (fun p => (elemVal (mmaFp f) p.1, elemVal (mmaFp f) p.2))) old)) ∧
  (∀ (q8 : Bool) (f : ActFmt) (q : QGroup) (c : Ctl) (o : Ops),
    let bits := if q8 then 8 else 4
    ArrayGives (.mmq q8 f q c o) (if q8 then q.size / 2 else q.size / 4) (fun g => mmqBlock g.width f q) q.size bits
      (fun g => (g.sreg (Sub.num (Opnd.sub o.a))).toNat)
      (fun g b regs rho col old =>
        let e := g.scaleEntry (Opnd.idx o.b) (Sub.num (Opnd.sub o.b)) col
        mmqElem ((List.range q.size).map (fun j =>
            (elemVal (actFp f) (aElem regs f.slot (q.size * f.slot / 32) (elemBits (actFp f)) rho j),
              factor (packed bits (b.getD j 0) col) (zeroPoint q8 e))))
          (FVal.ofBits .f16 (e % 65536)) old))

/-- R85 to R89: an element of a floating multiply takes its chunks of eight products in order: each adds the rounded
exact sum of the chunk to the word and rounds again, with OF for an overflow of either and NV for opposed infinities, a
NaN stays, and an invalid event of the chunk gives the NaN of its cause. An integer element adds each exact chunk sum and
clamps to 32 bits, with ASAT where it clamps, so that one whose running sums stay in range is the exact sum with no flag.
An element of a multiply whose old word is a NaN is the NaN of cause 1 with no NV; a NaN product, opposed infinities and
zero times infinity give the NaN of their cause, with NV for the last two; a quantised element of ordinary values is the old word
plus the rounded product of the exact sum and the scale, and an exact sum of zeros is -0 only when every term is. -/
def Obligations.ArrayElements : Prop :=
  (∀ (ps : List (Int × Int)) (old : Nat),
    let part := fun c => IntTy.val .s32 old + ((ps.take (8 * c)).map (fun p => p.1 * p.2)).sum
    (∀ c ≤ ps.length / 8, -2147483648 ≤ part c ∧ part c ≤ 2147483647) →
    mmaInt ps old = ⟨(part (ps.length / 8) % (2 ^ 32 : Nat)).toNat, {}⟩) ∧
  (∀ (ps ch : List (Int × Int)) (old : Nat), ps.length % 8 = 0 → ch.length = 8 →
    let r := mmaInt ps old
    let v := IntTy.val .s32 r.bits + (ch.map (fun p => p.1 * p.2)).sum
    mmaInt (ps ++ ch) old = ⟨(max (-2147483648) (min 2147483647 v) % (2 ^ 32 : Nat)).toNat,
      { asat := r.flags.asat || decide (v < -2147483648) || decide (2147483647 < v) }⟩) ∧
  (∀ old : Nat, mmaElem [] old = ⟨if (FVal.ofBits .f32 old).isNan then FpFmt.f32.nan 1 else old, {}⟩) ∧
  (∀ (ps ch : List (FVal × FVal)) (old : Nat), ps.length % 8 = 0 → ch.length = 8 →
    let r := mmaElem ps old
    let q := mmaElem (ps ++ ch) old
    let cause := firstEvent [] ch
    ((FVal.ofBits .f32 r.bits).isNan = true → q.bits = r.bits ∧ q.flags.nv = r.flags.nv) ∧
    ((FVal.ofBits .f32 r.bits).isNan = false → cause ≠ 0 →
      q.bits = FpFmt.f32.nan cause ∧ q.flags.nv = (r.flags.nv || decide (3 ≤ cause)) ∧ q.flags.ov = r.flags.ov) ∧
    ((FVal.ofBits .f32 r.bits).isNan = false → cause = 0 →
      ∃ t a, SumRounds .f32 .rn false (ch.map (fun p => p.1.mul p.2)) t ∧
        SumOf .f32 .rn false [FVal.ofBits .f32 r.bits, FVal.ofBits .f32 t.bits] a ∧ q.bits = a.bits ∧
        q.flags = { nv := r.flags.nv || a.flags.nv, ov := r.flags.ov || t.flags.ov || a.flags.ov })) ∧
  (∀ (ps : List (FVal × FVal)) (old : Nat), (FVal.ofBits .f32 old).isNan = true →
    (mmaElem ps old).bits = FpFmt.f32.nan 1 ∧ (mmaElem ps old).flags.nv = false ∧
    ∀ scale, (mmqElem ps scale old).bits = FpFmt.f32.nan 1 ∧ (mmqElem ps scale old).flags.nv = false) ∧
  (∀ (ps : List (FVal × FVal)) (old : Nat) (scale : FVal), (FVal.ofBits .f32 old).isNan = false →
    firstEvent [] ps ≠ 0 →
    mmqElem ps scale old = ⟨FpFmt.f32.nan (firstEvent [] ps), { nv := decide (3 ≤ firstEvent [] ps) }⟩ ∧
    (ps.length = 8 →
      mmaElem ps old = ⟨FpFmt.f32.nan (firstEvent [] ps), { nv := decide (3 ≤ firstEvent [] ps) }⟩)) ∧
  (∀ (ps : List (FVal × FVal)) (old : Nat) (scale : FVal), (FVal.ofBits .f32 old).isNan = false →
    mmqCause ps scale = 0 →
    ∃ p q, SumRounds .f32 .rn false [(exactSum (ps.map (fun p => p.1.mul p.2))).mul scale] p ∧
      SumOf .f32 .rn false [FVal.ofBits .f32 old, FVal.ofBits .f32 p.bits] q ∧
      (mmqElem ps scale old).bits = q.bits ∧ (mmqElem ps scale old).flags.ov = (p.flags.ov || q.flags.ov) ∧
      (mmqElem ps scale old).flags.nv = q.flags.nv) ∧
  (∀ ts : List FVal, (∀ t ∈ ts, ∃ neg m e, t = .fin neg m e) →
    (exactSum ts).rat = (ts.map FVal.rat).sum ∧
    ((exactSum ts).rat = 0 → ((exactSum ts).sign = true ↔ ∀ t ∈ ts, t.isZero = true ∧ t.sign = true)))

/-- R221, R222: `mlda` enters each active lane's registers from local memory; `ald` and `aclr` give the named rows
that active lanes own the words of local memory and zero; `ast` writes those rows' words to local memory and no other
byte; a misaligned address parks the active lanes of each with cause 2, and bytes of a lane beyond the team's local memory
park that lane with cause 5; a word read from a row is the word there, or one that another group's unfinished update
found. That the rows of `ald` and `aclr` take their words when the instruction issues is the model's reading (log 32). -/
def Obligations.AccumulatorRows : Prop :=
  (∀ (n : RowW) (c : Ctl) (o : Ops) s pc,
    let i := Instr.mlda n c o
    let g := s.group s.cur
    let tm := s.team g.team
    let base := (g.sreg (Opnd.idx o.a)).toNat
    let regs := mldaBlock g.width n
    let at_ := fun l => base + l * (4 * regs)
    IssuesMem s i pc →
    (base % 16 ≠ 0 → s.noTx i pc → ∃ t, exec i s = .next t ∧ OnlyGroup s t ∧
      ∀ l ∈ g.active i pc, ((t.group s.cur).lane l).ParkedAt pc 2 2 0) ∧
    (base % 16 = 0 → s.noTx i pc → ∃ t, exec i s = .next t ∧
      ∀ l ∈ g.active i pc, tm.locLen < at_ l + 4 * regs → ((t.group s.cur).lane l).ParkedAt pc 5 2 0) ∧
    (base % 16 = 0 → (∀ l ∈ g.active i pc, at_ l + 4 * regs ≤ tm.locLen ∧
        s.watchBytes g 1 (at_ l) (4 * regs) true false = none) →
      ∃ t, exec i s = .next t ∧ Quiet s t pc ∧
        (t.group s.cur).pend = g.pend ++ (g.active i pc).map (fun l =>
          { pc := pc
            lane := some l
            lanes := Group.issuedOf ((s.issued i pc).group s.cur) [l]
            writes := (List.range regs).map (fun j => (PUnit.vec l (Opnd.idx o.d + j),
              some (BitVec.ofNat 64 (leNat (tm.locBytes (at_ l + 4 * j) 4))))) }))) ∧
  (∀ (c : Ctl) (o : Ops) s pc,
    let i := Instr.ald c o
    let g := s.group s.cur
    let tm := s.team g.team
    let base := (g.sreg (Opnd.idx o.a)).toNat
    IssuesMem s i pc → base % 16 = 0 →
    (∀ l ∈ g.active i pc, laneRows g.width l o.d ≠ [] → rowsEnd g.width base l o.d ≤ tm.locLen ∧
      s.watchBytes g 1 (rowsStart g.width base l o.d) (rowsEnd g.width base l o.d - rowsStart g.width base l o.d)
        true false = none ∧
      s.watchMine g (Opnd.idx o.d) (laneRows g.width l o.d) false true = none) →
    ∃ t, exec i s = .next t ∧ RowsTake s t pc (s.core g.core) (Opnd.idx o.d) (NamedBy g.width (g.active i pc) o.d)
      (fun m n => BitVec.ofNat 32 (leNat (tm.locBytes (base + (m - (namedRows o.d).1) * 512 + 4 * n) 4)))
      (fun _ => False)) ∧
  (∀ (fe : StoreFe) (c : Ctl) (o : Ops) s pc,
    let i := Instr.ast fe c o
    let g := s.group s.cur
    let tm := s.team g.team
    let base := (g.sreg (Opnd.idx o.a)).toNat
    let at_ := fun m => base + (m - (namedRows o.d).1) * 512
    let mine := NamedBy g.width (g.active i pc) o.d
    IssuesMem s i pc → base % 16 = 0 →
    (∀ l ∈ g.active i pc, laneRows g.width l o.d ≠ [] → rowsEnd g.width base l o.d ≤ tm.locLen ∧
      s.watchBytes g 1 (rowsStart g.width base l o.d) (rowsEnd g.width base l o.d - rowsStart g.width base l o.d)
        false true = none ∧
      s.watchMine g (Opnd.idx o.d) (laneRows g.width l o.d) true false = none) →
    ∃ t, exec i s = .next t ∧ (t.group s.cur).pend = g.pend ∧ t.cores = s.cores ∧
      (∀ l, ((t.group s.cur).lane l).v = (g.lane l).v ∧ ((t.group s.cur).lane l).p = (g.lane l).p) ∧
      (t.group s.cur).sregs = g.sregs ∧ (t.group s.cur).gsw = g.gsw ∧
      (∀ l ∈ g.atMin pc, ((t.group s.cur).lane l).pc = pc + 12) ∧
      (∀ m, mine m → ∀ n < 128, leNat ((t.team g.team).locBytes (at_ m + 4 * n) 4) =
        ((s.readRow s.cur g.core (Opnd.idx o.d) m).getD n 0).toNat) ∧
      (∀ b, (∀ m, mine m → b < at_ m ∨ at_ m + 512 ≤ b) → (t.team g.team).locByte b = tm.locByte b) ∧
      (∀ gr, let hit := ∃ m, mine m ∧ at_ m / 16 ≤ gr ∧ gr < at_ m / 16 + 32
        (fe ≠ .plain → hit → (t.team g.team).isFull gr = decide (fe = .sf)) ∧
        (fe = .plain ∨ ¬hit → (t.team g.team).isFull gr = tm.isFull gr))) ∧
  (∀ (c : Ctl) (o : Ops) s pc,
    let i := Instr.aclr c o
    let g := s.group s.cur
    IssuesMem s i pc →
    (∀ l ∈ g.active i pc, s.watchMine g (Opnd.idx o.d) (laneRows g.width l o.d) false true = none) →
    ∃ t, exec i s = .next t ∧ RowsTake s t pc (s.core g.core) (Opnd.idx o.d) (NamedBy g.width (g.active i pc) o.d)
      (fun _ _ => 0) (fun _ => False)) ∧
  (∀ (i : Instr) (fe : StoreFe) (c : Ctl) (o : Ops) s pc, i = .ald c o ∨ i = .ast fe c o →
    let g := s.group s.cur
    let base := (g.sreg (Opnd.idx o.a)).toNat
    IssuesMem s i pc → s.noTx i pc →
    (base % 16 ≠ 0 → ∃ t, exec i s = .next t ∧ OnlyGroup s t ∧
      ∀ l ∈ g.active i pc, ((t.group s.cur).lane l).ParkedAt pc 2 2 0) ∧
    (base % 16 = 0 → ∃ t, exec i s = .next t ∧
      ∀ l ∈ g.active i pc, laneRows g.width l o.d ≠ [] → (s.team g.team).locLen < rowsEnd g.width base l o.d →
        ((t.group s.cur).lane l).ParkedAt pc 5 2 0)) ∧
  (∀ (s : State) (k core tile m : Nat),
    let now := (s.core core).accRow tile m
    (∀ p ∈ s.groups, p.1 ≠ k → p.2.core = core → ∀ e ∈ p.2.pend, ∀ r ∈ e.old, r.1 ≠ accKey tile m) →
      s.readRow k core tile m = now) ∧
  (∀ (s : State) (k core tile m n : Nat), n < 128 →
    let w := (s.readRow k core tile m).getD n 0
    w = ((s.core core).accRow tile m).getD n 0 ∨
      ∃ p ∈ s.groups, p.1 ≠ k ∧ p.2.core = core ∧ ∃ e ∈ p.2.pend, ∃ r ∈ e.old, r.1 = accKey tile m ∧ w = r.2.getD n 0)

/-! ### Copy engines and stage rings -/

/-- R223, R225 to R233: `drain`, `cpin`, `cpout` and `gath` join their core's queue with their operands, their record,
and, for `drain`, the rows of its tile, once the record passes every check; else the lanes park with the lowest cause
that applies. The oldest command that no older one of its context and no tile in transit holds back completes: it leaves
the queue, sets its SIGNAL granule to its count and cause, and makes groups that found the queue full ready. Row by row,
`cpin` and `gath` give each element of the local box the tensor's element at its coordinates, and zero, or under KEEP the
old one, to an element that is clipped, and `cpout` and `drain` give each element of the tensor that is not clipped the
box's or the tile's element, or under MODE add the rounded sum with the old one. That faults come before a full queue, that a
command runs in one step, and that a cached record is used (log 33), the details of a fetch's causes, its cause 5 before
that of a local range, and a SIGNAL field that is looked at only where it is enabled (log 22), are the model's choices. -/
def Obligations.EngineCommands : Prop :=
  (∀ (c : Ctl) (o : Ops), CommandJoins (.drain c o) .drain o.d (fun _ => 0)) ∧
  (∀ (c : Ctl) (o : Ops), CommandJoins (.cpin c o) .cpin .none (fun g => (g.sreg (Opnd.idx o.d)).toNat)) ∧
  (∀ (c : Ctl) (o : Ops), CommandJoins (.cpout c o) .cpout .none (fun g => (g.sreg (Opnd.idx o.d)).toNat)) ∧
  (∀ (c : Ctl) (o : Ops), CommandJoins (.gath c o) .gath .none (fun g => (g.sreg (Opnd.idx o.d)).toNat)) ∧
  (∀ (c : Ctl) (o : Ops), CommandFaults (.drain c o) .drain o.d (fun _ => 0) ∧
    CommandFaults (.cpin c o) .cpin .none (fun g => (g.sreg (Opnd.idx o.d)).toNat) ∧
    CommandFaults (.cpout c o) .cpout .none (fun g => (g.sreg (Opnd.idx o.d)).toNat) ∧
    CommandFaults (.gath c o) .gath .none (fun g => (g.sreg (Opnd.idx o.d)).toNat)) ∧
  (∀ (core n : Nat) (s : State) e, s.mayRun core n e → (∀ m < n, ∀ f, ¬s.mayRun core m f) →
    let q := s.engRun core e
    ∃ t, exec (.engineCommandComplete core) s = .next t ∧ (t.core core).queue = (s.core core).queue.eraseIdx n ∧
      (∀ gr, signalOf e.coord = some gr → (t.team e.team).isFull gr = true ∧
        leNat ((t.team e.team).locBytes (16 * gr) 16) = completion q.count q.fail % 2 ^ 128) ∧
      (∀ p ∈ t.groups, p.2.core = core → p.2.wait ≠ .engineQueue) ∧
      ((List.range (recRank e.record)).any (fun d => recExt e.record d == 0) = true → q.count = 0 ∧ q.fail = none ∧
        q.s = s)) ∧
  (∀ (r coord : List Byte) (rows : Option Nat) (list : Option (Nat → Int)) (j : Nat), recRank r = 2 →
    let w := boxRow r rows coord list j
    let c0 := coordOf coord 0
    let x1 := j % boxOf r rows 1
    let c1 : Int := match list with
      | some f => f x1
      | none => coordOf coord 1 + x1
    (0 ≤ c1 ∧ c1 < recExt r 1 → w.bit = 8 * (recBase r + c1 * recStr r 1) + c0 * recBits r ∧
      ∀ x : Nat, (w.lo ≤ x ∧ x < w.hi) ↔ (x < boxOf r rows 0 ∧ 0 ≤ c0 + x ∧ c0 + x < recExt r 0)) ∧
    (¬(0 ≤ c1 ∧ c1 < recExt r 1) → w.lo = w.hi)) ∧
  (∀ (q u : EngRun) (core : Nat) (e : EngCmd) (j : Nat) (w : BoxRow) bs,
    let bits := recBits e.record
    let width := boxOf e.record e.rows 0
    let sh := ((w.bit + (w.lo * bits : Nat)) % 8).toNat
    let len := width * bits / 8
    let r := q.rowIn core e j w
    w.lo ≤ w.hi → w.hi ≤ width → width * bits % 8 = 0 →
    (if w.lo = w.hi then u = q else q.readRow core e w = (u, bs, none)) →
    r.count = q.count + (w.hi - w.lo) ∧ (w.lo < w.hi → r.fail = none) ∧ r.s.mem = u.s.mem ∧
    (∀ x < width, (r.s.team e.team).boxElem e j x =
      if w.lo ≤ x ∧ x < w.hi then getBits (leNat bs) (sh + (x - w.lo) * bits) bits
      else if recKeep e.record then (u.s.team e.team).boxElem e j x else 0) ∧
    ∀ b, (∀ o < len, b ≠ e.loc.toNat + swizzleAt e.record (j * len + o)) →
      (r.s.team e.team).locByte b = (u.s.team e.team).locByte b) ∧
  (∀ (s u : State) (core ctx cpol va n pa : Nat) leaf rva hops, 0 < n → va % 128 + n ≤ 128 → va < 2 ^ 56 →
    s.walk ctx (s.follow ctx 3 va).1 ≠ .absent → s.chase core ctx .read 1 true 3 va = (u, .ok pa leaf rva hops) →
    pa % 128 = va % 128 → (s.ctx ctx).used = true → (s.ctx ctx).isOpen = true → (∀ k < n, s.poisoned (pa + k) = false) →
    ∃ t pages, s.engRead core ctx [] va n cpol =
        (t, pages, (List.range n).map (fun k => s.belowByte (dieOfCore core) ctx (pa + k)), none) ∧
      (s.roomBelow (dieOfCore core) ctx (pa / 128) → ∀ a, t.ownByte a = s.ownByte a)) ∧
  (∀ (q : EngRun) (core : Nat) (e : EngCmd) (j : Nat) (w : BoxRow) u pages pa,
    let bits := recBits e.record
    let b := w.bytes bits w.hi
    let sh := ((w.bit + (w.lo * bits : Nat)) % 8).toNat
    let add := recMode e.record = 1
    let v := (u.endRelaunch e.team).gather core (pa / 128)
    let r := q.rowOut core e none j w
    w.lo < w.hi → w.hi ≤ boxOf e.record e.rows 0 → boxOf e.record e.rows 0 * bits % 8 = 0 → recLocal e.record = false →
    (add → recFmt e.record ≤ 2) → (e.rows ≠ none → recFmt e.record ≤ 2 ∨ recFmt e.record = 10) →
    q.s.engPlaces core e.ctx .write q.pages b.1.toNat b.2 = (u, pages, [(pa, 0, b.2)], none) → pa % 128 + b.2 ≤ 128 →
    (add → u.poisoned pa = false) → u.noRoute pa = false → (u.ctx e.ctx).used = true → (u.ctx e.ctx).isOpen = true →
    r.count = q.count + (w.hi - w.lo) ∧ r.fail = none ∧ ∀ x < w.hi - w.lo,
      let old := getBits (leNat (v.seenBytes e.ctx pa b.2)) (sh + x * bits) bits
      let new := q.s.sourceElem e j (w.lo + x)
      getBits (leNat (r.s.ownBytes pa b.2)) (sh + x * bits) bits =
        if add then (fAdd (addFmt (recFmt e.record)) .rn false old new).bits else new)

/-- R234, R235: a ring instruction whose header is valid acts at once when its stage has come to it, and else waits at its
place; a header that is misaligned, outside local memory or bad, and a stage that is none or in the wrong state, park the active
lanes with causes 2, 5, 3 and 5; `racq` and `rget` take the stage at PI or CI, return its offset and advance the index modulo NST, `rput` sets
its stage full and inverts its phase, and `rrel` frees its stage; a wait that is over acts. -/
def Obligations.StageRings : Prop :=
  (∀ (c : Ctl) (o : Ops), RingActs (.racq c o) 0 ∧ RingActs (.rput c o) 1 ∧ RingActs (.rget c o) 2 ∧
    RingActs (.rrel c o) 3 ∧ RingFaults (.racq c o) 0 ∧ RingFaults (.rput c o) 1 ∧ RingFaults (.rget c o) 2 ∧
    RingFaults (.rrel c o) 3) ∧
  (∀ (k : Nat) (s : State) op d hdr v lanes, (s.group k).wait = .ring op d hdr v lanes →
    ((s.ringStep k).group k).wait = .none ∧
    (((s.ringStep k).team (s.group k).team).header hdr =
      (hdrAct ((s.team (s.group k).team).header hdr) op v).1 % 2 ^ 128) ∧
    ∀ n, d = some n → ((s.ringStep k).group k).sreg n = (hdrAct ((s.team (s.group k).team).header hdr) op v).2) ∧
  (∀ (h loc : Nat) (x : W64) (q : Nat), hdrOk h loc = true → q < hdrNst h →
    let h0 := (hdrAct h 0 x).1
    let h2 := (hdrAct h 2 x).1
    hdrPi h0 = (hdrPi h + 1) % hdrNst h ∧ hdrCi h0 = hdrCi h ∧
    hdrState h0 q = (if q = hdrPi h then 1 else hdrState h q) ∧
    (hdrAct h 0 x).2 = BitVec.ofNat 64 (hdrBase h + hdrPi h * hdrSize h) ∧
    hdrCi h2 = (hdrCi h + 1) % hdrNst h ∧ hdrPi h2 = hdrPi h ∧
    hdrState h2 q = (if q = hdrCi h then 3 else hdrState h q) ∧
    (hdrAct h 2 x).2 = BitVec.ofNat 64 (hdrBase h + hdrCi h * hdrSize h) ∧
    ∀ p, hdrStage h x = some p →
      hdrState (hdrAct h 1 x).1 q = (if q = p then 2 else hdrState h q) ∧
      (hdrAct h 1 x).1.testBit (88 + q) = (h.testBit (88 + q) != decide (q = p)) ∧
      hdrState (hdrAct h 3 x).1 q = (if q = p then 0 else hdrState h q) ∧
      (hdrAct h 3 x).1.testBit (88 + q) = h.testBit (88 + q))

/-! ### Events of groups and cores -/

/-- R61, R103, R401: a result that returns writes its registers and its flags and leaves the results after it on their
way; a fault found late parks the lane that has not issued since at its access. -/
def Obligations.ResultsReturn : Prop :=
  (∀ (k : Nat) (s : State) a e b,
    let g := s.group k
    g.pend = a ++ e :: b → e.held = false → e.access = none → e.fault = none → e.sweep = none → g.resident = true →
    g.scout = false →
    (e.writes.map Prod.fst).Nodup →
    ∃ t, exec (.resultReturn k a.length) s = .next t ∧ (∀ j, j ≠ k → t.group j = s.group j) ∧
      (∀ l r, (∀ x, (PUnit.vec l r, some x) ∈ e.writes → ((t.group k).lane l).vreg r = x.setWidth 32) ∧
        ((∀ x, (PUnit.vec l r, some x) ∉ e.writes) → ((t.group k).lane l).vreg r = (g.lane l).vreg r)) ∧
      (∀ r, (∀ x, (PUnit.sca r, some x) ∈ e.writes → (t.group k).sreg r = x) ∧
        ((∀ x, (PUnit.sca r, some x) ∉ e.writes) → (t.group k).sreg r = g.sreg r)) ∧
      (t.group k).gsw = (if e.writes.all (fun w => w.2.isNone) then g.gsw else g.gsw ||| BitVec.ofNat 64 e.flags) ∧
      (t.group k).pend.length = a.length + b.length ∧ (t.group k).pend.drop a.length = b) ∧
  (∀ (k : Nat) (s : State) a e b l n code detail addr,
    let g := s.group k
    g.pend = a ++ e :: b → e.held = false → e.access = none → e.fault = some (code, detail, addr) →
    g.resident = true → g.scout = false → code ≠ 7 → e.lanes = [(l, n)] → (g.lane l).issued = n →
    (g.lane l).lst = .running → (g.lane l).tx = none →
    ∃ t, exec (.resultReturn k a.length) s = .next t ∧ (t.group k).pend = a ++ b ∧
      ((t.group k).lane l).ParkedAt e.pc code detail addr)

/-- R237 to R240: a write-back takes some of a line's dirty bytes, one at least, and leaves them clean; those of an L1
line reach the owning point where the die owns the line, and those of another die's copy reach it; a
clean L1 line leaves; writing back a home line drops it and changes no byte at any owning point. Which bytes a
write-back takes is free, and when it happens the model's choice (log 50). -/
def Obligations.WriteBacks : Prop :=
  (∀ (core line : Nat) (s : State), core < 256 → s.l1Line core line ≠ Line.none →
    let l := s.l1Line core line
    ∃ t, exec (.dirtyWriteback .l1 core line) s = .next t ∧ t.groups = s.groups ∧
      (l.dirty = 0 → t.l1Line core line = Line.none ∧ ∀ a, t.ownByte a = s.ownByte a) ∧
      (l.dirty ≠ 0 → ∃ m : BitVec 128, m ≠ 0 ∧ m &&& ~~~l.dirty = 0 ∧
        (t.l1Line core line).dirty = l.dirty &&& ~~~m ∧ (t.l1Line core line).held = l.held ∧
        (t.l1Line core line).data = l.data ∧
        (isHbm (line * 128) = true → s.ownerDie (line * 128) = dieOfCore core → ∀ k < 128,
          m.getLsbD k = true → t.ownByte (line * 128 + k) = l.byte k))) ∧
  (∀ (die line : Nat) (s : State), die < 8 → isHbm (line * 128) = true → s.ownerDie (line * 128) ≠ die →
    (s.l2Line die line).dirty ≠ 0 →
    let l := s.l2Line die line
    ∃ t, ∃ m : BitVec 128, exec (.dirtyWriteback .l2 die line) s = .next t ∧ t.groups = s.groups ∧ m ≠ 0 ∧
      m &&& ~~~l.dirty = 0 ∧ (t.l2Line die line).dirty = l.dirty &&& ~~~m ∧ (t.l2Line die line).held = l.held ∧
      ∀ k < 128, m.getLsbD k = true → t.ownByte (line * 128 + k) = l.byte k) ∧
  (∀ (die line : Nat) (s : State), die < 8 → isHbm (line * 128) = true → s.ownerDie (line * 128) = die →
    s.l2Line die line ≠ Line.none → s.HomeTrue (line * 128) →
    ∃ t, exec (.dirtyWriteback .l2 die line) s = .next t ∧ t.l2Line die line = Line.none ∧ t.groups = s.groups ∧
      ∀ a, t.ownByte a = s.ownByte a)

/-- R192, R194, R282, R292, R303: when every lane of a group has exited and its results and engine commands are
complete the group ends; its team ends with its last group, and the counter of its spawn tree falls by one; an estate
that finds room in the core's store is kept there; a scout that is over leaves the machine. -/
def Obligations.GroupEnds : Prop :=
  (∀ (k : Nat) (s : State),
    let g := s.group k
    let tm := s.team g.team
    let tk := (s.launch tm.launch).tree
    g.resident = true → g.ended = false → g.scout = false → g.width ≠ 0 → (∀ l < g.width, (g.lane l).lst = .exited) →
    g.pend = [] → g.wait ≠ .killed → (s.ctx g.ctx).isOpen = true → (s.ctx g.ctx).inc = g.inc →
    (∀ e ∈ (s.core g.core).queue, e.group ≠ k) →
    ∃ t, exec (.groupEnd k) s = .next t ∧
      ((∃ j ∈ tm.groups, j ≠ k ∧ (s.group j).ended = false) →
        (t.group k).ended = true ∧ (t.group k).resident = false ∧ t.trees = s.trees ∧
        (t.team g.team).groups = tm.groups) ∧
      ((∀ j ∈ tm.groups, j = k ∨ (s.group j).ended = true) →
        t.team g.team = Team.none ∧ (∀ j ∈ tm.groups, t.group j = Group.empty) ∧
        ((s.tree tk).live = true → (s.tree tk).complete = false → 1 < (s.tree tk).count →
          t.tree tk = { s.tree tk with count := (s.tree tk).count - 1 }))) ∧
  (∀ (core : Nat) (e : Estate) (s : State), e.slots ≠ [] ∨ e.tiles ≠ 0 →
    s.findEstate e.ctx e.inc e.domain e.wid = none → s.storeUsed core + e.bytes ≤ (s.core core).store →
    s.makeEstate core e = { s with
      estates := s.estates ++ [{ e with made := s.madeCount, place := .store core }]
      madeCount := s.madeCount + 1 }) ∧
  (∀ (k : Nat) (s : State), (s.group k).scout = true → (s.group k).scoutOver = true →
    (s.team (s.group k).team).scout = some k →
    ∃ t, exec (.scoutEnd k) s = .next t ∧ t.group k = Group.empty ∧ (t.team (s.group k).team).scout = none ∧
      (∀ j, j ≠ k → t.group j = s.group j) ∧ t.mem = s.mem)

/-- R49, R50, R292, R400: at a period's start AVAIL takes the GRANT, which is at most 64, at most 32 while a die is
above its limit, and 0 for a core without accumulator users; the thermal limit is set and cleared by its events. -/
def Obligations.TokensAndLimits : Prop :=
  (∀ (core : Nat) (s : State), core < 256 →
    ∃ t, exec (.tokenPeriodStart core) s = .next t ∧
      t.core core = { s.core core with grant := s.grantOf core, avail := s.grantOf core } ∧
      (∀ c, c ≠ core → t.core c = s.core c) ∧ { t with cores := s.cores } = s) ∧
  (∀ (core : Nat) (s : State), s.grantOf core ≤ 64 ∧ ((∃ d < 8, (s.die d).hot = true) → s.grantOf core ≤ 32) ∧
    (s.accPrio core = none → s.grantOf core = 0)) ∧
  (∀ (die : Nat) (s : State), die < 8 →
    exec (.thermalLimit die) s = .next (s.modDie die (fun d => { d with hot := true })) ∧
    exec (.thermalLimitClear die) s = .next (s.modDie die (fun d => { d with hot := false })))

/-! ### Command queues, trees and admission -/

/-- R265, R268 to R270: a wake write sets WR of an enabled queue and is discarded by a disabled one; a valid packet is
taken whole with RD past it, and an invalid one completes as failed with one record of type 2; an entry that cannot be read
is an invalid packet of one entry, whose record has TAG 0 and the cause, and where it stands later in a packet the entries
before it are one. The TAG of the first entry, that packet of the entries before, and RD moved when the packet is parsed are
the model's choices (log 9). -/
def Obligations.QueueSubmission : Prop :=
  (∀ (ctx q : Nat) (v : W64) (s : State), ctx < 1024 → q < 64 →
    ∃ t, exec (.queueWake ctx q v) s = .next t ∧ t.groups = s.groups ∧
      ((s.ctx ctx).used = false ∨ s.qOn ctx q = false → t = s) ∧
      ((s.ctx ctx).used = true → s.qOn ctx q = true → (s.ctx ctx).desc % 4096 = 0 → s.noRoute (s.ctx ctx).desc = false →
        t.qWr ctx q = v.toNat)) ∧
  (∀ (ctx q : Nat) (s u v : State) es ok, ctx < 1024 → q < 64 → s.serves ctx = true → (s.ctx ctx).running = true →
    s.qOn ctx q = true → ((s.ctx ctx).queue q).state = .idle → ((s.ctx ctx).queue q).packet = [] →
    s.readChain ctx q (min (s.qWr ctx q - s.qRd ctx q) (2 ^ s.qSize ctx q)) (s.qRd ctx q) [] = (u, .whole es) →
    u.packetOk ctx es = (v, ok) →
    ∃ t, exec (.packetParse ctx q) s = .next t ∧
      (ok = true → ((t.ctx ctx).queue q).packet = es ∧ ((t.ctx ctx).queue q).state = .ready ∧
        ((v.ctx ctx).desc % 4096 = 0 → v.noRoute (v.ctx ctx).desc = false →
          t.qRd ctx q = (v.qRd ctx q + es.length) % 2 ^ 64)) ∧
      (ok = false → t = (v.moveRd ctx q es.length).record ctx
        (recordBytes 2 q (s.ctx ctx).inc (entryTag (es.headD [])) 0 0 0 0))) ∧
  (∀ (ctx q : Nat) (s u : State) es cause, ctx < 1024 → q < 64 → s.serves ctx = true → (s.ctx ctx).running = true →
    s.qOn ctx q = true → ((s.ctx ctx).queue q).state = .idle → ((s.ctx ctx).queue q).packet = [] →
    s.readChain ctx q (min (s.qWr ctx q - s.qRd ctx q) (2 ^ s.qSize ctx q)) (s.qRd ctx q) [] = (u, .broken es cause) →
    exec (.packetParse ctx q) s = .next ((u.moveRd ctx q (max 1 es.length)).record ctx
      (recordBytes 2 q (s.ctx ctx).inc (if es = [] then 0 else entryTag (es.headD [])) 0 0 0 (if es = [] then cause else 0))))

/-- R271, R289, R290, R396: NOP, WRITE, WAIT and SIGNAL entries complete: the value that a WRITE leaves, the comparison that
completes a WAIT and keeps it waiting otherwise, the sum that a SIGNAL leaves, one to a package without a route being
dropped and logged, and the record of type 2 with the cause when an access faults, which is 2 for an address that is not
aligned. That the dropped SIGNAL completes its entry (log 36), and the kind of its error (log 37), are the model's choices. -/
def Obligations.QueueEntries : Prop :=
  (∀ (ctx q : Nat) (s : State) (e : List Byte), s.starts ctx q 0 = some e →
    ∃ t, exec (.cmdNop ctx q) s = .next t ∧ EntryDone s t ctx q ∧ (entryNotify e = false → t.mem = s.mem)) ∧
  (∀ (ctx q : Nat) (s : State) (e : List Byte), field e 8 8 % 8 ≠ 0 →
    (s.starts ctx q 3 = some e → FailsWith (.cmdWrite ctx q) s ctx q e s 2) ∧
    (s.starts ctx q 4 = some e → FailsWith (.cmdWait ctx q) s ctx q e s 2) ∧
    (s.starts ctx q 5 = some e → FailsWith (.cmdSignal ctx q) s ctx q e s 2)) ∧
  (∀ (ctx q : Nat) (s u : State) (e : List Byte) pa, s.starts ctx q 3 = some e → field e 8 8 % 8 = 0 →
    s.devXlat ctx .write (field e 8 8) 8 = (u, .ok pa) →
    ∃ t, exec (.cmdWrite ctx q) s = .next t ∧ EntryDone s t ctx q ∧
      (entryNotify e = false → pa % 8 = 0 → u.noRoute pa = false → t.ownBytes pa 8 = leBytes 8 (field e 16 8) ∧
        (u.HomeTrue pa → ∀ a, a < pa ∨ pa + 8 ≤ a → t.ownByte a = u.ownByte a))) ∧
  (∀ (ctx q : Nat) (s u : State) (e : List Byte) c, s.starts ctx q 3 = some e → field e 8 8 % 8 = 0 →
    s.devXlat ctx .write (field e 8 8) 8 = (u, .error c) → FailsWith (.cmdWrite ctx q) s ctx q e u c) ∧
  (∀ (ctx q : Nat) (s u : State) (e : List Byte) (i : Instr) r,
    (i = .cmdWait ctx q ∧ s.starts ctx q 4 = some e) ∨
      (i = .waitRepoll ctx q ∧ ((s.ctx ctx).queue q).state = .wait ∧ ((s.ctx ctx).queue q).packet.head? = some e ∧
        s.serves ctx = true) →
    field e 8 8 % 8 = 0 → s.devRead ctx (field e 8 8) 8 = (u, r) →
    (∀ c, r = .error c → FailsWith i s ctx q e u c) ∧
    (∀ bs, r = .ok bs → (if field e 24 1 = 0 then field e 16 8 ≤ leNat bs else leNat bs = field e 16 8) →
      ∃ t, exec i s = .next t ∧ EntryDone s t ctx q ∧ (entryNotify e = false → t.mem = u.mem)) ∧
    (∀ bs, r = .ok bs → ¬(if field e 24 1 = 0 then field e 16 8 ≤ leNat bs else leNat bs = field e 16 8) →
      ∃ t, exec i s = .next t ∧ ((t.ctx ctx).queue q).state = .wait ∧
        ((t.ctx ctx).queue q).packet = ((s.ctx ctx).queue q).packet ∧ t.mem = u.mem)) ∧
  (∀ (ctx q : Nat) (s u : State) (e : List Byte) pa, s.starts ctx q 5 = some e → field e 8 8 % 8 = 0 →
    s.devXlat ctx .rw (field e 8 8) 8 = (u, .ok pa) →
    (u.poisoned pa = false → ∃ t, exec (.cmdSignal ctx q) s = .next t ∧ EntryDone s t ctx q ∧
      (entryNotify e = false → pa % 8 = 0 →
        t.ownBytes pa 8 = leBytes 8 ((leNat (u.seenBytes ctx pa 8) + field e 16 8) % 2 ^ 64) ∧
        (u.HomeTrue pa → ∀ a, a < pa ∨ pa + 8 ≤ a → t.ownByte a = u.ownByte a))) ∧
    (u.noRoute pa = true → ∃ t, exec (.cmdSignal ctx q) s = .next t ∧ EntryDone s t ctx q ∧
      (entryNotify e = false → t.mem = u.mem ∧ t.errors = u.errors ++ [(3, pa)])) ∧
    (u.noRoute pa = false → u.poisoned pa = true → FailsWith (.cmdSignal ctx q) s ctx q e u 0x17)) ∧
  (∀ (ctx q : Nat) (s u : State) (e : List Byte) c, s.starts ctx q 5 = some e → field e 8 8 % 8 = 0 →
    s.devXlat ctx .rw (field e 8 8) 8 = (u, .error c) → FailsWith (.cmdSignal ctx q) s ctx q e u c)

/-- R271, R275, R281, R282, R285, R286: a LAUNCH entry roots a tree that counts its teams and enqueues its launch, or
fails with a record of type 5; a GRAPH entry starts its START node; a node that is complete goes on to the successor
that its result chooses, and the graph ends at 65535. That START has the predecessor's result 0 and what the last record of a
graph holds are the model's choices (log 10), and so is that a descriptor which cannot be read fails with type 5 (log 27). -/
def Obligations.LaunchesAndGraphs : Prop :=
  (∀ (ctx q : Nat) (s u : State) e k, s.starts ctx q 1 = some e →
    s.kernelAt ctx (BitVec.ofNat 64 (field (e.drop 8) 0 8)) = (u, k) →
    match k with
    | none => Completes (.cmdLaunch ctx q) s ctx q (u.entryFails ctx q 5 0)
    | some k =>
      if u.refuses k then Completes (.cmdLaunch ctx q) s ctx q (u.entryFails ctx q 5 0)
      else ∃ t, exec (.cmdLaunch ctx q) s = .next t ∧ ((t.ctx ctx).queue q).state = .launch u.trees.next ∧
        t.tree u.trees.next = rootTree u ctx q (entryTag e) 0 (field (e.drop 8) 16 4) ∧
        (t.launch u.launches.next).live = true ∧ (t.launch u.launches.next).kernel = k ∧
        (t.launch u.launches.next).teams = field (e.drop 8) 16 4 ∧ (t.launch u.launches.next).admitted = 0 ∧
        (t.launch u.launches.next).tree = u.trees.next) ∧
  (∀ (ctx q : Nat) (s : State) e, s.starts ctx q 2 = some e →
    exec (.cmdGraph ctx q) s = .next (s.startNode ctx q (field e 8 8) (field e 16 2) 0)) ∧
  (∀ (ctx q gtab node : Nat) (last : W64) (s u v : State) n k, s.devRead ctx (gtab + 128 * node) 128 = (u, .ok n) →
    u.kernelAt ctx (BitVec.ofNat 64 (field n 0 8)) = (v, some k) → field n 65 1 = 0 → n.length = 128 →
    recordOk (n.take 56) k.phase = true → field n 64 1 ≤ 1 → zeroField n 66 62 = true → v.refuses k = false →
    let t := s.startNode ctx q gtab node last
    let tag := entryTag (((s.ctx ctx).queue q).packet.headD [])
    t.tree v.trees.next = rootTree v ctx q tag 1 (field n 16 4) ∧
    ((t.ctx ctx).queue q).state = .graph (BitVec.ofNat 64 gtab) ((n.drop 56).take 10) v.trees.next) ∧
  (∀ (ctx q : Nat) (s : State) gtab tail tree, ((s.ctx ctx).queue q).state = .graph gtab tail tree →
    s.serves ctx = true → (s.tree tree).complete = true → s.treePhase tree = none →
    entryNotify (((s.ctx ctx).queue q).packet.headD []) = false → ((s.ctx ctx).queue q).packet ≠ [] →
    let r := (s.tree tree).result
    let n := successor tail r
    (n = 65535 → Completes (.graphNodeNext ctx q) s ctx q
      ((s.dropTree tree).entryDone ctx q none r (s.tree tree).surplus (s.tree tree).extra)) ∧
    (n ≠ 65535 → exec (.graphNodeNext ctx q) s = .next ((s.dropTree tree).startNode ctx q gtab.toNat n r))) ∧
  (∀ (tail : List Byte) (r : W64), let x := r.toNat % 2 ^ 32
    successor tail r = if field tail 8 1 = 0 then field tail (2 * min x 3) 2
      else if x = 0 then field tail 0 2 else field tail 2 2)

/-- R277 to R280, R288: an admission makes the launch's next team resident, its groups on the partitions that have
room, every lane running at CODE with its `$wid` and the argument words in the scalars; a phase whose lines are high
on every die and whose launch's tree is complete frees its slot, its OVER is the sum of the dies', and the LAUNCH
entry that it held back completes. -/
def Obligations.AdmissionAndPhases : Prop :=
  (∀ (lk core : Nat) (s u v : State) ws args parts blocks,
    let l := s.launch lk
    let k := l.kernel
    core < 256 → s.chooses lk core = true →
    (s.modCtx l.ctx (fun c => { c with served := c.served.filter (fun q => q != l.queue) ++ [l.queue] })).wids l l.admitted =
      (u, .ok ws) →
    u.argWords l = (v, .ok args) → v.room l ws core = some (parts, blocks) →
    ∃ t, exec (.teamAdmission lk core) s = .next t ∧ (t.launch lk).admitted = l.admitted + 1 ∧
      (t.team v.teams.next).live = true ∧ (t.team v.teams.next).launch = lk ∧ (t.team v.teams.next).num = l.admitted ∧
      Seated t v.teams.next k parts ws args) ∧
  (∀ (slot lk : Nat) (s : State) l, slot < 16 →
    s.launches.find? (fun l => l.2.live && l.2.phaseSlot == some slot) = some (lk, l) → s.launch lk = l →
    s.phaseHigh slot = true → (s.tree l.tree).complete = true → (∀ p ∈ s.launches, p.2.waiting = false) →
    (∀ p ∈ s.launches, p.1 ≠ lk → p.2.tree = l.tree → p.2.phaseSlot = none) →
    let tr := s.tree l.tree
    ∃ t, exec (.phaseEnd slot) s = .next t ∧ (t.launch lk).phaseSlot = none ∧
      (∀ d < 8, ((t.die d).phases.get Phase.none slot).used = false) ∧
      (tr.kind = 1 → (t.tree l.tree).extra =
        ((List.range 8).map (fun d => ((s.die d).phases.get Phase.none slot).extra)).sum) ∧
      (tr.kind = 0 → ((s.ctx tr.ctx).queue tr.queue).packet ≠ [] → EntryDone s t tr.ctx tr.queue))

/-- R266, R289, R353: a record of a context takes the next place of its completion queue with CQWR and a message, or
is held behind those held; the host's CQRD write and a retry write held records while there is room, and a destroyed
context with nothing left is freed; a firmware core takes its oldest mailbox entry, drops that of a group whose
context is not current, and the Fault core takes a kill from it. -/
def Obligations.CompletionAndMail : Prop :=
  (∀ (ctx : Nat) (s u : State) r, (s.ctx ctx).used = true →
    ((s.ctx ctx).heldRecs ≠ [] → s.record ctx r =
      s.modCtx ctx (fun c => { c with heldRecs := c.heldRecs ++ [r] })) ∧
    ((s.ctx ctx).heldRecs = [] → s.cqFull ctx = true → ((s.record ctx r).ctx ctx).heldRecs = [r] ∧
      (s.record ctx r).mem = s.mem) ∧
    ((s.ctx ctx).heldRecs = [] → s.cqFull ctx = false →
      s.devWrite ctx ((s.ctx ctx).cq.toNat + 32 * ((s.ctx ctx).cqCount % 4096)) r = (u, .ok ()) →
      ((s.record ctx r).ctx ctx).heldRecs = [] ∧ ((s.record ctx r).ctx ctx).cqCount = (s.ctx ctx).cqCount + 1 ∧
      (s.record ctx r).msix.get 0 (2 * ctx + 1) = u.msix.get 0 (2 * ctx + 1) + 1)) ∧
  (∀ (ctx : Nat) (v : W64) (s : State), ctx < 1024 → (s.ctx ctx).used = true →
    ((s.ctx ctx).destroying = false → exec (.cqrdWrite ctx v) s =
      .next ((s.poke ((s.ctx ctx).desc + 0x90) 8 v.toNat).cqDrain ctx (s.ctx ctx).heldRecs)) ∧
    ((s.ctx ctx).desc % 4096 = 0 → s.noRoute (s.ctx ctx).desc = false → (s.ctx ctx).heldRecs = [] →
      ∃ t, exec (.cqrdWrite ctx v) s = .next t ∧ t.peek ((s.ctx ctx).desc + 0x90) 8 = v.toNat)) ∧
  (∀ (ctx : Nat) (s u : State) r, (s.ctx ctx).used = true → (s.ctx ctx).heldRecs = [r] → s.cqFull ctx = false →
    s.devWrite ctx ((s.ctx ctx).cq.toNat + 32 * ((s.ctx ctx).cqCount % 4096)) r = (u, .ok ()) →
    ∃ t, exec (.cqWriteRetry ctx) s = .next t ∧
      ((s.ctx ctx).destroying = false → (t.ctx ctx).heldRecs = [] ∧ (t.ctx ctx).cqCount = (s.ctx ctx).cqCount + 1) ∧
      ((s.ctx ctx).destroying = true → (s.ctx ctx).kills = [] → (s.ctx ctx).held = none → (s.ctx ctx).reclaims = [] →
        (t.ctx ctx).used = false)) ∧
  (∀ (fw : Nat) (s : State) e es, fw < 8 → s.bootStat = 1 → (s.mail.get Mailbox.none fw).entries = e :: es →
    ∃ t, exec (.mailboxTake fw) s = .next t ∧
      (t.mail.get Mailbox.none fw).entries = es ++ (s.mail.get Mailbox.none fw).held.take (64 - es.length) ∧
      (fw ≠ 3 → { t with mail := s.mail } = s) ∧
      (e.kind = 0 → ¬((s.ctx e.ctx).used = true ∧ (s.ctx e.ctx).isOpen = true ∧ (s.ctx e.ctx).inc = e.inc) →
        { t with mail := s.mail } = s) ∧
      (∀ c < 1024, fw = 3 → e.kind = 1 → e.value.toNat = 2 ^ 16 + c → (s.ctx c).used = true →
        (t.ctx c).kills = (s.ctx c).kills ++ [⟨1, 0⟩]))

/-! ### Preemption, moves and services -/

/-- R263, R273, R331 to R338: at its end a time slice passes to a context that has none and the teams of the one that
had it are asked to stop; a drained team is saved with its transactions aborted; a restore makes its groups resident
with the registers that they had; a masked handler that overruns kills the context. Which context follows, how a save
is sized and which save gives way are the model's choices (logs 11 and 12). -/
def Obligations.Preemption : Prop :=
  (∀ (ctx : Nat) (s : State), (s.ctx ctx).used = true → (s.ctx ctx).running = true → (s.ctx ctx).midPacket = false →
    let others := s.ctxs.filter (fun p => p.1 != ctx && p.2.used)
    ∃ t, exec (.timeSliceEnd ctx) s = .next t ∧
      (others = [] → t = s.modCtx ctx (fun c => { c with sliceFrom := s.steps })) ∧
      (others ≠ [] → (t.ctx ctx).running = false ∧
        (∀ k, (s.team k).live = true → (s.team k).ctx = ctx → (s.team k).saved = false → (s.team k).groups ≠ [] →
          (t.team k).preempt = true) ∧
        ∀ p, others.find? (fun p => !p.2.running) = some p →
          (t.ctx p.1).running = true ∧ (t.ctx p.1).sliceFrom = s.steps)) ∧
  (∀ (team : Nat) (s : State),
    let tm := s.team team
    let size := s.saveSize team tm.core
    let fits := fun k => k < (s.core tm.core).slots ∧ (s.slotTeams tm.core k = [] ∨
      (∀ p ∈ s.slotTeams tm.core k, p.2.ctx = tm.ctx ∧ p.2.inc = tm.inc) ∧ s.slotUse tm.core k + size ≤ 2097152)
    tm.live = true → tm.preempt = true → tm.saved = false → tm.groups ≠ [] → (s.ctx tm.ctx).isOpen = true →
    (s.ctx tm.ctx).inc = tm.inc → (∀ k ∈ tm.groups, s.drained (s.group k) = true) →
    s.cores.any (fun x => x.2.queue.any (fun e => e.team == team)) = false →
    (∀ k, tm.scout = some k → k ∉ tm.groups) →
    ∃ t, exec (.preemptionSave team) s = .next t ∧ (t.team team).saved = true ∧ (t.team team).preempt = false ∧
      (tm.cluster = false → (s.core tm.core).slots ≠ 0 → ∃ k < (s.core tm.core).slots,
        ((∃ j, fits j) → fits k) ∧
        (t.team team).savedIn = (if fits k then tm.savedIn else tm.savedIn.filter (fun p => !(p.1 == tm.core && p.2.1 == k))) ++
          [(tm.core, k, min size 2097152)] ∧
        (fits k → (t.team team).savedOut = tm.savedOut + (size - 2097152)) ∧
        ∀ j, j ≠ team →
          (t.team j).savedIn = (if fits k then (s.team j).savedIn
            else (s.team j).savedIn.filter (fun p => !(p.1 == tm.core && p.2.1 == k))) ∧
          (t.team j).savedOut = (s.team j).savedOut + if fits k then 0 else (s.team j).inSlot tm.core k) ∧
      (tm.cluster = false → (s.core tm.core).slots = 0 →
        (t.team team).savedIn = tm.savedIn ∧ (t.team team).savedOut = tm.savedOut + size) ∧
      ∀ k ∈ tm.groups, (t.group k).resident = false ∧ (t.group k).sregs = (s.group k).sregs ∧
        ∀ l < (s.group k).width, match ((s.group k).lane l).tx with
          | none => (t.group k).lane l = (s.group k).lane l
          | some x => ((t.group k).lane l).tx = none ∧ ((t.group k).lane l).pc = x.target ∧
            ((t.group k).lane l).vreg x.dreg = 5) ∧
  (∀ (team core : Nat) (s : State) parts,
    let tm := s.team team
    core < 256 → s.restorePlan team core = some parts → tm.groups.Nodup →
    ∃ t, exec (.teamRestore team core) s = .next t ∧ (t.team team).saved = false ∧ (t.team team).core = core ∧
      (∀ j k, (s.unended team)[j]? = some k → (t.group k).resident = true ∧ (t.group k).part = parts.getD j 0 ∧
        (t.group k).lanes = (s.group k).lanes ∧ (t.group k).sregs = (s.group k).sregs ∧
        (t.group k).gsw = (s.group k).gsw ∧ (t.group k).latch = (s.group k).latch) ∧
      (tm.holdsAcc = true → tm.cluster = false → ∀ u < 4, ∀ m < 128,
        (t.core core).accRow u m = tm.savedAcc.get zeroRow (accKey u m))) ∧
  (∀ (team : Nat) (s : State) k,
    let tm := s.team team
    tm.live = true → tm.preempt = true → k ∈ tm.groups → (s.group k).tm = true → (s.group k).wait ≠ .killed →
    65536 < (s.group k).maskedIssues →
    ∃ t, exec (.maskedHandlerOverrun team) s = .next t ∧ (t.ctx tm.ctx).kills = (s.ctx tm.ctx).kills ++ [⟨4, 0⟩])

/-- R310 to R320: a policy move joins the moves; a move's drain and copy complete in order, the copy carrying every
byte of the tile as its context reads it, under that context's key, and leaving no line of it in an L1; at its end the held status is 0 and the move is gone; a mark that names a moved page is given that
page's destination. -/
def Obligations.TileMoves : Prop :=
  (∀ (ctx f dest : Nat) (s : State), f % 65536 = 0 → dest % 65536 = 0 → s.policyMay ctx f dest = true →
    ∃ t, exec (.policyMove ctx f dest) s = .next t ∧ t.moving.length = s.moving.length + 1 ∧
      (t.ctx ctx).poolUsed = (s.ctx ctx).poolUsed ++ [dest / 65536]) ∧
  (∀ (m : Nat) (s : State) r, s.moveAt m 1 = some r →
    ∃ t, exec (.moveDrainComplete m) s = .next t ∧ t.moving[m]? = some { r with stage := 3 }) ∧
  (∀ (m : Nat) (s : State) r, s.moveAt m 3 = some r →
    ∃ t, exec (.moveCopyComplete m) s = .next t ∧ t.moving[m]? = some { r with stage := 5 } ∧
      (∀ p ∈ t.l1, inTile r.fpa (p.1 / 256) = false ∧ inTile r.tpa (p.1 / 256) = false) ∧
      (s.Canonical → r.fpa % 65536 = 0 → r.tpa % 65536 = 0 → r.fpa ≠ r.tpa →
        (∀ p ∈ s.l2, inTile r.fpa (p.1 / 8) = false ∧ inTile r.tpa (p.1 / 8) = false) →
        (∀ p ∈ s.l1, inTile r.fpa (p.1 / 256) = false) →
        (∀ k < 65536, t.ownSeen r.ctx (r.tpa + k) = s.ownSeen r.ctx (r.fpa + k)) ∧
        ∀ a, a < r.tpa ∨ r.tpa + 65536 ≤ a → t.ownByte a = s.ownByte a)) ∧
  (∀ (m : Nat) (s : State) r, s.moveAt m 5 = some r →
    ∃ t, exec (.moveShootdownConfirmed m) s = .next t ∧ t.moving.length + 1 = s.moving.length ∧
      ∀ g a e b, r.group = some g → (s.group g).pend = a ++ e :: b → e.held = true → e.sweep = none → e.tag = r.f →
        (∀ x ∈ a, ¬(x.held = true ∧ x.sweep = none ∧ x.tag = r.f)) →
        ∃ x, (t.group g).pend[a.length]? = some x ∧ x.held = false ∧ x.writes = e.writes.map (fun w => (w.1, some 0))) ∧
  (∀ (ctx f dest : Nat) (s : State) p, s.markAt ctx f = some p → (s.markAt ctx p).isSome = true →
    (s.follow ctx 3 p).1 / 65536 = dest / 65536 → (s.ctx ctx).used = true →
    exec (.markRetarget ctx f dest) s =
      .next ((s.putPage ctx f (fwdEntry dest)).shootdown ctx (f / 65536 * 65536) 65536))

/-- R304 to R306, R318, R319, R330, R399: the services of firmware answer with their status: retiring a mark, its hit
count, page-in, the export and import of estates, and attestation, whose report holds the nonce, the measurements,
FEATACC and STEP, the context with its incarnation and flags, and the SHA-256 of its level-4 table. Their places are
the model's choice (log 38). -/
def Obligations.FirmwareServices : Prop :=
  ∀ (ctx slot : Nat) (s : State),
    let c := (s.ctx ctx).slot slot
    let a := s.askWord ctx slot
    let f := a / 65536 * 65536
    (provided s.featAcc 1110 = true → s.asks ctx slot 1110 = true →
      exec (.markRetire ctx slot) s = .next (
        if s.markAt ctx f = none then s.replyAll ctx slot 1
        else if (s.marksFrom 4 (s.ctx ctx).root.toNat 0).any (fun m => m.1 != f && m.2 / 65536 == f / 65536) then
          s.replyAll ctx slot 2
        else (((s.putPage ctx f 0).shootdown ctx f 65536).modCtx ctx (fun c =>
          { c with hits := c.hits.erase (f / 65536) })).replyAll ctx slot 0)) ∧
    (provided s.featAcc 1111 = true → s.asks ctx slot 1111 = true →
      exec (.markHitCount ctx slot) s = .next (s.replyAll ctx slot
        (if s.markAt ctx a = none then 0xFFFFFFFF else BitVec.ofNat 32 ((s.ctx ctx).hits.get 0 (a / 65536))))) ∧
    (∀ l va, s.asks ctx slot 1024 = true → c.act = [l] → c.req = [va] →
      let r := s.pageIn ctx va.toNat
      exec (.pageIn ctx slot) s = .next (r.1.reply ctx slot ((s.group c.group).ids.map (fun i =>
        if i = l then (if r.2 then 0 else 1) else 0)))) ∧
    (∀ u n, provided s.featAcc 1100 = true → s.asks ctx slot 1100 = true → s.exportEstates ctx a = (u, n) →
      exec (.estateExport ctx slot) s = .next (u.replyAll ctx slot (BitVec.ofNat 32 n)) ∧ n ≤ 2 ∧
      (n ≠ 0 → u.estates = s.estates) ∧
      (n = 0 → ∃ d, u.estates = s.estates.filter (fun e =>
        !(e.ctx == ctx && e.inc == (s.ctx ctx).inc && e.domain == d)))) ∧
    (∀ u n, provided s.featAcc 1101 = true → s.asks ctx slot 1101 = true →
      s.importEstates ctx (s.launch (s.group c.group).launch).queue a = (u, n) →
      exec (.estateImport ctx slot) s = .next (u.replyAll ctx slot (BitVec.ofNat 32 n)) ∧ n ≤ 3 ∧
      (n ≠ 0 → u.estates = s.estates)) ∧
    (∀ u n, s.asks ctx slot 1536 = true → s.attest ctx a = (u, n) →
      exec (.attestation ctx slot) s = .next (u.replyAll ctx slot (BitVec.ofNat 32 n)) ∧ n ≤ 2) ∧
    (∀ nonce : List Byte, nonce.length = 32 → s.meas.length = 256 →
      (s.report ctx nonce).length = 4096 ∧ (s.report ctx nonce).take 334 = nonce ++ s.meas ++
        (leBytes 8 s.featAcc ++ [0xB0] ++ leBytes 2 ctx ++ leBytes 2 (s.ctx ctx).inc ++
          leBytes 1 ((if (s.ctx ctx).debug then 1 else 0) + (if (s.ctx ctx).conf then 2 else 0)) ++
          sha256 (s.ownBytes (s.ctx ctx).root.toNat 4096)))

/-- R369 to R374, R377, R378: a step trigger is armed by its service and, when a write fires it, enters its launch at
the end of the spawn list with a tree of its own; a write of ARM arms a window whose header is valid and disarms it
with SEQ 0; a full window writes its record, whose MAX is the largest of the entries that are no NaN and whose NCNT
counts the NaNs. That the launch of a fired trigger roots a tree of its own, and joins the spawn list whatever its length, are
the model's choices (log 41). -/
def Obligations.SievesAndTriggers : Prop :=
  (∀ (ctx slot : Nat) (s u : State) n, provided s.featAcc 1000 = true → s.asks ctx slot 1000 = true →
    s.armTrigger ctx (s.askWord ctx slot) = (u, n) →
    exec (.stepTriggerArm ctx slot) s = .next (u.replyAll ctx slot (BitVec.ofNat 32 n)) ∧ n ≤ 3 ∧
    (n ≠ 0 → u.triggers.length = s.triggers.length) ∧
    (n = 0 → ∃ k, let t := u.triggers.get Trigger.none k
      t.live = true ∧ t.armed = true ∧ t.ctx = ctx ∧ t.fired = [])) ∧
  (∀ (trig : Nat) (s u : State) x rest k,
    let t := s.triggers.get Trigger.none trig
    let q := { t with fired := rest, live := t.rearm || !rest.isEmpty }
    t.fired = x :: rest → t.live = true → (s.ctx t.ctx).used = true → (s.ctx t.ctx).isOpen = true →
    (s.ctx t.ctx).inc = t.inc → t.phnum = 65535 →
    { s with triggers := s.triggers.set Trigger.none trig q }.kernelAt t.ctx (BitVec.ofNat 64 (field t.record 0 8)) =
      (u, some k) → u.refuses k = false →
    ∃ v, exec (.stepTriggerFire trig) s = .next v ∧ v.triggers = u.triggers ∧
      ((v.ctx t.ctx).queue t.queue).spawns = ((s.ctx t.ctx).queue t.queue).spawns ++ [u.launches.next] ∧
      (v.launch u.launches.next).kernel = k ∧ (v.launch u.launches.next).trigger = some trig ∧
      (v.tree u.trees.next).count = field t.record 16 4 ∧ (v.tree u.trees.next).kind = 2) ∧
  (∀ (win : Nat) (s : State) h,
    let w := s.sieves.get Sieve.none win
    w.armReq = true → s.sieveBytes w 0 64 = some h →
    ∃ t, exec (.sieveArm win) s = .next t ∧
      let seq := field h 0x18 4
      let v := t.sieves.get Sieve.none win
      if seq ≠ 0 ∧ sieveHeaderOk h = true ∧ (s.sumPlace w.ctx (field h 0x10 8)).2.isSome = true then
        v.armed = true ∧ v.written = [] ∧ v.seq = seq ∧ v.len = field h 4 4 ∧ v.k = field h 8 1 ∧
          t.mem = (s.sumPlace w.ctx (field h 0x10 8)).1.mem
      else if seq = 0 then v.armed = false ∧ t.mem = s.mem
      else t = { s with sieves := s.sieves.set Sieve.none win { w with armReq := false, armed := false, written := [] } }.sieveRecord
        w.ctx (field h 0x10 8) (leBytes 4 seq ++ [1, 0, 0, 0] ++ leBytes 4 (field h 4 4))) ∧
  (∀ (win : Nat) (s : State) bs,
    let w := s.sieves.get Sieve.none win
    let n := w.entryBytes
    w.full = true → s.sieveBytes w 4096 (w.len * n) = some bs →
    exec (.sievePass win) s =
      .next ({ s with sieves := s.sieves.set Sieve.none win { w with armed := false, written := [] } }.sieveRecord w.ctx
        w.sum.toNat (sieveResult w.seq w.len w.k
          ((List.range w.len).map (fun j => widen w.bf16 ((bs.drop (n * j)).take n)))))) ∧
  (∀ (seq len k : Nat) (xs : List Nat), (∀ x ∈ xs, x < 2 ^ 32) →
    let nan := fun x => (FVal.ofBits .f32 x).isNan
    field (sieveResult seq len k xs) 12 4 = (xs.filter nan).length % 2 ^ 32 ∧
    ((∃ x ∈ xs, nan x = false) → ∃ mx ∈ xs, nan mx = false ∧ field (sieveResult seq len k xs) 16 4 = mx ∧
      ∀ x ∈ xs, nan x = false → orderKey true x ≤ orderKey true mx))

/-! ### Kills, errors, debugging, the host -/

/-- R349, R353, R354, R357: the host's kill request reaches the Fault core's mailbox; a kill discards the groups of
its context and no other, counts in KSEQ, and opens the next incarnation, KSEQ mod 4096, unless it must wait for
wrap-around with the context closed; a later kill resumes once reclaims allow it. That closing, stopping, advancing and
reporting are one step, and which responses count as orphaned, are the model's readings (log 13). -/
def Obligations.Kills : Prop :=
  (∀ (v : W64) (s : State), exec (.killRequest v) s = .next (s.post 3 ⟨v, 0, 0, 1, 0⟩)) ∧
  (∀ (ctx : Nat) (s : State) r more,
    let c := s.ctx ctx
    c.kills = r :: more → c.used = true → c.held = none →
    ∃ t, exec (.kill ctx) s = .next t ∧ (∀ p ∈ t.groups, p.2.ctx ≠ ctx) ∧
      (∀ k, (s.group k).ctx ≠ ctx → t.group k = s.group k) ∧ (t.ctx ctx).kseq = c.kseq + 1 ∧
      (t.ctx ctx).reason = r.reason ∧ (t.ctx ctx).kills = more ∧
      if c.kseq + 1 ≤ c.rseq + 4095 then
        (t.ctx ctx).inc = (c.kseq + 1) % 4096 ∧ (t.ctx ctx).isOpen = true ∧ (t.ctx ctx).held = none ∧
        (t.ctx ctx).reclaims = c.reclaims ++ [(c.inc, s.onTheirWay ctx)]
      else (t.ctx ctx).inc = c.inc ∧ (t.ctx ctx).isOpen = false ∧ (t.ctx ctx).held.isSome = true) ∧
  (∀ (ctx : Nat) (s : State) n recs,
    let c := s.ctx ctx
    c.held = some (n, recs) → c.kseq ≤ c.rseq + 4095 →
    ∃ t, exec (.killWrapResume ctx) s = .next t ∧ (t.ctx ctx).inc = c.kseq % 4096 ∧ (t.ctx ctx).isOpen = true ∧
      (t.ctx ctx).held = none ∧ (t.ctx ctx).reclaims = c.reclaims ++ [(c.inc, n)])

/-- R351, R352, R358, R361, R394: an orphaned response is counted and dropped; a reclaim removes what the old
incarnation held in caches, translations and estates and counts in RSEQ, and frees a context that is being destroyed;
a relaunched team is seated again with the same number. -/
def Obligations.ReclaimAndRelaunch : Prop :=
  (∀ (ctx : Nat) (s : State) rs, takeOrphan (s.ctx ctx).reclaims = some rs →
    ∃ t, exec (.orphanedResponse ctx) s = .next t ∧ t.groups = s.groups ∧ (t.ctx ctx).reclaims = rs ∧
      (t.ctx ctx).orph = min ((s.ctx ctx).orph + 1) 4294967295) ∧
  (∀ (ctx i : Nat) (s : State) rest, (s.ctx ctx).reclaims = (i, 0) :: rest →
    ∃ t, exec (.reclaim ctx) s = .next t ∧
      (∀ p ∈ t.l1, ¬(p.2.ctx = ctx ∧ p.2.inc = i)) ∧ (∀ p ∈ t.l2, ¬(p.2.ctx = ctx ∧ p.2.inc = i)) ∧
      (∀ e ∈ t.tlb, ¬(e.ctx = ctx ∧ e.inc = i)) ∧ (∀ e ∈ t.estates, ¬(e.ctx = ctx ∧ e.inc = i)) ∧
      (((s.ctx ctx).destroying = false → (t.ctx ctx).reclaims = rest ∧ (t.ctx ctx).rseq = (s.ctx ctx).rseq + 1 ∧
        (t.ctx ctx).lastRec = i) ∧
      ((s.ctx ctx).used = true → (s.ctx ctx).destroying = true → (s.ctx ctx).kills = [] → (s.ctx ctx).held = none →
        rest = [] →
        ((s.ctx ctx).heldRecs = [] → (∀ e ∈ s.estates, ¬(e.ctx = ctx ∧ e.inc = i)) →
          t.ctx ctx = Context.none ∧ t.ctxStat = 0) ∧
        ((s.ctx ctx).heldRecs ≠ [] → (t.ctx ctx).used = true)))) ∧
  (∀ (team core : Nat) (s : State) parts,
    let tm := s.team team
    let l := s.launch tm.launch
    s.mayRelaunch team core = true → s.plan l.kernel (List.range l.kernel.groups) core = some parts →
    ∃ t, exec (.teamRelaunch team core) s = .next t ∧ (t.team team).num = tm.num ∧
      Seated t team l.kernel parts tm.wids tm.args)

/-- R361 to R368: an error in a clean cache line discards it and one in a dirty line poisons its owning point and
kills its context with reason 5; an error in a tag kills every context with work on the die with reason 8; an
uncorrectable error, or the eighth corrected one, quarantines its way; poison marks its line; a bad region is retired;
a team that consumes an error is relaunched or kills its context; a unit that fails leaves service and is tested at once, and
a test draws tokens of its core only while no group is refused. That the L1 has sixteen ways, that a mask counts a way as lost when
one slice has lost it, what a spare run is, and what a test draws are the model's choices (logs 37 and 42), and so is that the
2^36 cycles of R363 are counted in steps (log 6). -/
def Obligations.Errors : Prop :=
  (∀ (unit line way : Nat) (s : State), unit < 256 → way < 16 →
    let ls := s.l1Copies unit line
    let w := wayOf ls way
    ∃ t, exec (.uncorrectableCacheError .l1Data unit line way) s = .next t ∧ t.l1Line unit line = Line.none ∧
      (∀ q ∈ t.quota, ¬(q.core = unit ∧ q.line = line)) ∧ w ∈ (t.core unit).l1Out ∧
      (∀ c, (t.ctx c).kills = (s.ctx c).kills ++
        List.replicate (ls.filter (fun l => l.dirty != 0 && l.ctx == c)).length ⟨5, 0⟩) ∧
      ((∀ x ∈ s.l1InWay unit w, x = line) →
        ((∀ l ∈ ls, l.dirty = 0) → t.poison = s.poison) ∧
        ((∃ l ∈ ls, l.dirty ≠ 0) → t.poisoned (line * 128) = true))) ∧
  (∀ (unit line way : Nat) (s : State), unit < 8 → way < 16 →
    let l := s.l2Line unit line
    ∃ t, exec (.uncorrectableCacheError .l2Data unit line way) s = .next t ∧ t.l2Line unit line = Line.none ∧
      sliceOf line * 16 + wayOf [l] way ∈ (t.die unit).quarantined ∧
      (l.dirty = 0 → (∀ c, (t.ctx c).kills = (s.ctx c).kills) ∧
        t.poison.get Option.none line = s.poison.get Option.none line) ∧
      (l.dirty ≠ 0 → t.poisoned (line * 128) = true ∧
        ∀ c, (t.ctx c).kills = (s.ctx c).kills ++ (if c = l.ctx then [⟨5, 0⟩] else []))) ∧
  (∀ (unit line way : Nat) (s : State), way < 16 →
    (unit < 256 → ∃ t, exec (.uncorrectableCacheError .l1Tag unit line way) s = .next t ∧
      ∀ c ∈ s.workOn (dieOfCore unit), (t.ctx c).kills = (s.ctx c).kills ++ [⟨8, 0⟩]) ∧
    (unit < 8 → ∃ t, exec (.uncorrectableCacheError .l2Tag unit line way) s = .next t ∧
      sliceOf line * 16 + wayOf [s.l2Line unit line] way ∈ (t.die unit).quarantined ∧ ∀ c ∈ s.workOn unit, (t.ctx c).kills = (s.ctx c).kills ++ [⟨8, 0⟩])) ∧
  (∀ (unit slice way : Nat) (s : State), way < 16 →
    let recent := fun (ts : List Nat) => (ts.filter (fun t => decide (s.steps < t + 2 ^ 36))).length
    (unit < 8 → slice < 512 → ∃ t, exec (.correctedError .l2 unit slice way) s = .next t ∧
      let seen := recent ((s.die unit).corrected.get [] (slice * 16 + way))
      (7 ≤ seen → slice * 16 + way ∈ (t.die unit).quarantined) ∧
      (seen < 7 → (t.die unit).quarantined = (s.die unit).quarantined ∧ t.mem = s.mem)) ∧
    (unit < 256 → ∃ t, exec (.correctedError .l1 unit slice way) s = .next t ∧
      let seen := recent ((s.core unit).l1Errs.get [] way)
      (7 ≤ seen → way ∈ (t.core unit).l1Out) ∧
      (seen < 7 → (t.core unit).l1Out = (s.core unit).l1Out ∧ t.mem = s.mem)) ∧
    (s.corrects unit = true → ∃ t, exec (.correctedError .memory unit slice way) s = .next t ∧ t.mem = s.mem ∧
      t.regionErrs.get 0 unit = s.regionErrs.get 0 unit + 1)) ∧
  (∀ (line : Nat) (s : State), isFar (line * 128) = false →
    ∃ t, exec (.memoryPoison line) s = .next t ∧ t.poisoned (line * 128) = true ∧
      { t with poison := s.poison, due := s.due, errors := s.errors } = s) ∧
  (∀ (region spare : Nat) (s : State),
    let run := regionRun s.allLeaves region
    s.bootStat = 1 → s.mustRetire region = true → s.maySpare s.allLeaves run.1 (spare * 65536) run.2 = true →
    s.moving.any (fun m => overlaps m.fpa 65536 run.1 run.2 || overlaps m.tpa 65536 run.1 run.2) = false →
    ∃ t, exec (.regionRetire region spare) s = .next t ∧ t.retired = s.retired ++ [region]) ∧
  (∀ (g : Nat) (array : Bool) (s : State), s.alive g = true →
    let tm := s.team (s.group g).team
    let part := (s.group g).part
    ∃ t u, exec (.stateArrayError g) s = .next t ∧ exec (.pipelineError g array) s = .next u ∧
      (if array then (u.core (coreOfPart part)).arrayOut = true
        else part ∈ (u.core (coreOfPart part)).partsOut) ∧
      ∀ v, v = t ∨ v = u →
        (tm.relaunch = true → tm.relaunched = false → (v.team (s.group g).team).groups = [] ∧
          (v.team (s.group g).team).relaunched = true ∧ (g ∈ tm.groups → v.group g = Group.empty)) ∧
        (tm.relaunch = false ∨ tm.relaunched = true → (v.ctx tm.ctx).kills =
          (s.ctx tm.ctx).kills ++ [⟨if tm.relaunched then 7 else 6, 0⟩])) ∧
  (∀ (part : Nat) (array pass : Bool) (s : State), part < 1024 → s.bootStat = 1 →
    part ∈ (s.core (coreOfPart part)).partsOut ∨ (s.partUse part).1 < 16 →
    ∃ t, exec (.infieldTest part array pass) s = .next t ∧ t.groups = s.groups ∧
      let b := s.core (coreOfPart part)
      let c := t.core (coreOfPart part)
      (if array then c.arrayOut = !pass else (part ∈ c.partsOut ↔ pass = false)) ∧
      (testUnit part array ∈ c.testDue ↔ pass = false) ∧
      128 * c.avail + c.credit ≤ 128 * b.avail + b.credit ∧
      ((∃ g ∈ s.groups, g.2.resident = true ∧ g.2.core = coreOfPart part ∧ ∃ n, g.2.wait = .token n) →
        c.avail = b.avail ∧ c.credit = b.credit) ∧
      t.errors = if pass then s.errors else s.errors ++ [(5, part)])

/-- R40, R381 to R389: a stop keeps a partition from issuing with its groups dumped, and a resume lets the lanes that
the debugger stopped run; a single step posts one event; a sample sets the time of the next and writes 32 bytes in the trace
buffer of the context of one group that has not issued, with its issue address, its REASON and the address to BLAME; a
snapshot trigger latches every core's header, and before the first a block's reads zero. That a request which the Trace core
refuses changes nothing (logs 30 and 57), that a sampling period is counted in steps (log 6), that every core latches a
snapshot in one step (log 29), and when a fixed latency or a bank conflict holds a group back (log 47), are the model's
choices. -/
def Obligations.DebugEvents : Prop :=
  (∀ (part : Nat) (s : State), s.bootStat = 1 → part < 1024 → (s.part part).stopped = false →
    (∀ g ∈ s.residents part, s.debugOk g.2.ctx = true ∧ g.2.scout = false) →
    exec (.partitionStop part) s =
      .next (s.modPart part (fun p => { p with stopped := true, dump := s.residents part }))) ∧
  (∀ (part : Nat) (s : State), s.bootStat = 1 → part < 1024 → (s.part part).stopped = true →
    ∃ t, exec (.partitionResume part) s = .next t ∧ (t.part part).stopped = false ∧
      ∀ k, ∀ l < (s.group k).width, let x := (s.group k).lane l
        (t.group k).lane l =
          if x.dbgStop.isSome ∧ x.dbgPart = part then { x with lst := .running, dbgStop := none } else x) ∧
  (∀ (g lane : Nat) (s : State),
    let l := (s.group g).lane lane
    (s.group g).resident = true → (s.part (s.group g).part).stopped = true →
    if s.debugOk (s.group g).ctx = false ∨ s.bootStat ≠ 1 then
      exec (.laneStop g lane) s = .next s ∧ exec (.laneResume g lane) s = .next s
    else
    (lane < (s.group g).width → l.lst = .running ∨ l.lst = .waiting →
      exec (.laneStop g lane) s = .next (s.modLane g lane (fun x =>
        { x with lst := .parked, dbgStop := some x.lst, dbgPart := (s.group g).part }))) ∧
    (l.dbgStop.isSome = true → (s.part l.dbgPart).stopped = true → ∃ t, exec (.laneResume g lane) s = .next t ∧
      (t.group g).lane lane = { l with lst := .running, dbgStop := none } ∧
      (∀ m, m ≠ lane → (t.group g).lane m = (s.group g).lane m) ∧ (∀ k, k ≠ g → t.group k = s.group k) ∧
      t.mem = s.mem)) ∧
  (∀ (g : Nat) (s : State), (s.group g).resident = true → (s.group g).ss = true → (s.group g).dbgStop = true →
    (s.group g).records = [] → (s.group g).wait.unwritten = false → s.stepEvents.contains g = false →
    exec (.singleStep g) s = .next { s with stepEvents := s.stepEvents ++ [g] }) ∧
  (∀ (part : Nat) (s : State), s.bootStat = 1 → part < 1024 → (s.part part).period ≠ 0 → (s.part part).sampleNext ≤ s.steps →
    ∃ t, exec (.stallSample part) s = .next t ∧ (t.part part).sampleNext = s.steps + (s.part part).period ∧
      (s.moving = [] → t.groups = s.groups)) ∧
  (∀ (part k : Nat) (s : State),
    let g := s.group k
    let c := s.ctx g.ctx
    let n := c.traceLen.toNat / 32
    s.bootStat = 1 → part < 1024 → (s.part part).period ≠ 0 → (s.part part).sampleNext ≤ s.steps →
    s.sampleOf part = some k → n ≠ 0 →
    g.lastIssue ≠ s.steps ∧ ∃ (t v : State) (slot reason : Nat) (blame : W64), exec (.stallSample part) s = .next t ∧ s.SampleTells k reason blame ∧
      (s.residents part)[slot]?.map Prod.fst = some k ∧ v.mem = s.mem ∧ v.l2 = s.l2 ∧ v.ctxs = s.ctxs ∧
      (v.part part).sampled = k ∧
      let bytes := leBytes 8 (v.core g.core).cyc.toNat ++ leBytes 8 (g.issuePc.getD 0).toNat ++ leBytes 8 blame.toNat ++
        leBytes 2 g.ctx ++ leBytes 2 g.inc ++ leBytes 1 reason ++ leBytes 1 slot ++ leBytes 2 (s.lastSsn g.core)
      ∀ u r, v.devWrite g.ctx (c.trace.toNat + 32 * (c.traceNext % n)) bytes = (u, r) → match r with
        | .ok _ => t.mem = u.mem ∧ t.l2 = u.l2 ∧ (t.ctx g.ctx).traceNext = (u.ctx g.ctx).traceNext + 1
        | .error _ => t = u.logError 6 g.ctx) ∧
  (∀ (src ctx : Nat) (s : State), s.bootStat = 1 → src = 2 ∨ src = 1 ∧ (s.ctx ctx).used = true ∧ (s.ctx ctx).debug = true →
    exec (.snapshotTrigger src 0 ctx) s = .next (s.snapshot src 0) ∧
    (s.ssn ≤ 1 → (s.snapshot src 0).ssn = s.ssn + 1 ∧ ∀ core < 256,
      ((s.snapshot src 0).snaps.get Snap.none core).ssn = s.ssn % 2 ^ 32 ∧
      ((s.snapshot src 0).snaps.get Snap.none core).src = src)) ∧
  (∀ (b : Block) (die index : Nat) (s : State), s.snaps = [] → s.header b die index = 0)

/-- R257, R322, R344, R347, R351, R384, R390 to R400: what the host, its management controller, its peers and the
firmware of bring-up may do to the package. What the DEBUG window keeps, which features FEATCAP offers, what refused
accesses return, what bring-up finds, that a create with tables which the Memory core would refuse fails, and that a change of
a mapping waits for transactions in its pages, are the model's choices (logs 35, 36, 42, 48 and 49), and so are the ways that a
mask counts as lost, and the kinds of logged errors (log 37). -/
def Obligations.HostControl : Prop :=
  (∀ (v : W64) (s : State),
    exec (.feataccWrite v) s = .next (if s.featWritten then s
      else { s with featAcc := v.toNat % 1024, featWritten := true }) ∧
    exec (.pwrcapWrite v) s = .next { s with
      pwrCap := max 2100 (min v.toNat (if Config.isCard then s.brdLim else 2800)) } ∧
    (s.brdWritten = false → 2100 ≤ v.toNat → v.toNat ≤ 2800 →
      exec (.brdlimWrite v) s = .next { s with brdLim := v.toNat, brdWritten := true }) ∧
    exec (.registerWrite .ctxtab v) s = .next { s with ctxTab := v.toNat } ∧
    (∀ off, off + 8 ≤ 4096 → ∃ t, exec (.registerWrite (.debug off) v) s = .next t ∧
      { t with debugWin := s.debugWin } = s ∧ t.bar0 (0x1000 + off) = v) ∧
    (∀ off, exec (.registerWrite (.read off) v) s = .next { s with hostData := leBytes 8 (s.bar0 off).toNat }) ∧
    (leBytes 8 (s.bar0 0).toNat).getD 7 0 = 0xB0 ∧ s.bar0 0x18 = 0 ∧
    (∀ off, exec (.registerWrite (.fixed off) v) s = .next s) ∧
    ∀ part < 1024, ∀ k < 8,
      (s.bootStat ≠ 1 → ∀ r ∈ [HostReg.wlo part k, .whi part k, .wctl part k, .samplePeriod part, .singleStep k, .snapEnable k],
        exec (.registerWrite r v) s = .next s) ∧
      (s.bootStat = 1 →
        exec (.registerWrite (.wlo part k) v) s = .next (s.modPart part (fun p => { p with wlo := p.wlo.set k v })) ∧
        exec (.registerWrite (.whi part k) v) s = .next (s.modPart part (fun p => { p with whi := p.whi.set k v })) ∧
        (wctlEn v = false ∨ s.debugOk (wctlCtx v) = true → exec (.registerWrite (.wctl part k) v) s =
          .next (s.modPart part (fun p => { p with wctl := p.wctl.set k (v &&& 0x3FF0037) }))))) ∧
  (∀ (ctx : Nat) (s : State), ctx < 1024 → s.bootStat = 1 → s.ctxStat ≠ 1 →
    (∀ desc, s.createStatus ctx = (0, desc) →
      let c := contextOf desc (s.ownBytes desc 4096)
      let u := { s with ctxs := s.ctxs.set Context.none ctx c, ctxStat := 0 }
      (u.badTables ctx = true → exec (.ctxCreate ctx) s = .next { s with ctxStat := 2 }) ∧
      (u.badTables ctx = false → ∃ t, exec (.ctxCreate ctx) s = .next t ∧ t.ctx ctx = c ∧ t.ctxStat = 0 ∧
        t.groups = s.groups)) ∧
    (∀ st d, s.createStatus ctx = (st, d) → st ≠ 0 → exec (.ctxCreate ctx) s = .next { s with ctxStat := st }) ∧
    (s.featWritten = true → (s.ctx ctx).used = true → exec (.ctxCreate ctx) s = .next { s with ctxStat := 4 } ∧
      ∃ t, exec (.ctxDestroy ctx) s = .next t ∧ t.ctxStat = 1 ∧ (t.ctx ctx).destroying = true ∧
        (t.ctx ctx).kills = (s.ctx ctx).kills ++ [⟨1, 0⟩])) ∧
  (∀ (ctx : Nat) (s : State), ctx < 1024 → s.featWritten = false → s.ctxStat ≠ 1 →
    exec (.ctxCreate ctx) s = .next { s with ctxStat := 3 } ∧ exec (.ctxDestroy ctx) s = .next { s with ctxStat := 3 }) ∧
  (∀ (ctx off : Nat) (bytes : List Byte) (s u : State),
    let c := s.ctx ctx
    let va := c.hwin.toNat + off
    let xlat := fun (need : Need) (s : State) (a m : Nat) (hit : Bool) => s.devWalk ctx need a m hit
    (∀ op, c.used = false ∨ c.isOpen = false → exec (.hostWindowAccess ctx off op bytes) s = .next s) ∧
    (ctx < 1024 → bytes ≠ [] → off + bytes.length ≤ 2 ^ 30 → c.used = true → c.isOpen = true →
    (c.inHro va bytes.length false = false → s.writeBy ctx (xlat .write) va bytes = (u, .ok ()) →
      exec (.hostWindowAccess ctx off .write bytes) s = .next u) ∧
    (∀ e, c.inHro va bytes.length false = false → s.writeBy ctx (xlat .write) va bytes = (u, .error e) →
      exec (.hostWindowAccess ctx off .write bytes) s = .next (u.logError 7 ctx)) ∧
    (c.inHro va bytes.length false = true →
      exec (.hostWindowAccess ctx off .write bytes) s = .next (s.logError 7 ctx)) ∧
    (∀ bs, c.conf = false ∨ c.inHro va bytes.length true = true →
      s.readBy ctx (xlat .read) va bytes.length = (u, .ok bs) →
      exec (.hostWindowAccess ctx off .read bytes) s = .next { u with hostData := bs }) ∧
    (∀ e, c.conf = false ∨ c.inHro va bytes.length true = true →
      s.readBy ctx (xlat .read) va bytes.length = (u, .error e) →
      ∃ t, exec (.hostWindowAccess ctx off .read bytes) s = .next t ∧
        t.hostData = List.replicate bytes.length 255 ∧ t.mem = u.mem) ∧
    (c.conf = true → c.inHro va bytes.length true = false →
      ∃ t, exec (.hostWindowAccess ctx off .read bytes) s = .next t ∧
        t.hostData = List.replicate bytes.length 255 ∧ t.mem = s.mem) ∧
    (∀ pa, bytes.length = 8 → va % 8 = 0 → c.conf = false → c.inHro va 8 false = false →
      s.devWalk ctx .rw va 8 = (u, .ok pa) → u.poisoned pa = false →
      exec (.hostWindowAccess ctx off .fetchAdd bytes) s = .next { u.sysWrite pa
        (leBytes 8 ((leNat (u.seenBytes ctx pa 8) + leNat bytes) % 2 ^ 64)) (u.keyOf ctx) with
          hostData := u.seenBytes ctx pa 8 }))) ∧
  (∀ (ctx inc pa : Nat) (op : PeerOp) (bytes : List Byte) (s : State),
    pa < 2 ^ 51 → s.featAcc.testBit 7 = true →
    if s.hasRange pa bytes.length = false then exec (.peerAccess ctx inc pa op bytes) s = .next s
    else
    if (s.ctx ctx).used = true ∧ (s.ctx ctx).isOpen = true ∧ (s.ctx ctx).inc = inc then
      s.tileMoves pa = false →
      (op = .write → exec (.peerAccess ctx inc pa op bytes) s = .next (s.ownWrite ctx true pa bytes)) ∧
      ((∀ k < bytes.length, s.poisoned (pa + k) = false) →
        (op = .read → exec (.peerAccess ctx inc pa op bytes) s =
          .next { s with hostData := s.seenBytes ctx pa bytes.length }) ∧
        ∀ sgn v, op = .atomic 0 sgn v → bytes.length = 8 → exec (.peerAccess ctx inc pa op bytes) s =
          .next ({ s with hostData := s.seenBytes ctx pa 8 }.ownWrite ctx false pa
            (leBytes 8 ((leNat (s.seenBytes ctx pa 8) + leNat bytes) % 2 ^ 64))))
    else exec (.peerAccess ctx inc pa op bytes) s = .next s) ∧
  (∀ (port : Nat) (s : State), port < 24 → s.portsDown.contains port = false →
    exec (.linkPortFailure port) s = .next { s with portsDown := s.portsDown ++ [port] }) ∧
  (∀ (b : Boot) (s : State), s.bootStat = 0 → b.meas.length = 256 →
    (∀ n < 8, exec (.resetBoot (some n) b) s = .next { s with bootStat := 2 + n, meas := b.meas }) ∧
    ∃ t, exec (.resetBoot none b) s = .next t ∧ t.bootStat = 1 ∧ t.meas = b.meas ∧ t.domainNo = b.domain % 256 ∧
      t.mem = s.mem ∧ t.ctxs = s.ctxs ∧
      ∀ core slots store, b.vaults = [(core, slots, store)] → core < 256 → slots ≤ 2 →
        store = 1048576 ∨ store = 2097152 → (t.core core).slots = slots ∧ (t.core core).store = store) ∧
  (∀ (ctx va len : Nat) (writes : List (Nat × W64)) (backing : Bool) (s : State), (s.ctx ctx).used = true →
    s.bootStat = 1 →
    let refused := writes.any (fun w => w.1 % 8 != 0 || !isHbm w.1 || s.refusesMap w.2 || (backing && pteSieve w.2)) ||
      s.protClash writes
    let t := s.changeMap writes
    s.txHolds (s.unmaps writes) = false →
    exec (.mappingChange ctx va len writes backing) s = .next (if refused then s
      else if backing then s.modCtx ctx (fun c => { c with backing := c.backing ++ [⟨va, len, writes⟩] })
      else if t.sieveSplit then s
      else t)) ∧
  (∀ (die q : Nat) (ways : BitVec 16) (s : State), die < 8 → q < 16 → s.bootStat = 1 →
    exec (.wayMaskWrite die q ways) s = .next (
      if (List.range 16).any (fun w => ways.getLsbD w && !(s.die die).quarantined.any (fun k => k % 16 == w)) then
        s.modDie die (fun d => { d with ways := d.ways.set 0xFFFF q ways })
      else s))

/-! ### Encoding, the step, refusal at decode, reset, and an invariant -/

/-- R46, R47, R93, R107, R386: a partition's issue runs the instruction that it decodes at the smallest PC of the
group it picks, in the state that the fetch leaves; what does not decode parks every lane at the minimum with cause 1,
detail 0; and a step whose turn is a partition's is its issue at the advanced clock. That an event of another agent
may come between two issues, and in which turn, is the model's choice (log 3). -/
def Obligations.StepRunsDecoded : Prop :=
  (∀ (part : Nat) (ms : List Move) (s : State), s.clock.urgent = none → s.moves = .issue part :: ms →
    step s = issueOn part { s.clock with moves := ms }) ∧
  (∀ (part : Nat) (s : State), s.clock.urgent = none → s.moves = [] → s.clock.steps % 6 = 0 →
    s.clock.issueTurn = some part → step s = issueOn part s.clock) ∧
  (∀ (part k : Nat) (pc : W64) (bs : List Byte) (s u : State),
    let v := s.ringWaits part
    let after := fun (t : State) => ((t.startScout k (v.group k)).stepStop k).haltMasked k
    v.pick part = some k → (v.group k).issuePc = some pc →
    v.fetch (v.group k).core (v.group k).ctx pc.toNat (v.group k).scout ((v.group k).fetched pc) = (u, .bytes bs) →
    (∀ i, decodeBytes (v.group k).width bs = .ok i →
      issueOn part s = match exec i { u with cur := k } with
        | .next t => .next (after t)
        | o => o) ∧
    (∀ e, decodeBytes (v.group k).width bs = .error e → (v.group k).scout = false →
      ∃ w, issueOn part s = .next (after w) ∧
        (∀ l ∈ (v.group k).atMin pc, ((w.group k).lane l).ParkedAt pc 1 0 0) ∧
        (∀ l, l ∉ (v.group k).atMin pc → (w.group k).lane l = (u.group k).lane l)))

/-- R91, R94 to R99, R107, R109: words that the spec writes out decode to the instructions they stand for, and words
that it calls illegal are refused. -/
def Obligations.DecodeWords : Prop :=
  let w := fun (w0 w1 w2 : Nat) => decodeBytes 64 (leBytes 4 w0 ++ leBytes 4 w1 ++ leBytes 4 w2)
  let c := Ctl.plain
  w 0xFFEFA000 0x00004005 0x0002A005 =
    .ok (.add .s32 false { c with pred := 2, mark := true, keepA := true } ⟨.v 5 .plain, .v 4 .plain, .imm (-17)⟩) ∧
  w 0x04001000 0x00003010 0x40C11009 =
    .ok (.fma false .f32 .rz { c with pred := 1, keepB := true } ⟨.v 9 .plain, .v 3 .neg, .v 4 .plain⟩) ∧
  w 0x00008000 0x01204004 0x80457400 = .ok (.st .z32 { c with mark := true } ⟨.imm 1, .s 4, .imm 0⟩) ∧
  w 0x00108000 0x00202004 0x810C7003 = .ok (.ldl .wf .s32 { c with mark := true } ⟨.v 3 .plain, .s 2, .imm 16⟩) ∧
  w 0x00020000 0x03008004 0xC1C17400 = .ok (.beq 1 c ⟨.imm 3, .v 8 .plain, .imm 2⟩) ∧
  w 0x00000000 0x005FFFBE 0xC0807E00 = .ok (.call c ⟨.none, .imm (-5), .none⟩) ∧
  w 0x00000000 0x0080800E 0xE140700C = .ok (.mfsr c ⟨.v 12 .plain, .sp 8 0, .none⟩) ∧
  w 0x00000000 0x0040000E 0xC2407203 = .ok (.estdrop c ⟨.s 3, .imm 0, .none⟩) ∧
  w 0x03008000 0x00008002 0xF0087601 = .ok (.mma 1 .bf16 { c with mark := true } ⟨.acc 1 none, .v 8 .plain, .s 3⟩) ∧
  w 0x40000000 0x00000090 0xF0417600 = .ok (.mmq false .bf16 .g64 c ⟨.acc 0 none, .v 0 (.sel 9), .v 64 (.sel 0)⟩) ∧
  (∃ e, w 0xFFEFA000 0x00004005 0x0002F005 = .error e) ∧ (∃ e, w 0xFFEFA001 0x00004005 0x0002A005 = .error e) ∧
  (∃ e, w 0xFFEFA300 0x00004005 0x0002A005 = .error e) ∧ (∃ e, w 0xFFEFA000 0x00004005 0x7002A005 = .error e) ∧
  (∃ e, w 0x00000000 0x0000400C 0x06C07003 = .error e)

/-- R91 to R99, R109: every well-formed instruction, in a group of any width, has a word of 96 bits that the decoder
reads back as that instruction, with every operand, hint and qualifier as it was. -/
def Obligations.DecodeEncode : Prop :=
  ∀ (w : Nat) (i : Instr), i.wf w = true →
    encode i < 2 ^ 96 ∧ decodeWord w (encode i) = .ok i ∧ decodeBytes w (encodeBytes i) = .ok i

/-- R45, R104, R105, R107: a program instruction always answers a next state; one that decode refuses parks every lane
at the minimum with cause 1 and the detail of the first step that refuses it, with the hints of an issue and no
register, flag or byte changed; and under `HC` an active lane of an `add` that would read a register with a result on
its way parks with cause 8, detail 0x10. -/
def Obligations.RefusedInstructions : Prop :=
  (∀ (i : Instr) (s : State), i.isEvent = false → ∃ t, exec i s = .next t) ∧
  (∀ (i : Instr) (pc : W64) (d : Nat) (s : State),
    let g := s.group s.cur
    i.isEvent = false → g.issuePc = some pc → g.scout = false → s.free_ → s.gateCheck g i = some d →
    ∃ t, exec i s = .next t ∧ OnlyGroup s t ∧ g.Alike (t.group s.cur) ∧
      (t.group s.cur).sregs = g.sregs ∧ (t.group s.cur).gsw = g.gsw ∧ (t.group s.cur).pend = g.pend ∧
      (t.group s.cur).opcache = [none, none, none] ∧ (t.group s.cur).lastIssue = s.steps ∧ (t.group s.cur).lastPc = pc ∧
      (t.group s.cur).yielded = i.ctl.yield ∧ (t.group s.cur).marker = i.ctl.mark ∧
      ∀ l, (t.group s.cur).lane l = if l ∈ g.atMin pc
        then { g.lane l with lst := .parked, pc := pc, cause := BitVec.ofNat 32 (1 + 16 * d), addr := 0 }
        else g.lane l) ∧
  (∀ (i : Instr) (g : Group) (s : State),
    (featureOk s.featAcc i = false → s.gateCheck g i = some 2) ∧
    (featureOk s.featAcc i = true → g.role.allows (classOf i) = false → s.gateCheck g i = some 1) ∧
    (featureOk s.featAcc i = true → g.role.allows (classOf i) = true → allocOk g.width g.alloc i = false →
      s.gateCheck g i = some 3) ∧
    (featureOk s.featAcc i = true → g.role.allows (classOf i) = true → allocOk g.width g.alloc i = true →
      s.gateCheck g i = none)) ∧
  (∀ (t : IntTy) (sat : Bool) (c : Ctl) (o : Ops) (pc : W64) (l : Nat) (s : State),
    let i := Instr.add t sat c o
    let g := s.group s.cur
    g.issuePc = some pc → g.scout = false → s.gateCheck g i = none → g.hc = true →
    (∀ m ∈ g.atMin pc, (guardUnits c m).any g.pending = false) → (∀ m ∈ g.atMin pc, (g.lane m).tx = none) →
    l ∈ g.active i pc → (sources i g (g.active i pc) l).any g.pending = true →
    ∃ u, exec i s = .next u ∧ ((u.group s.cur).lane l).ParkedAt pc 8 0x10 0 ∧
      ∀ r, ((u.group s.cur).lane l).vreg r = (g.lane l).vreg r)

/-- The memory below the caches keeps its canonical form: every step, whatever happens in it, leaves addresses
strictly rising and no entry equal to what an unlisted address reads as (log 1), so that equal memories are equal
data. -/
def Obligations.CanonicalKept : Prop :=
  ∀ s t : State, s.Canonical → step s = .next t → t.Canonical

/-- R4, R237, R388, R390 to R393, R398 to R400: what reset leaves: no context, group or launch, nothing written in
memory, no context accepted before the features are written, the boot not done, the board limit at 2,100 W and
snapshots numbered from 1, with two save slots and an estate store of 2 MiB in each core. The slots and the values
that no rule gives are the model's choice (log 2). -/
def Obligations.ResetState : Prop :=
  let s := State.reset
  s.Canonical ∧ (∀ a, Memory.get s.mem a = memDefault) ∧ (∀ k, s.group k = Group.empty) ∧
  (∀ c, (s.ctx c).used = false) ∧ s.featAcc = 0 ∧ s.featWritten = false ∧ s.bootStat = 0 ∧ s.brdLim = 2100 ∧
  s.brdWritten = false ∧ s.ssn = 1 ∧ (∀ c, (s.core c).slots = 2 ∧ (s.core c).store = 2 * 2 ^ 20) ∧
  (∀ core line, s.l1Line core line = Line.none) ∧ (∀ die line, s.l2Line die line = Line.none) ∧
  (∀ ctx, ctx < 1024 → exec (.ctxCreate ctx) s = .next { s with ctxStat := 3 })
end

