-- ==== Sys2Proof/Laws/Map.lean ====
section
/-! SUPPORT. What the finite maps and the list of memory cells do: a read after a write, and the canonical
form that every write keeps. -/

namespace Sys2Proof.Machine

variable {V : Type}

/-! ### Reads after writes -/

theorem FMap.get_erase_self (d : V) (m : FMap V) (k : Nat) : FMap.get d (FMap.erase m k) k = d := by
  induction m with
  | nil => rfl
  | cons p m ih =>
    obtain ⟨j, w⟩ := p
    by_cases h : j = k <;> simp [FMap.erase, FMap.get, h, ih]

theorem FMap.get_erase_ne (d : V) (m : FMap V) {k j : Nat} (h : j ≠ k) :
    FMap.get d (FMap.erase m k) j = FMap.get d m j := by
  induction m with
  | nil => rfl
  | cons p m ih =>
    obtain ⟨i, w⟩ := p
    by_cases hi : i = k
    · simp [FMap.erase, FMap.get, hi, ih, h.symm]
    · by_cases hj : i = j
      · subst hj; simp [FMap.erase, FMap.get, hi]
      · simp [FMap.erase, FMap.get, hi, hj, ih]

theorem FMap.get_insert_self (d : V) (m : FMap V) (k : Nat) (v : V) (h : ∀ p ∈ m, p.1 ≠ k) :
    FMap.get d (FMap.insert k v m) k = v := by
  induction m with
  | nil => simp [FMap.insert, FMap.get]
  | cons p m ih =>
    obtain ⟨i, w⟩ := p
    have hi : i ≠ k := h (i, w) (by simp)
    have hm : ∀ q ∈ m, q.1 ≠ k := fun q hq => h q (by simp [hq])
    by_cases hk : k ≤ i <;> simp [FMap.insert, FMap.get, hk, hi, ih hm]

theorem FMap.get_insert_ne (d : V) (m : FMap V) {k j : Nat} (v : V) (h : j ≠ k) :
    FMap.get d (FMap.insert k v m) j = FMap.get d m j := by
  induction m with
  | nil => simp [FMap.insert, FMap.get, h.symm]
  | cons p m ih =>
    obtain ⟨i, w⟩ := p
    by_cases hk : k ≤ i
    · simp [FMap.insert, FMap.get, hk, h.symm]
    · by_cases hj : i = j
      · subst hj; simp [FMap.insert, FMap.get, hk]
      · simp [FMap.insert, FMap.get, hk, hj, ih]

theorem FMap.mem_erase {m : FMap V} {k : Nat} {p : Nat × V} (h : p ∈ FMap.erase m k) : p ∈ m ∧ p.1 ≠ k := by
  induction m with
  | nil => simp [FMap.erase] at h
  | cons q m ih =>
    obtain ⟨i, w⟩ := q
    by_cases hi : i = k
    · simp only [FMap.erase, hi, if_true] at h
      exact ⟨by simp [(ih h).1], (ih h).2⟩
    · simp only [FMap.erase, hi, if_false, List.mem_cons] at h
      rcases h with rfl | h
      · exact ⟨by simp, hi⟩
      · exact ⟨by simp [(ih h).1], (ih h).2⟩

/-- A read of a key after a write of it gives the value written. -/
@[simp] theorem FMap.get_set_self [DecidableEq V] (d : V) (m : FMap V) (k : Nat) (v : V) :
    FMap.get d (FMap.set d m k v) k = v := by
  unfold FMap.set
  split
  · next h => rw [FMap.get_erase_self, h]
  · exact FMap.get_insert_self d _ k v (fun p hp => (FMap.mem_erase hp).2)

/-- A write leaves every other key alone. -/
theorem FMap.get_set_ne [DecidableEq V] (d : V) (m : FMap V) {k j : Nat} (v : V) (h : j ≠ k) :
    FMap.get d (FMap.set d m k v) j = FMap.get d m j := by
  unfold FMap.set
  split
  · exact FMap.get_erase_ne d m h
  · rw [FMap.get_insert_ne d _ v h, FMap.get_erase_ne d m h]

/-- A read after a write. -/
theorem FMap.get_set [DecidableEq V] (d : V) (m : FMap V) (k j : Nat) (v : V) :
    FMap.get d (FMap.set d m k v) j = if j = k then v else FMap.get d m j := by
  split
  · next h => rw [h, FMap.get_set_self]
  · next h => exact FMap.get_set_ne d m v h

/-! ### The canonical form -/

theorem FMap.wf_iff [DecidableEq V] (d : V) (m : FMap V) :
    FMap.wf d m = true ↔ m.Pairwise (fun a b => a.1 < b.1) ∧ ∀ p ∈ m, p.2 ≠ d := by
  simp [FMap.wf]

theorem FMap.erase_sublist (m : FMap V) (k : Nat) : (FMap.erase m k).Sublist m := by
  induction m with
  | nil => exact List.Sublist.refl _
  | cons p m ih =>
    obtain ⟨i, w⟩ := p
    by_cases h : i = k
    · simpa [FMap.erase, h] using ih.cons (i, w)
    · simpa [FMap.erase, h] using ih.cons_cons (i, w)

theorem FMap.mem_insert {m : FMap V} {k : Nat} {v : V} {p : Nat × V} (h : p ∈ FMap.insert k v m) :
    p = (k, v) ∨ p ∈ m := by
  induction m with
  | nil => simpa [FMap.insert] using h
  | cons q m ih =>
    obtain ⟨i, w⟩ := q
    by_cases hk : k ≤ i
    · simpa [FMap.insert, hk] using h
    · simp only [FMap.insert, hk, if_false, List.mem_cons] at h
      rcases h with rfl | h
      · simp
      · rcases ih h with h | h <;> simp [h]

theorem FMap.pairwise_insert {m : FMap V} {k : Nat} {v : V} (hm : m.Pairwise (fun a b => a.1 < b.1))
    (hk : ∀ p ∈ m, p.1 ≠ k) : (FMap.insert k v m).Pairwise (fun a b => a.1 < b.1) := by
  induction m with
  | nil => simp [FMap.insert]
  | cons q m ih =>
    obtain ⟨i, w⟩ := q
    rw [List.pairwise_cons] at hm
    have hi : i ≠ k := hk (i, w) (by simp)
    have hr : ∀ p ∈ m, p.1 ≠ k := fun p hp => hk p (by simp [hp])
    by_cases h : k ≤ i
    · simp only [FMap.insert, h, if_true, List.pairwise_cons, List.mem_cons]
      refine ⟨?_, hm.1, hm.2⟩
      rintro p (rfl | hp)
      · simp only; omega
      · have := hm.1 p hp; simp only at *; omega
    · simp only [FMap.insert, h, if_false, List.pairwise_cons]
      refine ⟨?_, ih hm.2 hr⟩
      intro p hp
      rcases FMap.mem_insert hp with rfl | hp
      · simp only; omega
      · exact hm.1 p hp

/-- A write keeps the canonical form. -/
theorem FMap.wf_set [DecidableEq V] {d : V} {m : FMap V} (h : FMap.wf d m = true) (k : Nat) (v : V) :
    FMap.wf d (FMap.set d m k v) = true := by
  rw [FMap.wf_iff] at *
  have he : (FMap.erase m k).Pairwise (fun a b => a.1 < b.1) := h.1.sublist (FMap.erase_sublist m k)
  unfold FMap.set
  split
  · exact ⟨he, fun p hp => h.2 p (FMap.mem_erase hp).1⟩
  · next hv =>
    refine ⟨FMap.pairwise_insert he (fun p hp => (FMap.mem_erase hp).2), fun p hp => ?_⟩
    rcases FMap.mem_insert hp with rfl | hp
    · exact hv
    · exact h.2 p (FMap.mem_erase hp).1

/-- A selection of entries keeps the canonical form. -/
theorem FMap.wf_filter [DecidableEq V] {d : V} {m : FMap V} (h : FMap.wf d m = true) (f : Nat × V → Bool) :
    FMap.wf d (m.filter f) = true := by
  rw [FMap.wf_iff] at *
  exact ⟨h.1.sublist List.filter_sublist, fun p hp => h.2 p (List.mem_of_mem_filter hp)⟩

@[simp] theorem FMap.get_nil (d : V) (k : Nat) : FMap.get d [] k = d := rfl
theorem FMap.wf_nil [DecidableEq V] (d : V) : FMap.wf d [] = true := by simp [FMap.wf]

/-! ### Memory cells -/

theorem Memory.get_set (m : Memory) (a b : Nat) (x : Byte) :
    Memory.get (Memory.set m a x) b = if b = a then x else Memory.get m b :=
  FMap.get_set memDefault m a b x

theorem Memory.wf_nil : Memory.wf [] = true := FMap.wf_nil memDefault

theorem Memory.wf_set {m : Memory} (h : Memory.wf m = true) (a : Nat) (x : Byte) :
    Memory.wf (Memory.set m a x) = true := FMap.wf_set h a x

theorem Memory.wf_setBytes {m : Memory} (h : Memory.wf m = true) (a : Nat) (bs : List Byte) :
    Memory.wf (Memory.setBytes m a bs) = true := by
  induction bs generalizing m a with
  | nil => exact h
  | cons b bs ih => exact ih (Memory.wf_set h a b) (a + 1)

theorem Memory.wf_filter {m : Memory} (h : Memory.wf m = true) (f : Host.Cell → Bool) :
    Memory.wf (m.filter f) = true := FMap.wf_filter h f

end Sys2Proof.Machine
end

