-- ==== Sys2Proof/Laws/State.lean ====
section
/-! SUPPORT. Reads of State and its parts after each update, true by unfolding the update once. -/

namespace Sys2Proof.Machine

/-! ### Groups -/

@[simp] theorem State.setGroup_group_self (s : State) (k : Nat) (g : Group) : (s.setGroup k g).group k = g :=
  FMap.get_set_self _ _ _ _
theorem State.setGroup_group_ne (s : State) {k j : Nat} (g : Group) (h : j ≠ k) :
    (s.setGroup k g).group j = s.group j := FMap.get_set_ne _ _ _ h
@[simp] theorem State.modGroup_group_self (s : State) (k : Nat) (f : Group → Group) :
    (s.modGroup k f).group k = f (s.group k) := FMap.get_set_self _ _ _ _
theorem State.modGroup_group_ne (s : State) {k j : Nat} (f : Group → Group) (h : j ≠ k) :
    (s.modGroup k f).group j = s.group j := FMap.get_set_ne _ _ _ h
theorem State.modGroup_eq (s : State) (k : Nat) (f : Group → Group) :
    s.modGroup k f = { s with groups := s.groups.set Group.empty k (f (s.group k)) } := rfl

@[simp] theorem State.modGroup_cur (s : State) (k f) : (s.modGroup k f).cur = s.cur := rfl
@[simp] theorem State.modGroup_teams (s : State) (k f) : (s.modGroup k f).teams = s.teams := rfl
@[simp] theorem State.modGroup_ctxs (s : State) (k f) : (s.modGroup k f).ctxs = s.ctxs := rfl
@[simp] theorem State.modGroup_parts (s : State) (k f) : (s.modGroup k f).parts = s.parts := rfl
@[simp] theorem State.modGroup_mem (s : State) (k f) : (s.modGroup k f).mem = s.mem := rfl
@[simp] theorem State.modGroup_l1 (s : State) (k f) : (s.modGroup k f).l1 = s.l1 := rfl
@[simp] theorem State.modGroup_l2 (s : State) (k f) : (s.modGroup k f).l2 = s.l2 := rfl
@[simp] theorem State.modGroup_quota (s : State) (k f) : (s.modGroup k f).quota = s.quota := rfl
@[simp] theorem State.modGroup_seals (s : State) (k f) : (s.modGroup k f).seals = s.seals := rfl
@[simp] theorem State.modGroup_tlb (s : State) (k f) : (s.modGroup k f).tlb = s.tlb := rfl
@[simp] theorem State.modGroup_stale (s : State) (k f) : (s.modGroup k f).stale = s.stale := rfl
@[simp] theorem State.modGroup_unmapped (s : State) (k f) : (s.modGroup k f).unmapped = s.unmapped := rfl
@[simp] theorem State.modGroup_steps (s : State) (k f) : (s.modGroup k f).steps = s.steps := rfl
@[simp] theorem State.modGroup_featAcc (s : State) (k f) : (s.modGroup k f).featAcc = s.featAcc := rfl
@[simp] theorem State.modGroup_team (s : State) (k f j) : (s.modGroup k f).team j = s.team j := rfl
@[simp] theorem State.modGroup_ctx (s : State) (k f j) : (s.modGroup k f).ctx j = s.ctx j := rfl
@[simp] theorem State.modGroup_core (s : State) (k f j) : (s.modGroup k f).core j = s.core j := rfl
@[simp] theorem State.modGroup_part (s : State) (k f j) : (s.modGroup k f).part j = s.part j := rfl
@[simp] theorem State.modGroup_launch (s : State) (k f j) : (s.modGroup k f).launch j = s.launch j := rfl
@[simp] theorem State.modGroup_tree (s : State) (k f j) : (s.modGroup k f).tree j = s.tree j := rfl
@[simp] theorem State.modGroup_die (s : State) (k f j) : (s.modGroup k f).die j = s.die j := rfl
@[simp] theorem State.modGroup_ownByte (s : State) (k f a) : (s.modGroup k f).ownByte a = s.ownByte a := rfl
@[simp] theorem State.modGroup_ownSeen (s : State) (k f c a) : (s.modGroup k f).ownSeen c a = s.ownSeen c a := rfl
@[simp] theorem State.modGroup_poison (s : State) (k f) : (s.modGroup k f).poison = s.poison := rfl

/-! ### Other parts -/

@[simp] theorem State.modTeam_team_self (s : State) (k : Nat) (f : Team → Team) :
    (s.modTeam k f).team k = f (s.team k) := FMap.get_set_self _ _ _ _
theorem State.modTeam_team_ne (s : State) {k j : Nat} (f : Team → Team) (h : j ≠ k) :
    (s.modTeam k f).team j = s.team j := FMap.get_set_ne _ _ _ h
@[simp] theorem State.modTeam_group (s : State) (k f j) : (s.modTeam k f).group j = s.group j := rfl
@[simp] theorem State.modTeam_mem (s : State) (k f) : (s.modTeam k f).mem = s.mem := rfl
@[simp] theorem State.modTeam_ctx (s : State) (k f j) : (s.modTeam k f).ctx j = s.ctx j := rfl
@[simp] theorem State.modTeam_core (s : State) (k f j) : (s.modTeam k f).core j = s.core j := rfl
@[simp] theorem State.modTeam_part (s : State) (k f j) : (s.modTeam k f).part j = s.part j := rfl
@[simp] theorem State.modTeam_cur (s : State) (k f) : (s.modTeam k f).cur = s.cur := rfl
@[simp] theorem State.modTeam_steps (s : State) (k f) : (s.modTeam k f).steps = s.steps := rfl
@[simp] theorem State.modTeam_ownByte (s : State) (k f a) : (s.modTeam k f).ownByte a = s.ownByte a := rfl

@[simp] theorem State.modCtx_ctx_self (s : State) (k : Nat) (f : Context → Context) :
    (s.modCtx k f).ctx k = f (s.ctx k) := FMap.get_set_self _ _ _ _
theorem State.modCtx_ctx_ne (s : State) {k j : Nat} (f : Context → Context) (h : j ≠ k) :
    (s.modCtx k f).ctx j = s.ctx j := FMap.get_set_ne _ _ _ h
@[simp] theorem State.modCtx_group (s : State) (k f j) : (s.modCtx k f).group j = s.group j := rfl
@[simp] theorem State.modCtx_groups (s : State) (k f) : (s.modCtx k f).groups = s.groups := rfl
@[simp] theorem State.modCtx_team (s : State) (k f j) : (s.modCtx k f).team j = s.team j := rfl
@[simp] theorem State.modCtx_mem (s : State) (k f) : (s.modCtx k f).mem = s.mem := rfl
@[simp] theorem State.modCtx_cur (s : State) (k f) : (s.modCtx k f).cur = s.cur := rfl
@[simp] theorem State.modCtx_core (s : State) (k f j) : (s.modCtx k f).core j = s.core j := rfl
@[simp] theorem State.modCtx_part (s : State) (k f j) : (s.modCtx k f).part j = s.part j := rfl

@[simp] theorem State.modCore_core_self (s : State) (k : Nat) (f : Core → Core) :
    (s.modCore k f).core k = f (s.core k) := FMap.get_set_self _ _ _ _
theorem State.modCore_core_ne (s : State) {k j : Nat} (f : Core → Core) (h : j ≠ k) :
    (s.modCore k f).core j = s.core j := FMap.get_set_ne _ _ _ h
@[simp] theorem State.modCore_group (s : State) (k f j) : (s.modCore k f).group j = s.group j := rfl
@[simp] theorem State.modCore_team (s : State) (k f j) : (s.modCore k f).team j = s.team j := rfl
@[simp] theorem State.modCore_ctx (s : State) (k f j) : (s.modCore k f).ctx j = s.ctx j := rfl
@[simp] theorem State.modCore_part (s : State) (k f j) : (s.modCore k f).part j = s.part j := rfl
@[simp] theorem State.modCore_mem (s : State) (k f) : (s.modCore k f).mem = s.mem := rfl
@[simp] theorem State.modCore_cur (s : State) (k f) : (s.modCore k f).cur = s.cur := rfl
@[simp] theorem State.modCore_ownByte (s : State) (k f a) : (s.modCore k f).ownByte a = s.ownByte a := rfl

@[simp] theorem State.modPart_part_self (s : State) (k : Nat) (f : Partition → Partition) :
    (s.modPart k f).part k = f (s.part k) := FMap.get_set_self _ _ _ _
theorem State.modPart_part_ne (s : State) {k j : Nat} (f : Partition → Partition) (h : j ≠ k) :
    (s.modPart k f).part j = s.part j := FMap.get_set_ne _ _ _ h
@[simp] theorem State.modPart_group (s : State) (k f j) : (s.modPart k f).group j = s.group j := rfl
@[simp] theorem State.modPart_groups (s : State) (k f) : (s.modPart k f).groups = s.groups := rfl
@[simp] theorem State.modPart_team (s : State) (k f j) : (s.modPart k f).team j = s.team j := rfl
@[simp] theorem State.modPart_ctx (s : State) (k f j) : (s.modPart k f).ctx j = s.ctx j := rfl
@[simp] theorem State.modPart_core (s : State) (k f j) : (s.modPart k f).core j = s.core j := rfl
@[simp] theorem State.modPart_cur (s : State) (k f) : (s.modPart k f).cur = s.cur := rfl
@[simp] theorem State.modPart_mem (s : State) (k f) : (s.modPart k f).mem = s.mem := rfl
@[simp] theorem State.modPart_steps (s : State) (k f) : (s.modPart k f).steps = s.steps := rfl

@[simp] theorem State.modDie_die_self (s : State) (k : Nat) (f : Die → Die) :
    (s.modDie k f).die k = f (s.die k) := FMap.get_set_self _ _ _ _
theorem State.modDie_die_ne (s : State) {k j : Nat} (f : Die → Die) (h : j ≠ k) :
    (s.modDie k f).die j = s.die j := FMap.get_set_ne _ _ _ h
@[simp] theorem State.modDie_group (s : State) (k f j) : (s.modDie k f).group j = s.group j := rfl
@[simp] theorem State.modDie_ctx (s : State) (k f j) : (s.modDie k f).ctx j = s.ctx j := rfl
@[simp] theorem State.modDie_mem (s : State) (k f) : (s.modDie k f).mem = s.mem := rfl

@[simp] theorem State.modLaunch_launch_self (s : State) (k : Nat) (f : Launch → Launch) :
    (s.modLaunch k f).launch k = f (s.launch k) := FMap.get_set_self _ _ _ _
theorem State.modLaunch_launch_ne (s : State) {k j : Nat} (f : Launch → Launch) (h : j ≠ k) :
    (s.modLaunch k f).launch j = s.launch j := FMap.get_set_ne _ _ _ h
@[simp] theorem State.modTree_tree_self (s : State) (k : Nat) (f : Tree → Tree) :
    (s.modTree k f).tree k = f (s.tree k) := FMap.get_set_self _ _ _ _
theorem State.modTree_tree_ne (s : State) {k j : Nat} (f : Tree → Tree) (h : j ≠ k) :
    (s.modTree k f).tree j = s.tree j := FMap.get_set_ne _ _ _ h

@[simp] theorem State.tick_group (s : State) (j) : s.tick.group j = s.group j := rfl
@[simp] theorem State.tick_free (s : State) : s.tick.free = s.free + 1 := rfl
@[simp] theorem State.tick_ownByte (s : State) (a) : s.tick.ownByte a = s.ownByte a := rfl
@[simp] theorem State.tick_ownSeen (s : State) (c a) : s.tick.ownSeen c a = s.ownSeen c a := rfl
@[simp] theorem State.tick_mem (s : State) : s.tick.mem = s.mem := rfl

/-! ### Lanes and registers -/

@[simp] theorem Group.setLane_lane_self (g : Group) (i : Nat) (l : Lane) : (g.setLane i l).lane i = l :=
  FMap.get_set_self _ _ _ _
theorem Group.setLane_lane_ne (g : Group) {i j : Nat} (l : Lane) (h : j ≠ i) : (g.setLane i l).lane j = g.lane j :=
  FMap.get_set_ne _ _ _ h
@[simp] theorem Group.modLane_lane_self (g : Group) (i : Nat) (f : Lane → Lane) : (g.modLane i f).lane i = f (g.lane i) :=
  FMap.get_set_self _ _ _ _
theorem Group.modLane_lane_ne (g : Group) {i j : Nat} (f : Lane → Lane) (h : j ≠ i) :
    (g.modLane i f).lane j = g.lane j := FMap.get_set_ne _ _ _ h
theorem Group.modLane_lane (g : Group) (i j : Nat) (f : Lane → Lane) :
    (g.modLane i f).lane j = if j = i then f (g.lane i) else g.lane j := FMap.get_set _ _ _ _ _
theorem Group.modLane_eq (g : Group) (i : Nat) (f : Lane → Lane) :
    g.modLane i f = { g with lanes := g.lanes.set Lane.birth i (f (g.lane i)) } := rfl

@[simp] theorem Group.modLane_width (g : Group) (i f) : (g.modLane i f).width = g.width := rfl
@[simp] theorem Group.modLane_sreg (g : Group) (i f r) : (g.modLane i f).sreg r = g.sreg r := rfl
@[simp] theorem Group.modLane_gsw (g : Group) (i f) : (g.modLane i f).gsw = g.gsw := rfl
@[simp] theorem Group.modLane_pend (g : Group) (i f) : (g.modLane i f).pend = g.pend := rfl

@[simp] theorem Group.hold_lane (g : Group) (w l) : (g.hold w).lane l = g.lane l := rfl
@[simp] theorem Group.hold_sreg (g : Group) (w r) : (g.hold w).sreg r = g.sreg r := rfl
@[simp] theorem Group.hold_gsw (g : Group) (w) : (g.hold w).gsw = g.gsw := rfl
@[simp] theorem Group.hold_pend (g : Group) (w) : (g.hold w).pend = g.pend := rfl
@[simp] theorem Group.hold_wait (g : Group) (w) : (g.hold w).wait = w := rfl
@[simp] theorem Group.hold_heldAt (g : Group) (w) : (g.hold w).heldAt = g.front := rfl

theorem Lane.setV_vreg (l : Lane) (r q : Nat) (x : W32) : (l.setV r x).vreg q = if q = r then x else l.vreg q :=
  FMap.get_set _ _ _ _ _
@[simp] theorem Lane.setV_vreg_self (l : Lane) (r : Nat) (x : W32) : (l.setV r x).vreg r = x :=
  FMap.get_set_self _ _ _ _
theorem Lane.setV_vreg_ne (l : Lane) {r q : Nat} (x : W32) (h : q ≠ r) : (l.setV r x).vreg q = l.vreg q :=
  FMap.get_set_ne _ _ _ h
@[simp] theorem Lane.setV_pred (l : Lane) (r x k) : (l.setV r x).pred k = l.pred k := rfl
@[simp] theorem Lane.setV_pc (l : Lane) (r x) : (l.setV r x).pc = l.pc := rfl
@[simp] theorem Lane.setV_lst (l : Lane) (r x) : (l.setV r x).lst = l.lst := rfl

@[simp] theorem Group.setS_sreg_self (g : Group) (r : Nat) (x : W64) : (g.setS r x).sreg r = x :=
  FMap.get_set_self _ _ _ _
theorem Group.setS_sreg_ne (g : Group) {r q : Nat} (x : W64) (h : q ≠ r) : (g.setS r x).sreg q = g.sreg q :=
  FMap.get_set_ne _ _ _ h
@[simp] theorem Group.setS_lane (g : Group) (r x l) : (g.setS r x).lane l = g.lane l := rfl
@[simp] theorem Group.setS_gsw (g : Group) (r x) : (g.setS r x).gsw = g.gsw := rfl

@[simp] theorem Group.discard_lane (g : Group) (u l) : (g.discard u).lane l = g.lane l := rfl
@[simp] theorem Group.discard_sreg (g : Group) (u r) : (g.discard u).sreg r = g.sreg r := rfl
@[simp] theorem Group.discard_gsw (g : Group) (u) : (g.discard u).gsw = g.gsw := rfl

@[simp] theorem Group.raise_lane (g : Group) (m l) : (g.raise m).lane l = g.lane l := by unfold Group.raise; split <;> rfl
@[simp] theorem Group.raise_sreg (g : Group) (m r) : (g.raise m).sreg r = g.sreg r := by unfold Group.raise; split <;> rfl
@[simp] theorem Group.raise_width (g : Group) (m) : (g.raise m).width = g.width := by unfold Group.raise; split <;> rfl
@[simp] theorem Group.raise_scout (g : Group) (m) : (g.raise m).scout = g.scout := by unfold Group.raise; split <;> rfl

theorem Lane.pred_seven (l : Lane) : l.pred 7 = true := rfl

end Sys2Proof.Machine
end

