-- ==== Sys2Proof/Laws/Issue.lean ====
section
/-! SUPPORT. What the issue of an instruction does when nothing stands in its way, once for every
instruction. -/

namespace Sys2Proof.Machine

/-! ### Every lane of a list changed -/

/-- What a change of every lane of a list without repeats does to a group. -/
theorem Group.foldl_modLane (f : Lane → Lane) (is : List Nat) (hn : is.Nodup) (g : Group) :
    ∃ ls, is.foldl (fun g i => g.modLane i f) g = { g with lanes := ls } ∧
      ∀ j, FMap.get Lane.birth ls j = if j ∈ is then f (g.lane j) else g.lane j := by
  induction is generalizing g with
  | nil => exact ⟨g.lanes, rfl, fun j => by simp [Group.lane]⟩
  | cons i is ih =>
    rw [List.nodup_cons] at hn
    obtain ⟨ls, he, hl⟩ := ih hn.2 (g.modLane i f)
    refine ⟨ls, by rw [List.foldl_cons, he]; rfl, fun j => ?_⟩
    rw [hl j, Group.modLane_lane]
    by_cases hj : j = i
    · subst hj; simp [hn.1]
    · simp [hj]

/-- What a change of every lane of a list without repeats does to the machine. -/
theorem State.foldl_modLane (f : Lane → Lane) (k : Nat) (is : List Nat) (hn : is.Nodup) (s : State) :
    ∃ gs, is.foldl (fun s i => s.modLane k i f) s = { s with groups := gs } ∧
      (∀ j, j ≠ k → FMap.get Group.empty gs j = s.group j) ∧
      ∃ ls, FMap.get Group.empty gs k = { s.group k with lanes := ls } ∧
        ∀ j, FMap.get Lane.birth ls j = if j ∈ is then f ((s.group k).lane j) else (s.group k).lane j := by
  induction is generalizing s with
  | nil => exact ⟨s.groups, rfl, fun _ _ => rfl, (s.group k).lanes, rfl, fun j => by simp [Group.lane]⟩
  | cons i is ih =>
    rw [List.nodup_cons] at hn
    obtain ⟨gs, he, ho, ls, hg, hl⟩ := ih hn.2 (s.modLane k i f)
    have hk : (s.modLane k i f).group k = (s.group k).modLane i f := State.modGroup_group_self _ _ _
    refine ⟨gs, by rw [List.foldl_cons, he]; rfl, fun j hj => ?_, ls, ?_, fun j => ?_⟩
    · rw [ho j hj]; exact State.modGroup_group_ne s _ hj
    · rw [hg, hk]; rfl
    · rw [hl j, hk, Group.modLane_lane]
      by_cases hj : j = i
      · subst hj; simp [hn.1]
      · simp [hj]

theorem Group.running_nodup (g : Group) : g.running.Nodup := (List.nodup_range).filter _
theorem Group.atMin_nodup (g : Group) (pc : W64) : (g.atMin pc).Nodup := g.running_nodup.filter _
theorem Group.active_nodup (g : Group) (i : Instr) (pc : W64) : (g.active i pc).Nodup := (g.atMin_nodup pc).filter _
theorem Group.active_sub (g : Group) (i : Instr) (pc : W64) : ∀ l ∈ g.active i pc, l ∈ g.atMin pc :=
  fun _ h => List.mem_of_mem_filter h
theorem Group.mem_atMin {g : Group} {pc : W64} {l : Nat} :
    l ∈ g.atMin pc ↔ l < g.width ∧ (g.lane l).lst = .running ∧ (g.lane l).pc = pc := by
  simp only [Group.atMin, Group.running, Group.ids, List.mem_filter, List.mem_range, beq_iff_eq, and_assoc]

/-! ### The issue itself -/

theorem State.settle_of_not_pending {s : State} {k : Nat} {u : PUnit} (h : (s.group k).pending u = false) :
    s.settle k u = s := by
  have hc : (s.group k).choices u = 0 := by
    simp only [Group.choices, List.length_eq_zero_iff, List.filter_eq_nil_iff]
    intro e he hw
    simp only [Group.pending, List.any_eq_false] at h
    simp only [List.any_eq_true, Bool.and_eq_true] at hw
    obtain ⟨w, hw, hu, -⟩ := hw
    exact h e he (List.any_eq_true.mpr ⟨w, hw, hu⟩)
  simp [State.settle, hc]

theorem State.foldl_settle {s : State} {k : Nat} {us : List PUnit} (h : ∀ u ∈ us, (s.group k).pending u = false) :
    us.foldl (fun s u => s.settle k u) s = s := by
  induction us with
  | nil => rfl
  | cons u us ih =>
    rw [List.foldl_cons, State.settle_of_not_pending (h u (by simp))]
    exact ih (fun v hv => h v (by simp [hv]))

theorem earlySources_sub (i : Instr) (g : Group) (act : List Nat) (l : Nat) :
    ∀ u ∈ earlySources i l, u ∈ sources i g act l := by
  intro u hu
  cases i <;> simp_all [earlySources, sources]

theorem filterMap_none {α β : Type} {f : α → Option β} {l : List α} (h : ∀ a ∈ l, f a = none) :
    l.filterMap f = [] := by
  induction l with
  | nil => rfl
  | cons a l ih => simp [h a (by simp), ih (fun b hb => h b (by simp [hb]))]

/-- When no read meets a pending result, reading the operands changes nothing. -/
theorem State.readOperands_issues {s : State} {i : Instr} {pc : W64} (h : Issues s i pc) :
    s.readOperands s.cur i ((s.group s.cur).atMin pc) = (s, (s.group s.cur).active i pc, []) := by
  have hg : ∀ l ∈ (s.group s.cur).atMin pc, (guardUnits i.ctl l).any (s.group s.cur).pending = false := by
    intro l hl; simpa using h.guards l hl
  have hr : ∀ l ∈ (s.group s.cur).active i pc,
      (sources i (s.group s.cur) ((s.group s.cur).active i pc) l).any (s.group s.cur).pending = false := by
    intro l hl; simpa using h.reads l hl
  have ft : ∀ (p : List Nat), p.filter (fun _ => true) = p := fun p => by simp
  unfold State.readOperands
  dsimp only
  cases hh : (s.group s.cur).hc && !(s.group s.cur).scout
  · have s1 : (((s.group s.cur).atMin pc).flatMap (guardUnits i.ctl)).dedup.foldl
        (fun s' u => s'.settle s.cur u) s = s := by
      apply State.foldl_settle
      intro u hu
      obtain ⟨l, hl, hu⟩ := List.mem_flatMap.mp (List.mem_dedup.mp hu)
      exact h.guards l hl u hu
    have s2 : (((s.group s.cur).active i pc).flatMap (earlySources i)).dedup.foldl
        (fun s' u => s'.settle s.cur u) s = s := by
      apply State.foldl_settle
      intro u hu
      obtain ⟨l, hl, hu⟩ := List.mem_flatMap.mp (List.mem_dedup.mp hu)
      exact h.reads l hl u (earlySources_sub i _ _ l u hu)
    have s3 : (((s.group s.cur).active i pc).flatMap
        (sources i (s.group s.cur) ((s.group s.cur).active i pc))).dedup.foldl (fun s' u => s'.settle s.cur u) s = s := by
      apply State.foldl_settle
      intro u hu
      obtain ⟨l, hl, hu⟩ := List.mem_flatMap.mp (List.mem_dedup.mp hu)
      exact h.reads l hl u hu
    unfold Group.active at s2 s3
    simp only [Bool.false_eq_true, if_false, s1, s2, s3]
    rfl
  · have f1 : ((s.group s.cur).atMin pc).filter (fun l => (guardUnits i.ctl l).any (s.group s.cur).pending) = [] :=
      List.filter_eq_nil_iff.mpr (fun l hl => by simp [hg l hl])
    have f2 : ((s.group s.cur).active i pc).filter
        (fun l => (sources i (s.group s.cur) ((s.group s.cur).active i pc) l).any (s.group s.cur).pending) = [] :=
      List.filter_eq_nil_iff.mpr (fun l hl => by simp [hr l hl])
    unfold Group.active at f2
    simp only [if_true, f1, List.contains_nil, Bool.not_false, ft, f2, List.append_nil]
    rfl

theorem State.watchedLanes_issues {s : State} {i : Instr} {pc : W64} (h : Issues s i pc) :
    s.watchedLanes s.cur i ((s.group s.cur).active i pc) = [] :=
  h.watch

/-- When nothing stands in its way, an instruction issues: its effect is that of its body on the issued
state. -/
theorem perform_issues {s : State} {i : Instr} {pc : W64} (h : Issues s i pc) (body : Issue → State → State) :
    perform i s body = .next (body (s.issueOf i pc) (s.issued i pc)) := by
  have ft : ∀ (p : List Nat), p.filter (fun _ => true) = p := fun p => by simp
  unfold perform
  simp only [h.atPc, h.body, h.gate, Bool.false_eq_true, if_false, Bool.false_and,
    State.issueAt, State.readOperands_issues h, State.watchedLanes_issues h, List.any_nil, Bool.not_false, ft, List.foldl_nil]
  rfl

/-- A program instruction always answers a next state. -/
theorem perform_next (i : Instr) (s : State) (body : Issue → State → State) : ∃ t, perform i s body = .next t := by
  unfold perform
  dsimp only
  split
  · exact ⟨_, rfl⟩
  · split
    · exact ⟨_, rfl⟩
    · split <;> exact ⟨_, rfl⟩

theorem performMem_next (i : Instr) (s : State) (body : Issue → State → State) :
    ∃ t, performMem i s body = .next t :=
  perform_next _ _ _

theorem performArray_next (c : Nat) (i : Instr) (s : State) (body : Issue → State → State) :
    ∃ t, performArray c i s body = .next t := by
  unfold performArray
  dsimp only
  split
  · exact performMem_next _ _ _
  · split
    · exact performMem_next _ _ _
    · exact ⟨_, rfl⟩

/-! ### The issued state -/

@[simp] theorem Group.hint_lane (g : Group) (i pc n c k b us l) : (g.hint i pc n c k b us).lane l = g.lane l := rfl
@[simp] theorem Group.hint_sreg (g : Group) (i pc n c k b us r) : (g.hint i pc n c k b us).sreg r = g.sreg r := rfl
@[simp] theorem Group.hint_gsw (g : Group) (i pc n c k b us) : (g.hint i pc n c k b us).gsw = g.gsw := rfl
@[simp] theorem Group.hint_pend (g : Group) (i pc n c k b us) : (g.hint i pc n c k b us).pend = g.pend := rfl
@[simp] theorem Group.hint_width (g : Group) (i pc n c k b us) : (g.hint i pc n c k b us).width = g.width := rfl
@[simp] theorem Group.hint_scout (g : Group) (i pc n c k b us) : (g.hint i pc n c k b us).scout = g.scout := rfl
@[simp] theorem Group.hint_team (g : Group) (i pc n c k b us) : (g.hint i pc n c k b us).team = g.team := rfl
@[simp] theorem Group.hint_ctx (g : Group) (i pc n c k b us) : (g.hint i pc n c k b us).ctx = g.ctx := rfl
@[simp] theorem Group.hint_part (g : Group) (i pc n c k b us) : (g.hint i pc n c k b us).part = g.part := rfl
@[simp] theorem Group.hint_wait (g : Group) (i pc n c k b us) : (g.hint i pc n c k b us).wait = .none := rfl

/-- What issue leaves: PCs past the instruction, hints, a turn of the partition, and nothing else. -/
theorem State.issued_spec (s : State) (i : Instr) (pc : W64) :
    ∃ gs ls join turn clk at_, s.issued i pc = ({ s with groups := gs } : State).modPart (s.group s.cur).part
        (fun p => p.issued s.cur { s.group s.cur with lanes := ls } join i.ctl.pair at_) ∧
      (∀ j, j ≠ s.cur → FMap.get Group.empty gs j = s.group j) ∧
      FMap.get Group.empty gs s.cur = Group.hint { s.group s.cur with lanes := ls } i pc s.steps turn clk
        (s.team (s.group s.cur).team).preempt ((s.issueOf i pc).outs i) ∧
      ∀ l, FMap.get Lane.birth ls l = if l ∈ (s.group s.cur).atMin pc then ((s.group s.cur).lane l).past pc
        else (s.group s.cur).lane l := by
  obtain ⟨gs, he, ho, ls, hg, hl⟩ := State.foldl_modLane (fun l => l.past pc)
    s.cur ((s.group s.cur).atMin pc) (Group.atMin_nodup _ _) s
  have ha : s.advance (s.issueOf i pc) = { s with groups := gs } := he
  have hg' : ({ s with groups := gs } : State).group s.cur = { s.group s.cur with lanes := ls } := hg
  let join := ({ s with groups := gs } : State).joins s.cur i.ctl.pair
  let at_ := ({ s with groups := gs } : State).partClock (s.group s.cur).part
  let next := (s.part (s.group s.cur).part).issued s.cur { s.group s.cur with lanes := ls } join i.ctl.pair at_
  let turn := next.turns
  let clk := s.steps - next.joined
  refine ⟨gs.set Group.empty s.cur (Group.hint { s.group s.cur with lanes := ls } i pc s.steps turn clk
      (s.team (s.group s.cur).team).preempt ((s.issueOf i pc).outs i)), ls, join, turn, clk, at_, ?_, fun j hj => ?_, FMap.get_set_self _ _ _ _, hl⟩
  · have hi : s.issued i pc = ({ s with groups := gs } : State).hints (s.issueOf i pc) i := by rw [← ha]; rfl
    have ht : ({ s with groups := gs } : State).takeTurn s.cur i.ctl.pair = ({ s with groups := gs } : State).modPart
        (s.group s.cur).part (fun p => p.issued s.cur { s.group s.cur with lanes := ls } join i.ctl.pair at_) := by
      unfold State.takeTurn; dsimp only; rw [hg']
    rw [hi]
    unfold State.hints
    dsimp only [State.issueOf, State.issueAt]
    unfold State.partClock
    rw [ht, State.modPart_group, hg', State.modPart_part_self]
    rfl
  · rw [FMap.get_set_ne _ _ _ hj]
    exact ho j hj

theorem State.issued_group_ne (s : State) (i : Instr) (pc : W64) {j : Nat} (h : j ≠ s.cur) :
    (s.issued i pc).group j = s.group j := by
  obtain ⟨gs, ls, _, _, _, _, he, ho, -, -⟩ := s.issued_spec i pc
  rw [he]; exact ho j h

theorem State.issued_group (s : State) (i : Instr) (pc : W64) :
    ∃ ls turn clk, (s.issued i pc).group s.cur = Group.hint { s.group s.cur with lanes := ls } i pc s.steps turn clk
        (s.team (s.group s.cur).team).preempt ((s.issueOf i pc).outs i) ∧
      ∀ l, FMap.get Lane.birth ls l = if l ∈ (s.group s.cur).atMin pc then ((s.group s.cur).lane l).past pc
        else (s.group s.cur).lane l := by
  obtain ⟨gs, ls, _, turn, clk, _, he, -, hg, hl⟩ := s.issued_spec i pc
  exact ⟨ls, turn, clk, by rw [he]; exact hg, hl⟩

theorem State.issued_lane (s : State) (i : Instr) (pc : W64) (l : Nat) :
    ((s.issued i pc).group s.cur).lane l = if l ∈ (s.group s.cur).atMin pc then ((s.group s.cur).lane l).past pc
      else (s.group s.cur).lane l := by
  obtain ⟨ls, _, _, hg, hl⟩ := s.issued_group i pc
  rw [hg]; exact hl l

@[simp] theorem Lane.past_vreg (l : Lane) (pc r) : (l.past pc).vreg r = l.vreg r := rfl
@[simp] theorem Lane.past_vpair (l : Lane) (pc r) : (l.past pc).vpair r = l.vpair r := rfl
@[simp] theorem Lane.past_pred (l : Lane) (pc k) : (l.past pc).pred k = l.pred k := rfl
@[simp] theorem Lane.past_pc (l : Lane) (pc) : (l.past pc).pc = pc + 12 := rfl
@[simp] theorem Lane.past_lst (l : Lane) (pc) : (l.past pc).lst = l.lst := rfl
@[simp] theorem Lane.past_tx (l : Lane) (pc) : (l.past pc).tx = l.tx := rfl
@[simp] theorem Lane.past_cause (l : Lane) (pc) : (l.past pc).cause = l.cause := rfl

/-- Registers are not changed by issue. -/
@[simp] theorem State.issued_vreg (s : State) (i : Instr) (pc : W64) (l r : Nat) :
    (((s.issued i pc).group s.cur).lane l).vreg r = ((s.group s.cur).lane l).vreg r := by
  rw [State.issued_lane]; split <;> rfl
@[simp] theorem State.issued_vpair (s : State) (i : Instr) (pc : W64) (l r : Nat) :
    (((s.issued i pc).group s.cur).lane l).vpair r = ((s.group s.cur).lane l).vpair r := by
  rw [State.issued_lane]; split <;> rfl
@[simp] theorem State.issued_pred (s : State) (i : Instr) (pc : W64) (l k : Nat) :
    (((s.issued i pc).group s.cur).lane l).pred k = ((s.group s.cur).lane l).pred k := by
  rw [State.issued_lane]; split <;> rfl
@[simp] theorem State.issued_tx (s : State) (i : Instr) (pc : W64) (l : Nat) :
    (((s.issued i pc).group s.cur).lane l).tx = ((s.group s.cur).lane l).tx := by
  rw [State.issued_lane]; split <;> rfl
@[simp] theorem State.issued_sreg (s : State) (i : Instr) (pc : W64) (r : Nat) :
    ((s.issued i pc).group s.cur).sreg r = (s.group s.cur).sreg r := by
  obtain ⟨ls, _, _, hg, -⟩ := s.issued_group i pc; rw [hg]; rfl
@[simp] theorem State.issued_gsw (s : State) (i : Instr) (pc : W64) :
    ((s.issued i pc).group s.cur).gsw = (s.group s.cur).gsw := by
  obtain ⟨ls, _, _, hg, -⟩ := s.issued_group i pc; rw [hg]; rfl
@[simp] theorem State.issued_width (s : State) (i : Instr) (pc : W64) :
    ((s.issued i pc).group s.cur).width = (s.group s.cur).width := by
  obtain ⟨ls, _, _, hg, -⟩ := s.issued_group i pc; rw [hg]; rfl
@[simp] theorem State.issued_scout (s : State) (i : Instr) (pc : W64) :
    ((s.issued i pc).group s.cur).scout = (s.group s.cur).scout := by
  obtain ⟨ls, _, _, hg, -⟩ := s.issued_group i pc; rw [hg]; rfl
@[simp] theorem State.issued_team_no (s : State) (i : Instr) (pc : W64) :
    ((s.issued i pc).group s.cur).team = (s.group s.cur).team := by
  obtain ⟨ls, _, _, hg, -⟩ := s.issued_group i pc; rw [hg]; rfl
@[simp] theorem State.issued_ctx_no (s : State) (i : Instr) (pc : W64) :
    ((s.issued i pc).group s.cur).ctx = (s.group s.cur).ctx := by
  obtain ⟨ls, _, _, hg, -⟩ := s.issued_group i pc; rw [hg]; rfl
@[simp] theorem State.issued_part_no (s : State) (i : Instr) (pc : W64) :
    ((s.issued i pc).group s.cur).part = (s.group s.cur).part := by
  obtain ⟨ls, _, _, hg, -⟩ := s.issued_group i pc; rw [hg]; rfl
@[simp] theorem State.issued_pend (s : State) (i : Instr) (pc : W64) :
    ((s.issued i pc).group s.cur).pend = (s.group s.cur).pend := by
  obtain ⟨ls, _, _, hg, -⟩ := s.issued_group i pc; rw [hg]; rfl
@[simp] theorem State.issued_value (s : State) (i : Instr) (pc : W64) (l : Nat) (o : Opnd) (n : Nat) :
    ((s.issued i pc).group s.cur).value l o n = (s.group s.cur).value l o n := by
  cases o <;> simp [Group.value]

/-- The rest of the machine is not changed by issue. -/
theorem State.issued_rest (s : State) (i : Instr) (pc : W64) :
    ∃ gs ps, s.issued i pc = { s with groups := gs, parts := ps } := by
  obtain ⟨gs, ls, _, _, _, _, he, -⟩ := s.issued_spec i pc
  exact ⟨gs, _, he⟩
@[simp] theorem State.issued_cur (s : State) (i : Instr) (pc : W64) : (s.issued i pc).cur = s.cur := by
  obtain ⟨gs, ps, he⟩ := s.issued_rest i pc; rw [he]
@[simp] theorem State.issued_team (s : State) (i : Instr) (pc : W64) (k) : (s.issued i pc).team k = s.team k := by
  obtain ⟨gs, ps, he⟩ := s.issued_rest i pc; rw [he]; rfl
@[simp] theorem State.issued_ctx (s : State) (i : Instr) (pc : W64) (k) : (s.issued i pc).ctx k = s.ctx k := by
  obtain ⟨gs, ps, he⟩ := s.issued_rest i pc; rw [he]; rfl
@[simp] theorem State.issued_core (s : State) (i : Instr) (pc : W64) (k) : (s.issued i pc).core k = s.core k := by
  obtain ⟨gs, ps, he⟩ := s.issued_rest i pc; rw [he]; rfl
@[simp] theorem State.issued_launch (s : State) (i : Instr) (pc : W64) (k) : (s.issued i pc).launch k = s.launch k := by
  obtain ⟨gs, ps, he⟩ := s.issued_rest i pc; rw [he]; rfl
@[simp] theorem State.issued_tree (s : State) (i : Instr) (pc : W64) (k) : (s.issued i pc).tree k = s.tree k := by
  obtain ⟨gs, ps, he⟩ := s.issued_rest i pc; rw [he]; rfl
@[simp] theorem State.issued_ownByte (s : State) (i : Instr) (pc : W64) (a) : (s.issued i pc).ownByte a = s.ownByte a := by
  obtain ⟨gs, ps, he⟩ := s.issued_rest i pc; rw [he]; rfl
@[simp] theorem State.issued_steps (s : State) (i : Instr) (pc : W64) : (s.issued i pc).steps = s.steps := by
  obtain ⟨gs, ps, he⟩ := s.issued_rest i pc; rw [he]

/-- Issue changes the current group and an issue order, and nothing else. -/
theorem State.issued_only (s : State) (i : Instr) (pc : W64) : OnlyGroup s (s.issued i pc) := by
  obtain ⟨gs, ls, _, _, _, _, he, ho, -, -⟩ := s.issued_spec i pc
  refine ⟨fun k hk => by rw [he]; exact ho k hk, fun p => ?_, by rw [he]; rfl⟩
  rw [he]
  by_cases hp : p = (s.group s.cur).part
  · subst hp; rw [State.modPart_part_self]; unfold Partition.issued; split <;> rfl
  · rw [State.modPart_part_ne _ _ hp]; rfl

theorem State.issued_alike (s : State) (i : Instr) (pc : W64) :
    (s.group s.cur).Alike ((s.issued i pc).group s.cur) := by
  obtain ⟨ls, _, _, hg, -⟩ := s.issued_group i pc; rw [hg]; rfl

theorem State.issued_advanced (s : State) (i : Instr) (pc : W64) : Advanced s (s.issued i pc) pc := by
  refine ⟨fun l hl => ?_, fun l hl => ?_⟩
  · rw [State.issued_lane, if_pos hl]; exact ⟨rfl, rfl⟩
  · rw [State.issued_lane, if_neg hl]

/-! ### Accesses on their way -/

/-- With no access on its way, there is none to perform. -/
theorem State.performThose_free {s : State} {k : Nat} (h : ∀ e ∈ (s.group k).pend, e.access = none)
    (f : Access → Bool) : s.performThose k f = s := by
  have hi : (List.range (s.group k).pend.length).filter
      (fun n => ((s.group k).pend[n]?.bind Pend.access).any f) = [] := by
    refine List.filter_eq_nil_iff.mpr (fun n hn => ?_)
    have hn := List.mem_range.mp hn
    simp [List.getElem?_eq_getElem hn, h _ (List.getElem_mem hn)]
  unfold State.performThose
  dsimp only
  rw [hi]
  rfl

theorem State.drainAll_free {s : State} {k : Nat} (h : ∀ e ∈ (s.group k).pend, e.access = none) : s.drainAll k = s :=
  State.performThose_free h _

theorem State.drainFor_free {s : State} {k : Nat} (h : ∀ e ∈ (s.group k).pend, e.access = none) (i : Instr) :
    s.drainFor k i = s := by
  unfold State.drainFor State.drainReads State.drainAcquires
  rw [State.drainAll_free h, State.performThose_free h]
  split
  · rfl
  · exact ite_self _
  · exact ite_self _
  · rfl

/-- The same for an instruction that first performs accesses of its group, when none is on its way. -/
theorem performMem_issues {s : State} {i : Instr} {pc : W64} (h : IssuesMem s i pc) (body : Issue → State → State) :
    performMem i s body = .next (body (s.issueOf i pc) (s.issued i pc)) := by
  refine (perform_issues h.toIssues _).trans ?_
  rw [State.drainFor_free (fun e he => h.calm e (by
    rw [show (s.issueOf i pc).g = s.cur from rfl, State.issued_pend] at he
    exact he))]

/-- Where some active lane goes on, an instruction performs its release before its accesses. -/
theorem State.releaseThen_goes {s : State} {x : Issue} {sc : Scope} {body : State → State} (h : x.goesOn (body s) = true) :
    s.releaseThen x sc body = body (s.release (s.group x.g) sc) := if_pos h

/-- Where every active lane takes a fault, an instruction performs nothing else. -/
theorem State.releaseThen_faults {s : State} {x : Issue} {sc : Scope} {body : State → State} (h : x.goesOn (body s) = false) :
    s.releaseThen x sc body = body s := by
  unfold State.releaseThen; rw [h]; rfl

end Sys2Proof.Machine
end

