-- ==== Sys2Proof/Laws/Alu.lean ====
section
/-! SUPPORT. What a result of a fixed latency does, once for every instruction that has one. -/

namespace Sys2Proof.Machine

/-! ### Writes of units -/

/-- Two groups that differ at most in registers, results on their way and the operand cache. -/
def Group.RegsOnly (g h : Group) : Prop :=
  { h with lanes := g.lanes, sregs := g.sregs, pend := g.pend, opcache := g.opcache } = g

theorem Group.RegsOnly.refl (g : Group) : g.RegsOnly g := rfl
theorem Group.RegsOnly.trans {g h k : Group} (a : g.RegsOnly h) (b : h.RegsOnly k) : g.RegsOnly k := by
  unfold Group.RegsOnly at *
  rw [← a]
  rw [← b]

/-- Two lanes that differ at most in vector registers and predicates. -/
def Lane.RegsOnly (l m : Lane) : Prop := { m with v := l.v, p := l.p } = l

theorem Lane.RegsOnly.refl (l : Lane) : l.RegsOnly l := rfl
theorem Lane.RegsOnly.trans {l m n : Lane} (a : l.RegsOnly m) (b : m.RegsOnly n) : l.RegsOnly n := by
  unfold Lane.RegsOnly at *
  rw [← a]
  rw [← b]
theorem Lane.setV_regsOnly (l : Lane) (r : Nat) (x : W32) : l.RegsOnly (l.setV r x) := rfl
theorem Lane.setPred_regsOnly (l : Lane) (k : Nat) (b : Bool) : l.RegsOnly (l.setPred k b) := by
  unfold Lane.setPred; split <;> rfl

theorem Group.write_regsOnly (g : Group) (u : PUnit) (x : W64) : g.RegsOnly (g.write u x) := by
  cases u <;> rfl

theorem Group.writes_regsOnly (g : Group) (us : List (PUnit × W64)) : g.RegsOnly (g.writes us) := by
  induction us generalizing g with
  | nil => exact .refl g
  | cons u us ih => exact (g.write_regsOnly u.1 u.2).trans (ih _)

@[simp] theorem Group.writes_nil (g : Group) : g.writes [] = g := rfl
@[simp] theorem Group.writes_cons (g : Group) (u : PUnit × W64) (us : List (PUnit × W64)) :
    g.writes (u :: us) = (g.write u.1 u.2).writes us := rfl
theorem Group.writes_append (g : Group) (us vs : List (PUnit × W64)) :
    g.writes (us ++ vs) = (g.writes us).writes vs := List.foldl_append

theorem Group.write_vec_lane (g : Group) (i r : Nat) (x : W64) (j : Nat) :
    (g.write (.vec i r) x).lane j = if j = i then (g.lane i).setV r (x.setWidth 32) else g.lane j := by
  have h := Group.modLane_lane (g.discard (.vec i r)) i j (fun l => l.setV r (x.setWidth 32))
  exact h
theorem Group.write_pred_lane (g : Group) (i k : Nat) (x : W64) (j : Nat) :
    (g.write (.pred i k) x).lane j = if j = i then (g.lane i).setPred k (x.getLsbD 0) else g.lane j :=
  Group.modLane_lane (g.discard (.pred i k)) i j _
@[simp] theorem Group.write_sca_lane (g : Group) (r : Nat) (x : W64) (j : Nat) :
    (g.write (.sca r) x).lane j = g.lane j := rfl
@[simp] theorem Group.write_vec_sreg (g : Group) (i r : Nat) (x : W64) (q : Nat) :
    (g.write (.vec i r) x).sreg q = g.sreg q := rfl
@[simp] theorem Group.write_pred_sreg (g : Group) (i k : Nat) (x : W64) (q : Nat) :
    (g.write (.pred i k) x).sreg q = g.sreg q := rfl
theorem Group.write_sca_sreg (g : Group) (r : Nat) (x : W64) (q : Nat) :
    (g.write (.sca r) x).sreg q = if q = r then x else g.sreg q := FMap.get_set _ _ _ _ _
@[simp] theorem Group.write_gsw (g : Group) (u : PUnit) (x : W64) : (g.write u x).gsw = g.gsw := by
  cases u <;> rfl
@[simp] theorem Group.write_scout (g : Group) (u : PUnit) (x : W64) : (g.write u x).scout = g.scout := by
  cases u <;> rfl
@[simp] theorem Group.writes_gsw (g : Group) (us : List (PUnit × W64)) : (g.writes us).gsw = g.gsw := by
  induction us generalizing g with
  | nil => rfl
  | cons u us ih => rw [Group.writes_cons, ih, Group.write_gsw]
@[simp] theorem Group.writes_scout (g : Group) (us : List (PUnit × W64)) : (g.writes us).scout = g.scout := by
  induction us generalizing g with
  | nil => rfl
  | cons u us ih => rw [Group.writes_cons, ih, Group.write_scout]

theorem Lane.setPred_pred (l : Lane) (k : Nat) (b : Bool) (j : Nat) :
    (l.setPred k b).pred j = if j = k ∧ k < 7 then b else l.pred j := by
  unfold Lane.setPred Lane.pred
  by_cases hk : k < 7
  · by_cases hj : j = 7
    · subst hj
      simp only [if_true]
      rw [if_neg]
      rintro ⟨rfl, h⟩
      omega
    · simp only [hk, if_true, hj, if_false, and_true]
      by_cases hjk : j = k
      · subst hjk
        cases b
        · simp
        · simp [hk]
      · cases b
        · simp only [Bool.false_eq_true, if_false, hjk, BitVec.getLsbD_and, BitVec.getLsbD_not, BitVec.getLsbD_shiftLeft]
          by_cases h7 : j < 7
          · have : (1#7).getLsbD (j - k) = false ∨ j < k := by
              by_cases h : j < k
              · exact .inr h
              · left
                have : j - k ≠ 0 := by omega
                simp [BitVec.getLsbD_one, this]
            rcases this with h | h <;> simp [h, h7]
          · have : l.p.getLsbD j = false := BitVec.getLsbD_of_ge _ _ (by omega)
            simp [this]
        · simp only [if_true, hjk, if_false, BitVec.getLsbD_or, BitVec.getLsbD_shiftLeft]
          by_cases h : j < k
          · simp [h]
          · have : j - k ≠ 0 := by omega
            simp [BitVec.getLsbD_one, this]
  · simp [hk]
@[simp] theorem Lane.setPred_vreg (l : Lane) (k b r) : (l.setPred k b).vreg r = l.vreg r := by
  unfold Lane.setPred; split <;> rfl

/-! ### The destination of a lane form -/

/-- A destination that takes results. -/
def Opnd.isDest (d : Opnd) : Prop :=
  match d with
  | .v .. | .s _ => True
  | .p k => k < 8
  | _ => False

/-- What the writes of a lane's destination leave of the lane. -/
theorem Group.writes_dest (g : Group) (d : Opnd) (n : Nat) (hn : n = 1 ∨ n = 2) (hd : ∀ r, d ≠ .s r) (i : Nat)
    (x : W64) :
    (∀ j, j ≠ i → (g.writes (destUnits d n i x)).lane j = g.lane j) ∧
    (∀ r, (g.writes (destUnits d n i x)).sreg r = g.sreg r) ∧
    (g.lane i).RegsOnly ((g.writes (destUnits d n i x)).lane i) ∧
    (∀ r, ¬Opnd.covers d n r → ((g.writes (destUnits d n i x)).lane i).vreg r = (g.lane i).vreg r) ∧
    (∀ k, d ≠ .p k → ((g.writes (destUnits d n i x)).lane i).pred k = (g.lane i).pred k) ∧
    (d ≠ .p 7 → Opnd.isDest d → (∀ k, d = .p k → x.toNat < 2) →
      (g.writes (destUnits d n i x)).dval d n i = x.toNat % 2 ^ (32 * n)) := by
  cases d with
  | v r sub =>
    rcases hn with rfl | rfl
    · refine ⟨fun j hj => ?_, fun q => ?_, ?_, fun q hq => ?_, fun k _ => ?_, fun _ _ _ => ?_⟩
      · simp [destUnits, Group.write_vec_lane, hj]
      · simp [destUnits]
      · simp [destUnits, Group.write_vec_lane]; exact Lane.setV_regsOnly _ _ _
      · simp only [Opnd.covers] at hq
        simp only [destUnits, List.range_one, List.map_cons, List.map_nil, Group.writes_cons, Group.writes_nil,
          Group.write_vec_lane, if_true, Nat.add_zero]
        rw [Lane.setV_vreg_ne _ _ (by omega)]
      · simp [destUnits, Group.write_vec_lane]
      · simp [destUnits, Group.dval, Group.write_vec_lane]
    · have e : destUnits (.v r sub) 2 i x = [(.vec i (r + 0), (x >>> (32 * 0)).extractLsb' 0 32 |>.setWidth 64),
          (.vec i (r + 1), (x >>> (32 * 1)).extractLsb' 0 32 |>.setWidth 64)] := rfl
      rw [e]
      refine ⟨fun j hj => ?_, fun q => ?_, ?_, fun q hq => ?_, fun k _ => ?_, fun _ _ _ => ?_⟩
      · simp [Group.write_vec_lane, hj]
      · simp
      · simp only [Group.writes_cons, Group.writes_nil, Group.write_vec_lane, if_true]
        exact (Lane.setV_regsOnly _ _ _).trans (Lane.setV_regsOnly _ _ _)
      · simp only [Opnd.covers] at hq
        simp only [Group.writes_cons, Group.writes_nil, Group.write_vec_lane, if_true]
        rw [Lane.setV_vreg_ne _ _ (by omega), Lane.setV_vreg_ne _ _ (by omega)]
      · simp [Group.write_vec_lane]
      · simp only [Group.dval, if_true, Group.writes_cons, Group.writes_nil, Group.write_vec_lane, Lane.vpair]
        simp only [Lane.setV_vreg_self, Lane.setV_vreg_ne _ _ (show r ≠ r + 1 by omega), Nat.add_zero]
        simp only [BitVec.toNat_append, BitVec.toNat_setWidth, BitVec.extractLsb'_toNat, BitVec.toNat_ushiftRight,
          Nat.shiftRight_eq_div_pow, Nat.shiftLeft_eq]
        have hx := x.isLt
        have h1 : x.toNat / 2 ^ (32 * 1) / 2 ^ 0 % 2 ^ 32 % 2 ^ 64 % 2 ^ 32 = x.toNat / 2 ^ 32 := by omega
        have h0 : x.toNat / 2 ^ (32 * 0) / 2 ^ 0 % 2 ^ 32 % 2 ^ 64 % 2 ^ 32 = x.toNat % 2 ^ 32 := by omega
        rw [h1, h0, Nat.mul_comm, ← Nat.two_pow_add_eq_or_of_lt (by omega)]
        omega
  | s r => exact absurd rfl (hd r)
  | p k =>
    have e : destUnits (.p k) n i x = [(.pred i k, x)] := rfl
    rw [e]
    refine ⟨fun j hj => ?_, fun q => ?_, ?_, fun q hq => ?_, fun q hq => ?_, fun h7 hd' hb => ?_⟩
    · simp [Group.write_pred_lane, hj]
    · simp
    · simp [Group.write_pred_lane]; exact Lane.setPred_regsOnly _ _ _
    · simp [Group.write_pred_lane]
    · have : q ≠ k := fun h => hq (by rw [h])
      simp [Group.write_pred_lane, Lane.setPred_pred, this]
    · have h := hb k rfl
      have hk8 : k < 8 := hd'
      have hk : k ≠ 7 := fun h => h7 (by rw [h])
      simp only [Group.dval, Group.writes_cons, Group.writes_nil, Group.write_pred_lane, if_true, Lane.setPred_pred]
      have hk7 : k < 7 := by omega
      simp only [hk7, and_self, if_true]
      have : x.toNat = 0 ∨ x.toNat = 1 := by omega
      have e1 : x.getLsbD 0 = decide (x.toNat % 2 = 1) := by
        simp [BitVec.getLsbD, Nat.testBit_zero]
      rw [e1]
      have hp : 1 < 2 ^ (32 * n) := Nat.one_lt_two_pow (by omega)
      rcases this with h | h
      · simp [h]
      · simp [h, Nat.mod_eq_of_lt hp]
  | imm a => exact ⟨fun _ _ => rfl, fun _ => rfl, rfl, fun _ _ => rfl, fun _ _ => rfl, fun _ h _ => h.elim⟩
  | limm a => exact ⟨fun _ _ => rfl, fun _ => rfl, rfl, fun _ _ => rfl, fun _ _ => rfl, fun _ h _ => h.elim⟩
  | acc a b => exact ⟨fun _ _ => rfl, fun _ => rfl, rfl, fun _ _ => rfl, fun _ _ => rfl, fun _ h _ => h.elim⟩
  | sp a b => exact ⟨fun _ _ => rfl, fun _ => rfl, rfl, fun _ _ => rfl, fun _ _ => rfl, fun _ h _ => h.elim⟩
  | none => exact ⟨fun _ _ => rfl, fun _ => rfl, rfl, fun _ _ => rfl, fun _ _ => rfl, fun _ h _ => h.elim⟩

/-- What the writes of every active lane's destination leave. -/
theorem Group.writes_lanes (d : Opnd) (n : Nat) (hn : n = 1 ∨ n = 2) (hd : ∀ r, d ≠ .s r) (hk : Opnd.isDest d)
    (x : Nat → W64) (hx : ∀ k, d = .p k → ∀ i, (x i).toNat < 2) (act : List Nat) (ha : act.Nodup) (g : Group) :
    (∀ j, j ∉ act → (g.writes (act.flatMap (fun i => destUnits d n i (x i)))).lane j = g.lane j) ∧
    (∀ r, (g.writes (act.flatMap (fun i => destUnits d n i (x i)))).sreg r = g.sreg r) ∧
    (∀ j ∈ act, (g.lane j).RegsOnly ((g.writes (act.flatMap (fun i => destUnits d n i (x i)))).lane j) ∧
      (∀ r, ¬Opnd.covers d n r →
        ((g.writes (act.flatMap (fun i => destUnits d n i (x i)))).lane j).vreg r = (g.lane j).vreg r) ∧
      (∀ k, d ≠ .p k → ((g.writes (act.flatMap (fun i => destUnits d n i (x i)))).lane j).pred k = (g.lane j).pred k) ∧
      (d ≠ .p 7 → (g.writes (act.flatMap (fun i => destUnits d n i (x i)))).dval d n j = (x j).toNat % 2 ^ (32 * n))) := by
  induction act generalizing g with
  | nil => simp
  | cons i act ih =>
    rw [List.nodup_cons] at ha
    obtain ⟨w1, w2, w3, w4, w5, w6⟩ := Group.writes_dest g d n hn hd i (x i)
    obtain ⟨a1, a2, a3⟩ := ih ha.2 (g.writes (destUnits d n i (x i)))
    simp only [List.flatMap_cons, Group.writes_append]
    refine ⟨fun j hj => ?_, fun r => by rw [a2, w2], fun j hj => ?_⟩
    · simp only [List.mem_cons, not_or] at hj
      rw [a1 j hj.2, w1 j hj.1]
    · by_cases hji : j = i
      · subst hji
        have e := a1 j ha.1
        refine ⟨by rw [e]; exact w3, fun r hr => by rw [e]; exact w4 r hr, fun k hk => by rw [e]; exact w5 k hk, fun h7 => ?_⟩
        have hv : ∀ (h : Group), h.lane j = (g.writes (destUnits d n j (x j))).lane j →
            h.dval d n j = (g.writes (destUnits d n j (x j))).dval d n j := by
          intro h hh
          cases d <;> first | exact absurd rfl (hd _) | simp [Group.dval, hh]
        rw [hv _ e]
        exact w6 h7 hk (fun k hk => hx k hk j)
      · have hj' : j ∈ act := by simpa [hji] using hj
        obtain ⟨b1, b2, b3, b4⟩ := a3 j hj'
        have e := w1 j hji
        rw [e] at b1 b2 b3
        exact ⟨b1, b2, b3, b4⟩

/-! ### Flags and results on their way -/

theorem Flags.mask_bits (f : Flags) : BitVec.ofNat 64 f.mask =
    (if f.nx then 1#64 else 0) ||| (if f.uf then 2#64 else 0) ||| (if f.ov then 4#64 else 0) |||
    (if f.dz then 8#64 else 0) ||| (if f.nv then 16#64 else 0) ||| (if f.sat then 32#64 else 0) |||
    (if f.asat then 64#64 else 0) := by
  obtain ⟨a, b, c, d, e, f, g⟩ := f
  cases a <;> cases b <;> cases c <;> cases d <;> cases e <;> cases f <;> cases g <;> rfl

theorem ite_or_bits (a b : Bool) (x : W64) :
    (if (a || b) = true then x else 0) = (if a then x else 0) ||| (if b then x else 0) := by
  cases a <;> cases b <;> simp

/-- The flags of two operations together are the union of each one's. -/
theorem Flags.or_mask (a b : Flags) :
    BitVec.ofNat 64 (a.or b).mask = BitVec.ofNat 64 a.mask ||| BitVec.ofNat 64 b.mask := by
  simp only [Flags.mask_bits, Flags.or, ite_or_bits]
  ac_rfl

theorem flagsOf_fold (fl : Nat → Flags) (ls : List Nat) :
    BitVec.ofNat 64 ((ls.map fl).foldl Flags.or {}).mask = flagsOf (fun l => (fl l).mask) ls := by
  have h : ∀ (f : Flags) (m : W64), BitVec.ofNat 64 f.mask = m →
      BitVec.ofNat 64 ((ls.map fl).foldl Flags.or f).mask =
        ls.foldl (fun m l => m ||| BitVec.ofNat 64 (fl l).mask) m := by
    induction ls with
    | nil => intro f m h; exact h
    | cons l ls ih =>
      intro f m h
      simp only [List.map_cons, List.foldl_cons]
      exact ih _ _ (by rw [Flags.or_mask, h])
  exact h {} 0 rfl

theorem Group.write_pend (g : Group) (u : PUnit) (x : W64) : (g.write u x).pend = g.pend.map (fun e => e.drop u) := by
  cases u <;> rfl

theorem Group.writes_pend (g : Group) (us : List (PUnit × W64)) :
    (g.writes us).pend = g.pend.map (fun e => (us.map Prod.fst).foldl Pend.drop e) := by
  induction us generalizing g with
  | nil => simp
  | cons u us ih => rw [Group.writes_cons, ih, Group.write_pend, List.map_map]; rfl

theorem destUnits_fst (d : Opnd) (n i : Nat) (x : W64) :
    (destUnits d n i x).map Prod.fst = (destUnits d n i 0).map Prod.fst := by
  cases d <;> simp [destUnits, Function.comp_def]

theorem flatMap_fst (d : Opnd) (n : Nat) (f : Nat → W64) (ls : List Nat) :
    (ls.flatMap (fun i => destUnits d n i (f i))).map Prod.fst =
      ls.flatMap (fun l => (destUnits d n l 0).map Prod.fst) := by
  induction ls with
  | nil => rfl
  | cons l ls ih => simp only [List.flatMap_cons, List.map_append, ih, destUnits_fst d n l (f l)]

theorem Group.raise_body {g : Group} (h : g.scout = false) (m : Nat) :
    g.raise m = { g with gsw := g.gsw ||| BitVec.ofNat 64 m } := by simp [Group.raise, h]

/-- The low half of an extended value is the value. -/
theorem extendTo64_low (signed : Bool) (x : Nat) : (extendTo64 signed x).toNat % 2 ^ 32 = x % 2 ^ 32 := by
  have h : (extendTo64 signed x).setWidth 32 = BitVec.ofNat 32 x := by
    apply BitVec.eq_of_getLsbD_eq
    intro k hk
    cases signed
    · simp [extendTo64, hk]
    · simp [extendTo64, BitVec.getLsbD_signExtend, hk]; omega
  have := congrArg BitVec.toNat h
  simpa using this

theorem extendTo64_mod (signed : Bool) (x : Nat) : extendTo64 signed (x % 2 ^ 32) = extendTo64 signed x := by
  have h : BitVec.ofNat 32 (x % 2 ^ 32) = BitVec.ofNat 32 x := BitVec.eq_of_toNat_eq (by simp)
  simp only [extendTo64, h]

/-! ### The whole result -/

theorem Group.Alike.refl (g : Group) : g.Alike g := rfl
theorem Group.Alike.trans {g h k : Group} (a : g.Alike h) (b : h.Alike k) : g.Alike k := by
  unfold Group.Alike at *
  rw [← a]
  rw [← b]
theorem Group.RegsOnly.alike {g h : Group} (a : g.RegsOnly h) : g.Alike h := by
  unfold Group.RegsOnly at a; unfold Group.Alike
  rw [← a]
theorem Group.raise_alike (g : Group) (m : Nat) : g.Alike (g.raise m) := by
  unfold Group.raise; split <;> rfl

/-- A further change of the current group alone. -/
theorem OnlyGroup.modGroup {s u : State} (h : OnlyGroup s u) (f : Group → Group) :
    OnlyGroup s (u.modGroup s.cur f) :=
  ⟨fun k hk => by rw [State.modGroup_group_ne _ _ hk]; exact h.others k hk, h.parts, h.rest⟩

theorem Lane.RegsOnly.alike {l m : Lane} (a : l.RegsOnly m) : l.Alike m := by
  unfold Lane.RegsOnly at a; unfold Lane.Alike; rw [← a]
theorem Lane.Alike.trans {l m n : Lane} (a : l.Alike m) (b : m.Alike n) : l.Alike n := by
  unfold Lane.Alike at *
  rw [← a]
  rw [← b]
theorem Lane.RegsOnly.pc {l m : Lane} (a : l.RegsOnly m) : m.pc = l.pc := by
  unfold Lane.RegsOnly at a; rw [← a]

/-- A destination of a well-formed instruction takes results. -/
theorem State.alu_nil (s : State) (k : Nat) (pc : W64) (min : List Nat) (g : Group) (p : Partition) (d n signed val) :
    s.alu ⟨k, pc, min, [], g, p⟩ d n signed val = s := by
  cases d <;> rfl

/-- What `alu` does to the group of an issue, in a form that is not scalar. -/
theorem State.alu_lanes {d : Opnd} (hd : ∀ r, d ≠ .s r) (s : State) (x : Issue) (n : Nat) (signed : Bool)
    (val : Group → Nat → Res) (hx : x.act ≠ []) :
    s.alu x d n signed val = s.modGroup x.g (fun g =>
      (g.writes (laneResults d n x.act (val (s.group x.g))).1).raise
        (laneResults d n x.act (val (s.group x.g))).2) := by
  obtain ⟨k, pc, min, act, g, p⟩ := x
  cases act with
  | nil => exact absurd rfl hx
  | cons i act => cases d <;> first | exact absurd rfl (hd _) | rfl

theorem State.alu_scalar (s : State) (k : Nat) (pc : W64) (min : List Nat) (i : Nat) (act : List Nat) (g : Group) (p : Partition)
    (r n : Nat) (signed : Bool) (val : Group → Nat → Res) :
    s.alu ⟨k, pc, min, i :: act, g, p⟩ (.s r) n signed val = s.modGroup k (fun g =>
      (g.write (.sca r) (if n = 2 then BitVec.ofNat 64 (val (s.group k) i).bits
        else extendTo64 signed (val (s.group k) i).bits)).raise (val (s.group k) i).flags.mask) := rfl

/-- What a result leaves of a group that computes it. -/
structure GroupResult (g h : Group) (d : Opnd) (n : Nat) (signed : Bool) (act : List Nat) (v : Nat → Res) : Prop where
  alike  : g.Alike h
  lanes  : ∀ l, (g.lane l).RegsOnly (h.lane l)
  value  : ∀ l ∈ Opnd.takers d act, h.dval d n l % 2 ^ (32 * n) = (v l).bits % 2 ^ (32 * n)
  extend : ∀ r, d = .s r → act ≠ [] → n = 1 → h.sreg r = extendTo64 signed ((h.sreg r).toNat % 2 ^ 32)
  vregs  : ∀ l r, ¬(l ∈ act ∧ Opnd.covers d n r) → (h.lane l).vreg r = (g.lane l).vreg r
  preds  : ∀ l k, ¬(l ∈ act ∧ d = .p k) → (h.lane l).pred k = (g.lane l).pred k
  sregs  : ∀ r, ¬(act ≠ [] ∧ d = .s r) → h.sreg r = g.sreg r
  others : ∀ l, l ∉ act → h.lane l = g.lane l
  sticky : h.gsw = g.gsw ||| flagsOf (fun l => (v l).flags.mask) (Opnd.lanes d act)
  late   : h.pend = g.pend.map (fun e => (Opnd.units d n act).foldl Pend.drop e)

theorem GroupResult.nil (g : Group) (d n signed v) : GroupResult g g d n signed [] v := by
  have hl : Opnd.lanes d [] = [] := by unfold Opnd.lanes; split <;> rfl
  refine ⟨.refl _, fun _ => .refl _, fun l h => ?_, fun r _ h => absurd rfl h, fun _ _ _ => rfl, fun _ _ _ => rfl,
    fun _ _ => rfl, fun _ _ => rfl, ?_, ?_⟩
  · unfold Opnd.takers at h; rw [hl] at h; split at h <;> simp at h
  · rw [hl]; simp [flagsOf]
  · unfold Opnd.units; rw [hl]; simp

/-- A scalar form's result. -/
theorem GroupResult.scalar {g : Group} (hs : g.scout = false) (r n : Nat) (hn : n = 1 ∨ n = 2) (signed : Bool)
    (a : Nat) (act : List Nat) (v : Nat → Res) :
    GroupResult g ((g.write (.sca r) (if n = 2 then BitVec.ofNat 64 (v a).bits
        else extendTo64 signed (v a).bits)).raise (v a).flags.mask) (.s r) n signed (a :: act) v := by
  generalize hx : (if n = 2 then BitVec.ofNat 64 (v a).bits else extendTo64 signed (v a).bits) = x
  have hb : (g.write (.sca r) x).scout = false := by rw [Group.write_scout, hs]
  have hr : ((g.write (.sca r) x).raise (v a).flags.mask).sreg r = x := by
    rw [Group.raise_body hb]; exact (Group.write_sca_sreg g r x r).trans (if_pos rfl)
  refine ⟨((Group.write_regsOnly _ _ _).alike).trans (Group.raise_alike _ _), fun l => ?_, fun l hl => ?_,
    fun q hq _ h1 => ?_, fun l q _ => ?_, fun l q _ => ?_, fun q hq => ?_, fun l _ => ?_, ?_, ?_⟩
  · rw [Group.raise_body hb]; exact .refl _
  · rw [Opnd.takers, if_neg (by simp)] at hl
    have : l = a := by simpa [Opnd.lanes] using hl
    subst this
    show BitVec.toNat (Group.sreg _ r) % _ = _
    rw [hr, ← hx]
    rcases hn with rfl | rfl
    · exact extendTo64_low signed (v l).bits
    · simp
  · rw [Opnd.s.injEq] at hq
    subst hq
    rw [hr, ← hx, if_neg (by omega), extendTo64_low]
    exact (extendTo64_mod signed _).symm
  · rw [Group.raise_body hb]; rfl
  · rw [Group.raise_body hb]; rfl
  · rw [Group.raise_body hb]
    refine (Group.write_sca_sreg g r x q).trans (if_neg ?_)
    rintro rfl
    exact hq ⟨by simp, rfl⟩
  · rw [Group.raise_body hb]; rfl
  · rw [Group.raise_body hb]
    show Group.gsw (Group.write _ _ _) ||| _ = _
    rw [Group.write_gsw]
    simp [flagsOf, Opnd.lanes]
  · rw [Group.raise_body hb]
    show Group.pend (Group.write _ _ _) = _
    rw [Group.write_pend]
    simp [Opnd.units, Opnd.lanes, destUnits]

/-- The result of a form that is not scalar. -/
theorem GroupResult.vector {g : Group} (hs : g.scout = false) {d : Opnd} (hd : Opnd.isDest d) (hd' : ∀ r, d ≠ .s r)
    (n : Nat) (hn : n = 1 ∨ n = 2) (signed : Bool) (act : List Nat) (ha : act.Nodup) (v : Nat → Res)
    (hp : ∀ k, d = .p k → ∀ l, (v l).bits < 2) :
    GroupResult g ((g.writes (laneResults d n act v).1).raise (laneResults d n act v).2) d n signed act v := by
  have hb : (g.writes (laneResults d n act v).1).scout = false := by rw [Group.writes_scout, hs]
  have hal : Opnd.lanes d act = act := by cases d <;> first | exact absurd rfl (hd' _) | rfl
  have halike : g.Alike ((g.writes (laneResults d n act v).1).raise (laneResults d n act v).2) :=
    ((Group.writes_regsOnly _ _).alike).trans (Group.raise_alike _ _)
  obtain ⟨w1, w2, w3⟩ := Group.writes_lanes d n hn hd' hd (fun l => BitVec.ofNat 64 (v l).bits)
    (fun k hk l => by have := hp k hk l; simp only [BitVec.toNat_ofNat]; omega) act ha g
  have e : (laneResults d n act v).1 = act.flatMap (fun l => destUnits d n l (BitVec.ofNat 64 (v l).bits)) := rfl
  rw [Group.raise_body hb] at halike ⊢
  rw [e] at halike ⊢
  refine ⟨halike, fun l => ?_, fun l hl => ?_,
    fun q hq => absurd hq (hd' q), fun l q hl => ?_, fun l q hl => ?_, fun q _ => w2 q, fun l hl => w1 l hl, ?_, ?_⟩
  · by_cases hla : l ∈ act
    · exact (w3 l hla).1
    · exact (w1 l hla).symm ▸ Lane.RegsOnly.refl _
  · unfold Opnd.takers at hl
    split at hl
    · simp at hl
    · next h7 =>
      rw [hal] at hl
      have e3 : ∀ (g : Group) (x : W64), ({ g with gsw := x } : Group).dval d n l = g.dval d n l := by
        intro g x; cases d <;> rfl
      rw [e3, (w3 l hl).2.2.2 h7, BitVec.toNat_ofNat]
      rcases hn with rfl | rfl <;> omega
  · by_cases hla : l ∈ act
    · exact (w3 l hla).2.1 q (fun hc => hl ⟨hla, hc⟩)
    · exact congrArg (fun m => Lane.vreg m q) (w1 l hla)
  · by_cases hla : l ∈ act
    · exact (w3 l hla).2.2.1 q (fun hc => hl ⟨hla, hc⟩)
    · exact congrArg (fun m => Lane.pred m q) (w1 l hla)
  · rw [hal]
    show Group.gsw (Group.writes _ _) ||| _ = _
    rw [Group.writes_gsw]
    exact congrArg _ (flagsOf_fold (fun l => (v l).flags) act)
  · rw [Opnd.units, hal]
    show Group.pend (Group.writes _ _) = _
    rw [Group.writes_pend]
    exact congrArg (fun us => List.map (fun e => List.foldl Pend.drop e us) _)
      (flatMap_fst d n (fun l => BitVec.ofNat 64 (v l).bits) act)

/-- What a result in the issued group leaves of the machine. -/
theorem GroupResult.lift {s t : State} {i : Instr} {pc : W64} {n : Nat} {signed : Bool} {v : Nat → Res} {k : Group}
    (ho : OnlyGroup s t) (hg : t.group s.cur = k)
    (h : GroupResult ((s.issued i pc).group s.cur) k i.ops.d n signed ((s.group s.cur).active i pc) v) :
    Result s t i pc n signed (fun l => (v l).flags.mask) (fun l x => x = (v l).bits % 2 ^ (32 * n)) := by
  have hadv := State.issued_advanced s i pc
  have hsub := Group.active_sub (s.group s.cur) i pc
  refine ⟨ho, ?_, ⟨fun l hl => ?_, fun l hl => ?_⟩, ?_, ?_, ?_, ?_, ?_, ?_, ?_⟩ <;>
    simp only [hg]
  · exact (State.issued_alike s i pc).trans h.alike
  · exact ⟨(h.lanes l).pc.trans (hadv.past l hl).1, (hadv.past l hl).2.trans (h.lanes l).alike⟩
  · exact (h.others l (fun ha => hl (hsub l ha))).trans (hadv.still l hl)
  · exact h.value
  · exact h.extend
  · intro l r hl; exact (h.vregs l r hl).trans (State.issued_vreg _ _ _ _ _)
  · intro l r hl; exact (h.preds l r hl).trans (State.issued_pred _ _ _ _ _)
  · intro r hr; exact (h.sregs r hr).trans (State.issued_sreg _ _ _ _)
  · exact h.sticky.trans (by rw [State.issued_gsw])
  · exact h.late.trans (by rw [State.issued_pend])

/-- What every instruction with a result of a fixed latency leaves. -/
theorem alu_result {s : State} {i : Instr} {pc : W64} {n : Nat} {signed : Bool} {val : Group → Nat → Res}
    {v : Nat → Res} {f : Issue → State → State} (h : Issues s i pc) (he : exec i s = perform i s f)
    (hf : ∀ x u, f x u = u.alu x i.ops.d n signed val)
    (hn : n = 1 ∨ n = 2) (hd : Opnd.isDest i.ops.d)
    (hv : ∀ l, val ((s.issued i pc).group s.cur) l = v l)
    (hp : ∀ k, i.ops.d = .p k → ∀ l, (v l).bits < 2) :
    ∃ t, exec i s = .next t ∧
      Result s t i pc n signed (fun l => (v l).flags.mask) (fun l x => x = (v l).bits % 2 ^ (32 * n)) := by
  rw [he, perform_issues h, hf]
  have hval : val ((s.issued i pc).group s.cur) = v := funext hv
  have hs : ((s.issued i pc).group s.cur).scout = false := by rw [State.issued_scout]; exact h.body
  have hnd := Group.active_nodup (s.group s.cur) i pc
  by_cases hz : (s.group s.cur).active i pc = []
  · refine ⟨_, rfl, ?_⟩
    have e : (s.issued i pc).alu (s.issueOf i pc) i.ops.d n signed val = s.issued i pc := by
      unfold State.issueOf State.issueAt; rw [hz]; exact State.alu_nil ..
    rw [e]
    exact GroupResult.lift (State.issued_only s i pc) rfl (by rw [hz]; exact .nil _ _ _ _ _)
  · by_cases hsc : ∃ r, i.ops.d = .s r
    · obtain ⟨r, hr⟩ := hsc
      obtain ⟨a, act, hact⟩ := List.exists_cons_of_ne_nil hz
      refine ⟨_, rfl, ?_⟩
      have e : (s.issued i pc).alu (s.issueOf i pc) i.ops.d n signed val =
          (s.issued i pc).alu ⟨s.cur, pc, (s.group s.cur).atMin pc, a :: act, s.group s.cur, s.part (s.group s.cur).part⟩ (.s r) n signed val := by
        unfold State.issueOf State.issueAt; rw [hact, hr]
      rw [e, State.alu_scalar, hval]
      exact GroupResult.lift ((State.issued_only s i pc).modGroup _) (State.modGroup_group_self _ _ _)
        (by rw [hact, hr]; exact .scalar hs r n hn signed a act v)
    · have hd' : ∀ r, i.ops.d ≠ .s r := fun r hr => hsc ⟨r, hr⟩
      refine ⟨_, rfl, ?_⟩
      rw [State.alu_lanes hd' _ _ _ _ _ hz]
      simp only [State.issueOf, State.issueAt, hval]
      exact GroupResult.lift ((State.issued_only s i pc).modGroup _) (State.modGroup_group_self _ _ _)
        (.vector hs hd hd' n hn signed _ hnd v hp)

end Sys2Proof.Machine
end

