-- ==== Sys2Proof/Laws/Memory.lean ====
section
/-! SUPPORT. Every operation that writes memory keeps its canonical form, and one that only rearranges caches
leaves memory as it is. -/

namespace Sys2Proof.Machine

/-- A fold of an operation that keeps the form keeps it. -/
theorem State.Canonical.foldl {α : Type} {f : State → α → State} (hf : ∀ s a, s.Canonical → (f s a).Canonical)
    (l : List α) : ∀ s : State, s.Canonical → (l.foldl f s).Canonical := by
  induction l with
  | nil => exact fun _ h => h
  | cons a l ih => exact fun s h => ih _ (hf s a h)

/-- An operation that leaves memory alone keeps the form. -/
theorem State.Canonical.of_mem {s t : State} (h : s.Canonical) (hm : t.mem = s.mem) : t.Canonical := by
  unfold State.Canonical at *; rw [hm]; exact h

theorem State.reset_canonical : State.reset.Canonical := Memory.wf_nil

/-! ### Memory alone -/

@[simp] theorem State.setL1_mem (s : State) (c l v) : (s.setL1 c l v).mem = s.mem := rfl
@[simp] theorem State.setL2_mem (s : State) (c l v) : (s.setL2 c l v).mem = s.mem := rfl
@[simp] theorem State.dropWrite_mem (s : State) (a) : (s.dropWrite a).mem = s.mem := rfl

theorem State.unpoison_mem (s : State) (pa : Nat) : (s.unpoison pa).mem = s.mem := by
  unfold State.unpoison; split <;> rfl

theorem State.sieveWrite_mem (s : State) (m pa n) : (s.sieveWrite m pa n).mem = s.mem := by
  unfold State.sieveWrite; split <;> rfl

theorem State.triggerWrite_mem (s : State) (pa bs) : (s.triggerWrite pa bs).mem = s.mem := by
  unfold State.triggerWrite; split <;> rfl

theorem State.arrive_mem (s : State) (d c p w) : (s.arrive d c p w).mem = s.mem := rfl

theorem State.arriveAt_mem (s : State) (c va pa) : (s.arriveAt c va pa).mem = s.mem := by
  have h : ∀ (d : Nat) (ns : List (Nat × Option Nat)) (s : State),
      (ns.foldl (fun s n => s.arrive d c n.1 n.2) s).mem = s.mem := by
    intro d ns
    induction ns with
    | nil => exact fun _ => rfl
    | cons n ns ih => exact fun s => (ih (s.arrive d c n.1 n.2)).trans rfl
  exact h _ _ s

/-! ### Writes -/

theorem State.Canonical.ite {p : Prop} [Decidable p] {a b : State} (ha : a.Canonical) (hb : b.Canonical) :
    (if p then a else b).Canonical := by
  split
  · exact ha
  · exact hb

theorem State.Canonical.setL1 {s : State} (h : s.Canonical) (c l v) : (s.setL1 c l v).Canonical := h
theorem State.Canonical.setL2 {s : State} (h : s.Canonical) (d l v) : (s.setL2 d l v).Canonical := h
theorem State.Canonical.putMem {s : State} (h : s.Canonical) (key pa b) : (s.putMem key pa b).Canonical := Memory.wf_set h pa _
theorem State.Canonical.homeToMem {s : State} (h : s.Canonical) (d l) : (s.homeToMem d l).Canonical := by
  unfold State.homeToMem
  exact State.Canonical.setL2 (State.Canonical.foldl (fun _ _ h => h.putMem _ _ _) _ s h) _ _ _

theorem State.Canonical.ownPutByte {s : State} (h : s.Canonical) (c pa b) : (s.ownPutByte c pa b).Canonical := by
  have h1 : (s.unpoison pa).Canonical := h.of_mem (s.unpoison_mem pa)
  unfold State.ownPutByte; dsimp only
  split
  · split
    · exact State.Canonical.ite ((h1.homeToMem _ _).putMem _ _ _) ((h1.homeToMem _ _).setL2 _ _ _)
    · exact State.Canonical.ite (h1.putMem _ _ _) (h1.setL2 _ _ _)
  · exact h1.putMem _ _ _

theorem State.Canonical.watched {s : State} (h : s.Canonical) (m pa n qa bs) :
    ((s.sieveWrite m pa n).triggerWrite qa bs).Canonical :=
  h.of_mem ((State.triggerWrite_mem _ _ _).trans (State.sieveWrite_mem _ _ _ _))

theorem State.Canonical.evictL2 {s : State} (h : s.Canonical) (d l) : (s.evictL2 d l).Canonical := by
  unfold State.evictL2; dsimp only
  split
  · exact h.homeToMem _ _
  · exact State.Canonical.foldl (fun s _ h => h.of_mem (s.arriveAt_mem _ _ _)) _ _
      (State.Canonical.foldl (fun _ _ h => State.Canonical.watched
        (State.Canonical.foldl (fun _ _ h => h.ownPutByte _ _ _) _ _ h) _ _ _ _ _) _ _ (h.setL2 _ _ _))

theorem State.Canonical.takeWay {s : State} (h : s.Canonical) (d c l) : (s.takeWay d c l).1.Canonical := by
  unfold State.takeWay; dsimp only
  split
  · exact h
  · split
    · exact h
    · split
      · exact h
      · exact State.Canonical.foldl (f := fun s (m : Nat × Line) => s.evictL2 d m.1) (fun _ _ h => h.evictL2 _ _) _ _ h

theorem State.Canonical.ownWriteByte {s : State} (h : s.Canonical) (c pa b) : (s.ownWriteByte c pa b).Canonical := by
  have h1 : (s.unpoison pa).Canonical := h.of_mem (s.unpoison_mem pa)
  unfold State.ownWriteByte; dsimp only
  split
  · split
    · next hw =>
      have h2 := congrArg (fun p => State.Canonical p.1) hw
      exact State.Canonical.putMem (h2.mp ((State.Canonical.ite (h1.homeToMem _ _) h1).takeWay _ _ _)) _ _ _
    · next hw =>
      have h2 := congrArg (fun p => State.Canonical p.1) hw
      exact State.Canonical.setL2 (h2.mp ((State.Canonical.ite (h1.homeToMem _ _) h1).takeWay _ _ _)) _ _ _
  · exact h1.putMem _ _ _

theorem State.Canonical.ownWrite {s : State} (h : s.Canonical) (c m pa bs) : (s.ownWrite c m pa bs).Canonical := by
  unfold State.ownWrite
  split
  · exact h
  · exact State.Canonical.watched (State.Canonical.foldl (fun _ _ h => h.ownWriteByte _ _ _) _ s h) _ _ _ _ _

theorem State.Canonical.sysWrite {s : State} (h : s.Canonical) (pa bs key) : (s.sysWrite pa bs key).Canonical := by
  unfold State.sysWrite
  split
  · exact h
  · exact State.Canonical.watched (State.Canonical.foldl (fun s _ h => State.Canonical.putMem
      (h.of_mem (s.unpoison_mem _)) _ _ _) _ _ (State.Canonical.foldl (fun _ _ h => h.homeToMem _ _) _ s h)) _ _ _ _ _

theorem State.Canonical.toOwner {s : State} (h : s.Canonical) (c l bs arr) : (s.toOwner c l bs arr).Canonical := by
  unfold State.toOwner
  exact State.Canonical.foldl (fun s _ h => h.of_mem (s.arriveAt_mem _ _ _)) _ _
    (State.Canonical.foldl (fun _ _ h => h.ownWrite _ _ _ _) _ s h)

theorem State.Canonical.flushL1 {s : State} (h : s.Canonical) (c l far) : (s.flushL1 c l far).Canonical := by
  unfold State.flushL1
  extract_lets ln die pa s2 near p s3
  have h3 : s3.Canonical := by
    unfold s3 p; split
    · exact State.Canonical.takeWay (s := s2) (h.setL1 _ _ _) _ _ _
    · exact h.setL1 _ _ _
  split
  · exact h
  · split
    · exact State.Canonical.setL2 (State.Canonical.ite (h3.toOwner _ _ _ _) h3) _ _ _
    · exact State.Canonical.toOwner (State.Canonical.ite (State.Canonical.setL2 (State.Canonical.ite
        (h3.toOwner _ _ _ _) h3) _ _ _) h3) _ _ _ _

theorem State.Canonical.endRelaunch {s : State} (h : s.Canonical) (t) : (s.endRelaunch t).Canonical := by
  unfold State.endRelaunch
  extract_lets mine ctx
  split
  · refine State.Canonical.foldl (fun s q h => ?_) _ _ h
    have h1 := State.Canonical.ite (p := (s.l1Line q.core q.line).dirty ≠ 0 ∧ (s.l1Line q.core q.line).ctx ≠ ctx)
      (h.flushL1 q.core q.line true) h
    exact State.Canonical.ite (h1.setL1 _ _ _) ((h1.setL1 _ _ _).flushL1 _ _ _)
  · exact h

theorem State.Canonical.flushVisitor {s : State} (h : s.Canonical) (d l) : (s.flushVisitor d l).Canonical := by
  unfold State.flushVisitor; dsimp only
  split
  · exact h
  · exact (h.setL2 _ _ _).toOwner _ _ _ _

theorem State.Canonical.releaseAt {s : State} (h : s.Canonical) (c x lvl) : (s.releaseAt c x lvl).Canonical := by
  unfold State.releaseAt; dsimp only
  have h1 := State.Canonical.foldl (f := fun s l => s.flushL1 c l (decide (2 ≤ lvl))) (fun _ _ h => h.flushL1 _ _ _)
    (s.dirtyL1 c x) s h
  have h2 := State.Canonical.ite (p := 2 ≤ lvl) (State.Canonical.foldl (f := fun s l => s.flushVisitor (dieOfCore c) l)
    (fun _ _ h => h.flushVisitor _ _) ((List.foldl (fun s l => s.flushL1 c l (decide (2 ≤ lvl))) s (s.dirtyL1 c x)).dirtyL2
    (dieOfCore c) x) _ h1) h1
  split
  · exact h
  · split
    · exact State.Canonical.foldl (fun _ _ h => State.Canonical.foldl (fun _ _ h =>
        State.Canonical.ite (h.homeToMem _ _) h) _ _ h) _ _ h2
    · exact h2

theorem State.acquireAt_mem (s : State) (c x lvl) : (s.acquireAt c x lvl).mem = s.mem := by
  unfold State.acquireAt; dsimp only
  split
  · rfl
  · split <;> rfl

@[simp] theorem State.publish_mem (s : State) (t c) : (s.publish t c).mem = s.mem := rfl
@[simp] theorem State.dropQuota_mem (s : State) (f l m) : (s.dropQuota f l m).mem = s.mem := rfl
@[simp] theorem State.overQuota_mem (s : State) (c t l m) : (s.overQuota c t l m).mem = s.mem := rfl

theorem State.Canonical.publish {s : State} (h : s.Canonical) (t c) : (s.publish t c).Canonical := h.of_mem (s.publish_mem t c)
theorem State.Canonical.overQuota {s : State} (h : s.Canonical) (c t l m) : (s.overQuota c t l m).Canonical :=
  h.of_mem (s.overQuota_mem c t l m)

theorem State.Canonical.release {s : State} (h : s.Canonical) (g sc) : (s.release g sc).Canonical := by
  unfold State.release
  extract_lets s1 lvl s2
  have h1 : s1.Canonical := State.Canonical.ite (h.endRelaunch g.team) h
  have h2 : s2.Canonical := State.Canonical.ite (h1.publish _ _) h1
  exact h2.releaseAt _ _ _

theorem State.Canonical.acquire {s : State} (h : s.Canonical) (g sc) : (s.acquire g sc).Canonical :=
  h.of_mem (s.acquireAt_mem _ _ _)

theorem State.Canonical.touch {s : State} (h : s.Canonical) (d l) : (s.touch d l).Canonical := by
  unfold State.touch
  exact State.Canonical.ite h (h.setL2 _ _ _)

theorem State.Canonical.homeFill {s : State} (h : s.Canonical) (c l p) : (s.homeFill c l p).Canonical := by
  unfold State.homeFill; dsimp only
  split
  · exact h
  · split
    · exact h.touch _ _
    · split
      · next hw => exact (congrArg (fun p => State.Canonical p.1) hw).mp (h.takeWay _ _ _)
      · next hw => exact State.Canonical.setL2 ((congrArg (fun p => State.Canonical p.1) hw).mp (h.takeWay _ _ _)) _ _ _

theorem State.Canonical.belowL1 {s : State} (h : s.Canonical) (d c l p) : (s.belowL1 d c l p).1.Canonical := by
  unfold State.belowL1; dsimp only
  split
  · split
    · exact h.touch _ _
    · split
      · exact h
      · have h1 := (h.homeFill c l p).takeWay d c l
        split
        · next hw => exact (congrArg (fun p => State.Canonical p.1) hw).mp h1
        · next hw => exact State.Canonical.setL2 ((congrArg (fun p => State.Canonical p.1) hw).mp h1) _ _ _
  · exact h.homeFill _ _ _

theorem State.Canonical.evictL1 {s : State} (h : s.Canonical) (c l) : (s.evictL1 c l).Canonical := by
  unfold State.evictL1
  exact State.Canonical.setL1 (State.Canonical.flushL1 (State.Canonical.foldl (fun _ _ h => h.endRelaunch _) _ _ h) _ _ _) _ _ _

theorem State.Canonical.l1Room {s : State} (h : s.Canonical) (c l b) : (s.l1Room c l b).1.Canonical := by
  unfold State.l1Room; dsimp only
  split
  · exact h
  · split
    · exact h
    · split
      · exact h
      · split
        · exact h
        · exact State.Canonical.evictL1 (s := s.tick) h _ _

theorem State.Canonical.l1Read {s : State} (h : s.Canonical) (c x pa n b) : (s.l1Read c x pa n b).1.Canonical := by
  have h1 := h.belowL1 (dieOfCore c) x (pa / 128) 0
  unfold State.l1Read; dsimp only
  split
  · exact h
  · split
    · exact h1
    · dsimp only
      split
      · exact (h1.l1Room _ _ _).setL1 _ _ _
      · exact h1.l1Room _ _ _

theorem State.Canonical.gather {s : State} (h : s.Canonical) (c l) : (s.gather c l).Canonical := by
  unfold State.gather
  have h1 := (h.flushL1 c l true).flushVisitor (dieOfCore c) l
  exact State.Canonical.setL1 (State.Canonical.ite (h1.setL2 _ _ _) h1) _ _ _

theorem State.Canonical.ownLine {s : State} (h : s.Canonical) (c x l) : (s.ownLine c x l).Canonical := by
  unfold State.ownLine
  exact State.Canonical.ite (State.Canonical.setL1 (h.flushL1 _ _ _) _ _ _) h

theorem State.Canonical.l1Write {s : State} (h : s.Canonical) (c x t pa bs arr) :
    (s.l1Write c x t pa bs arr).Canonical := by
  unfold State.l1Write
  extract_lets line beyond s1 s3 r s4 l'
  have h1 : s1.Canonical := State.Canonical.ite (h.endRelaunch _) h
  have h4 : s4.Canonical := State.Canonical.l1Room (s := s3) ((h1.overQuota _ _ _ _).ownLine _ _ _) _ _ _
  split
  · split
    · exact State.Canonical.of_mem h4 rfl
    · exact h4.setL1 _ _ _
  · exact State.Canonical.foldl (fun s _ h => h.of_mem (s.arriveAt_mem _ _ _)) _ _ (((h4.endRelaunch _).gather _ _).ownWrite _ _ _ _)

theorem State.Canonical.engineWrite {s : State} (h : s.Canonical) (c x m pa bs p) :
    (s.engineWrite c x m pa bs p).Canonical := by
  unfold State.engineWrite
  exact State.Canonical.foldl (fun _ _ h => State.Canonical.ite h (h.setL2 _ _ _)) _ _
    (State.Canonical.ownWrite (State.Canonical.foldl (fun _ _ h => h.gather _ _) _ s h) _ _ _ _)

theorem State.Canonical.engineRead {s : State} (h : s.Canonical) (d c pa n p) : (s.engineRead d c pa n p).1.Canonical := by
  have fold : ∀ (ls : List Nat) (a : State × List Byte), a.1.Canonical →
      (ls.foldl (fun (a : State × List Byte) l => ((a.1.belowL1 d c l p).1, a.2 ++ (a.1.belowL1 d c l p).2.1)) a).1.Canonical := by
    intro ls
    induction ls with
    | nil => exact fun _ h => h
    | cons l ls ih => exact fun a h => ih _ (h.belowL1 d c l p)
  exact fold _ _ h

theorem State.Canonical.recall {s : State} (h : s.Canonical) (f) : (s.recall f).Canonical := by
  unfold State.recall
  exact State.Canonical.of_mem (State.Canonical.foldl (fun _ _ h => h.flushVisitor _ _) _ _
    (State.Canonical.foldl (fun _ _ h => h.flushL1 _ _ _) _ _ h)) rfl

theorem carryRun_wf (f t n w : Nat) {m : Memory} (h : Memory.wf m = true) :
    Memory.wf (carryRun f t n w memDefault m) = true := by
  have fold : ∀ (l r : Memory), Memory.wf r = true →
      Memory.wf (l.foldl (fun r c => FMap.set memDefault r (c.1 - f / w + t / w) c.2) r) = true := by
    intro l
    induction l with
    | nil => exact fun _ h => h
    | cons c l ih => exact fun r h => ih _ (Memory.wf_set h _ _)
  exact fold _ _ (Memory.wf_filter h _)

/-- Bytes written one after another keep the form. -/
theorem Memory.wf_foldl_set {α : Type} (p : α → Nat) (v : α → Byte) (l : List α) :
    ∀ m : Memory, Memory.wf m = true → Memory.wf (l.foldl (fun m a => Memory.set m (p a) (v a)) m) = true := by
  induction l with
  | nil => exact fun _ h => h
  | cons a l ih => exact fun m h => ih _ (Memory.wf_set h _ _)

theorem State.Canonical.copyTile {s : State} (h : s.Canonical) (c f t n) : (s.copyTile c f t n).Canonical := by
  have h1 := State.Canonical.foldl (f := fun s o => (s.recall (f + o)).retagQuota (f + o) (t + o))
    (fun s o h => State.Canonical.of_mem (s := s.recall (f + o)) (h.recall _) rfl)
    ((List.range ((n + 65535) / 65536)).map (fun k => 65536 * k)) s h
  unfold State.copyTile State.Canonical
  extract_lets tiles s1 s2 raw
  have h2 : s2.Canonical := State.Canonical.foldl (fun _ _ h => State.Canonical.ite (h.homeToMem _ _) h) _ s1 h1
  have hraw : Memory.wf raw = true := carryRun_wf f t n 1 h2
  cases c with
  | none => exact hraw
  | some x => exact Memory.wf_foldl_set _ _ _ _ hraw

theorem State.Canonical.placeWord {s : State} (h : s.Canonical) (bs) : (s.placeWord bs).Canonical :=
  Memory.wf_setBytes h _ bs

theorem State.Canonical.withFetchWord {s : State} (h : s.Canonical) (n w) : (s.withFetchWord n w).Canonical :=
  h.placeWord _

theorem State.clock_mem (s : State) : s.clock.mem = s.mem := by
  unfold State.clock; dsimp only; split <;> rfl

/-! ### What a write leaves to read -/

theorem State.putMem_memByte (s : State) (key pa qa b) :
    (s.putMem key pa b).memByte qa = if qa = pa then b else s.memByte qa := by
  unfold State.memByte State.putMem
  exact Memory.get_set _ _ _ _

end Sys2Proof.Machine
end

