-- ==== Sys2Proof/Laws/Operands.lean ====
section
/-! SUPPORT. Operands are read alike before and after the issue of an instruction: issue changes no register. -/

namespace Sys2Proof.Machine

@[simp] theorem State.issued_srcInt (s : State) (i : Instr) (pc : W64) (l : Nat) (t : IntTy) (o : Opnd) :
    srcInt ((s.issued i pc).group s.cur) l t o = srcInt (s.group s.cur) l t o := by
  simp [srcInt]
@[simp] theorem State.issued_srcElem (s : State) (i : Instr) (pc : W64) (l : Nat) (t : IntTy) (o : Opnd) (j : Nat) :
    srcElem ((s.issued i pc).group s.cur) l t o j = srcElem (s.group s.cur) l t o j := by
  cases o <;> simp [srcElem]
@[simp] theorem State.issued_srcBit (s : State) (i : Instr) (pc : W64) (l : Nat) (w : Bool) (o : Opnd) :
    srcBit ((s.issued i pc).group s.cur) l w o = srcBit (s.group s.cur) l w o := by
  cases o <;> simp [srcBit]
@[simp] theorem State.issued_srcFp (s : State) (i : Instr) (pc : W64) (l : Nat) (f : FpFmt) (o : Opnd) (j : Nat) :
    srcFp ((s.issued i pc).group s.cur) l f o j = srcFp (s.group s.cur) l f o j := by
  cases o <;> simp [srcFp]
@[simp] theorem State.issued_cvtRead (s : State) (i : Instr) (pc : W64) (l b w r : Nat) (o : Opnd) :
    cvtRead ((s.issued i pc).group s.cur) l b w r o = cvtRead (s.group s.cur) l b w r o := by
  simp [cvtRead]
@[simp] theorem State.issued_cvtFloat (s : State) (i : Instr) (pc : W64) (l : Nat) (f : FpFmt) (o : Opnd) :
    cvtFloat ((s.issued i pc).group s.cur) l f o = cvtFloat (s.group s.cur) l f o := by
  cases o <;> simp [cvtFloat]
@[simp] theorem State.issued_cvtInt (s : State) (i : Instr) (pc : W64) (l : Nat) (t : IntTy) (o : Opnd) :
    cvtInt ((s.issued i pc).group s.cur) l t o = cvtInt (s.group s.cur) l t o := by
  cases o <;> simp [cvtInt]
@[simp] theorem State.issued_cvtResult (s : State) (i : Instr) (pc : W64) (l b w : Nat) (d : Opnd) (r : Res) :
    cvtResult ((s.issued i pc).group s.cur) l b w d r = cvtResult (s.group s.cur) l b w d r := by
  simp [cvtResult]

/-- Whether a field takes results in a vector or scalar register alone. -/
def Accept.isReg (a : Accept) : Bool :=
  a.imm.isNone && !a.limm && a.acc.isNone && !a.sp && !a.prd && !a.non

theorem Accept.ok_isDest {w : Nat} {a : Accept} {d : Opnd} (h : a.ok w d = true)
    (ha : Accept.isReg a = true ∨ a = .pred) : Opnd.isDest d ∧ (Accept.isReg a = true → ∀ k, d ≠ .p k) := by
  rcases ha with ha | rfl
  · simp only [Accept.isReg, Bool.and_eq_true, Option.isNone_iff_eq_none, Bool.not_eq_true'] at ha
    obtain ⟨⟨⟨⟨⟨h1, h2⟩, h3⟩, h4⟩, h5⟩, h6⟩ := ha
    cases d <;> simp_all [Accept.ok, Opnd.isDest]
  · cases d <;> simp_all [Accept.ok, Accept.pred, Opnd.isDest, Accept.isReg]

theorem Instr.wf_dest {w : Nat} {i : Instr} (h : i.wf w = true) : i.shape.d.ok w i.ops.d = true := by
  simp only [Instr.wf, Bool.and_eq_true] at h
  exact h.1.1.1.2

/-- An instruction whose meaning is one computation of each lane, read from the registers at issue, gives
that computation's results. -/
theorem gives_of_alu {i : Instr} {n : Nat} {signed : Bool} {val : Group → Nat → Res} {f : Issue → State → State}
    (he : ∀ s, exec i s = perform i s f) (hf : ∀ x u, f x u = u.alu x i.ops.d n signed val)
    (hn : n = 1 ∨ n = 2) (hd : Accept.isReg i.shape.d = true)
    (hv : ∀ (s : State) pc l, val ((s.issued i pc).group s.cur) l = val (s.group s.cur) l) :
    Gives i n signed (fun g l => (val g l).flags.mask) (fun g l x => x = (val g l).bits % 2 ^ (32 * n)) := by
  intro s pc h
  have ho := Accept.ok_isDest (Instr.wf_dest h.wf) (.inl hd)
  exact alu_result h (he s) hf hn ho.1 (hv s pc) (fun k hk => absurd hk (ho.2 hd k))

/-- The same for an instruction whose result is a predicate. -/
theorem gives_of_pred {i : Instr} {val : Group → Nat → Res} {f : Issue → State → State}
    (he : ∀ s, exec i s = perform i s f) (hf : ∀ x u, f x u = u.alu x i.ops.d 1 false val)
    (hd : i.shape.d = .pred)
    (hv : ∀ (s : State) pc l, val ((s.issued i pc).group s.cur) l = val (s.group s.cur) l)
    (hp : ∀ g l, (val g l).bits < 2) :
    Gives i 1 false (fun g l => (val g l).flags.mask) (fun g l x => x = (val g l).bits) := by
  intro s pc h
  have ho := Accept.ok_isDest (Instr.wf_dest h.wf) (.inr hd)
  obtain ⟨t, ht, r⟩ := alu_result h (he s) hf (.inl rfl) ho.1 (hv s pc) (fun k _ => hp _)
  exact ⟨t, ht, r.frame, r.group, r.pcs,
    fun l hl => (r.value l hl).trans (Nat.mod_eq_of_lt (by have := hp (s.group s.cur) l; omega)),
    r.extend, r.vregs, r.preds, r.sregs, r.sticky, r.late⟩

/-- Weakens what is said of the results. -/
theorem Gives.imp {i : Instr} {n : Nat} {signed : Bool} {fl fl' : Group → Nat → Nat} {ok ok' : Group → Nat → Nat → Prop}
    (h : Gives i n signed fl ok) (hf : ∀ g l, fl g l = fl' g l) (hk : ∀ g l x, ok g l x → ok' g l x) :
    Gives i n signed fl' ok' := by
  intro s pc hi
  obtain ⟨t, he, r⟩ := h s pc hi
  have e : fl (s.group s.cur) = fl' (s.group s.cur) := funext (hf _)
  exact ⟨t, he, e ▸ ⟨r.frame, r.group, r.pcs, fun l hl => hk _ _ _ (r.value l hl), r.extend, r.vregs, r.preds,
    r.sregs, r.sticky, r.late⟩⟩

end Sys2Proof.Machine
end

