-- ==== Sys2Proof/Laws/PerInstr.lean ====
section
/-! SUPPORT. Statements made for each instruction. `Fits`: the opcode and the mod of a well-formed instruction
fit the fields that R91 gives them. -/

namespace Sys2Proof.Laws

set_option Elab.async false

/-- The opcode fits ten bits and the mod six (R91). -/
def Fits.Statement (i : Instr) : Prop := ∀ w, i.wf w = true → i.opMod.1 < 1024 ∧ i.opMod.2 < 64

theorem wf_cross {w : Nat} {i : Instr} (h : i.wf w = true) : i.crossOk w = true := by
  simp only [Instr.wf, Bool.and_eq_true] at h; exact h.2

theorem wf_not_event {w : Nat} {i : Instr} (h : i.wf w = true) : i.isEvent = false := by
  simp only [Instr.wf, Bool.and_eq_true, Bool.not_eq_true'] at h; exact h.1.1.1.1.1.1

theorem Fits.event {i : Instr} (h : i.isEvent = true) : Fits.Statement i := by
  intro w hw; rw [wf_not_event hw] at h; cases h

theorem bitOf_lt (b : Bool) : bitOf b < 2 := by cases b <;> decide
theorem IntTy_code_lt (t : IntTy) : t.code < 8 := by cases t <;> decide
theorem FpFmt_code_lt (t : FpFmt) : t.code < 8 := by cases t <;> decide
theorem Rnd_code_lt (t : Rnd) : t.code < 4 := by cases t <;> decide
theorem Scope_code_lt (t : Scope) : t.code < 7 := by cases t <;> decide
theorem Cond_code_lt (t : Cond) : t.code < 7 := by cases t <;> decide
theorem PlogOp_code_lt (t : PlogOp) : t.code < 4 := by cases t <;> decide
theorem XlaneMode_code_lt (t : XlaneMode) : t.code < 4 := by cases t <;> decide
theorem PollMode_code_lt (t : PollMode) : t.code < 4 := by cases t <;> decide
theorem FoldOp_code_lt (t : FoldOp) : t.code < 6 := by cases t <;> decide
theorem Size_code_lt (t : Size) : t.code < 8 := by cases t <;> decide
theorem Order_code_lt (t : Order) : t.code < 4 := by cases t <;> decide
theorem LoadFe_code_lt (t : LoadFe) : t.code < 3 := by cases t <;> decide
theorem StoreFe_code_lt (t : StoreFe) : t.code < 3 := by cases t <;> decide
theorem MmaFmt_code_lt (t : MmaFmt) : t.code < 8 := by cases t <;> decide
theorem ActFmt_code_lt (t : ActFmt) : t.code < 5 := by cases t <;> decide
theorem QGroup_code_lt (t : QGroup) : t.code < 3 := by cases t <;> decide
theorem RowW_code_lt (t : RowW) : t.code < 3 := by cases t <;> decide

theorem Fits.add (t : IntTy) (sat : Bool) (c : Ctl) (o : Ops) : Fits.Statement (.add t sat c o) := by
  intro _ _
  have := IntTy_code_lt t
  have := bitOf_lt sat
  simp only [Instr.opMod]; constructor <;> omega
theorem Fits.sub (t : IntTy) (sat : Bool) (c : Ctl) (o : Ops) : Fits.Statement (.sub t sat c o) := by
  intro _ _
  have := IntTy_code_lt t
  have := bitOf_lt sat
  simp only [Instr.opMod]; constructor <;> omega
theorem Fits.mul (t : IntTy) (sat : Bool) (c : Ctl) (o : Ops) : Fits.Statement (.mul t sat c o) := by
  intro _ _
  have := IntTy_code_lt t
  have := bitOf_lt sat
  simp only [Instr.opMod]; constructor <;> omega
theorem Fits.mulhi (t : IntTy) (c : Ctl) (o : Ops) : Fits.Statement (.mulhi t c o) := by
  intro _ _
  have := IntTy_code_lt t
  simp only [Instr.opMod]; constructor <;> omega
theorem Fits.mulw (t : IntTy) (c : Ctl) (o : Ops) : Fits.Statement (.mulw t c o) := by
  intro _ _
  have := IntTy_code_lt t
  simp only [Instr.opMod]; constructor <;> omega
theorem Fits.mad (t : IntTy) (sat : Bool) (c : Ctl) (o : Ops) : Fits.Statement (.mad t sat c o) := by
  intro _ _
  have := IntTy_code_lt t
  have := bitOf_lt sat
  simp only [Instr.opMod]; constructor <;> omega
theorem Fits.div (t : IntTy) (c : Ctl) (o : Ops) : Fits.Statement (.div t c o) := by
  intro _ _
  have := IntTy_code_lt t
  simp only [Instr.opMod]; constructor <;> omega
theorem Fits.rem (t : IntTy) (c : Ctl) (o : Ops) : Fits.Statement (.rem t c o) := by
  intro _ _
  have := IntTy_code_lt t
  simp only [Instr.opMod]; constructor <;> omega
theorem Fits.min (t : IntTy) (c : Ctl) (o : Ops) : Fits.Statement (.min t c o) := by
  intro _ _
  have := IntTy_code_lt t
  simp only [Instr.opMod]; constructor <;> omega
theorem Fits.max (t : IntTy) (c : Ctl) (o : Ops) : Fits.Statement (.max t c o) := by
  intro _ _
  have := IntTy_code_lt t
  simp only [Instr.opMod]; constructor <;> omega
theorem Fits.abs (t : IntTy) (sat : Bool) (c : Ctl) (o : Ops) : Fits.Statement (.abs t sat c o) := by
  intro _ _
  have := IntTy_code_lt t
  have := bitOf_lt sat
  simp only [Instr.opMod]; constructor <;> omega
theorem Fits.neg (t : IntTy) (sat : Bool) (c : Ctl) (o : Ops) : Fits.Statement (.neg t sat c o) := by
  intro _ _
  have := IntTy_code_lt t
  have := bitOf_lt sat
  simp only [Instr.opMod]; constructor <;> omega
theorem Fits.and (w64 : Bool) (c : Ctl) (o : Ops) : Fits.Statement (.and w64 c o) := by
  intro _ _
  have := bitOf_lt w64
  simp only [Instr.opMod]; constructor <;> omega
theorem Fits.or (w64 : Bool) (c : Ctl) (o : Ops) : Fits.Statement (.or w64 c o) := by
  intro _ _
  have := bitOf_lt w64
  simp only [Instr.opMod]; constructor <;> omega
theorem Fits.xor (w64 : Bool) (c : Ctl) (o : Ops) : Fits.Statement (.xor w64 c o) := by
  intro _ _
  have := bitOf_lt w64
  simp only [Instr.opMod]; constructor <;> omega
theorem Fits.not (w64 : Bool) (c : Ctl) (o : Ops) : Fits.Statement (.not w64 c o) := by
  intro _ _
  have := bitOf_lt w64
  simp only [Instr.opMod]; constructor <;> omega
theorem Fits.shl (t : IntTy) (c : Ctl) (o : Ops) : Fits.Statement (.shl t c o) := by
  intro _ _
  have := IntTy_code_lt t
  simp only [Instr.opMod]; constructor <;> omega
theorem Fits.shr (t : IntTy) (c : Ctl) (o : Ops) : Fits.Statement (.shr t c o) := by
  intro _ _
  have := IntTy_code_lt t
  simp only [Instr.opMod]; constructor <;> omega
theorem Fits.rotl (w64 : Bool) (c : Ctl) (o : Ops) : Fits.Statement (.rotl w64 c o) := by
  intro _ _
  have := bitOf_lt w64
  simp only [Instr.opMod]; constructor <;> omega
theorem Fits.popc (w64 : Bool) (c : Ctl) (o : Ops) : Fits.Statement (.popc w64 c o) := by
  intro _ _
  have := bitOf_lt w64
  simp only [Instr.opMod]; constructor <;> omega
theorem Fits.clz (w64 : Bool) (c : Ctl) (o : Ops) : Fits.Statement (.clz w64 c o) := by
  intro _ _
  have := bitOf_lt w64
  simp only [Instr.opMod]; constructor <;> omega
theorem Fits.brev (w64 : Bool) (c : Ctl) (o : Ops) : Fits.Statement (.brev w64 c o) := by
  intro _ _
  have := bitOf_lt w64
  simp only [Instr.opMod]; constructor <;> omega
theorem Fits.bfx (t : IntTy) (c : Ctl) (o : Ops) : Fits.Statement (.bfx t c o) := by
  intro _ _
  have := IntTy_code_lt t
  simp only [Instr.opMod]; constructor <;> omega
theorem Fits.bfi (w64 : Bool) (c : Ctl) (o : Ops) : Fits.Statement (.bfi w64 c o) := by
  intro _ _
  have := bitOf_lt w64
  simp only [Instr.opMod]; constructor <;> omega
theorem Fits.lea (z : Bool) (sh : Nat) (c : Ctl) (o : Ops) : Fits.Statement (.lea z sh c o) := by
  intro w h
  have hx := wf_cross h
  simp only [Instr.crossOk, Bool.and_eq_true, decide_eq_true_eq] at hx
  cases z <;> simp [Instr.opMod] <;> omega
theorem Fits.cmp (cc : Cond) (t : IntTy) (c : Ctl) (o : Ops) : Fits.Statement (.cmp cc t c o) := by
  intro _ _
  have := Cond_code_lt cc
  have := IntTy_code_lt t
  simp only [Instr.opMod]; constructor <;> omega
theorem Fits.sel (w64 : Bool) (inv : Bool) (k : Nat) (c : Ctl) (o : Ops) : Fits.Statement (.sel w64 inv k c o) := by
  intro w h
  have hx := wf_cross h
  simp only [Instr.crossOk, Bool.and_eq_true, decide_eq_true_eq] at hx
  have := bitOf_lt w64
  have := bitOf_lt inv
  simp only [Instr.opMod]; constructor <;> omega
theorem Fits.mov (w64 : Bool) (c : Ctl) (o : Ops) : Fits.Statement (.mov w64 c o) := by
  intro _ _
  have := bitOf_lt w64
  simp only [Instr.opMod]; constructor <;> omega
theorem Fits.plog (op : PlogOp) (c : Ctl) (o : Ops) : Fits.Statement (.plog op c o) := by
  intro _ _
  have := PlogOp_code_lt op
  simp only [Instr.opMod]; constructor <;> omega
theorem Fits.fadd (ftz : Bool) (f : FpFmt) (r : Rnd) (c : Ctl) (o : Ops) : Fits.Statement (.fadd ftz f r c o) := by
  intro _ _
  have := bitOf_lt ftz
  have := FpFmt_code_lt f
  have := Rnd_code_lt r
  simp only [Instr.opMod]; constructor <;> omega
theorem Fits.fsub (ftz : Bool) (f : FpFmt) (r : Rnd) (c : Ctl) (o : Ops) : Fits.Statement (.fsub ftz f r c o) := by
  intro _ _
  have := bitOf_lt ftz
  have := FpFmt_code_lt f
  have := Rnd_code_lt r
  simp only [Instr.opMod]; constructor <;> omega
theorem Fits.fmul (ftz : Bool) (f : FpFmt) (r : Rnd) (c : Ctl) (o : Ops) : Fits.Statement (.fmul ftz f r c o) := by
  intro _ _
  have := bitOf_lt ftz
  have := FpFmt_code_lt f
  have := Rnd_code_lt r
  simp only [Instr.opMod]; constructor <;> omega
theorem Fits.fma (ftz : Bool) (f : FpFmt) (r : Rnd) (c : Ctl) (o : Ops) : Fits.Statement (.fma ftz f r c o) := by
  intro _ _
  have := bitOf_lt ftz
  have := FpFmt_code_lt f
  have := Rnd_code_lt r
  simp only [Instr.opMod]; constructor <;> omega
theorem Fits.fdiv (ftz : Bool) (f : FpFmt) (r : Rnd) (c : Ctl) (o : Ops) : Fits.Statement (.fdiv ftz f r c o) := by
  intro _ _
  have := bitOf_lt ftz
  have := FpFmt_code_lt f
  have := Rnd_code_lt r
  simp only [Instr.opMod]; constructor <;> omega
theorem Fits.fsqrt (ftz : Bool) (f : FpFmt) (r : Rnd) (c : Ctl) (o : Ops) : Fits.Statement (.fsqrt ftz f r c o) := by
  intro _ _
  have := bitOf_lt ftz
  have := FpFmt_code_lt f
  have := Rnd_code_lt r
  simp only [Instr.opMod]; constructor <;> omega
theorem Fits.fmin (ftz : Bool) (f : FpFmt) (c : Ctl) (o : Ops) : Fits.Statement (.fmin ftz f c o) := by
  intro _ _
  have := bitOf_lt ftz
  have := FpFmt_code_lt f
  simp only [Instr.opMod]; constructor <;> omega
theorem Fits.fmax (ftz : Bool) (f : FpFmt) (c : Ctl) (o : Ops) : Fits.Statement (.fmax ftz f c o) := by
  intro _ _
  have := bitOf_lt ftz
  have := FpFmt_code_lt f
  simp only [Instr.opMod]; constructor <;> omega
theorem Fits.frnd (ftz : Bool) (f : FpFmt) (r : Rnd) (c : Ctl) (o : Ops) : Fits.Statement (.frnd ftz f r c o) := by
  intro _ _
  have := bitOf_lt ftz
  have := FpFmt_code_lt f
  have := Rnd_code_lt r
  simp only [Instr.opMod]; constructor <;> omega
theorem Fits.fcmp (cc : Cond) (ftz : Bool) (c : Ctl) (o : Ops) : Fits.Statement (.fcmp cc ftz c o) := by
  intro _ _
  have := Cond_code_lt cc
  have := bitOf_lt ftz
  simp only [Instr.opMod]; constructor <;> omega
theorem Fits.fclass (c : Ctl) (o : Ops) : Fits.Statement (.fclass c o) := by intro _ _; simp [Instr.opMod]
theorem Fits.fdp2 (ftz : Bool) (f : FpFmt) (r : Rnd) (c : Ctl) (o : Ops) : Fits.Statement (.fdp2 ftz f r c o) := by
  intro _ _
  have := bitOf_lt ftz
  have := FpFmt_code_lt f
  have := Rnd_code_lt r
  simp only [Instr.opMod]; constructor <;> omega
theorem Fits.frcp (ftz : Bool) (c : Ctl) (o : Ops) : Fits.Statement (.frcp ftz c o) := by
  intro _ _
  have := bitOf_lt ftz
  simp only [Instr.opMod]; constructor <;> omega
theorem Fits.frsq (ftz : Bool) (c : Ctl) (o : Ops) : Fits.Statement (.frsq ftz c o) := by
  intro _ _
  have := bitOf_lt ftz
  simp only [Instr.opMod]; constructor <;> omega
theorem Fits.fex2 (ftz : Bool) (c : Ctl) (o : Ops) : Fits.Statement (.fex2 ftz c o) := by
  intro _ _
  have := bitOf_lt ftz
  simp only [Instr.opMod]; constructor <;> omega
theorem Fits.flg2 (ftz : Bool) (c : Ctl) (o : Ops) : Fits.Statement (.flg2 ftz c o) := by
  intro _ _
  have := bitOf_lt ftz
  simp only [Instr.opMod]; constructor <;> omega
theorem Fits.fsinpi (ftz : Bool) (c : Ctl) (o : Ops) : Fits.Statement (.fsinpi ftz c o) := by
  intro _ _
  have := bitOf_lt ftz
  simp only [Instr.opMod]; constructor <;> omega
theorem Fits.fcospi (ftz : Bool) (c : Ctl) (o : Ops) : Fits.Statement (.fcospi ftz c o) := by
  intro _ _
  have := bitOf_lt ftz
  simp only [Instr.opMod]; constructor <;> omega
theorem Fits.ftanh (ftz : Bool) (c : Ctl) (o : Ops) : Fits.Statement (.ftanh ftz c o) := by
  intro _ _
  have := bitOf_lt ftz
  simp only [Instr.opMod]; constructor <;> omega
theorem Fits.cvtFloatToFloat (t s : FpFmt) (nsat : Bool) (r : Rnd) (c : Ctl) (o : Ops) : Fits.Statement (.cvtFloatToFloat t s nsat r c o) := by
  intro _ _
  have := FpFmt_code_lt t
  have := FpFmt_code_lt s
  have := bitOf_lt nsat
  have := Rnd_code_lt r
  simp only [Instr.opMod]; constructor <;> omega
theorem Fits.cvtFloatToInt (t : IntTy) (s : FpFmt) (r : Rnd) (c : Ctl) (o : Ops) : Fits.Statement (.cvtFloatToInt t s r c o) := by
  intro _ _
  have := IntTy_code_lt t
  have := FpFmt_code_lt s
  have := Rnd_code_lt r
  simp only [Instr.opMod]; constructor <;> omega
theorem Fits.cvtIntToFloat (t : FpFmt) (s : IntTy) (nsat : Bool) (r : Rnd) (c : Ctl) (o : Ops) : Fits.Statement (.cvtIntToFloat t s nsat r c o) := by
  intro _ _
  have := FpFmt_code_lt t
  have := IntTy_code_lt s
  have := bitOf_lt nsat
  have := Rnd_code_lt r
  simp only [Instr.opMod]; constructor <;> omega
theorem Fits.cvtIntWrap (t s : IntTy) (c : Ctl) (o : Ops) : Fits.Statement (.cvtIntWrap t s c o) := by
  intro _ _
  have := IntTy_code_lt t
  have := IntTy_code_lt s
  simp only [Instr.opMod]; constructor <;> omega
theorem Fits.cvtIntSat (t s : IntTy) (c : Ctl) (o : Ops) : Fits.Statement (.cvtIntSat t s c o) := by
  intro _ _
  have := IntTy_code_lt t
  have := IntTy_code_lt s
  simp only [Instr.opMod]; constructor <;> omega
theorem Fits.cvtQuantise (q8 : Bool) (s : FpFmt) (r : Rnd) (c : Ctl) (o : Ops) : Fits.Statement (.cvtQuantise q8 s r c o) := by
  intro _ _
  have := bitOf_lt q8
  have := FpFmt_code_lt s
  have := Rnd_code_lt r
  simp only [Instr.opMod]; constructor <;> omega
theorem Fits.cvtDequantise (q8 : Bool) (c : Ctl) (o : Ops) : Fits.Statement (.cvtDequantise q8 c o) := by
  intro _ _
  have := bitOf_lt q8
  simp only [Instr.opMod]; constructor <;> omega
theorem Fits.xlane (m : XlaneMode) (w64 : Bool) (c : Ctl) (o : Ops) : Fits.Statement (.xlane m w64 c o) := by
  intro _ _
  have := XlaneMode_code_lt m
  have := bitOf_lt w64
  simp only [Instr.opMod]; constructor <;> omega
theorem Fits.lpoll (m : PollMode) (c : Ctl) (o : Ops) : Fits.Statement (.lpoll m c o) := by
  intro _ _
  have := PollMode_code_lt m
  simp only [Instr.opMod]; constructor <;> omega
theorem Fits.lfold (op : FoldOp) (t : IntTy) (c : Ctl) (o : Ops) : Fits.Statement (.lfold op t c o) := by
  intro _ _
  have := FoldOp_code_lt op
  have := IntTy_code_lt t
  simp only [Instr.opMod]; constructor <;> omega
theorem Fits.ffold (op : FoldOp) (r : Rnd) (c : Ctl) (o : Ops) : Fits.Statement (.ffold op r c o) := by
  intro _ _
  have := FoldOp_code_lt op
  have := Rnd_code_lt r
  simp only [Instr.opMod]; constructor <;> omega
theorem Fits.scan (op : FoldOp) (excl : Bool) (z : Bool) (c : Ctl) (o : Ops) : Fits.Statement (.scan op excl z c o) := by
  intro _ h
  have hx := wf_cross h
  cases op <;> first | (cases z <;> cases excl <;> simp [Instr.opMod, FoldOp.code, bitOf]; done) | exact nomatch hx
theorem Fits.pk6 (c : Ctl) (o : Ops) : Fits.Statement (.pk6 c o) := by intro _ _; simp [Instr.opMod]
theorem Fits.upk6 (c : Ctl) (o : Ops) : Fits.Statement (.upk6 c o) := by intro _ _; simp [Instr.opMod]
theorem Fits.ld (z : Size) (c : Ctl) (o : Ops) : Fits.Statement (.ld z c o) := by
  intro _ _
  have := Size_code_lt z
  simp only [Instr.opMod]; constructor <;> omega
theorem Fits.st (z : Size) (c : Ctl) (o : Ops) : Fits.Statement (.st z c o) := by
  intro _ _
  have := Size_code_lt z
  simp only [Instr.opMod]; constructor <;> omega
theorem Fits.ldAcq (sc : Scope) (z : Size) (c : Ctl) (o : Ops) : Fits.Statement (.ldAcq sc z c o) := by
  intro _ _
  have := Scope_code_lt sc
  have := Size_code_lt z
  simp only [Instr.opMod]; constructor <;> omega
theorem Fits.stRel (sc : Scope) (z : Size) (c : Ctl) (o : Ops) : Fits.Statement (.stRel sc z c o) := by
  intro _ _
  have := Scope_code_lt sc
  have := Size_code_lt z
  simp only [Instr.opMod]; constructor <;> omega
theorem Fits.ldl (fe : LoadFe) (z : Size) (c : Ctl) (o : Ops) : Fits.Statement (.ldl fe z c o) := by
  intro _ _
  have := LoadFe_code_lt fe
  have := Size_code_lt z
  simp only [Instr.opMod]; constructor <;> omega
theorem Fits.stl (fe : StoreFe) (z : Size) (c : Ctl) (o : Ops) : Fits.Statement (.stl fe z c o) := by
  intro _ _
  have := StoreFe_code_lt fe
  have := Size_code_lt z
  simp only [Instr.opMod]; constructor <;> omega
theorem Fits.pref (l2 : Bool) (c : Ctl) (o : Ops) : Fits.Statement (.pref l2 c o) := by
  intro _ _
  have := bitOf_lt l2
  simp only [Instr.opMod]; constructor <;> omega
theorem Fits.atomAdd (w64 sgn : Bool) (ord : Order) (sc : Scope) (c : Ctl) (o : Ops) : Fits.Statement (.atomAdd w64 sgn ord sc c o) := by
  intro _ _
  have := bitOf_lt w64
  have := bitOf_lt sgn
  have := Order_code_lt ord
  have := Scope_code_lt sc
  simp only [Instr.opMod]; constructor <;> omega
theorem Fits.atomMin (w64 sgn : Bool) (ord : Order) (sc : Scope) (c : Ctl) (o : Ops) : Fits.Statement (.atomMin w64 sgn ord sc c o) := by
  intro _ _
  have := bitOf_lt w64
  have := bitOf_lt sgn
  have := Order_code_lt ord
  have := Scope_code_lt sc
  simp only [Instr.opMod]; constructor <;> omega
theorem Fits.atomMax (w64 sgn : Bool) (ord : Order) (sc : Scope) (c : Ctl) (o : Ops) : Fits.Statement (.atomMax w64 sgn ord sc c o) := by
  intro _ _
  have := bitOf_lt w64
  have := bitOf_lt sgn
  have := Order_code_lt ord
  have := Scope_code_lt sc
  simp only [Instr.opMod]; constructor <;> omega
theorem Fits.atomAnd (w64 : Bool) (ord : Order) (sc : Scope) (c : Ctl) (o : Ops) : Fits.Statement (.atomAnd w64 ord sc c o) := by
  intro _ _
  have := bitOf_lt w64
  have := Order_code_lt ord
  have := Scope_code_lt sc
  simp only [Instr.opMod]; constructor <;> omega
theorem Fits.atomOr (w64 : Bool) (ord : Order) (sc : Scope) (c : Ctl) (o : Ops) : Fits.Statement (.atomOr w64 ord sc c o) := by
  intro _ _
  have := bitOf_lt w64
  have := Order_code_lt ord
  have := Scope_code_lt sc
  simp only [Instr.opMod]; constructor <;> omega
theorem Fits.atomXor (w64 : Bool) (ord : Order) (sc : Scope) (c : Ctl) (o : Ops) : Fits.Statement (.atomXor w64 ord sc c o) := by
  intro _ _
  have := bitOf_lt w64
  have := Order_code_lt ord
  have := Scope_code_lt sc
  simp only [Instr.opMod]; constructor <;> omega
theorem Fits.atomXchg (w64 : Bool) (ord : Order) (sc : Scope) (c : Ctl) (o : Ops) : Fits.Statement (.atomXchg w64 ord sc c o) := by
  intro _ _
  have := bitOf_lt w64
  have := Order_code_lt ord
  have := Scope_code_lt sc
  simp only [Instr.opMod]; constructor <;> omega
theorem Fits.atomAddF32 (ord : Order) (sc : Scope) (c : Ctl) (o : Ops) : Fits.Statement (.atomAddF32 ord sc c o) := by
  intro _ _
  have := Order_code_lt ord
  have := Scope_code_lt sc
  simp only [Instr.opMod]; constructor <;> omega
theorem Fits.cas (w64 : Bool) (ord : Order) (sc : Scope) (c : Ctl) (o : Ops) : Fits.Statement (.cas w64 ord sc c o) := by
  intro _ _
  have := bitOf_lt w64
  have := Order_code_lt ord
  have := Scope_code_lt sc
  simp only [Instr.opMod]; constructor <;> omega
theorem Fits.txb (c : Ctl) (o : Ops) : Fits.Statement (.txb c o) := by intro _ _; simp [Instr.opMod]
theorem Fits.txe (c : Ctl) (o : Ops) : Fits.Statement (.txe c o) := by intro _ _; simp [Instr.opMod]
theorem Fits.txa (c : Ctl) (o : Ops) : Fits.Statement (.txa c o) := by intro _ _; simp [Instr.opMod]
theorem Fits.fence (k : Order) (sc : Scope) (c : Ctl) (o : Ops) : Fits.Statement (.fence k sc c o) := by
  intro _ _
  have := Order_code_lt k
  have := Scope_code_lt sc
  simp only [Instr.opMod]; constructor <;> omega
theorem Fits.publ (sc : Scope) (c : Ctl) (o : Ops) : Fits.Statement (.publ sc c o) := by
  intro _ _
  have := Scope_code_lt sc
  simp only [Instr.opMod]; constructor <;> omega
theorem Fits.rcfence (sc : Scope) (c : Ctl) (o : Ops) : Fits.Statement (.rcfence sc c o) := by
  intro _ _
  have := Scope_code_lt sc
  simp only [Instr.opMod]; constructor <;> omega
theorem Fits.icinv (sc : Scope) (c : Ctl) (o : Ops) : Fits.Statement (.icinv sc c o) := by
  intro _ _
  have := Scope_code_lt sc
  simp only [Instr.opMod]; constructor <;> omega
theorem Fits.invalidationConfirmed (g : Nat) : Fits.Statement (.invalidationConfirmed g) := Fits.event rfl
theorem Fits.sweep (c : Ctl) (o : Ops) : Fits.Statement (.sweep c o) := by intro _ _; simp [Instr.opMod]
theorem Fits.tmov (c : Ctl) (o : Ops) : Fits.Statement (.tmov c o) := by intro _ _; simp [Instr.opMod]
theorem Fits.bra (c : Ctl) (o : Ops) : Fits.Statement (.bra c o) := by intro _ _; simp [Instr.opMod]
theorem Fits.brx (c : Ctl) (o : Ops) : Fits.Statement (.brx c o) := by intro _ _; simp [Instr.opMod]
theorem Fits.call (c : Ctl) (o : Ops) : Fits.Statement (.call c o) := by intro _ _; simp [Instr.opMod]
theorem Fits.callx (c : Ctl) (o : Ops) : Fits.Statement (.callx c o) := by intro _ _; simp [Instr.opMod]
theorem Fits.ret (c : Ctl) (o : Ops) : Fits.Statement (.ret c o) := by intro _ _; simp [Instr.opMod]
theorem Fits.rejoin (c : Ctl) (o : Ops) : Fits.Statement (.rejoin c o) := by intro _ _; simp [Instr.opMod]
theorem Fits.exit (c : Ctl) (o : Ops) : Fits.Statement (.exit c o) := by intro _ _; simp [Instr.opMod]
theorem Fits.beq (tiles : Nat) (c : Ctl) (o : Ops) : Fits.Statement (.beq tiles c o) := by
  intro w h
  have hx := wf_cross h
  simp only [Instr.crossOk, decide_eq_true_eq] at hx
  simp only [Instr.opMod]; constructor <;> omega
theorem Fits.estq (c : Ctl) (o : Ops) : Fits.Statement (.estq c o) := by intro _ _; simp [Instr.opMod]
theorem Fits.estdrop (c : Ctl) (o : Ops) : Fits.Statement (.estdrop c o) := by intro _ _; simp [Instr.opMod]
theorem Fits.spawn (c : Ctl) (o : Ops) : Fits.Statement (.spawn c o) := by intro _ _; simp [Instr.opMod]
theorem Fits.post (c : Ctl) (o : Ops) : Fits.Statement (.post c o) := by intro _ _; simp [Instr.opMod]
theorem Fits.bar (c : Ctl) (o : Ops) : Fits.Statement (.bar c o) := by intro _ _; simp [Instr.opMod]
theorem Fits.donateGive (c : Ctl) (o : Ops) : Fits.Statement (.donateGive c o) := by intro _ _; simp [Instr.opMod]
theorem Fits.donateTake (c : Ctl) (o : Ops) : Fits.Statement (.donateTake c o) := by intro _ _; simp [Instr.opMod]
theorem Fits.donationRendezvous (g : Nat) : Fits.Statement (.donationRendezvous g) := Fits.event rfl
theorem Fits.ralloc (c : Ctl) (o : Ops) : Fits.Statement (.ralloc c o) := by intro _ _; simp [Instr.opMod]
theorem Fits.yield (c : Ctl) (o : Ops) : Fits.Statement (.yield c o) := by intro _ _; simp [Instr.opMod]
theorem Fits.nop (c : Ctl) (o : Ops) : Fits.Statement (.nop c o) := by intro _ _; simp [Instr.opMod]
theorem Fits.trap (c : Ctl) (o : Ops) : Fits.Statement (.trap c o) := by intro _ _; simp [Instr.opMod]
theorem Fits.sys (c : Ctl) (o : Ops) : Fits.Statement (.sys c o) := by intro _ _; simp [Instr.opMod]
theorem Fits.sysReply (ctx slot : Nat) : Fits.Statement (.sysReply ctx slot) := Fits.event rfl
theorem Fits.sigw (c : Ctl) (o : Ops) : Fits.Statement (.sigw c o) := by intro _ _; simp [Instr.opMod]
theorem Fits.tret (c : Ctl) (o : Ops) : Fits.Statement (.tret c o) := by intro _ _; simp [Instr.opMod]
theorem Fits.tretSkip (c : Ctl) (o : Ops) : Fits.Statement (.tretSkip c o) := by intro _ _; simp [Instr.opMod]
theorem Fits.tretExit (c : Ctl) (o : Ops) : Fits.Statement (.tretExit c o) := by intro _ _; simp [Instr.opMod]
theorem Fits.snap (c : Ctl) (o : Ops) : Fits.Statement (.snap c o) := by intro _ _; simp [Instr.opMod]
theorem Fits.mfsr (c : Ctl) (o : Ops) : Fits.Statement (.mfsr c o) := by intro _ _; simp [Instr.opMod]
theorem Fits.mtsr (c : Ctl) (o : Ops) : Fits.Statement (.mtsr c o) := by intro _ _; simp [Instr.opMod]
theorem Fits.mma (blk : Nat) (f : MmaFmt) (c : Ctl) (o : Ops) : Fits.Statement (.mma blk f c o) := by
  intro w h
  have hx := wf_cross h
  simp only [Instr.crossOk, Bool.and_eq_true, decide_eq_true_eq] at hx
  have := MmaFmt_code_lt f
  simp only [Instr.opMod]; constructor <;> omega
theorem Fits.mmq (q8 : Bool) (f : ActFmt) (g : QGroup) (c : Ctl) (o : Ops) : Fits.Statement (.mmq q8 f g c o) := by
  intro _ _
  have := bitOf_lt q8
  have := ActFmt_code_lt f
  have := QGroup_code_lt g
  simp only [Instr.opMod]; constructor <;> omega
theorem Fits.mlda (n : RowW) (c : Ctl) (o : Ops) : Fits.Statement (.mlda n c o) := by
  intro _ _
  have := RowW_code_lt n
  simp only [Instr.opMod]; constructor <;> omega
theorem Fits.ald (c : Ctl) (o : Ops) : Fits.Statement (.ald c o) := by intro _ _; simp [Instr.opMod]
theorem Fits.ast (fe : StoreFe) (c : Ctl) (o : Ops) : Fits.Statement (.ast fe c o) := by
  intro _ _
  have := StoreFe_code_lt fe
  simp only [Instr.opMod]; constructor <;> omega
theorem Fits.aclr (c : Ctl) (o : Ops) : Fits.Statement (.aclr c o) := by intro _ _; simp [Instr.opMod]
theorem Fits.drain (c : Ctl) (o : Ops) : Fits.Statement (.drain c o) := by intro _ _; simp [Instr.opMod]
theorem Fits.cpin (c : Ctl) (o : Ops) : Fits.Statement (.cpin c o) := by intro _ _; simp [Instr.opMod]
theorem Fits.cpout (c : Ctl) (o : Ops) : Fits.Statement (.cpout c o) := by intro _ _; simp [Instr.opMod]
theorem Fits.gath (c : Ctl) (o : Ops) : Fits.Statement (.gath c o) := by intro _ _; simp [Instr.opMod]
theorem Fits.engineCommandComplete (core : Nat) : Fits.Statement (.engineCommandComplete core) := Fits.event rfl
theorem Fits.racq (c : Ctl) (o : Ops) : Fits.Statement (.racq c o) := by intro _ _; simp [Instr.opMod]
theorem Fits.rput (c : Ctl) (o : Ops) : Fits.Statement (.rput c o) := by intro _ _; simp [Instr.opMod]
theorem Fits.rget (c : Ctl) (o : Ops) : Fits.Statement (.rget c o) := by intro _ _; simp [Instr.opMod]
theorem Fits.rrel (c : Ctl) (o : Ops) : Fits.Statement (.rrel c o) := by intro _ _; simp [Instr.opMod]
theorem Fits.resultReturn (g k : Nat) : Fits.Statement (.resultReturn g k) := Fits.event rfl
theorem Fits.dirtyWriteback (pl : DirtyPlace) (unit line : Nat) : Fits.Statement (.dirtyWriteback pl unit line) := Fits.event rfl
theorem Fits.handlerEntry (g : Nat) : Fits.Statement (.handlerEntry g) := Fits.event rfl
theorem Fits.groupEnd (g : Nat) : Fits.Statement (.groupEnd g) := Fits.event rfl
theorem Fits.scoutEnd (g : Nat) : Fits.Statement (.scoutEnd g) := Fits.event rfl
theorem Fits.tokenPeriodStart (core : Nat) : Fits.Statement (.tokenPeriodStart core) := Fits.event rfl
theorem Fits.thermalLimit (die : Nat) : Fits.Statement (.thermalLimit die) := Fits.event rfl
theorem Fits.queueWake (ctx q : Nat) (v : W64) : Fits.Statement (.queueWake ctx q v) := Fits.event rfl
theorem Fits.packetParse (ctx q : Nat) : Fits.Statement (.packetParse ctx q) := Fits.event rfl
theorem Fits.cmdNop (ctx q : Nat) : Fits.Statement (.cmdNop ctx q) := Fits.event rfl
theorem Fits.cmdLaunch (ctx q : Nat) : Fits.Statement (.cmdLaunch ctx q) := Fits.event rfl
theorem Fits.cmdGraph (ctx q : Nat) : Fits.Statement (.cmdGraph ctx q) := Fits.event rfl
theorem Fits.graphNodeNext (ctx q : Nat) : Fits.Statement (.graphNodeNext ctx q) := Fits.event rfl
theorem Fits.cmdWrite (ctx q : Nat) : Fits.Statement (.cmdWrite ctx q) := Fits.event rfl
theorem Fits.cmdWait (ctx q : Nat) : Fits.Statement (.cmdWait ctx q) := Fits.event rfl
theorem Fits.waitRepoll (ctx q : Nat) : Fits.Statement (.waitRepoll ctx q) := Fits.event rfl
theorem Fits.cmdSignal (ctx q : Nat) : Fits.Statement (.cmdSignal ctx q) := Fits.event rfl
theorem Fits.teamAdmission (launch core : Nat) : Fits.Statement (.teamAdmission launch core) := Fits.event rfl
theorem Fits.phaseEnd (slot : Nat) : Fits.Statement (.phaseEnd slot) := Fits.event rfl
theorem Fits.cqrdWrite (ctx : Nat) (v : W64) : Fits.Statement (.cqrdWrite ctx v) := Fits.event rfl
theorem Fits.cqWriteRetry (ctx : Nat) : Fits.Statement (.cqWriteRetry ctx) := Fits.event rfl
theorem Fits.callRingRetry (g : Nat) : Fits.Statement (.callRingRetry g) := Fits.event rfl
theorem Fits.mailboxTake (fw : Nat) : Fits.Statement (.mailboxTake fw) := Fits.event rfl
theorem Fits.timeSliceEnd (ctx : Nat) : Fits.Statement (.timeSliceEnd ctx) := Fits.event rfl
theorem Fits.preemptionSave (team : Nat) : Fits.Statement (.preemptionSave team) := Fits.event rfl
theorem Fits.maskedHandlerOverrun (team : Nat) : Fits.Statement (.maskedHandlerOverrun team) := Fits.event rfl
theorem Fits.teamRestore (team core : Nat) : Fits.Statement (.teamRestore team core) := Fits.event rfl
theorem Fits.policyMove (ctx f t : Nat) : Fits.Statement (.policyMove ctx f t) := Fits.event rfl
theorem Fits.moveDrainComplete (m : Nat) : Fits.Statement (.moveDrainComplete m) := Fits.event rfl
theorem Fits.moveCopyComplete (m : Nat) : Fits.Statement (.moveCopyComplete m) := Fits.event rfl
theorem Fits.moveShootdownConfirmed (m : Nat) : Fits.Statement (.moveShootdownConfirmed m) := Fits.event rfl
theorem Fits.markRetarget (ctx f t : Nat) : Fits.Statement (.markRetarget ctx f t) := Fits.event rfl
theorem Fits.markRetire (ctx slot : Nat) : Fits.Statement (.markRetire ctx slot) := Fits.event rfl
theorem Fits.markHitCount (ctx slot : Nat) : Fits.Statement (.markHitCount ctx slot) := Fits.event rfl
theorem Fits.pageIn (ctx slot : Nat) : Fits.Statement (.pageIn ctx slot) := Fits.event rfl
theorem Fits.estateExport (ctx slot : Nat) : Fits.Statement (.estateExport ctx slot) := Fits.event rfl
theorem Fits.estateImport (ctx slot : Nat) : Fits.Statement (.estateImport ctx slot) := Fits.event rfl
theorem Fits.stepTriggerArm (ctx slot : Nat) : Fits.Statement (.stepTriggerArm ctx slot) := Fits.event rfl
theorem Fits.stepTriggerFire (trig : Nat) : Fits.Statement (.stepTriggerFire trig) := Fits.event rfl
theorem Fits.attestation (ctx slot : Nat) : Fits.Statement (.attestation ctx slot) := Fits.event rfl
theorem Fits.sieveArm (win : Nat) : Fits.Statement (.sieveArm win) := Fits.event rfl
theorem Fits.sievePass (win : Nat) : Fits.Statement (.sievePass win) := Fits.event rfl
theorem Fits.killRequest (v : W64) : Fits.Statement (.killRequest v) := Fits.event rfl
theorem Fits.kill (ctx : Nat) : Fits.Statement (.kill ctx) := Fits.event rfl
theorem Fits.killWrapResume (ctx : Nat) : Fits.Statement (.killWrapResume ctx) := Fits.event rfl
theorem Fits.orphanedResponse (ctx : Nat) : Fits.Statement (.orphanedResponse ctx) := Fits.event rfl
theorem Fits.reclaim (ctx : Nat) : Fits.Statement (.reclaim ctx) := Fits.event rfl
theorem Fits.teamRelaunch (team core : Nat) : Fits.Statement (.teamRelaunch team core) := Fits.event rfl
theorem Fits.uncorrectableCacheError (pl : CachePlace) (unit line way : Nat) : Fits.Statement (.uncorrectableCacheError pl unit line way) := Fits.event rfl
theorem Fits.correctedError (a : ErrArray) (unit slice way : Nat) : Fits.Statement (.correctedError a unit slice way) := Fits.event rfl
theorem Fits.memoryPoison (line : Nat) : Fits.Statement (.memoryPoison line) := Fits.event rfl
theorem Fits.regionRetire (region spare : Nat) : Fits.Statement (.regionRetire region spare) := Fits.event rfl
theorem Fits.stateArrayError (g : Nat) : Fits.Statement (.stateArrayError g) := Fits.event rfl
theorem Fits.pipelineError (g : Nat) (array : Bool) : Fits.Statement (.pipelineError g array) := Fits.event rfl
theorem Fits.infieldTest (part : Nat) (array pass : Bool) : Fits.Statement (.infieldTest part array pass) := Fits.event rfl
theorem Fits.partitionStop (part : Nat) : Fits.Statement (.partitionStop part) := Fits.event rfl
theorem Fits.partitionResume (part : Nat) : Fits.Statement (.partitionResume part) := Fits.event rfl
theorem Fits.laneStop (g lane : Nat) : Fits.Statement (.laneStop g lane) := Fits.event rfl
theorem Fits.laneResume (g lane : Nat) : Fits.Statement (.laneResume g lane) := Fits.event rfl
theorem Fits.singleStep (g : Nat) : Fits.Statement (.singleStep g) := Fits.event rfl
theorem Fits.stallSample (part : Nat) : Fits.Statement (.stallSample part) := Fits.event rfl
theorem Fits.snapshotTrigger (src tag ctx : Nat) : Fits.Statement (.snapshotTrigger src tag ctx) := Fits.event rfl
theorem Fits.feataccWrite (v : W64) : Fits.Statement (.feataccWrite v) := Fits.event rfl
theorem Fits.ctxCreate (ctx : Nat) : Fits.Statement (.ctxCreate ctx) := Fits.event rfl
theorem Fits.ctxDestroy (ctx : Nat) : Fits.Statement (.ctxDestroy ctx) := Fits.event rfl
theorem Fits.pwrcapWrite (v : W64) : Fits.Statement (.pwrcapWrite v) := Fits.event rfl
theorem Fits.brdlimWrite (v : W64) : Fits.Statement (.brdlimWrite v) := Fits.event rfl
theorem Fits.registerWrite (r : HostReg) (v : W64) : Fits.Statement (.registerWrite r v) := Fits.event rfl
theorem Fits.hostWindowAccess (ctx off : Nat) (op : HostOp) (bytes : List Byte) : Fits.Statement (.hostWindowAccess ctx off op bytes) := Fits.event rfl
theorem Fits.peerAccess (ctx inc pa : Nat) (op : PeerOp) (bytes : List Byte) : Fits.Statement (.peerAccess ctx inc pa op bytes) := Fits.event rfl
theorem Fits.linkPortFailure (port : Nat) : Fits.Statement (.linkPortFailure port) := Fits.event rfl
theorem Fits.resetBoot (failed : Option Nat) (b : Boot) : Fits.Statement (.resetBoot failed b) := Fits.event rfl
theorem Fits.mappingChange (ctx va len : Nat) (writes : List (Nat × W64)) (backing : Bool) : Fits.Statement (.mappingChange ctx va len writes backing) := Fits.event rfl
theorem Fits.wayMaskWrite (die q : Nat) (ways : BitVec 16) : Fits.Statement (.wayMaskWrite die q ways) := Fits.event rfl
theorem Fits.thermalLimitClear (die : Nat) : Fits.Statement (.thermalLimitClear die) := Fits.event rfl
theorem Fits.commitComplete (g : Nat) : Fits.Statement (.commitComplete g) := Fits.event rfl
theorem Fits.swapTakenEffect (g : Nat) : Fits.Statement (.swapTakenEffect g) := Fits.event rfl

end Sys2Proof.Laws
end

