-- ==== Sys2Proof/Tests/Slice0.lean ====
section
/-! SUPPORT. Tests of the model's own: ill-formed terms that are refused, words of the spec's encoding, small
effects worked out by hand from the rules, and a state and operands that meet each statement's hypotheses. -/

namespace Sys2Proof.Tests

open Sys2Proof Sys2Proof.Machine

set_option Elab.async false

/-! ### Well-formedness (R94 to R97, R99, R107) -/

/-- Guard and hints of every example that says nothing else. -/
def c : Ctl := .plain
def no3 : Ops := ⟨.none, .none, .none⟩
/-- Vector operands D, A and B. -/
def vvv (d a b : Nat) : Ops := ⟨.v d .plain, .v a .plain, .v b .plain⟩

theorem test_wf_accepts : (Instr.add .s32 false c (vvv 255 0 1)).wf 64 = true ∧
    (Instr.add .s32 false c ⟨.s 63, .v 4 (.ln 15), .imm (-65536)⟩).wf 16 = true ∧
    (Instr.mma 7 .bf16 c ⟨.acc 3 none, .v 224 .plain, .s 0⟩).wf 64 = true := by decide +kernel

/-- Each is refused for one reason: the range of a register, an immediate, a selector or a domain; alignment of
a pair; a kind that the field does not take; a scalar form of a narrow type or with a plain vector source; the
guard `!p7`; reserved hint values; the latch flag outside the array; a mod that a row excludes; a block past
register 255; an event. -/
theorem test_wf_refuses : [
    Instr.add .s32 false c (vvv 256 0 1), .add .s64 false c (vvv 3 0 2), .add .s32 false c ⟨.s 64, .s 0, .s 1⟩,
    .add .s32 false c ⟨.v 0 .plain, .v 1 .plain, .imm 65536⟩, .add .s32 false c ⟨.v 0 .plain, .v 1 (.ln 64), .s 0⟩,
    .add .s32 false c ⟨.v 0 .plain, .v 1 .neg, .s 0⟩, .add .s32 false c ⟨.imm 0, .v 1 .plain, .s 0⟩,
    .add .s16 false c ⟨.s 0, .s 1, .s 2⟩, .add .s32 false c ⟨.s 0, .v 1 .plain, .s 2⟩,
    .add .s32 false { c with neg := true } (vvv 0 1 2), .add .s32 false { c with pair := 3 } (vvv 0 1 2),
    .add .s32 false { c with latch := true } (vvv 0 1 2), .add .s32 false { c with stall := 16 } (vvv 0 1 2),
    .abs .z32 false c ⟨.v 0 .plain, .v 1 .plain, .none⟩, .mulhi .s16 c (vvv 0 1 2), .mulw .s64 c (vvv 0 2 4),
    .lea true 8 c (vvv 0 2 4), .cmp .un .s32 c ⟨.p 0, .s 0, .s 1⟩, .sel false true 7 c (vvv 0 1 2),
    .mov false c ⟨.v 0 .plain, .limm 4294967296, .none⟩, .fadd false .e5m2 .rn c (vvv 0 1 2),
    .fdp2 false .f32 .rn c (vvv 0 1 2), .ffold .min .rz c ⟨.s 0, .v 1 .plain, .none⟩,
    .cvtFloatToFloat .f16 .f32 true .rn c ⟨.v 0 (.sel 0), .v 1 .plain, .none⟩,
    .cvtFloatToFloat .f16 .f32 false .rn c ⟨.v 0 (.sel 2), .v 1 .plain, .none⟩,
    .lfold .add .s16 c ⟨.s 0, .v 1 .plain, .none⟩, .scan .and false false c ⟨.v 0 .plain, .v 1 .plain, .none⟩,
    .ld .q128 c ⟨.v 2 .plain, .v 4 .plain, .imm 0⟩, .ld .s32 c ⟨.s 2, .v 4 .plain, .imm 0⟩, .st .s8 c (vvv 0 2 4),
    .atomAdd false false .acq .dev c ⟨.s 0, .v 2 (.sel 0), .s 1⟩, .fence .relaxed .dev c no3,
    .publ .thr c ⟨.none, .s 0, .none⟩, .rcfence .sys c no3, .beq 1 c ⟨.imm 256, .v 8 .plain, .imm 2⟩,
    .trap c ⟨.none, .imm 128, .none⟩, .mfsr c ⟨.v 3 .plain, .sp 8 0, .none⟩, .mfsr c ⟨.s 3, .sp 0 0, .none⟩,
    .mtsr c ⟨.sp 10 0, .v 1 .plain, .none⟩, .mma 0 .bf16 c ⟨.acc 3 none, .v 225 .plain, .s 0⟩,
    .mma 0 .bf16 c ⟨.acc 3 (some 1), .v 0 .plain, .s 0⟩, .aclr c ⟨.acc 3 (some 16), .none, .none⟩,
    .mmq true .s8 .g128 c ⟨.acc 0 none, .v 0 (.sel 64), .v 1 (.sel 0)⟩, .mlda .w64 c ⟨.v 192 .plain, .s 0, .none⟩,
    .cpin c ⟨.s 0, .s 1, .s 62⟩, .bar c ⟨.s 0, .none, .none⟩, .groupEnd 0
    ].all (fun i => i.wf 64 == false) = true := by decide +kernel

/-! ### Decoding: words written out from the encoding tables (R91 to R99, R109, R110 to R184, R213, R214) -/

/-- Whether three words decode to an instruction in a group of width 64. -/
def reads (p : Nat × Nat × Nat × Instr) : Bool :=
  match decodeBytes 64 (leBytes 4 p.1 ++ leBytes 4 p.2.1 ++ leBytes 4 p.2.2.1) with
  | .ok i => decide (i = p.2.2.2)
  | .error _ => false

theorem test_decode_integer : [
    (0x04000000, 0x00002830, 0x00097001, Instr.add .s16 true c ⟨.v 1 .plain, .v 2 (.ln 3), .v 4 .plain⟩),
    (0xFFFD0000, 0x00202005, 0x00477201, Instr.sub .z64 false c ⟨.s 1, .s 2, .imm (-3)⟩),
    (0x03000000, 0x00002000, 0x00807001, Instr.mul .s8 false c ⟨.v 1 .plain, .v 2 .plain, .v 3 .plain⟩),
    (0x07000000, 0x00006000, 0x00C27005, Instr.mulhi .s32 c ⟨.v 5 .plain, .v 6 .plain, .v 7 .plain⟩),
    (0x09000000, 0x00008000, 0x01067006, Instr.mulw .z32 c ⟨.v 6 .plain, .v 8 .plain, .v 9 .plain⟩),
    (0x07000000, 0x00008000, 0x014D7009, Instr.mad .z16 true c ⟨.v 9 .plain, .v 8 .plain, .v 7 .plain⟩),
    (0x06000000, 0x00004000, 0x01837002, Instr.div .s64 c ⟨.v 2 .plain, .v 4 .plain, .v 6 .plain⟩),
    (0x06000000, 0x00004000, 0x01C67002, Instr.rem .z32 c ⟨.v 2 .plain, .v 4 .plain, .v 6 .plain⟩),
    (0x02000000, 0x00001000, 0x02027000, Instr.min .s32 c ⟨.v 0 .plain, .v 1 .plain, .v 2 .plain⟩),
    (0x02000000, 0x00001000, 0x02447000, Instr.max .z8 c ⟨.v 0 .plain, .v 1 .plain, .v 2 .plain⟩),
    (0x00000000, 0x0000100E, 0x028A7000, Instr.abs .s32 true c ⟨.v 0 .plain, .v 1 .plain, .none⟩),
    (0x00000000, 0x0000200E, 0x02C37000, Instr.neg .s64 false c ⟨.v 0 .plain, .v 2 .plain, .none⟩),
    (0x02000000, 0x000011B0, 0x03007000, Instr.and false c ⟨.v 0 .plain, .v 1 (.swz 27), .v 2 .plain⟩),
    (0x02000000, 0x00201002, 0x03417200, Instr.or true c ⟨.s 0, .s 1, .s 2⟩),
    (0x00010000, 0x00001E44, 0x03807000, Instr.xor false c ⟨.v 0 .plain, .v 1 (.swz 228), .imm 1⟩),
    (0x00000000, 0x0000100E, 0x03C07000, Instr.not false c ⟨.v 0 .plain, .v 1 (.swz 0), .none⟩),
    (0x02000000, 0x00001000, 0x04057000, Instr.shl .z16 c ⟨.v 0 .plain, .v 1 .plain, .v 2 .plain⟩),
    (0x00050000, 0x00001004, 0x04427000, Instr.shr .s32 c ⟨.v 0 .plain, .v 1 .plain, .imm 5⟩),
    (0x00090000, 0x00002E44, 0x04817000, Instr.rotl true c ⟨.v 0 .plain, .v 2 (.swz 228), .imm 9⟩),
    (0x00000000, 0x00002E4E, 0x04C17000, Instr.popc true c ⟨.v 0 .plain, .v 2 (.swz 228), .none⟩),
    (0x00000000, 0x00002E4E, 0x05007000, Instr.clz false c ⟨.v 0 .plain, .v 2 (.swz 228), .none⟩),
    (0x00000000, 0x00002E4E, 0x05407000, Instr.brev false c ⟨.v 0 .plain, .v 2 (.swz 228), .none⟩),
    (0x02000000, 0x00001000, 0x05867000, Instr.bfx .z32 c ⟨.v 0 .plain, .v 1 .plain, .v 2 .plain⟩),
    (0x02000000, 0x00001000, 0x05C07000, Instr.bfi false c ⟨.v 0 .plain, .v 1 .plain, .v 2 .plain⟩),
    (0x06000000, 0x00004000, 0x061E7002, Instr.lea true 3 c ⟨.v 2 .plain, .v 4 .plain, .v 6 .plain⟩),
    (0x02000000, 0x00001000, 0x066E7A03, Instr.cmp .ge .z32 c ⟨.p 3, .v 1 .plain, .v 2 .plain⟩),
    (0x04000000, 0x00002000, 0x069A7000, Instr.sel true true 2 c ⟨.v 0 .plain, .v 2 .plain, .v 4 .plain⟩),
    (0x00000000, 0x005FFFFE, 0x06C17000, Instr.mov true c ⟨.v 0 .plain, .imm (-1), .none⟩),
    (0x03000000, 0x00A0200A, 0x07037A01, Instr.plog .andn c ⟨.p 1, .p 2, .p 3⟩)
    ].all reads = true := by decide +kernel

theorem test_decode_lanes : [
    (0x00010000, 0x00002004, 0x10037001, Instr.xlane .flip false c ⟨.v 1 .plain, .v 2 .plain, .imm 1⟩),
    (0x00000000, 0x00A0200E, 0x10427201, Instr.lpoll .mask c ⟨.s 1, .p 2, .none⟩),
    (0x00000000, 0x0000200E, 0x10937201, Instr.lfold .max .s64 c ⟨.s 1, .v 2 .plain, .none⟩),
    (0x00000000, 0x0000301E, 0x10C17201, Instr.ffold .add .rz c ⟨.s 1, .v 3 .neg, .none⟩),
    (0x00000000, 0x0000300E, 0x111E7001, Instr.scan .min true true c ⟨.v 1 .plain, .v 3 .plain, .none⟩),
    (0x00000000, 0x0000200E, 0x11407001, Instr.pk6 c ⟨.v 1 .plain, .v 2 .plain, .none⟩),
    (0x00000000, 0x0000200E, 0x11807001, Instr.upk6 c ⟨.v 1 .plain, .v 2 .plain, .none⟩)
    ].all reads = true := by decide +kernel

theorem test_decode_floats : [
    (0x03020000, 0x00002010, 0x40177001, Instr.fadd true .f16 .ru c ⟨.v 1 .plain, .v 2 .neg, .v 3 .abs⟩),
    (0x03000000, 0x00002000, 0x40407001, Instr.fsub false .f32 .rn c ⟨.v 1 .plain, .v 2 .plain, .v 3 .plain⟩),
    (0x03000000, 0x00002000, 0x408A7001, Instr.fmul false .bf16 .rd c ⟨.v 1 .plain, .v 2 .plain, .v 3 .plain⟩),
    (0x03000000, 0x00002000, 0x40C17001, Instr.fma false .f32 .rz c ⟨.v 1 .plain, .v 2 .plain, .v 3 .plain⟩),
    (0x03000000, 0x00002000, 0x41007001, Instr.fdiv false .f32 .rn c ⟨.v 1 .plain, .v 2 .plain, .v 3 .plain⟩),
    (0x00000000, 0x0000200E, 0x41507001, Instr.fsqrt true .f32 .rn c ⟨.v 1 .plain, .v 2 .plain, .none⟩),
    (0x03000000, 0x00002000, 0x41847001, Instr.fmin false .f16 c ⟨.v 1 .plain, .v 2 .plain, .v 3 .plain⟩),
    (0x03000000, 0x00002000, 0x41D87001, Instr.fmax true .bf16 c ⟨.v 1 .plain, .v 2 .plain, .v 3 .plain⟩),
    (0x00000000, 0x0000200E, 0x42017001, Instr.frnd false .f32 .rz c ⟨.v 1 .plain, .v 2 .plain, .none⟩),
    (0x03000000, 0x00002000, 0x424E7A01, Instr.fcmp .un true c ⟨.p 1, .v 2 .plain, .v 3 .plain⟩),
    (0x00000000, 0x0000200E, 0x42807001, Instr.fclass c ⟨.v 1 .plain, .v 2 .plain, .none⟩),
    (0x03000000, 0x00002000, 0x42C87001, Instr.fdp2 false .bf16 .rn c ⟨.v 1 .plain, .v 2 .plain, .v 3 .plain⟩),
    (0x00000000, 0x0000201E, 0x44007001, Instr.frcp false c ⟨.v 1 .plain, .v 2 .neg, .none⟩),
    (0x00000000, 0x0000201E, 0x44507001, Instr.frsq true c ⟨.v 1 .plain, .v 2 .neg, .none⟩),
    (0x00000000, 0x0000201E, 0x44807001, Instr.fex2 false c ⟨.v 1 .plain, .v 2 .neg, .none⟩),
    (0x00000000, 0x0000201E, 0x44D07001, Instr.flg2 true c ⟨.v 1 .plain, .v 2 .neg, .none⟩),
    (0x00000000, 0x0000201E, 0x45007001, Instr.fsinpi false c ⟨.v 1 .plain, .v 2 .neg, .none⟩),
    (0x00000000, 0x0000201E, 0x45507001, Instr.fcospi true c ⟨.v 1 .plain, .v 2 .neg, .none⟩),
    (0x00000000, 0x0000201E, 0x45807001, Instr.ftanh false c ⟨.v 1 .plain, .v 2 .neg, .none⟩)
    ].all reads = true := by decide +kernel

theorem test_decode_conversions : [
    (0x00000000, 0x0200200E, 0x61047001, Instr.cvtFloatToFloat .e4m3 .f32 true .rn c ⟨.v 1 (.sel 2), .v 2 .plain, .none⟩),
    (0x00000000, 0x0300201E, 0x63097001, Instr.cvtFloatToInt .z8 .f16 .rz c ⟨.v 1 (.sel 3), .v 2 (.sel 1), .none⟩),
    (0x00000000, 0x0000200E, 0x641B7001, Instr.cvtIntToFloat .f32 .s64 false .ru c ⟨.v 1 .plain, .v 2 .plain, .none⟩),
    (0x00000000, 0x0000200E, 0x66147001, Instr.cvtIntWrap .z8 .s32 c ⟨.v 1 (.sel 0), .v 2 .plain, .none⟩),
    (0x00000000, 0x0100200E, 0x66797001, Instr.cvtIntSat .s16 .z64 c ⟨.v 1 (.sel 1), .v 2 .plain, .none⟩),
    (0x03000000, 0x03002000, 0x66847001, Instr.cvtQuantise true .f32 .rn c ⟨.v 1 (.sel 3), .v 2 .plain, .v 3 .plain⟩),
    (0x03000000, 0x00002070, 0x66C07001, Instr.cvtDequantise false c ⟨.v 1 .plain, .v 2 (.sel 7), .v 3 .plain⟩)
    ].all reads = true := by decide +kernel

theorem test_decode_memory : [
    (0x00100000, 0x00002004, 0x80077004, Instr.ld .q128 c ⟨.v 4 .plain, .v 2 .plain, .imm 16⟩),
    (0xFFFF0000, 0x00202005, 0x80417004, Instr.st .z8 c ⟨.v 4 .plain, .s 2, .imm (-1)⟩),
    (0x00000000, 0x00002004, 0x80AE7004, Instr.ldAcq .dev .d64 c ⟨.v 4 .plain, .v 2 .plain, .imm 0⟩),
    (0x00000000, 0x00002004, 0x80D57004, Instr.stRel .tem .z32 c ⟨.v 4 .plain, .v 2 .plain, .imm 0⟩),
    (0x00020000, 0x00003004, 0x81127004, Instr.ldl .wc .s16 c ⟨.v 4 .plain, .v 3 .plain, .imm 2⟩),
    (0x00000000, 0x00003004, 0x81577004, Instr.stl .se .q128 c ⟨.v 4 .plain, .v 3 .plain, .imm 0⟩),
    (0x00400000, 0x00002004, 0x81817E00, Instr.pref true c ⟨.none, .v 2 .plain, .imm 64⟩),
    (0x06000000, 0x00004100, 0xA0777002, Instr.atomAdd true true .ar .sys c ⟨.v 2 .plain, .v 4 (.sel 16), .v 6 .plain⟩),
    (0x06000000, 0x00004000, 0xA0807002, Instr.atomMin false false .relaxed .thr c ⟨.v 2 .plain, .v 4 (.sel 0), .v 6 .plain⟩),
    (0x06000000, 0x00204000, 0xA1237E00, Instr.atomMax false true .acq .die c ⟨.none, .s 4, .v 6 .plain⟩),
    (0x06000000, 0x00004000, 0xA1EC7002, Instr.atomAnd true .rel .dev c ⟨.v 2 .plain, .v 4 (.sel 0), .v 6 .plain⟩),
    (0x00010000, 0x00004004, 0xA2087002, Instr.atomOr false .relaxed .grp c ⟨.v 2 .plain, .v 4 (.sel 0), .imm 1⟩),
    (0x06000000, 0x00004000, 0xA2D07002, Instr.atomXor true .relaxed .tem c ⟨.v 2 .plain, .v 4 (.sel 0), .v 6 .plain⟩),
    (0x06000000, 0x00004000, 0xA31A7002, Instr.atomXchg false .acq .clu c ⟨.v 2 .plain, .v 4 (.sel 0), .v 6 .plain⟩),
    (0x06000000, 0x00004000, 0xA3AE7002, Instr.atomAddF32 .ar .dev c ⟨.v 2 .plain, .v 4 (.sel 0), .v 6 .plain⟩),
    (0x06000000, 0x00004000, 0xA4687002, Instr.cas true .relaxed .dev c ⟨.v 2 .plain, .v 4 (.sel 0), .v 6 .plain⟩),
    (0x00000000, 0x0040004E, 0xA4807001, Instr.txb c ⟨.v 1 .plain, .imm 4, .none⟩),
    (0x00000000, 0x00E0000E, 0xA4C07E00, Instr.txe c ⟨.none, .none, .none⟩),
    (0x00000000, 0x00400C8E, 0xA5007E00, Instr.txa c ⟨.none, .imm 200, .none⟩),
    (0x00000000, 0x00E0000E, 0xB0177E00, Instr.fence .ar .dev c ⟨.none, .none, .none⟩),
    (0x00000000, 0x0020200E, 0xB0447201, Instr.publ .die c ⟨.s 1, .s 2, .none⟩),
    (0x00000000, 0x0020300E, 0xB0857E00, Instr.rcfence .dev c ⟨.none, .s 3, .none⟩),
    (0x00400000, 0x00203004, 0xB0C37E00, Instr.icinv .clu c ⟨.none, .s 3, .imm 64⟩),
    (0x03000000, 0x00202002, 0xB1007201, Instr.sweep c ⟨.s 1, .s 2, .s 3⟩),
    (0x03000000, 0x00202002, 0xB1407201, Instr.tmov c ⟨.s 1, .s 2, .s 3⟩)
    ].all reads = true := by decide +kernel

theorem test_decode_control : [
    (0x00000000, 0x005FFFCE, 0xC0009E00, Instr.bra { c with pred := 1, neg := true } ⟨.none, .imm (-4), .none⟩),
    (0x00000000, 0x0000800E, 0xC0407E00, Instr.brx c ⟨.none, .v 8 .plain, .none⟩),
    (0x00000000, 0x0040007E, 0xC0807E00, Instr.call c ⟨.none, .imm 7, .none⟩),
    (0x00000000, 0x0020800E, 0xC0C07E00, Instr.callx c ⟨.none, .s 8, .none⟩),
    (0x00000000, 0x00E0000E, 0xC1007E00, Instr.ret c ⟨.none, .none, .none⟩),
    (0x00000000, 0x00E0000E, 0xC1407E00, Instr.rejoin c ⟨.none, .none, .none⟩),
    (0x00000000, 0x00E0000E, 0xC1807E00, Instr.exit c ⟨.none, .none, .none⟩),
    (0x00200000, 0xFF008004, 0xC1CF7400, Instr.beq 15 c ⟨.imm 255, .v 8 .plain, .imm 32⟩),
    (0x00000000, 0x0040003E, 0xC2007001, Instr.estq c ⟨.v 1 .plain, .imm 3, .none⟩),
    (0x00000000, 0x0020200E, 0xC2407201, Instr.estdrop c ⟨.s 1, .s 2, .none⟩),
    (0x00000000, 0x0020200E, 0xC2807201, Instr.spawn c ⟨.s 1, .s 2, .none⟩),
    (0x00000000, 0x0020200E, 0xC2C07E00, Instr.post c ⟨.none, .s 2, .none⟩),
    (0x00000000, 0x00E0000E, 0xC3007E00, Instr.bar c ⟨.none, .none, .none⟩),
    (0x00030000, 0x00400024, 0xC3407201, Instr.donateGive c ⟨.s 1, .imm 2, .imm 3⟩),
    (0x03000000, 0x00202002, 0xC3417201, Instr.donateTake c ⟨.s 1, .s 2, .s 3⟩),
    (0x00000000, 0x0040040E, 0xC3807201, Instr.ralloc c ⟨.s 1, .imm 64, .none⟩),
    (0x00000000, 0x0040FFFE, 0xC3C07E00, Instr.yield c ⟨.none, .imm 4095, .none⟩),
    (0x000086B0, 0x00E0000E, 0xC4007E00, Instr.nop { c with mark := true, yield := true, pair := 2, stall := 11 } ⟨.none, .none, .none⟩),
    (0x00000000, 0x004007FE, 0xE0007E00, Instr.trap c ⟨.none, .imm 127, .none⟩),
    (0x04000000, 0x00002004, 0xE0407001, Instr.sys c ⟨.v 1 .plain, .v 2 .plain, .imm 1024⟩),
    (0x00000000, 0x00201004, 0xE0807E00, Instr.sigw c ⟨.none, .s 1, .imm 0⟩),
    (0x00000000, 0x00E0000E, 0xE0C07E00, Instr.tret c ⟨.none, .none, .none⟩),
    (0x00000000, 0x00E0000E, 0xE0C17E00, Instr.tretSkip c ⟨.none, .none, .none⟩),
    (0x00000000, 0x00E0000E, 0xE0C27E00, Instr.tretExit c ⟨.none, .none, .none⟩),
    (0x00000000, 0x00400FFE, 0xE1007E00, Instr.snap c ⟨.none, .imm 255, .none⟩),
    (0x00000000, 0x0080880E, 0xE1407201, Instr.mfsr c ⟨.s 1, .sp 8 128, .none⟩),
    (0x00000000, 0x0020100E, 0xE180780A, Instr.mtsr c ⟨.sp 10 0, .s 1, .none⟩)
    ].all reads = true := by decide +kernel

theorem test_decode_matrix : [
    (0x01000000, 0x00008002, 0xF03F7603, Instr.mma 7 .s8 c ⟨.acc 3 none, .v 8 .plain, .s 1⟩),
    (0x40010800, 0x00000040, 0xF06A7600, Instr.mmq true .e4m3 .g128 { c with latch := true } ⟨.acc 0 none, .v 0 (.sel 4), .v 64 (.sel 1)⟩),
    (0x00000000, 0x0020400E, 0xF0827000, Instr.mlda .w64 c ⟨.v 0 .plain, .s 4, .none⟩),
    (0x00000000, 0x0020400E, 0xF0C076FA, Instr.ald c ⟨.acc 2 (some 15), .s 4, .none⟩),
    (0x00000000, 0x0020400E, 0xF1087601, Instr.ast .sf c ⟨.acc 1 none, .s 4, .none⟩),
    (0x00000000, 0x00E0000E, 0xF1407681, Instr.aclr c ⟨.acc 1 (some 0), .none, .none⟩),
    (0x06000000, 0x00204002, 0xF1807699, Instr.drain c ⟨.acc 1 (some 3), .s 4, .s 6⟩),
    (0x3D000000, 0x00202002, 0xF8007201, Instr.cpin c ⟨.s 1, .s 2, .s 61⟩),
    (0x04000000, 0x00202002, 0xF8407201, Instr.cpout c ⟨.s 1, .s 2, .s 4⟩),
    (0x04000000, 0x00202002, 0xF8807201, Instr.gath c ⟨.s 1, .s 2, .s 4⟩),
    (0x00000000, 0x0020200E, 0xFC007201, Instr.racq c ⟨.s 1, .s 2, .none⟩),
    (0x02000000, 0x00201002, 0xFC407E00, Instr.rput c ⟨.none, .s 1, .s 2⟩),
    (0x00000000, 0x0020200E, 0xFC807201, Instr.rget c ⟨.s 1, .s 2, .none⟩),
    (0x02000000, 0x00201002, 0xFCC07E00, Instr.rrel c ⟨.none, .s 1, .s 2⟩)
    ].all reads = true := by decide +kernel

/-! ### A small machine: one context, one team, one group of sixteen lanes on partition 0 -/

/-- Words stored at addresses. -/
def words (l : List (Nat × Nat)) : List Host.Cell :=
  l.foldl (fun m p => Memory.setBytes m p.1 (leBytes 8 p.2)) []

/-- Tables that map the first GiB of addresses to the second GiB of HBM, read, write and execute; after it three
64 KiB pages to tiles 16, 17 and 64 of HBM, movable, of class 4, and two pages of forwarding entries. -/
def tables : List (Nat × Nat) :=
  [(0x1000, 0x2003), (0x2000, 0x3003), (0x3000, 0xA00000004000001D), (0x3008, 0x4003), (0x4000, 0x5003),
    (0x5000, 0x290000000010000D), (0x5080, 0x290000000011000D), (0x5100, 0x290000000040000D),
    (0x5180, 0x2010000004000001), (0x5200, 0x2010000004003001)]

/-- Context 1's descriptor, named in the context table, and queue 0 of context 0, enabled, with one entry pending. -/
def queueWords : List (Nat × Nat) := [(8, 0x9000), (0x9088, 50), (0x8300, 0x1000), (0x8308, 0x10008), (0x8318, 1)]
/-- A code object at address 0x2000, of one group of sixteen lanes; a task graph at 0x3000 of one node; what
services read: an estate descriptor at 0x4000, a trigger at 0x4100, an attestation request at 0x4300; and the
header of a sieve window at 0x10000. -/
def dataWords : List (Nat × Nat) :=
  [(0x40002000, 0x000801105A4C4B44), (0x40003000, 0x2100), (0x40003010, 1), (0x40004000, 0x5000), (0x40004008, 0x1000),
    (0x40004100, 0x6000), (0x40004108, 0x4200), (0x40004200, 0x2100), (0x40004210, 1), (0x40004320, 0x7000),
    (0x40004328, 0x1000), (0x40010000, 0x25A4C5356), (0x40010008, 1), (0x40010010, 0x8000), (0x40010018, 9)]

def ctx0 : Context :=
  { used := true, isOpen := true, root := 0x1000, desc := 0x8000, handler := 0x400, cq := 0x100000, callRing := 0x20000
    pool := 0x40020000, poolLen := 0x10000, stack := 0x800000, stackLen := 0x10000 }
def team0 : Team := { live := true, groups := [0], locLen := 65536, holdsAcc := true }
def group0 : Group := { width := 16, resident := true, regs := 256, alloc := 256, frame := 0x6000 }

/-- Every lane of the group runs at address 0; die 1 owns the second pair of MiB of HBM. -/
def rig : State :=
  { State.reset with
    ctxs := [(0, ctx0)]
    launches := [(0, { live := true, teams := 1, admitted := 1 })]
    trees := [(0, { live := true, count := 2 })]
    teams := [(0, team0)]
    groups := [(0, group0)]
    mem := words (tables ++ queueWords ++ dataWords)
    hbmDie := [(2, 1)]
    featAcc := 1023
    featWritten := true
    bootStat := 1 }

/-- Only lane 0 runs. -/
def rig1 : State := rig.setGroup 0 { group0 with lanes := (List.range 15).map (fun k => (k + 1, { lst := .exited })) }

/-! ### Issue, as it is computed -/

def issuesB (s : State) (i : Instr) (pc : W64) : Bool :=
  let g := s.group s.cur
  i.wf g.width && decide (g.issuePc = some pc) && !g.scout && decide (s.gateCheck g i = none) &&
  (g.atMin pc).all (fun l => (guardUnits i.ctl l).all (fun u => !g.pending u)) &&
  (g.active i pc).all (fun l => (sources i g (g.active i pc) l).all (fun u => !g.pending u)) &&
  (s.watchedLanes s.cur i (g.active i pc)).isEmpty

theorem issues_of {s : State} {i : Instr} {pc : W64} (h : issuesB s i pc = true) : Issues s i pc := by
  simp only [issuesB, Bool.and_eq_true, List.all_eq_true, decide_eq_true_eq, Bool.not_eq_true', List.isEmpty_iff] at h
  obtain ⟨⟨⟨⟨⟨⟨a, b⟩, c⟩, d⟩, e⟩, f⟩, g⟩ := h
  exact ⟨a, b, c, d, e, f, g⟩

def calmB (s : State) : Bool := (s.group s.cur).pend.all (fun e => decide (e.access = none))

theorem issuesMem_of {s : State} {i : Instr} {pc : W64} (h : (issuesB s i pc && calmB s) = true) :
    IssuesMem s i pc := by
  rw [Bool.and_eq_true] at h
  exact ⟨issues_of h.1, fun e he => by simpa using List.all_eq_true.mp h.2 e he⟩

theorem issue_all {s : State} {l : List Instr} (h : l.all (fun i => issuesB s i 0) = true) : ∀ i ∈ l, Issues s i 0 :=
  fun i hi => issues_of (List.all_eq_true.mp h i hi)

theorem issueMem_all {s : State} {l : List Instr} (h : l.all (fun i => issuesB s i 0 && calmB s) = true) :
    ∀ i ∈ l, IssuesMem s i 0 :=
  fun i hi => issuesMem_of (List.all_eq_true.mp h i hi)

/-- A call that answers as it should has an answer. -/
theorem pair_of {α β : Type} {x : α × β} {b : β} (h : x.2 = b) : ∃ u, x = (u, b) := ⟨x.1, by rw [← h]⟩

theorem ok_of {α β ε : Type} {x : α × Except ε β} (h : x.2.toOption.isSome = true) : ∃ u b, x = (u, .ok b) := by
  obtain ⟨u, r⟩ := x
  cases r with
  | ok b => exact ⟨u, b, rfl⟩
  | error e => simp [Except.toOption] at h

theorem ok_eq {α β ε : Type} {x : α × Except ε β} {b : β} (h : x.2.toOption = some b) : ∃ u, x = (u, .ok b) := by
  obtain ⟨u, r⟩ := x
  cases r with
  | ok y => exact ⟨u, by simp only [Except.toOption, Option.some.injEq] at h; rw [h]⟩
  | error e => simp [Except.toOption] at h

theorem error_of {α β ε : Type} {x : α × Except ε β} (h : x.2.toOption.isSome = false) : ∃ u e, x = (u, .error e) := by
  obtain ⟨u, r⟩ := x
  cases r with
  | ok b => simp [Except.toOption] at h
  | error e => exact ⟨u, e, rfl⟩

/-! ### Witnesses: a state and operands that meet a statement's hypotheses -/

theorem witness_IntegerArithmetic : ∀ i ∈ [Instr.add .s16 true c (vvv 1 2 3), .sub .z64 false c (vvv 2 4 6),
    .mul .s8 false c (vvv 1 2 3), .mad .s32 false c (vvv 1 2 3), .min .s32 c (vvv 1 2 3), .max .z32 c (vvv 1 2 3),
    .abs .s32 true c ⟨.v 0 .plain, .v 1 .plain, .none⟩, .neg .s64 false c ⟨.s 0, .s 1, .none⟩], Issues rig i 0 :=
  issue_all (by decide +kernel)

theorem witness_ProductsAndQuotients : ∀ i ∈ [Instr.mulhi .s32 c (vvv 1 2 3), .mulw .z32 c (vvv 0 2 3),
    .div .s32 c ⟨.s 0, .s 1, .imm 0⟩, .rem .z64 c (vvv 2 4 6)], Issues rig i 0 := issue_all (by decide +kernel)

theorem witness_BitInstructions : ∀ i ∈ [Instr.and false c ⟨.v 0 .plain, .v 1 (.swz 0xE4), .v 2 .plain⟩,
    .or true c ⟨.s 0, .s 1, .imm (-1)⟩, .xor false c ⟨.s 0, .s 1, .s 2⟩, .not true c ⟨.s 0, .s 1, .none⟩,
    .rotl false c ⟨.s 0, .s 1, .imm 32⟩, .popc true c ⟨.s 0, .s 1, .none⟩, .clz false c ⟨.s 0, .imm 0, .none⟩,
    .brev true c ⟨.v 0 .plain, .v 2 (.swz 0x1B), .none⟩], Issues rig i 0 := issue_all (by decide +kernel)

theorem witness_ShiftsAndFields : ∀ i ∈ [Instr.shl .s8 c (vvv 0 1 2), .shr .s64 c ⟨.s 0, .s 1, .imm 64⟩,
    .bfx .s32 c ⟨.v 0 .plain, .v 1 .plain, .imm 0x2008⟩, .bfi true c (vvv 0 2 4)], Issues rig i 0 :=
  issue_all (by decide +kernel)

theorem witness_AddressCompareSelect : ∀ i ∈ [Instr.lea false 7 c (vvv 0 2 4), .cmp .le .s64 c ⟨.p 7, .s 0, .s 1⟩,
    .sel true true 6 c (vvv 0 2 4), .mov true c ⟨.s 3, .limm 4294967295, .none⟩, .plog .xor c ⟨.p 0, .p 1, .p 7⟩],
    Issues rig i 0 := issue_all (by decide +kernel)

theorem witness_FloatArithmetic : ∀ i ∈ [Instr.fadd true .f16 .ru c ⟨.v 0 .plain, .v 1 .neg, .v 2 .abs⟩,
    .fsub false .f32 .rn c (vvv 0 1 2), .fmul false .bf16 .rd c (vvv 0 1 2), .fma false .f32 .rz c (vvv 0 1 2),
    .fdiv false .f32 .rn c ⟨.s 0, .s 1, .s 2⟩, .fsqrt false .f16 .rn c ⟨.v 0 .plain, .v 1 .plain, .none⟩,
    .frnd false .f32 .rz c ⟨.v 0 .plain, .v 1 .plain, .none⟩, .fmin true .f32 c (vvv 0 1 2),
    .fmax false .bf16 c (vvv 0 1 2), .fdp2 false .bf16 .rn c (vvv 0 1 2)], Issues rig i 0 :=
  issue_all (by decide +kernel)

/-- A quiet NaN, a positive and a negative number, in binary32 and in binary16. -/
theorem witness_FloatInvalid : (FVal.ofBits .f32 0x7FC00000).isNan = true ∧ (FVal.ofBits .f16 0x7E00).isNan = true ∧
    (FVal.ofBits .f32 0x3F800000).isNan = false ∧ readFtz .f32 false 0x3F800000 = .fin false 0x800000 (-23) ∧
    readFtz .f16 true 0xBC00 = .fin true 0x400 (-10) := by decide +kernel

theorem witness_FloatCompare : ∀ i ∈ [Instr.fcmp .un true c ⟨.p 1, .v 2 .plain, .v 3 .plain⟩,
    .fcmp .ge false c ⟨.p 0, .s 2, .imm 0⟩, .fclass c ⟨.v 1 .plain, .v 2 .plain, .none⟩], Issues rig i 0 :=
  issue_all (by decide +kernel)

theorem witness_SpecialFunctions : ∀ i ∈ [Instr.frcp true, .frsq false, .fex2 false, .flg2 true, .fsinpi false,
    .fcospi true, .ftanh false].map (fun f => f c ⟨.v 0 .plain, .v 1 .neg, .none⟩), Issues rig i 0 :=
  issue_all (by decide +kernel)

theorem witness_Conversions : ∀ i ∈ [Instr.cvtFloatToFloat .e4m3 .f32 true .rn c ⟨.v 1 (.sel 3), .v 2 .plain, .none⟩,
    .cvtFloatToInt .s64 .f32 .rz c ⟨.s 1, .s 2, .none⟩, .cvtIntToFloat .f32 .z64 false .ru c ⟨.s 1, .s 2, .none⟩,
    .cvtIntWrap .z8 .s32 c ⟨.v 1 (.sel 0), .v 2 .plain, .none⟩, .cvtIntSat .s16 .s64 c ⟨.v 1 (.sel 1), .v 2 .plain, .none⟩,
    .cvtQuantise false .f32 .rn c ⟨.v 1 (.sel 7), .v 2 .plain, .v 3 .plain⟩,
    .cvtDequantise true c ⟨.v 1 .plain, .v 2 (.sel 3), .v 3 .plain⟩], Issues rig i 0 := issue_all (by decide +kernel)

theorem witness_LaneExchange : ∀ i ∈ [Instr.xlane .rotu false c ⟨.v 0 .plain, .v 1 .plain, .imm 15⟩,
    .xlane .pick true c (vvv 0 2 4), .lpoll .every c ⟨.p 0, .p 1, .none⟩, .lpoll .mask c ⟨.s 0, .p 1, .none⟩],
    Issues rig i 0 := issue_all (by decide +kernel)

theorem witness_FoldsAndPrefixes : ∀ i ∈ [Instr.lfold .xor .z64 c ⟨.s 0, .v 2 .plain, .none⟩,
    .ffold .max .rn c ⟨.s 0, .v 2 .plain, .none⟩, .scan .min true false c ⟨.v 0 .plain, .v 2 .plain, .none⟩],
    Issues rig i 0 := issue_all (by decide +kernel)

theorem witness_PackedSix : ∀ i ∈ [Instr.pk6, .upk6].map (fun f => f c ⟨.v 0 .plain, .v 1 .plain, .none⟩),
    Issues rig i 0 := issue_all (by decide +kernel)

/-! #### Memory -/

def noTxB (s : State) (i : Instr) (pc : W64) : Bool :=
  ((s.group s.cur).active i pc).all (fun l => decide (((s.group s.cur).lane l).tx = none))

theorem noTx_of {s : State} {i : Instr} {pc : W64} (h : noTxB s i pc = true) : s.noTx i pc :=
  fun l hl => by simpa using List.all_eq_true.mp h l hl

def reachesB (s : State) (i : Instr) (pc : W64) (q : State) (once : Bool) (va : W64) (need : Need) (n : Nat)
    (lane : Option Nat) (lanes : List Nat) (pa : Nat) : Bool :=
  let g := s.group s.cur
  let r := q.translate g.core g.ctx need va.toNat n
  (issuesB s i pc && calmB s) && g.resident && decide (g.active i pc = lanes) &&
  (match lane with
    | none => once && decide (lanes ≠ [])
    | some l => !once && decide (lanes = [l])) &&
  noTxB s i pc && decide (va.toNat % n = 0 ∧ pa % 128 + n ≤ 128) &&
  (match r.2 with
    | .ok p _ a k => decide (p = pa ∧ a = va.toNat ∧ k = 0)
    | _ => false) &&
  decide (r.1.watchBytes (q.group s.cur) 0 va.toNat n (need != .write) (need != .read) = none) &&
  !r.1.pageMoves g.core g.ctx va.toNat && (s.ctx g.ctx).used && (s.ctx g.ctx).isOpen && decide (dieOfCore g.core < 8)

theorem reaches_of {s : State} {i : Instr} {pc : W64} {q : State} {once : Bool} {va : W64} {need : Need} {n : Nat}
    {lane : Option Nat} {lanes : List Nat} {pa : Nat} (h : reachesB s i pc q once va need n lane lanes pa = true) :
    Reaches s i pc q once va need n lane lanes
      (q.translate (s.group s.cur).core (s.group s.cur).ctx need va.toNat n).1 pa := by
  simp only [reachesB, Bool.and_eq_true, decide_eq_true_eq, Bool.not_eq_true'] at h
  obtain ⟨⟨⟨⟨⟨⟨⟨⟨⟨⟨⟨a, b⟩, c⟩, d⟩, e⟩, f⟩, g⟩, w⟩, m⟩, x⟩, y⟩, z⟩ := h
  refine ⟨issuesMem_of (by rw [Bool.and_eq_true]; exact a), b, c, ?_, noTx_of e, f.1, f.2, ?_, w, m, ⟨x, y⟩, z⟩
  · cases lane with
    | none =>
      simp only [Bool.and_eq_true, decide_eq_true_eq] at d
      exact .inl ⟨d.1, rfl, d.2⟩
    | some l =>
      simp only [Bool.and_eq_true, decide_eq_true_eq, Bool.not_eq_true'] at d
      exact .inr ⟨d.1, l, rfl, d.2⟩
  · split at g
    · next p leaf v k hr =>
      simp only [decide_eq_true_eq] at g
      obtain ⟨rfl, rfl, rfl⟩ := g
      exact ⟨leaf, Prod.ext rfl hr⟩
    · cases g

/-- The access of a load or store of the rig at the top of a line: by lane 0, or once for the group. -/
def loadV : Ops := ⟨.v 4 .plain, .v 2 .plain, .imm 112⟩
def loadS : Ops := ⟨.s 4, .s 2, .imm 120⟩

/-- Instructions of the list issue in the rig, whose sixteen lanes have no transaction open. -/
theorem lanes_all {is : List Instr} (h : is.all (fun i => issuesB rig i 0 && calmB rig && noTxB rig i 0) = true) :
    ∀ i ∈ is, IssuesMem rig i 0 ∧ rig.noTx i 0 := by
  intro i hi
  have d := List.all_eq_true.mp h i hi
  rw [Bool.and_eq_true] at d
  exact ⟨issuesMem_of d.1, noTx_of d.2⟩

/-- A load by sixteen lanes, whose addresses the rig maps; and one whose addresses nothing maps. -/
theorem witness_LanesAccess :
    (rig.group 0).active (.ld .q128 c loadV) 0 = List.range 16 ∧ (∀ e ∈ (rig.group 0).pend, e.done = false) ∧
    ∀ i ∈ [Instr.ld .q128 c loadV, .ldAcq .dev .q128 c loadV, .st .q128 c loadV, .stRel .dev .q128 c loadV,
      .ld .q128 c ⟨.v 4 .plain, .v 2 .plain, .imm (-112)⟩], IssuesMem rig i 0 ∧ rig.noTx i 0 :=
  ⟨by decide +kernel, by decide +kernel, lanes_all (by decide +kernel)⟩

theorem witness_Loads :
    (∃ u pa, Reaches rig1 (.ld .q128 c loadV) 0 (rig1.issued (.ld .q128 c loadV) 0) (Ops.once loadV)
      ((rig1.group 0).accessVa (.ld .q128 c loadV) 0) .read 16 (some 0) [0] u pa ∧ rig1.poisoned pa = false) ∧
    (∃ u pa, Reaches rig (.ldAcq .dev .d64 c loadS) 0 (rig.issued (.ldAcq .dev .d64 c loadS) 0) (Ops.once loadS)
      ((rig.group 0).accessVa (.ldAcq .dev .d64 c loadS) 0) .read 8 none (List.range 16) u pa ∧
      rig.poisoned pa = false ∧ FMap.wf Line.none rig.l1 = true) ∧
    IssuesMem rig (.pref true c ⟨.none, .v 2 .plain, .imm 64⟩) 0 := by
  refine ⟨⟨_, 0x40000070, reaches_of ?_, ?_⟩, ⟨_, 0x40000078, reaches_of ?_, ?_, ?_⟩, issuesMem_of ?_⟩
  all_goals decide +kernel

def stRelI : Instr := .stRel .dev .d64 c loadS

theorem witness_Stores :
    (∃ u pa, Reaches rig1 (.st .q128 c loadV) 0 (rig1.issued (.st .q128 c loadV) 0) (Ops.once loadV)
      ((rig1.group 0).accessVa (.st .q128 c loadV) 0) .write 16 (some 0) [0] u pa ∧
      (rig1.l1Line 0 (pa / 128)).dirty = 0 ∧ rig1.quota = [] ∧ (rig1.team 0).relaunch = false) ∧
    (∀ s ∈ [rig, rig1], (s.l1Room 0 (0x40000070 / 128)).2 = some 0 ∧ (s.l1Room 0 (0x40000070 / 128)).1 = s ∧
      s.ownerDie 0x40000070 = dieOfCore 0) ∧
    (rig1.scopeLevel 0 .tem = 0 ∧ rig1.widerThanTeam 0 .tem = false) ∧
    (∃ u pa, Reaches rig stRelI 0 (rig.releasedAt stRelI 0 .dev) (Ops.once loadS) ((rig.group 0).accessVa stRelI 0) .write 8
      none (List.range 16) u pa) ∧
    rig.goes stRelI 0 (Ops.once loadS) ((rig.group 0).accessVa stRelI 0) .write 8 none (List.range 16) true ∧ rig.CachesWf ∧
    (let q := rig.releasedAt stRelI 0 .dev
     (q.l1Line 0 (0x40000078 / 128)).dirty = 0 ∧ q.quota = [] ∧ (q.team 0).relaunch = false ∧
       q.l1Room 0 (0x40000078 / 128) = (q, some 0) ∧ q.ownerDie 0x40000078 = dieOfCore 0 ∧
       q.takeWay 0 0 (0x40000078 / 128) = (q, some 0) ∧ (q.l2Line 0 (0x40000078 / 128)).dirty = 0) := by
  refine ⟨⟨_, 0x40000070, reaches_of ?_, ?_, ?_, ?_⟩, ?_, ?_, ⟨_, 0x40000078, reaches_of ?_⟩,
    ⟨_, 0x40000078, reaches_of ?_, fun _ => rfl⟩, ⟨?_, ?_⟩, ?_⟩
  all_goals decide +kernel

/-- The rig with the group's granule 0 full, or with an offset that ends at the end of local memory. -/
def rigFull : State := rig1.modTeam 0 (fun t => { t with full := [0] })
/-- Sixteen lanes name the full granule 0. -/
def rigFulls : State := rig.modTeam 0 (fun t => { t with full := [0] })

theorem witness_LocalAccesses :
    (∀ s ∈ [rig1, rigFull, rigFulls], ∀ fe ∈ [LoadFe.wf, .wc], IssuesMem s (.ldl fe .s32 c ⟨.v 4 .plain, .v 2 .plain, .imm 0⟩) 0) ∧
    (IssuesMem rig (.ldl .plain .q128 c ⟨.v 4 .plain, .v 2 .plain, .imm 65520⟩) 0 ∧
      localFault 65536 (localAddr (rig.group 0) 3 (.v 2 .plain) (.imm 65520)) 16 = none) ∧
    (IssuesMem rig (.stl .sf .d64 c ⟨.s 4, .s 2, .imm 65528⟩) 0 ∧
      localFault 65536 (localAddr (rig.group 0) 0 (.s 2) (.imm 65528)) 8 = none) ∧
    (rig1.group 0).active (.ldl .wf .s32 c ⟨.v 4 .plain, .v 2 .plain, .imm 0⟩) 0 = [0] ∧
    (rigFull.team 0).isFull 0 = true ∧ (rig1.team 0).isFull 0 = false ∧
    rig.watchBytes (rig.group 0) 1 65520 16 true false = none ∧
    rig.watchBytes (rig.group 0) 1 65528 8 false true = none := by
  refine ⟨fun s hs fe hf => issuesMem_of ?_, ⟨issuesMem_of ?_, ?_⟩, ⟨issuesMem_of ?_, ?_⟩, ?_, ?_, ?_, ?_, ?_⟩
  · exact List.all_eq_true.mp (List.all_eq_true.mp (by decide +kernel :
      ([rig1, rigFull, rigFulls].all (fun s => [LoadFe.wf, .wc].all (fun fe =>
        issuesB s (.ldl fe .s32 c ⟨.v 4 .plain, .v 2 .plain, .imm 0⟩) 0 && calmB s))) = true) s hs) fe hf
  all_goals decide +kernel

/-- What the statement of atomics asks of one of them at lane 0 of `rig1`. -/
def atomB (p : Instr × Bool × Order × Scope) : Bool :=
  let s := rig1
  let g := s.group s.cur
  let n := if p.2.1 then 8 else 4
  let va := g.value 0 p.1.ops.a 2 + atomOffset p.2.1 p.1.ops.a
  let r := (s.atomBase p.1 0 p.2.2.1 p.2.2.2).translate g.core g.ctx .rw va.toNat n
  let v := ((if p.2.2.1 = .relaxed ∧ r.1.staleNow = [] then r.1.tick else r.1).endRelaunch g.team).gather g.core (0x40000000 / 128)
  reachesB s p.1 0 (s.atomBase p.1 0 p.2.2.1 p.2.2.2) (Ops.atomOnce p.1.ops) va .rw n (some 0) [0] 0x40000000 &&
  (!Order.releases p.2.2.1 || reachesB s p.1 0 (s.issued p.1 0) (Ops.atomOnce p.1.ops) va .rw n (some 0) [0] 0x40000000) &&
  !v.poisoned 0x40000000 && decide (paSpace 0x40000000 ≠ 2) &&
  decide ((v.l2Line (v.ownerDie 0x40000000) (0x40000000 / 128)).dirty = 0 ∧
    v.takeWay (v.ownerDie 0x40000000) g.ctx (0x40000000 / 128) = (v, some 0))

def atomO : Ops := ⟨.v 4 .plain, .v 2 (.sel 0), .v 6 .plain⟩

theorem witness_Atomics : [(Instr.atomAdd true false .ar .sys c atomO, true, Order.ar, Scope.sys),
    (.atomMin false true .relaxed .thr c atomO, false, .relaxed, .thr), (.atomMax true true .acq .die c atomO, true, .acq, .die),
    (.atomAnd false .rel .dev c atomO, false, .rel, .dev), (.atomOr true .relaxed .grp c atomO, true, .relaxed, .grp),
    (.atomXor false .relaxed .tem c atomO, false, .relaxed, .tem), (.atomXchg true .acq .clu c atomO, true, .acq, .clu),
    (.cas false .ar .dev c atomO, false, .ar, .dev),
    (.atomAddF32 .relaxed .dev c { atomO with d := .none }, false, .relaxed, .dev)].all atomB = true := by decide +kernel

def tx0 (ls : List Nat) (rs : List (Nat × Byte)) (m : Bool) : Tx := ⟨5, 24, ls, ls, rs, [], [], m⟩
/-- Only lane 0 runs, in a transaction; lanes 0 and 1 commit together. -/
def rigIn (x : Tx) : State := rig1.modLane 0 0 (fun l => { l with tx := some x })
def rigBoth (x y : Tx) : State := (rig.modLane 0 0 (fun l => { l with tx := some x })).modLane 0 1 (fun l => { l with tx := some y })
def rigWrites : State := (rigIn ⟨5, 24, [], [0x40000000 / 128], [(0x40000000, 0)], [(0x40000000, 7), (0x40000001, 8)], [], false⟩).modGroup 0
  (fun g => { g with wait := .txe [0] })

/-- What the statement of transactions asks of an access of lane 0 of `rigIn`, at physical address 0x40000070. -/
def reachesTxB (s : State) (i : Instr) (need : Need) (n : Nat) : Bool :=
  let g := s.group s.cur
  let va := g.accessVa i 0
  let r := (s.issued i 0).translate g.core g.ctx need va.toNat n
  (issuesB s i 0 && calmB s) && decide (g.active i 0 = [0]) && (g.lane 0).tx.isSome && decide (va.toNat % n = 0) &&
  !((s.issued i 0).spaceAt g.core g.ctx 3 va.toNat).any (fun k => decide (2 ≤ k)) &&
  (match r.2 with
    | .ok p _ a k => decide (p = 0x40000070 ∧ a = va.toNat ∧ k = 0 ∧ p % 128 + n ≤ 128)
    | _ => false) &&
  decide (r.1.watchBytes g 0 va.toNat n (need != .write) (need != .read) = none) && !r.1.pageMoves g.core g.ctx va.toNat &&
  !(r.1.gather g.core (0x40000070 / 128)).poisoned 0x40000070

/-- Lane 0 has a transaction open that lands at 24; the rig's others have none. -/
def rigTx : State := rig.modLane 0 0 (fun l => { l with tx := some ⟨5, 24, [], [], [], [], [], false⟩ })

theorem witness_Transactions :
    (IssuesMem rig (.txb c ⟨.v 5 .plain, .imm 2, .none⟩) 0 ∧ rig.noTx (.txb c ⟨.v 5 .plain, .imm 2, .none⟩) 0) ∧
    (∀ s ∈ [rig, rigTx], ∀ i ∈ [Instr.txe c no3, .txa c ⟨.none, .imm 255, .none⟩], IssuesMem s i 0) ∧
    ((rigTx.group 0).active (.txe c no3) 0).filter (fun l => ((rigTx.group 0).lane l).tx.isSome) = [0] ∧
    ((rigTx.modGroup 0 (fun g => { g with wait := .txe [0] })).group 0).wait = .txe [0] ∧
    (∀ x ∈ [tx0 [] [] false, tx0 [] [] true, tx0 (List.range 16) [] false],
      reachesTxB (rigIn x) (.ld .q128 c loadV) .read 16 = true ∧ reachesTxB (rigIn x) (.st .q128 c loadV) .write 16 = true) ∧
    ((rigIn (tx0 [] [] false)).txMoved (tx0 [] [] true) = true ∧ (rigIn (tx0 [] [] false)).txMoved (tx0 [] [] false) = false) ∧
    (let s := rigBoth (tx0 [3] [] false) (tx0 [3] [] false)
     ((s.group 0).lane 0).tx = some (tx0 [3] [] false) ∧ ((s.group 0).lane 1).tx = some (tx0 [3] [] false) ∧
       txConflict (tx0 [3] [] false) (tx0 [3] [] false) = true) ∧
    (let s := rigWrites
     (s.group 0).wait = .txe [0] ∧ ((s.group 0).lane 0).tx.any (fun x => !s.txMoved x && s.txValid 0 x) = true ∧
       s.txValid 0 (tx0 [] [(0x40000000, 1)] false) = false ∧ s.noRoute 0x40000000 = false ∧
       ((s.endRelaunch 0).releaseAt 0 0 2).gather 0 (0x40000000 / 128) = s ∧ (s.ctx 0).used = true ∧ (s.ctx 0).isOpen = true ∧
       (s.l2Line 0 (0x40000000 / 128)).dirty = 0 ∧ s.takeWay 0 0 (0x40000000 / 128) = (s, some 0)) := by
  refine ⟨⟨issuesMem_of ?_, noTx_of ?_⟩, fun s hs => issueMem_all ?_, ?_, ?_, ?_, ?_, ?_, ?_⟩
  · decide +kernel
  · decide +kernel
  · exact List.all_eq_true.mp (by decide +kernel : ([rig, rigTx].all (fun s =>
      [Instr.txe c no3, .txa c ⟨.none, .imm 255, .none⟩].all (fun i => issuesB s i 0 && calmB s))) = true) s hs
  all_goals decide +kernel

/-- The group waits for a swap of a buffer of 64 bytes at 0x40000000, in which a shadow write has reached one byte. -/
def rigPubl (b : Nat) (pending : Bool) : State := (rig.modGroup 0 (fun g =>
  { g with wait := .publ (some 1) (BitVec.ofNat 64 b) .dev [0] })).modCtx 0 (fun x => { x with
    shadows := [{ base := 0x40000000, len := 64, pages := [0x4000], bytes := if pending then [(0, 7)] else [], pending := pending }] })

theorem witness_Fences :
    (∀ i ∈ [Instr.fence .ar .dev c no3, .fence .acq .clu c no3, .publ .dev c ⟨.s 1, .s 2, .none⟩, .rcfence .dev c no3,
      .rcfence .tem c ⟨.none, .s 2, .none⟩, .icinv .dev c ⟨.none, .s 2, .imm 64⟩, .icinv .tem c ⟨.none, .s 2, .imm 0⟩],
      IssuesMem rig i 0 ∧ rig.noTx i 0 ∧ ((rig.group 0).active i 0).head? = some 0) ∧
    dieOfCore (rig.group 0).core < 8 ∧ (FMap.wf Line.none rig.l1 = true ∧ FMap.wf Line.none rig.l2 = true) ∧
    1 ≤ rig.scopeLevel 0 .clu ∧
    ((rig.group 0).sreg 2).toNat % 64 = 0 ∧
    ((rig.modGroup 0 (fun g => { g with wait := .confirm })).group 0).wait = .confirm ∧
    (∀ p ∈ [true, false], let s := rigPubl 0x40000000 p
      (s.group 0).wait = .publ (some 1) 0x40000000 .dev [0] ∧ (s.shadowAt 0 0x40000000).any (fun h =>
        !s.shadowQueued 0 h && h.pending == p && h.bytes.all (fun b =>
          (s.follow 0 3 (h.place b.1)).1 == 0x40000000 && (match s.walk 0 0x40000000 with
            | .leaf e => leafPa e 0x40000000 == 0x100000
            | _ => false) && !s.inTransit 0 0x40000000 && !s.noRoute 0x100000)) = true) ∧
    ((rigPubl 0x40000000 true).modGroup 0 (fun g => { g with wait := .publ none 0x40000000 .dev [0] })).group 0 =
      { group0 with wait := .publ none 0x40000000 .dev [0] } ∧
    ((rigPubl 0 true).group 0).wait = .publ (some 1) 0 .dev [0] ∧ (rigPubl 0 true).shadowAt 0 0 = none := by
  refine ⟨fun i hi => ?_, ?_⟩
  · have h := List.all_eq_true.mp (by decide +kernel : ([Instr.fence .ar .dev c no3, .fence .acq .clu c no3,
      .publ .dev c ⟨.s 1, .s 2, .none⟩, .rcfence .dev c no3, .rcfence .tem c ⟨.none, .s 2, .none⟩,
      .icinv .dev c ⟨.none, .s 2, .imm 64⟩, .icinv .tem c ⟨.none, .s 2, .imm 0⟩].all (fun i =>
        issuesB rig i 0 && calmB rig && noTxB rig i 0 && decide (((rig.group 0).active i 0).head? = some 0))) = true) i hi
    simp only [Bool.and_eq_true, decide_eq_true_eq] at h
    exact ⟨issuesMem_of (by rw [Bool.and_eq_true]; exact h.1.1), noTx_of h.1.2, h.2⟩
  · decide +kernel

/-- Scalars that name tiles 0 and 1 of the rig's movable pages, or a misaligned address. -/
def rigMove (f t : Nat) : State := rig.modGroup 0 (fun g => (g.setS 2 (BitVec.ofNat 64 f)).setS 3 (BitVec.ofNat 64 t))
def tmovI : Instr := .tmov c ⟨.s 1, .s 2, .s 3⟩
def sweepI : Instr := .sweep c ⟨.s 1, .s 2, .imm 0⟩

/-- A sweep of the rig's group that stands at address 0, with one word left or none. -/
def rigSweep (left : Nat) : State := rig.modGroup 0 (fun g => { g with pend := [{
  pc := 0, lane := none, lanes := [(0, 0)], writes := [(.sca 1, none)], held := true
  sweep := some { d := 1, next := 0, left := left, trunc := false, stays := false } }] })

theorem witness_SweepAndMove :
    (∀ s ∈ [rigMove 0 0, rigMove 4 8, rigMove 0x40000000 0x40010000, rigMove 0x40000000 0x40000000], ∀ i ∈ [tmovI, sweepI],
      IssuesMem s i 0 ∧ s.noTx i 0 ∧ ((s.group 0).active i 0).head? = some 0) ∧
    ((rigMove 4 8).group 0).sreg 2 = 4 ∧ (rig.group 0).value 0 (.imm 0) 2 = 0 ∧
    (rigMove 0x40000000 0x40010000).moveStatus 0 0x40000000 0x40010000 = 0 ∧
    (rigMove 0x40000000 0x40000000).moveStatus 0 0x40000000 0x40000000 = 2 ∧
    (∀ n ∈ [0, 1], ∃ e r, ((rigSweep n).group 0).pend[0]? = some e ∧ e.sweep = some r ∧ e.access = none ∧ e.fault = none ∧
      r.left = n ∧ r.next % 8 = 0 ∧ r.reached = none) ∧ (rigSweep 1).team 0 = team0 ∧
    (let x := (rigSweep 1).translate 0 0 .rw 0 8
     let v := (x.1.noteUse 0 0 0 true).gather 0 (0x40000000 / 128)
     x.2 = .ok 0x40000000 0xA00000004000001D 0 0 ∧ v.poisoned 0x40000000 = false ∧ v.inTransit 0 (v.follow 0 3 0).1 = false ∧
       leNat (v.seenBytes 0 0x40000000 8) = 0) := by
  refine ⟨fun s hs i hi => ?_, ?_, ?_, ?_, ?_, fun n hn => ?_, ?_, ?_⟩
  · have h := List.all_eq_true.mp (List.all_eq_true.mp (by decide +kernel : ([rigMove 0 0, rigMove 4 8,
      rigMove 0x40000000 0x40010000, rigMove 0x40000000 0x40000000].all (fun s => [tmovI, sweepI].all (fun i =>
        issuesB s i 0 && calmB s && noTxB s i 0 && decide (((s.group 0).active i 0).head? = some 0)))) = true) s hs) i hi
    simp only [Bool.and_eq_true, decide_eq_true_eq] at h
    exact ⟨issuesMem_of (by rw [Bool.and_eq_true]; exact h.1.1), noTx_of h.1.2, h.2⟩
  · decide +kernel
  · decide +kernel
  · decide +kernel
  · decide +kernel
  · simp only [List.mem_cons, List.not_mem_nil, or_false] at hn
    rcases hn with rfl | rfl <;> exact ⟨_, _, rfl, rfl, rfl, rfl, rfl, rfl, rfl⟩
  · decide +kernel
  · decide +kernel

/-! #### Control, traps, special registers -/

theorem memTx_all {l : List (State × Instr)}
    (h : l.all (fun p => issuesB p.1 p.2 0 && calmB p.1 && noTxB p.1 p.2 0 && decide ((p.1.group p.1.cur).active p.2 0 ≠ [])) = true) :
    ∀ p ∈ l, IssuesMem p.1 p.2 0 ∧ p.1.noTx p.2 0 ∧ (p.1.group p.1.cur).active p.2 0 ≠ [] := by
  intro p hp
  have h := List.all_eq_true.mp h p hp
  simp only [Bool.and_eq_true, decide_eq_true_eq] at h
  exact ⟨issuesMem_of (by rw [Bool.and_eq_true]; exact h.1.1), noTx_of h.1.2, h.2⟩

theorem witness_Branches : ∀ p ∈ [(rig, Instr.bra c ⟨.none, .imm (-1), .none⟩), (rig, .brx c ⟨.none, .v 2 .plain, .none⟩),
    (rigMove 2 0, .brx c ⟨.none, .s 2, .none⟩)], IssuesMem p.1 p.2 0 ∧ p.1.noTx p.2 0 ∧
      (p.1.group p.1.cur).active p.2 0 ≠ [] := memTx_all (by decide +kernel)

/-- Lane 0 holds `n` return addresses, of which four are on the chip, and its segment has room for `cap` more. -/
def rigStack (n cap : Nat) : State :=
  (rig1.modLane 0 0 (fun l => { l with stack := List.replicate (min n 4) 48, depth := n })).modGroup 0
    (fun g => { g with seg := 0x5000, segCap := cap })
def callI : Instr := .call c ⟨.none, .imm 5, .none⟩
/-- Its segment stands where nothing is mapped. -/
def rigNoStack : State := (rigStack 5 8).modGroup 0 (fun g => { g with seg := 0x80000000 })

theorem witness_CallsAndReturns :
    (∀ p ∈ [(rig, callI), (rig, .callx c ⟨.none, .v 2 .plain, .none⟩), (rigStack 4 8, callI), (rigStack 4 0, callI),
      (rigStack 0 8, .ret c no3), (rigStack 4 8, .ret c no3), (rigStack 5 8, .ret c no3), (rigNoStack, .ret c no3)], IssuesMem p.1 p.2 0 ∧ p.1.noTx p.2 0 ∧
      (p.1.group p.1.cur).active p.2 0 ≠ []) ∧
    (∀ l < 16, ((rig.group 0).lane l).depth < 4 ∧ ((rig.group 0).lane l).refill = none) ∧
    (∃ u bs, ((rigStack 4 8).issued callI 0).stackAccess 0 (.store .d64)
      (((rigStack 4 8).group 0).stackAddr 0 0) (leBytes 8 48) = (u, .ok bs)) ∧
    (((rigStack 4 8).group 0).lane 0).depth = 4 ∧ ((rigStack 4 8).group 0).segCap = 8 ∧
    (rigStack 4 8).stackMoves ((rigStack 4 8).group 0) .write (((rigStack 4 8).group 0).stackAddr 0 0) = false ∧
    (rigStack 4 0).stackMoves ((rigStack 4 0).group 0) .write (((rigStack 4 0).group 0).stackAddr 0 0) = false ∧
    ((rigStack 4 0).group 0).segCap = 0 ∧ (((rigStack 4 8).group 0).lane 0).stack.getD 0 0 = 48 ∧
    (let s := rigStack 5 8
     let va := (s.group 0).stackAddr 0 0
     ((s.group 0).lane 0).depth = 5 ∧ s.stackMoves (s.group 0) .read va = false ∧
       ((s.issued (.ret c no3) 0).translate 0 0 .read va.toNat 8).2 = .ok 0x40005000 0xA00000004000001D 0x5000 0 ∧
       s.watchBytes (s.group 0) 0 0x5000 8 true false = none ∧ s.poisoned 0x40005000 = false) ∧
    (let s := rigNoStack
     s.stackMoves (s.group 0) .read 0x80000000 = false ∧
       ((s.issued (.ret c no3) 0).translate 0 0 .read 0x80000000 8).2 = .fault 4) :=
  ⟨memTx_all (by decide +kernel), by decide +kernel, ok_of (by decide +kernel), by decide +kernel⟩

/-- Lane 1 of the rig is parked with cause 8. -/
def rigParked : State := rig.modLane 0 1 (fun l => { l with lst := .parked, cause := 8 })

theorem witness_LaneControl : (∀ p ∈ [(rig, Instr.exit c no3), (rig, .rejoin c no3), (rigParked, .rejoin c no3),
    (rig, .yield c ⟨.none, .imm 4095, .none⟩), (rig, .nop { c with stall := 15 } no3)], IssuesMem p.1 p.2 0 ∧
      p.1.noTx p.2 0 ∧ (p.1.group p.1.cur).active p.2 0 ≠ []) ∧
    (rig.group 0).inState .parked = [] ∧ (rigParked.group 0).inState .parked = [1] ∧ (rigParked.group 0).tm = false :=
  ⟨memTx_all (by decide +kernel), by decide +kernel⟩

/-- Lane 0 of the rig has a will of four domains. -/
def rigWill : State := rig.modLane 0 0 (fun l => { l with will := (List.range 4).map (fun d => ⟨d, [d], 0⟩) })
def beqI (d n : Int) : Instr := .beq 1 c ⟨.imm d, .v 8 .plain, .imm n⟩

theorem witness_Estates : (∀ p ∈ [(rig, beqI 255 32), (rigWill, beqI 9 1), (rigWill, .beq 0 c ⟨.imm 1, .v 8 .plain, .imm 0⟩),
    (rig, .estq c ⟨.v 1 .plain, .s 2, .none⟩), (rig, .estdrop c ⟨.s 1, .imm 3, .none⟩)], IssuesMem p.1 p.2 0 ∧
      p.1.noTx p.2 0 ∧ (p.1.group p.1.cur).active p.2 0 ≠ []) ∧ (rig.team 0).holdsAcc = true ∧
    ((rig.group 0).active (.estdrop c ⟨.s 1, .imm 3, .none⟩) 0).head? = some 0 :=
  ⟨memTx_all (by decide +kernel), by decide +kernel⟩

def spawnI : Instr := .spawn c ⟨.s 1, .s 2, .none⟩
def sigwI (t : Int) : Instr := .sigw c ⟨.none, .imm t, .imm 7⟩

/-- `s2` names the record at 0x4200, which is poisoned or not; the spawn list is full, or the tree's counter at its top. -/
def rigSpawn (full tops sour : Bool) : State :=
  { rigMove 0x4200 0 with
    ctxs := [(0, { ctx0 with queues := [(0, { spawns := if full then List.replicate 4096 0 else [] })] })]
    launches := [(0, { live := true, teams := 2, admitted := 1 })]
    trees := [(0, { live := true, count := if tops then 2 ^ 32 - 1 else 2 })]
    poison := if sour then [(0x40004200 / 128, some 0)] else [] }
/-- The state in which `spawn` reads its record. -/
def spawnBase (s : State) (va : Nat) : State :=
  (((s.issued spawnI 0).translate 0 0 .read va 64).1.endRelaunch 0).release ((s.issued spawnI 0).group 0) .dev
/-- A legal record of one team. -/
def spawnRec : List Byte := leBytes 16 0x2100 ++ leBytes 48 1

theorem witness_SpawnRecords :
    (∀ s ∈ [rigSpawn false false false, rigSpawn true false false, rigSpawn false true false, rigSpawn false false true],
      s.watchBytes (s.group 0) 0 0x4200 64 true false = none) ∧
    (∀ s ∈ [rigSpawn false false false, rigSpawn true false false, rigSpawn false true false],
      let r := (spawnBase s 0x4200).devRead 0 0x4200 64
      let k := r.1.kernelAt 0 0x2100
      r.2.toOption = some spawnRec ∧ k.2 = some { code := 0x2100, arr := List.replicate 8 0, inherit := List.replicate 128 0 } ∧
        k.1.qOn 0 0 = true ∧ k.2.map k.1.refuses = some false) ∧
    ((spawnBase (rigSpawn false false true) 0x4200).devRead 0 0x4200 64).2.toOption = none ∧
    ((spawnBase rig 0).devRead 0 0 64).2.toOption = some (List.replicate 64 0) ∧ (rig.kernelAt 0 0).2 = none ∧
    (field spawnRec 0 8 = 0x2100 ∧ field spawnRec 8 8 = 0 ∧ field spawnRec 16 4 = 1 ∧ field spawnRec 20 1 = 0 ∧
      field spawnRec 21 1 = 0 ∧ ∀ j < 64, 22 ≤ j → spawnRec.getD j 0 = 0) ∧
    4096 ≤ ((spawnBase (rigSpawn true false false) 0x4200).spawnList 0 0).length ∧
    ((spawnBase (rigSpawn false false false) 0x4200).spawnList 0 0).length < 4096 ∧
    2 ^ 32 ≤ ((spawnBase (rigSpawn false true false) 0x4200).tree 0).count + 1 ∧
    ((spawnBase (rigSpawn false false false) 0x4200).tree 0).count + 1 < 2 ^ 32 := by
  refine ⟨?_, ?_, ?_, ?_, ?_, ?_, ?_, ?_, ?_, ?_⟩ <;> decide +kernel

theorem witness_SpawnPostSignal : (∀ p ∈ [(rigMove 32 0, spawnI), (rig, spawnI), (rigSpawn false false false, spawnI), (rigSpawn true false false, spawnI),
    (rigSpawn false true false, spawnI), (rigSpawn false false true, spawnI), (rig, .post c ⟨.none, .imm 1, .none⟩),
    (rig, sigwI 64), (rig, sigwI 512), (rig, sigwI 63), (rig, sigwI 263), (rig, sigwI 264)], IssuesMem p.1 p.2 0 ∧
      p.1.noTx p.2 0 ∧ (p.1.group p.1.cur).active p.2 0 ≠ []) ∧
    (∃ u, (rig.issued spawnI 0).translate 0 0 .read 0 64 = (u, .ok 0x40000000 0xA00000004000001D 0 0)) ∧
    (∀ s ∈ [rigSpawn false false false, rigSpawn true false false, rigSpawn false true false, rigSpawn false false true],
      ((s.issued spawnI 0).translate 0 0 .read 0x4200 64).2 = .ok 0x40004200 0xA00000004000001D 0x4200 0) ∧
    (rig.tree (rig.launch 0).tree).complete = false ∧ ((rig.group 0).active (sigwI 64) 0).head? = some 0 :=
  ⟨memTx_all (by decide +kernel), pair_of (by decide +kernel), by decide +kernel, by decide +kernel⟩

/-- A team of two groups of which group 1 has arrived at the barrier, or not. -/
def rig2 (arrived : Bool) (alloc1 : Nat) : State :=
  { rig with
    groups := [(0, group0), (1, { group0 with gid := 1, part := 1, alloc := alloc1, wait := if arrived then .bar [0] else .none })]
    teams := [(0, { team0 with groups := [0, 1], arrived := if arrived then [1] else [] })] }
def barI : Instr := .bar c no3

theorem witness_TeamBarrier : (∀ p ∈ [(rig, barI), (rig2 false 256, barI), (rig2 true 256, barI)], IssuesMem p.1 p.2 0 ∧
      p.1.noTx p.2 0 ∧ (p.1.group p.1.cur).active p.2 0 ≠ []) ∧
    (∃ k ∈ ((rig2 false 256).team 0).groups, k ≠ 0 ∧ k ∉ ((rig2 false 256).team 0).arrived ∧
      ((rig2 false 256).group k).ended = false) ∧
    (∀ k ∈ ((rig2 true 256).team 0).groups, k = 0 ∨ k ∈ ((rig2 true 256).team 0).arrived) :=
  ⟨memTx_all (by decide +kernel), by decide +kernel, by decide +kernel⟩

def donateI (d k : Int) : Instr := .donateGive c ⟨.s 1, .imm d, .imm k⟩
/-- Group 0 gives 31 units of eight registers to group 1, which takes `k`. -/
def rigDonate (k alloc1 : Nat) : State :=
  ((rig2 false alloc1).modGroup 0 (fun g => { g with wait := .donate true 1 1 31 [0] })).modGroup 1
    (fun g => { g with wait := .donate false 2 0 k [0] })

theorem witness_RegisterDonation :
    (∀ p ∈ [(rig2 false 8, donateI 0 1), (rig2 false 8, donateI 2 1), (rig2 false 8, donateI 1 32), (rig2 false 8, donateI 1 31),
      (rig2 false 8, .donateTake c ⟨.s 1, .imm 1, .imm 1⟩), (rig, .ralloc c ⟨.s 1, .imm 8, .none⟩),
      (rig, .ralloc c ⟨.s 1, .imm 257, .none⟩)], IssuesMem p.1 p.2 0 ∧ p.1.noTx p.2 0 ∧
      (p.1.group p.1.cur).active p.2 0 ≠ []) ∧
    (rig2 false 8).partner 0 2 = none ∧ (rig2 false 8).partner 0 1 = some 1 ∧ (rig.group 0).pendingFrom 8 = false ∧
    (∀ p ∈ [(31, 8), (30, 8), (31, 16)], let s := rigDonate p.1 p.2
      (s.group 0).wait = .donate true 1 1 31 [0] ∧ (s.group 1).wait = .donate false 2 0 p.1 [0] ∧
      s.partner (s.group 0).team 1 = some 1 ∧ (s.group 0).gid = 0 ∧ (s.group 0).pend = [] ∧ (s.group 1).pend = [] ∧
      (s.group 1).alloc = p.2 ∧ (s.group 0).resident = true ∧ (s.group 1).resident = true) :=
  ⟨memTx_all (by decide +kernel), by decide +kernel⟩

/-- Every lane of the rig is parked, with the status register and the context's HANDLER as given. -/
def rigTrap (gsw h : Nat) : State :=
  { rig with
    ctxs := [(0, { ctx0 with handler := BitVec.ofNat 64 h })]
    groups := [(0, { group0 with gsw := BitVec.ofNat 64 gsw, lanes := (List.range 16).map (fun l => (l, { lst := .parked, cause := 8 })) })] }
def trapI : Instr := .trap c ⟨.none, .imm 127, .none⟩

theorem witness_TrapEntry : (IssuesMem rig trapI 0 ∧ rig.noTx trapI 0 ∧ (rig.group 0).active trapI 0 ≠ []) ∧
    (∀ p ∈ [(0x800000, 0x400), (0, 0), (0, 0x400)], let s := rigTrap p.1 p.2
      let g := s.group 0
      g.wantsHandler = true ∧ g.pend = [] ∧ s.current g = true ∧ (s.part g.part).stopped = false ∧
      g.ctx = 0 ∧ g.frame = 0x6000 ∧ g.width = 16 ∧ s.rangeMoves 0 0x6000 576 = false ∧ g.tm = decide (p.1 ≠ 0) ∧
      (s.ctx g.ctx).handler = BitVec.ofNat 64 p.2) ∧
    (∃ u, (rigTrap 0 0x400).groupStore 0 0x6000 (((rigTrap 0 0x400).group 0).trapFrame 1) = (u, true)) :=
  ⟨memTx_all (l := [(rig, trapI)]) (by decide +kernel) (rig, trapI) (List.mem_singleton.mpr rfl), by decide +kernel,
    pair_of (by decide +kernel)⟩

/-- A handler that was entered with lane 0 parked, lane 1 waiting and the others running at 0x100. -/
def rigHandler : State := rig.modGroup 0 (fun g => { g.setTm true with
  handler := some ((List.range 16).map (fun l => (0x100, if l = 0 then .parked else if l = 1 then .waiting else .running))) })

theorem witness_HandlerReturn : (∀ p ∈ [(rig, Instr.tret c no3), (rigHandler, .tret c no3), (rigHandler, .tretSkip c no3),
    (rigHandler, .tretExit c no3)], IssuesMem p.1 p.2 0 ∧ p.1.noTx p.2 0 ∧ (p.1.group p.1.cur).active p.2 0 ≠ []) ∧
    (rig.group 0).handler = none ∧ (rigHandler.group 0).handler.isSome = true :=
  ⟨memTx_all (by decide +kernel), by decide +kernel⟩

def sysI : Instr := .sys c ⟨.v 1 .plain, .v 2 .plain, .imm 2048⟩
/-- The rig after `sys`: slot 0 holds the request. -/
def rigAsked : State := match exec sysI rig with
  | .next t => t
  | _ => rig
/-- The server has written its words and STATE 2. -/
def rigReplied : State := (rigAsked.devWrite 0 0x20280 (leBytes 4 2)).1
/-- Every slot is in use. -/
def rigFullRing : State := rig.modCtx 0 (fun x => { x with slots := (List.range 256).map (fun n => (n, { used := true })) })

theorem witness_CallsOut :
    (∀ p ∈ [(rig, sysI), (rigFullRing, sysI)], IssuesMem p.1 p.2 0 ∧ p.1.noTx p.2 0 ∧
      (p.1.group p.1.cur).active p.2 0 ≠ []) ∧ (rigFullRing.ctx 0).freeSlot = none ∧ (rig.ctx 0).freeSlot = some 0 ∧
    (let w := (rig.issued sysI 0).endRelaunch 0
     let r := callRecord (rig.group 0) 0 0 2048 (List.range 16) (List.replicate 16 0)
     (w.devWrite 0 0x20000 r).2.toOption = some () ∧
       ((w.devWrite 0 0x20000 r).1.devWrite 0 0x20280 (leBytes 4 1)).2.toOption = some ()) ∧
    (let s := rigReplied
     let x := (s.ctx 0).slot 0
     x.used = true ∧ x.inc = (s.ctx 0).inc ∧ (s.group x.group).resident = true ∧ 2048 ≤ x.svc ∧ x.act.Nodup ∧
       (s.devRead 0 0x20280 4).2.toOption = some (leBytes 4 2) ∧
       ((s.devRead 0 0x20280 4).1.devRead 0 0x20300 64).2.toOption = some (List.replicate 64 0)) ∧
    ((rig.modGroup 0 (fun g => { g with wait := .callRing 0 2048 1 [0] [0] })).group 0).wait = .callRing 0 2048 1 [0] [0] ∧
    (let s := (rig.modGroup 0 (fun g => { g with wait := .sys 0 1 [0] })).modCtx 0 (fun x =>
       { x with slots := [(0, { used := true, hold := [7] })] })
     (s.group 0).wait = .sys 0 1 [0] ∧ ((s.ctx 0).slot 0).hold = [7]) :=
  ⟨memTx_all (by decide +kernel), by decide +kernel⟩

theorem witness_SpecialRegisters : (∀ p ∈ [(rig, Instr.mfsr c ⟨.v 2 .plain, .sp 5 0, .none⟩), (rig, .mfsr c ⟨.s 2, .sp 9 143, .none⟩),
    (rig, .mfsr c ⟨.v 1 .plain, .sp 7 2, .none⟩), (rig, .mfsr c ⟨.s 2, .sp 15 0, .none⟩), (rig, .mfsr c ⟨.s 2, .sp 14 0, .none⟩),
    (rig, .mtsr c ⟨.sp 10 0, .s 1, .none⟩), (rig, .mtsr c ⟨.sp 11 0, .v 1 .plain, .none⟩), (rig, .snap c ⟨.none, .imm 255, .none⟩)],
    IssuesMem p.1 p.2 0 ∧ p.1.noTx p.2 0 ∧ (p.1.group p.1.cur).active p.2 0 ≠ []) ∧
    (rig.ctx 0).snapOn = false ∧ ((rig.modCtx 0 (fun x => { x with snapOn := true })).ctx 0).snapOn = true ∧ rig.ssn ≤ 1 :=
  ⟨memTx_all (by decide +kernel), by decide +kernel⟩

/-! #### The matrix array, engines and rings -/

/-- The core has `n` array cycles of credit. -/
def rigCredit (n : Nat) : State := rig.modCore 0 (fun x => { x with credit := n })
def mmaI : Instr := .mma 7 .bf16 c ⟨.acc 3 none, .v 0 .plain, .s 0⟩
def mmqI : Instr := .mmq true .s8 .g32 c ⟨.acc 0 none, .v 64 (.sel 1), .v 8 (.sel 2)⟩

/-- The same, with scalar 0 or 1, which names the place of B, as given. -/
def rigBlock (r n : Nat) : State := (rigCredit 32).modGroup 0 (fun g => g.setS r (BitVec.ofNat 64 n))

theorem witness_MatrixMultiply : (∀ p ∈ [(rigCredit 32, mmaI), (rigCredit 16, mmqI), (rig, mmaI), (rigBlock 0 1, mmaI),
      (rigBlock 0 8192, mmaI), (rigBlock 1 32, mmqI), (rigBlock 1 65536, mmqI)], IssuesMem p.1 p.2 0 ∧
      p.1.noTx p.2 0 ∧ (p.1.group p.1.cur).active p.2 0 ≠ []) ∧
    ((rigCredit 32).core 0).draw 32 = some (Core.init) ∧ ((rigCredit 16).core 0).draw 16 = some (Core.init) ∧
    (rig.core 0).draw 32 = none ∧ (∀ n ∈ [16, 32], ((rigBlock 0 1).core 0).draw n ≠ none) ∧
    ((rigCredit 32).team 0).locLen = 65536 ∧ 7 * 8192 % 64 = 0 ∧ 7 * 8192 + 16 * elemBits (mmaFp .bf16) * MmaFmt.bf16.depth ≤ 65536 ∧
    0 + 16 * 8 * QGroup.g32.size ≤ 65536 ∧ (1 + 7 * 8192) % 64 ≠ 0 ∧
    65536 < 8192 + 7 * 8192 + 16 * elemBits (mmaFp .bf16) * MmaFmt.bf16.depth ∧ 65536 < 65536 + 16 * 8 * QGroup.g32.size ∧
    (∀ l < 16, rig.watchBytes (rig.group 0) 1 (7 * 8192) 8192 true false = none ∧
      rig.watchMine (rig.group 0) 3 (ownedRows 16 l) true true = none) :=
  ⟨memTx_all (by decide +kernel), by decide +kernel⟩

theorem witness_ArrayElements :
    (∀ n ≤ 1, (-2147483648 : Int) ≤ IntTy.val .s32 5 + (((List.replicate 8 ((2 : Int), (-3 : Int))).take (8 * n)).map
      (fun p => p.1 * p.2)).sum ∧ IntTy.val .s32 5 + (((List.replicate 8 ((2 : Int), (-3 : Int))).take (8 * n)).map
      (fun p => p.1 * p.2)).sum ≤ 2147483647) ∧
    (FVal.ofBits .f32 0x7FC00000).isNan = true ∧ (FVal.ofBits .f32 0).isNan = false ∧
    firstEvent [] (List.replicate 8 (FVal.ofBits .bf16 0x7F80, FVal.ofBits .bf16 0)) = 4 ∧
    mmqCause (List.replicate 32 (FVal.ofBits .f16 0x3C00, FVal.ofBits .bf16 0x4000)) (FVal.ofBits .f16 0x3C00) = 0 ∧
    ((List.replicate 8 ((2 : Int), (-3 : Int))).length = 8 ∧
      firstEvent [] (List.replicate 8 (FVal.ofBits .bf16 0x3F80, FVal.ofBits .bf16 0x4000)) = 0) ∧
    (exactSum [.fin true 0 0, .fin true 0 0]).rat = 0 := by
  refine ⟨by decide +kernel, by decide +kernel, by decide +kernel, by decide +kernel, by decide +kernel, by decide +kernel, ?_⟩
  rw [show exactSum [.fin true 0 0, .fin true 0 0] = .fin true 0 0 by decide +kernel]
  simp [FVal.rat]

def aldO : Ops := ⟨.acc 1 (some 15), .s 2, .none⟩

theorem witness_AccumulatorRows : (∀ p ∈ [(rigMove 8 0, Instr.mlda .w16 c ⟨.v 0 .plain, .s 2, .none⟩),
      (rig, .mlda .w16 c ⟨.v 0 .plain, .s 2, .none⟩), (rig, .ald c aldO), (rig, .ast .sf c aldO), (rig, .ast .plain c aldO),
      (rigMove 8 0, .ald c aldO), (rigMove 8 0, .ast .plain c aldO), (rigMove 65536 0, .ald c aldO), (rigMove 65536 0, .ast .sf c aldO),
      (rig, .aclr c ⟨.acc 1 none, .none, .none⟩)], IssuesMem p.1 p.2 0 ∧ p.1.noTx p.2 0 ∧
      (p.1.group p.1.cur).active p.2 0 ≠ []) ∧
    (∀ l < 16, l * (4 * mldaBlock 16 .w16) + 4 * mldaBlock 16 .w16 ≤ 65536 ∧
      rig.watchBytes (rig.group 0) 1 (l * (4 * mldaBlock 16 .w16)) (4 * mldaBlock 16 .w16) true false = none ∧
      rowsEnd 16 0 l aldO.d ≤ 65536 ∧
      rig.watchBytes (rig.group 0) 1 (rowsStart 16 0 l aldO.d) (rowsEnd 16 0 l aldO.d - rowsStart 16 0 l aldO.d) false true = none ∧
      rig.watchMine (rig.group 0) 1 (laneRows 16 l aldO.d) false true = none) ∧
    (laneRows 16 15 aldO.d ≠ [] ∧ 65536 < rowsEnd 16 65536 15 aldO.d) ∧ (∀ p ∈ rig.groups, p.1 ≠ rig.cur → ∀ e ∈ p.2.pend, e.old = []) :=
  ⟨memTx_all (by decide +kernel), by decide +kernel⟩

/-- A shape record of two dimensions of `ext0` and 4 words, read and written in boxes of 4 and 1, with a mode. -/
def shape (mode ext0 : Nat) : List Byte :=
  leBytes 8 0 ++ leBytes 2 0x200 ++ leBytes 6 mode ++ leBytes 8 ext0 ++ leBytes 32 4 ++ leBytes 32 16 ++ leBytes 4 4 ++
    leBytes 100 1
def shapeAt (mode base : Nat) : List Byte := leBytes 8 base ++ (shape mode 4).drop 8
/-- The record cache holds it at address 0. -/
def rigRecord (mode : Nat) : State := rig.modCore 0 (fun x => { x with records := [⟨0, 0, 0, shape mode 4⟩] })
def drainI : Instr := .drain c ⟨.acc 1 (some 3), .s 2, .s 4⟩
def engineIs : List Instr := [.cpin c ⟨.s 0, .s 2, .s 4⟩, .cpout c ⟨.s 0, .s 2, .s 4⟩, .gath c ⟨.s 0, .s 2, .s 4⟩, drainI]
def queued (ext0 : Nat) : EngCmd := ⟨.cpin, 0, 0, 0, 0, 0, shape 0 ext0, leBytes 24 0, none, [], []⟩
/-- A command of another context stands before it, whose tensor has a tile in transit or not. -/
def rigBehind (moves : Bool) : State :=
  { rig.modCore 0 (fun x => { x with queue := [{ queued 4 with ctx := 1, record := shapeAt 0 0x40000000 }, queued 4] }) with
    ctxs := [(0, ctx0), (1, ctx0)]
    moving := if moves then [⟨0, 1, 0, 0x40000000, 0x40010000, 0x100000, 0x110000, 1, none, false, false⟩] else [] }
/-- A run of a command that has begun nothing. -/
def run0 (s : State) : EngRun := { s := s }
def zeros24 : List Byte := leBytes 8 0 ++ leBytes 8 0 ++ leBytes 8 0
/-- The rig's engine has one command queued. -/
def rigQueued (ext0 : Nat) : State := rig.modCore 0 (fun x => { x with queue := [queued ext0] })
/-- The record stands in a poisoned line, or nowhere; SIGNAL is as given. -/
def rigNoRecord (va sig : Nat) : State :=
  { rig with
    poison := [(0x40000000 / 128, some 0)]
    groups := [(0, (group0.setS 2 (BitVec.ofNat 64 va)).setS 6 (BitVec.ofNat 64 (sig * 2 ^ 32)))] }

/-- The record is poisoned, and the team is one of a `.relaunch` launch, or relaunched. -/
def rigEats (relaunched : Bool) : State :=
  { rigNoRecord 0 0 with
    launches := [(0, { live := true, teams := 1, admitted := 1, kernel := { (rig.launch 0).kernel with relaunch := !relaunched } })]
    teams := [(0, { team0 with relaunch := !relaunched, relaunched := relaunched })] }
/-- The cause that a fetch of a record meets. -/
def fetchCause (s : State) (i : Instr) : Option (Nat × Nat × Nat) := match (s.recordAt i 0).2 with
  | .ok _ => none
  | .error e => some e

theorem commands_all {l : List (State × Instr)} (h : l.all (fun p => issuesB p.1 p.2 0 && calmB p.1 && noTxB p.1 p.2 0 &&
      decide ((p.1.group p.1.cur).active p.2 0 ≠ []) && decide (((p.1.group p.1.cur).sreg (Opnd.idx p.2.ops.a)).toNat % 64 = 0) &&
      !p.1.rangeMoves (p.1.group p.1.cur).ctx ((p.1.group p.1.cur).sreg (Opnd.idx p.2.ops.a)).toNat 192) = true) :
    ∀ p ∈ l, Commands p.1 p.2 0 0 := by
  intro p hp
  have h := List.all_eq_true.mp h p hp
  simp only [Bool.and_eq_true, decide_eq_true_eq, Bool.not_eq_true'] at h
  exact ⟨issuesMem_of (by rw [Bool.and_eq_true]; exact h.1.1.1.1), noTx_of h.1.1.1.2, h.1.1.2, ⟨h.1.2, rfl⟩, h.2⟩

theorem witness_EngineCommands :
    (∀ p ∈ engineIs.map (fun i => (rigMove 32 0, i)), IssuesMem p.1 p.2 0 ∧ p.1.noTx p.2 0 ∧
      (p.1.group p.1.cur).active p.2 0 ≠ []) ∧
    (∀ p ∈ engineIs.flatMap (fun i => [(rigRecord 0, i), (rigRecord 3, i), (rigNoRecord 0 0, i), (rigNoRecord 0 1048576, i),
      (rigNoRecord 0x80000000 0, i), (rigEats false, i), (rigEats true, i)]), Commands p.1 p.2 0 0) ∧
    (∀ m ∈ [0, 3], ∀ i ∈ engineIs, ((rigRecord m).recordAt i 0).2.toOption = some (shape m 4, [])) ∧
    (∀ i ∈ engineIs, (fetchCause (rigNoRecord 0x80000000 0) i).map Prod.fst = some 4 ∧
      ∀ s ∈ [rigNoRecord 0 0, rigNoRecord 0 1048576, rigEats false, rigEats true], fetchCause s i = some (7, 1, 0)) ∧
    (∀ b ∈ [true, false], ∀ i ∈ engineIs, let u := ((rigEats b).recordAt i 0).1
      (u.team 0).relaunched = b ∧ (u.launch 0).kernel.relaunch = !b) ∧
    (∀ k ∈ [EngKind.cpin, .cpout, .gath], shapeFault 1023 team0 k (shape 0 4) none 0 zeros24 = none) ∧
    shapeFault 1023 team0 .drain (shape 0 4) (some 8) 0 zeros24 = none ∧
    (∀ k ∈ [EngKind.cpout, .drain], shapeFault 1023 team0 k (shape 3 4) none 0 zeros24 = some 0) ∧
    signalOk team0 zeros24 = true ∧ signalOk team0 ((rigNoRecord 0 1048576).group 0 |>.coordBlock 4) = false ∧
    (∀ n ∈ [0, 4], ((rigQueued n).core 0).queue = [queued n] ∧
      (rigQueued n).rowsMove 0 (shape 0 n) ((rigQueued n).cmdRows (queued n)) = false) ∧
    (List.range (recRank (shape 0 0))).any (fun d => recExt (shape 0 0) d == 0) = true ∧
    ((rigBehind false).core 0).queue[0]?.any (fun e => !(rigBehind false).rowsMove 1 e.record ((rigBehind false).cmdRows e)) = true ∧
    ((rigBehind true).core 0).queue[0]?.any (fun e => (rigBehind true).rowsMove 1 e.record ((rigBehind true).cmdRows e)) = true ∧
    ((rigBehind true).core 0).queue[1]? = some (queued 4) ∧
    (rigBehind true).rowsMove 0 (shape 0 4) ((rigBehind true).cmdRows (queued 4)) = false :=
  ⟨memTx_all (by decide +kernel), commands_all (by decide +kernel), by decide +kernel⟩

/-- A row of the record's box that is clipped at neither end, or wholly. -/
def row0 : BoxRow := boxRow (shape 0 4) none zeros24 none 0

theorem witness_EngineRows : recRank (shape 0 4) = 2 ∧ (row0.lo = 0 ∧ row0.hi = 4 ∧ boxOf (shape 0 4) none 0 = 4) ∧
    4 * recBits (shape 0 4) % 8 = 0 ∧
    (let r := (run0 rig).readRow 0 (queued 4) row0
     r.2.2 = none) ∧
    ((0 : Nat) % 128 + 16 ≤ 128 ∧ (0x40000000 : Nat) % 128 = 0 % 128 ∧ (rig.ctx 0).used = true ∧ (rig.ctx 0).isOpen = true ∧
      rig.ownerDie 0x40000000 = dieOfCore 0 ∧ rig.takeWay 0 0 (0x40000000 / 128) = (rig, some 0)) ∧
    rig.walk 0 (rig.follow 0 3 0).1 ≠ .absent ∧ (rig.chase 0 0 .read 1 true 3 0).2 = .ok 0x40000000 0xA00000004000001D 0 0 ∧
    (∀ k < 16, rig.poisoned (0x40000000 + k) = false) ∧ recLocal (shape 0 4) = false ∧
    (let r := (run0 rig).s.engPlaces 0 0 .write (run0 rig).pages (row0.bytes (recBits (shape 0 4)) row0.hi).1.toNat
       (row0.bytes (recBits (shape 0 4)) row0.hi).2
     r.2.2.1 = [(0x40000000, 0, (row0.bytes (recBits (shape 0 4)) row0.hi).2)] ∧ r.2.2.2 = none) ∧
    (row0.bytes (recBits (shape 0 4)) row0.hi).2 ≤ 128 ∧ recFmt (shape 0 4) ≤ 2 := by decide +kernel

/-- A ring header of two stages of 64 bytes from offset 64, both indices 0, with the states of the stages. -/
def header (st0 st1 : Nat) : Nat := 64 + 2 * 2 ^ 20 + 64 * 2 ^ 32 + st0 * 2 ^ 72 + st1 * 2 ^ 74
/-- It stands at offset 0 of the team's local memory; `s2` names it and `s3` its stage 0. -/
def rigRing (st0 st1 : Nat) : State := (rigMove 0 64).modTeam 0 (fun t =>
  { t with loc := (leBytes 16 (header st0 st1)).zipIdx.map (fun p => (p.2, p.1)) })
def ringI (op : Nat) : Instr := match op with
  | 0 => .racq c ⟨.s 5, .s 2, .none⟩
  | 1 => .rput c ⟨.none, .s 2, .s 3⟩
  | 2 => .rget c ⟨.s 5, .s 2, .none⟩
  | _ => .rrel c ⟨.none, .s 2, .s 3⟩

theorem rings_all {l : List (State × Nat)} (h : l.all (fun p => issuesB p.1 (ringI p.2) 0 && calmB p.1 && noTxB p.1 (ringI p.2) 0 &&
      decide ((p.1.group p.1.cur).active (ringI p.2) 0 ≠ []) &&
      (let hd := ((p.1.group p.1.cur).sreg (Opnd.idx (ringI p.2).ops.a)).toNat
       let tm := p.1.team (p.1.group p.1.cur).team
       decide (hd % 16 = 0 ∧ hd + 16 ≤ tm.locLen) && hdrOk (tm.header hd) tm.locLen &&
       ((p.2 != 1 && p.2 != 3) || (hdrStage (tm.header hd) (ringStage p.2 (p.1.group p.1.cur) (ringI p.2).ops)).any (fun q =>
         hdrState (tm.header hd) q == p.2)) &&
       decide (p.1.watchBytes (p.1.group p.1.cur) 1 hd 16 true true = none))) = true) :
    ∀ p ∈ l, RingIssues p.1 (ringI p.2) p.2 0 := by
  intro p hp
  have h := List.all_eq_true.mp h p hp
  simp only [Bool.and_eq_true, Bool.or_eq_true, bne_iff_ne, decide_eq_true_eq, Option.any_eq_true, beq_iff_eq] at h
  obtain ⟨⟨a, b⟩, ⟨⟨c, d⟩, e⟩, w⟩ := h
  refine ⟨issuesMem_of (by rw [Bool.and_eq_true]; exact a.1), noTx_of a.2, b, c, d, fun ho => ?_, w⟩
  rcases e with ⟨n, m⟩ | e
  · exact absurd ho (by simp [n, m])
  · exact e

/-- A command of the group that writes into the stage, or reads in it, is queued. -/
def rigBusy (st : Nat) (k : EngKind) : State :=
  (rigRing st 0).modCore 0 (fun x => { x with queue := [{ queued 4 with kind := k, loc := 64 }] })

theorem stages_come : (rigRing 0 0).stageCome 0 0 0 ∧ ¬(rigRing 1 0).stageCome 0 0 0 ∧ (rigRing 2 0).stageCome 2 0 0 ∧
    ¬(rigRing 1 0).stageCome 2 0 0 ∧ (rigRing 1 0).stageCome 1 0 64 ∧ ¬(rigBusy 1 .cpin).stageCome 1 0 64 ∧
    (rigRing 3 0).stageCome 3 0 64 ∧ ¬(rigBusy 3 .cpout).stageCome 3 0 64 := by
  have none : ∀ st, (rigRing st 0).cores = rig.cores := fun st => rfl
  have idle : ∀ st e, e ∉ ((rigRing st 0).core ((rigRing st 0).group (rigRing st 0).cur).core).queue := fun st e he => by
    simp [State.core, none, show rig.cores = [] from rfl, FMap.get, Core.init] at he
  refine ⟨⟨fun _ => by decide +kernel, nofun, nofun, nofun⟩, fun h => absurd (h.1 rfl) (by decide +kernel),
    ⟨nofun, fun _ => by decide +kernel, nofun, nofun⟩, fun h => absurd (h.2.1 rfl) (by decide +kernel),
    ⟨nofun, nofun, fun _ e he => absurd he.1 (idle 1 e), nofun⟩, fun h => ?_,
    ⟨nofun, nofun, nofun, fun _ e he => absurd he.1 (idle 3 e)⟩, fun h => ?_⟩
  · exact absurd (h.2.2.1 rfl _ ⟨List.mem_singleton.mpr rfl, rfl⟩) (by decide +kernel)
  · exact absurd (h.2.2.2 rfl _ ⟨List.mem_singleton.mpr rfl, rfl⟩) (by decide +kernel)

theorem witness_StageRings :
    (∀ p ∈ [(rigRing 0 0, 0), (rigRing 1 0, 0), (rigRing 1 0, 1), (rigRing 2 0, 2), (rigRing 1 0, 2), (rigRing 3 0, 3)],
      RingIssues p.1 (ringI p.2) p.2 0) ∧
    RingIssues (rigBusy 1 .cpin) (ringI 1) 1 0 ∧ RingIssues (rigBusy 3 .cpout) (ringI 3) 3 0 ∧
    (∀ st ∈ [0, 1, 2, 3], ((rigRing st 0).team 0).header 0 = header st 0 ∧ hdrOk (header st 0) 65536 = true ∧
      hdrStage (header st 0) 64 = some 0 ∧ hdrState (header st 0) 0 = st) ∧
    ((rigRing 0 0).stageCome 0 0 0 ∧ ¬(rigRing 1 0).stageCome 0 0 0 ∧ (rigRing 2 0).stageCome 2 0 0 ∧
      ¬(rigRing 1 0).stageCome 2 0 0 ∧ (rigRing 1 0).stageCome 1 0 64 ∧ ¬(rigBusy 1 .cpin).stageCome 1 0 64 ∧
      (rigRing 3 0).stageCome 3 0 64 ∧ ¬(rigBusy 3 .cpout).stageCome 3 0 64) ∧
    (((rigRing 0 0).modGroup 0 (fun g => { g with wait := .ring 0 (some 5) 0 0 [0] })).group 0).wait = .ring 0 (some 5) 0 0 [0] ∧
    hdrOk (header 0 3) 192 = true ∧ 1 < hdrNst (header 0 3) :=
  ⟨rings_all (by decide +kernel), rings_all (l := [(rigBusy 1 .cpin, 1)]) (by decide +kernel) _ (List.mem_singleton.mpr rfl),
    rings_all (l := [(rigBusy 3 .cpout, 3)]) (by decide +kernel) _ (List.mem_singleton.mpr rfl), by decide +kernel, stages_come,
    by decide +kernel⟩

/-- Headers that no ring instruction accepts: misaligned, beyond local memory, with no stages, with an index at NST, with a
reserved bit; and a good one whose stage is in the wrong state, or is none. -/
theorem witness_RingFaults :
    (∀ p ∈ [(rigMove 4 64, ringI 0), (rigMove 4 64, ringI 3), (rigMove 65536 64, ringI 1), (rigMove 0 64, ringI 2),
      (rigRing 0 0, ringI 1), (rigRing 0 0, ringI 3), (rigMove 0 65, ringI 1)],
      IssuesMem p.1 p.2 0 ∧ p.1.noTx p.2 0 ∧ (p.1.group p.1.cur).active p.2 0 ≠ []) ∧
    (((rigMove 4 64).group 0).sreg 2 = 4 ∧ ((rigMove 65536 64).group 0).sreg 2 = 65536 ∧ (rig.team 0).locLen = 65536) ∧
    ((rigMove 0 64).team 0).header 0 = 0 ∧ BadHeader 0 65536 ∧ BadHeader (header 0 0 + 2 * 2 ^ 64) 65536 ∧
    BadHeader (header 0 0 + 2 ^ 127) 65536 ∧ ¬BadHeader (header 0 0) 65536 ∧
    (∀ q < hdrNst (header 0 0), hdrState (header 0 0) q ≠ 1 ∧ hdrState (header 0 0) q ≠ 3 ∧
      hdrBase (header 0 0) + q * hdrSize (header 0 0) ≠ 65) := by
  refine ⟨memTx_all (by decide +kernel), by decide +kernel, by decide +kernel, .inl (by decide +kernel),
    .inr (.inr (.inr (.inr (.inr (.inr (.inr (.inl (by decide +kernel)))))))),
    .inr (.inr (.inr (.inr (.inr (.inr (.inl ⟨127, by decide, by decide +kernel⟩)))))), ?_, by decide +kernel⟩
  rintro (h | h | h | h | h | h | ⟨k, hk, h⟩ | h | h)
  case inr.inr.inr.inr.inr.inr.inl =>
    have hall : ∀ k < 128, (k = 67 ∨ k = 71 ∨ 24 ≤ k ∧ k < 32 ∨ 52 ≤ k ∧ k < 64 ∨ 96 ≤ k ∧ k < 128) →
        (header 0 0).testBit k = false := by decide +kernel
    rw [hall k (by omega) hk] at h
    cases h
  all_goals exact absurd h (by decide +kernel)

/-! #### Events of groups and cores -/

/-- A result on its way to `v1` of lane 0 and `s1`, with a fault or not, held or not. -/
def late (f : Option (Nat × Nat × W64)) : Pend :=
  { pc := 0, lane := some 0, lanes := [(0, 0)], writes := [(.vec 0 1, some 7), (.sca 1, some 9)], flags := 1, fault := f }
def rigLate (f : Option (Nat × Nat × W64)) : State := rig.modGroup 0 (fun g => { g with pend := [late none, late f, late none] })

theorem witness_ResultsReturn : ∀ f ∈ [none, some (4, 0, 8)], let g := (rigLate f).group 0
    let e := late f
    g.pend = [late none] ++ e :: [late none] ∧ e.held = false ∧ e.access = none ∧ e.sweep = none ∧ e.fault = f ∧ g.resident = true ∧
    g.scout = false ∧ (e.writes.map Prod.fst).Nodup ∧ e.lanes = [(0, 0)] ∧ (g.lane 0).issued = 0 ∧
    (g.lane 0).lst = .running ∧ (g.lane 0).tx = none := by decide +kernel

/-- Core 0 and die 0 hold one dirty byte of the line at 0x40000000, which die 0 owns, and die 3 a copy. -/
def lineNo : Nat := 0x40000000 / 128
def dirtyLine : Line := { data := 5, held := 1, dirty := 1 }
def rigLines : State := { rig with l1 := [(lineNo * 256, dirtyLine)], l2 := [(lineNo * 8, dirtyLine), (lineNo * 8 + 3, dirtyLine)] }

theorem witness_WriteBacks : rigLines.l1Line 0 lineNo = dirtyLine ∧ dirtyLine ≠ Line.none ∧
    isHbm (lineNo * 128) = true ∧ rigLines.ownerDie (lineNo * 128) = dieOfCore 0 ∧ dirtyLine.isDirty 0 = true ∧
    rigLines.l2Line 0 lineNo = dirtyLine ∧ rigLines.HomeTrue (lineNo * 128) ∧ rigLines.ownerDie (lineNo * 128) ≠ 3 ∧
    rigLines.l2Line 3 lineNo = dirtyLine ∧ dirtyLine.dirty ≠ 0 :=
  ⟨by decide +kernel, by decide +kernel, by decide +kernel, by decide +kernel, by decide +kernel, by decide +kernel,
    by unfold State.HomeTrue; decide +kernel, by decide +kernel, by decide +kernel, by decide +kernel⟩

/-- Every lane of group 0 has exited; group 1 of its team has ended or runs on. -/
def rigDone (ended : Bool) : State :=
  { rig with
    groups := [(0, { group0 with lanes := (List.range 16).map (fun l => (l, { lst := .exited })) }),
      (1, { group0 with gid := 1, part := 1, ended := ended, resident := !ended })]
    teams := [(0, { team0 with groups := [0, 1] })] }
def estate0 : Estate := ⟨0, 0, 3, 9, [7], 0, 0, [], false, 0, 0, 0, 0, .spill⟩
def rigScout : State :=
  { rig with
    groups := rig.groups ++ [(1, { group0 with scout := true, scoutIssues := 4096 })]
    teams := [(0, { team0 with scout := some 1 })] }

theorem witness_GroupEnds :
    (∀ b ∈ [true, false], let s := rigDone b
      let g := s.group 0
      g.resident = true ∧ g.ended = false ∧ g.scout = false ∧ g.width ≠ 0 ∧ (∀ l < g.width, (g.lane l).lst = .exited) ∧
      g.pend = [] ∧ g.wait ≠ .killed ∧ (s.ctx g.ctx).isOpen = true ∧ (s.ctx g.ctx).inc = g.inc ∧
      (∀ e ∈ (s.core g.core).queue, e.group ≠ 0) ∧ (s.group 1).ended = b ∧ (s.team 0).groups = [0, 1]) ∧
    ((rig.tree 0).live = true ∧ (rig.tree 0).complete = false ∧ 1 < (rig.tree 0).count) ∧
    (estate0.slots ≠ [] ∧ rig.findEstate 0 0 3 9 = none ∧ rig.storeUsed 0 + estate0.bytes ≤ (rig.core 0).store) ∧
    ((rigScout.group 1).scout = true ∧ (rigScout.group 1).scoutOver = true ∧ (rigScout.team 0).scout = some 1) := by
  decide +kernel

theorem witness_TokensAndLimits : ((rig.modDie 7 (fun d => { d with hot := true })).die 7).hot = true ∧
    State.reset.accPrio 0 = none ∧ rig.accPrio 0 = some 0 := by decide +kernel

/-! #### Queues, launches, admission -/

/-- An entry of 64 bytes, and the rig with it at the head of queue 0, in a run state. -/
def entry (type flags : Nat) (body : List Byte) : List Byte :=
  leBytes 8 (type + 256 * flags) ++ body ++ List.replicate (56 - body.length) 0
def rigHead (st : EntryState) (e : List Byte) : State :=
  { rig with ctxs := [(0, { ctx0 with queues := [(0, { packet := [e], state := st })] })] }

/-- Queue 0 has a chain of two entries pending, of which one, at an address, cannot be read. -/
def rigTorn (at_ : Nat) : State :=
  { rig with
    mem := words (tables ++ [(0x8300, 0x1040), (0x8308, 0x10008), (0x8318, 2), (0x40001040, 256)])
    poison := [(at_ / 128, some 0)] }

theorem witness_QueueSubmission : (rig.qOn 0 0 = true ∧ rig.qOn 0 63 = false ∧ (rig.ctx 0).used = true ∧
      (rig.ctx 1).used = false ∧ (rig.ctx 0).desc % 4096 = 0 ∧ rig.noRoute (rig.ctx 0).desc = false) ∧
    (rig.serves 0 = true ∧ (rig.ctx 0).running = true ∧ ((rig.ctx 0).queue 0).state = .idle ∧ ((rig.ctx 0).queue 0).packet = []) ∧
    (∃ u, rig.readChain 0 0 (min (rig.qWr 0 0 - rig.qRd 0 0) (2 ^ rig.qSize 0 0)) (rig.qRd 0 0) [] =
      (u, .whole [List.replicate 64 0])) ∧
    (∃ u, rig.packetOk 0 [List.replicate 64 0] = (u, true)) ∧ (∃ u, rig.packetOk 0 [entry 9 0 []] = (u, false)) ∧
    (∃ u, (rigTorn 0x40001040).readChain 0 0 (min ((rigTorn 0x40001040).qWr 0 0 - (rigTorn 0x40001040).qRd 0 0)
      (2 ^ (rigTorn 0x40001040).qSize 0 0)) ((rigTorn 0x40001040).qRd 0 0) [] = (u, .broken [] 0x17)) ∧
    (∃ u, (rigTorn 0x40001080).readChain 0 0 (min ((rigTorn 0x40001080).qWr 0 0 - (rigTorn 0x40001080).qRd 0 0)
      (2 ^ (rigTorn 0x40001080).qSize 0 0)) ((rigTorn 0x40001080).qRd 0 0) [] = (u, .broken [entry 0 1 []] 0x17)) ∧
    (∀ n ∈ [0x40001040, 0x40001080], (rigTorn n).qOn 0 0 = true ∧ (rigTorn n).serves 0 = true) :=
  ⟨by decide +kernel, by decide +kernel, pair_of (by decide +kernel), pair_of (by decide +kernel), pair_of (by decide +kernel),
    pair_of (by decide +kernel), pair_of (by decide +kernel), by decide +kernel⟩

/-- A body of an address, a value and a condition. -/
def body (a v k : Nat) : List Byte := leBytes 8 a ++ leBytes 8 v ++ [BitVec.ofNat 8 k]

def rigEntry (type a v k : Nat) : State := rigHead .ready (entry type 0 (body a v k))
/-- The line of 0x40000700 is poisoned. -/
def rigSour : State := { rigEntry 5 0x700 1 0 with poison := [(0x40000700 / 128, some 0)] }

/-- Address 0x40020000 lies in peer memory, and no link is up. -/
def rigFar : State :=
  { rigEntry 5 0x40020000 1 0 with mem := words [(0x1000, 0x2003), (0x2000, 0x3003), (0x3008, 0x4003), (0x4000, 0x5003),
      (0x5100, 0x290C00000000000D)], portsDown := List.range 24 }

theorem witness_QueueEntries :
    ((∀ t ∈ [3, 4, 5], (rigEntry t 0x701 1 0).starts 0 0 t = some (entry t 0 (body 0x701 1 0)) ∧
        field (entry t 0 (body 0x701 1 0)) 8 8 % 8 ≠ 0) ∧
      rigFar.starts 0 0 5 = some (entry 5 0 (body 0x40020000 1 0)) ∧
      (rigFar.devXlat 0 .rw 0x40020000 8).2.toOption = some 0xC000000000000 ∧
      (rigFar.devXlat 0 .rw 0x40020000 8).1.noRoute 0xC000000000000 = true) ∧
    ((rigHead .ready (entry 0 0 [])).starts 0 0 0 = some (entry 0 0 []) ∧
      (∀ p ∈ [(3, 0x700), (3, 0x80000000), (4, 0x700), (4, 0x80000000), (5, 0x700), (5, 0x80000000)],
        (rigEntry p.1 p.2 1 0).starts 0 0 p.1 = some (entry p.1 0 (body p.2 1 0)) ∧
        field (entry p.1 0 (body p.2 1 0)) 8 8 = p.2 ∧ entryNotify (entry p.1 0 (body p.2 1 0)) = false) ∧
      rigSour.starts 0 0 5 = some (entry 5 0 (body 0x700 1 0))) ∧
    (let s := rigHead .wait (entry 4 0 (body 0x700 1 1))
     ((s.ctx 0).queue 0).state = .wait ∧ ((s.ctx 0).queue 0).packet.head? = some (entry 4 0 (body 0x700 1 1)) ∧ s.serves 0 = true) ∧
    (∀ p ∈ [(3, Need.write), (5, .rw)], let x := (rigEntry p.1 0x700 1 0).devXlat 0 p.2 0x700 8
      x.2.toOption = some 0x40000700 ∧ x.1.poisoned 0x40000700 = false ∧ x.1.noRoute 0x40000700 = false ∧
      x.1.HomeTrue 0x40000700 ∧ x.1.ownerDie 0x40000700 = 0 ∧
      ((rigEntry p.1 0x80000000 1 0).devXlat 0 p.2 0x80000000 8).2.toOption = none) ∧
    ((rigSour.devXlat 0 .rw 0x700 8).2.toOption = some 0x40000700 ∧ (rigSour.devXlat 0 .rw 0x700 8).1.poisoned 0x40000700 = true) ∧
    (((rigEntry 4 0x700 1 0).devRead 0 0x700 8).2.toOption = some (List.replicate 8 0) ∧
      ((rigEntry 4 0x80000000 1 0).devRead 0 0x80000000 8).2.toOption = none) := by unfold State.HomeTrue; decide +kernel

/-- A kernel of one group, and the launch of it. -/
def kernel0 : Kernel := { code := 0x2100, arr := List.replicate 8 0, inherit := List.replicate 128 0 }
def launchBody (code : Nat) : List Byte := leBytes 8 code ++ leBytes 8 0 ++ leBytes 8 1
def rigGraph (complete : Bool) : State :=
  { rigHead (.graph 0x3000 (leBytes 10 65535) 0) (entry 2 0 (leBytes 8 0x3000)) with
    trees := [(0, { live := true, complete := complete, kind := 1 })] }

theorem witness_LaunchesAndGraphs :
    (∀ code ∈ [0x2100, 0x2140], (rigHead .ready (entry 1 0 (launchBody code))).starts 0 0 1 = some (entry 1 0 (launchBody code))) ∧
    (∃ u, rig.kernelAt 0 0x2100 = (u, some kernel0)) ∧ (∃ u, rig.kernelAt 0 0x2140 = (u, none)) ∧
    rig.refuses kernel0 = false ∧ { rig with featAcc := 0 }.refuses { kernel0 with inherit := [1] } = true ∧
    (rigHead .ready (entry 2 0 (leBytes 8 0x3000))).starts 0 0 2 = some (entry 2 0 (leBytes 8 0x3000)) ∧
    (∃ u, rig.devRead 0 0x3000 128 = (u, .ok (leBytes 16 0x2100 ++ leBytes 112 1))) ∧
    (let n := leBytes 16 0x2100 ++ leBytes 112 1
     field n 0 8 = 0x2100 ∧ field n 65 1 = 0 ∧ n.length = 128 ∧ recordOk (n.take 56) kernel0.phase = true ∧
       field n 64 1 ≤ 1 ∧ zeroField n 66 62 = true) ∧
    (let s := rigGraph true
     ((s.ctx 0).queue 0).state = .graph 0x3000 (leBytes 10 65535) 0 ∧ s.serves 0 = true ∧ (s.tree 0).complete = true ∧
       s.treePhase 0 = none ∧ ((s.ctx 0).queue 0).packet ≠ [] ∧
       entryNotify (((s.ctx 0).queue 0).packet.headD []) = false) ∧
    successor (leBytes 10 65535) 0 = 65535 ∧ successor (leBytes 10 3) 0 = 3 :=
  ⟨by decide +kernel, pair_of (by decide +kernel), pair_of (by decide +kernel), by decide +kernel, by decide +kernel,
    by decide +kernel, ok_eq (by decide +kernel), by decide +kernel⟩

/-- A launch of two teams of which none is admitted, alone on the machine. -/
def rigLaunch : State :=
  { rig with
    launches := [(0, { live := true, kernel := { kernel0 with nargs := 2 }, args := 0x3000, teams := 2 })]
    teams := []
    groups := [] }
def served0 : State := rigLaunch.modCtx 0 (fun x => { x with served := x.served.filter (fun q => q != 0) ++ [0] })
/-- A launch whose tree, of a kind, is complete holds phase slot 15, whose lines are high on every die; queue 0 has an
entry in hand. -/
def rigPhase (kind : Nat) : State :=
  { rigHead (.launch 0) (entry 1 0 (launchBody 0x2100)) with
    launches := [(0, { live := true, teams := 1, admitted := 1, phaseSlot := some 15 })]
    trees := [(0, { live := true, complete := true, kind := kind })]
    dies := (List.range 8).map (fun d => (d, { phases := [(15, { used := true, extra := d })] })) }

theorem witness_AdmissionAndPhases :
    (rigLaunch.chooses 0 255 = true ∧ ((served0.wids (rigLaunch.launch 0) 0).2.toOption =
        some ((List.range 16).map (fun i => BitVec.ofNat 64 i)) ∧
      ((served0.wids (rigLaunch.launch 0) 0).1.argWords (rigLaunch.launch 0)).2.toOption = some [0x2100, 0] ∧
      ((((served0.wids (rigLaunch.launch 0) 0).1.argWords (rigLaunch.launch 0)).1.room (rigLaunch.launch 0)
        ((List.range 16).map (fun i => BitVec.ofNat 64 i)) 255).map Prod.fst) = some [1020])) ∧
    (∀ k ∈ [0, 1], let s := rigPhase k
      s.launches.find? (fun l => l.2.live && l.2.phaseSlot == some 15) = some (0, s.launch 0) ∧
      s.phaseHigh 15 = true ∧ (∀ p ∈ s.launches, p.2.waiting = false) ∧
      (∀ p ∈ s.launches, p.1 ≠ 0 → p.2.tree = (s.launch 0).tree → p.2.phaseSlot = none) ∧
      (s.tree (s.launch 0).tree).complete = true ∧ (s.tree (s.launch 0).tree).kind = k ∧
      ((s.ctx 0).queue 0).packet ≠ []) := by decide +kernel

/-- Records held back, `n` records written, and mailboxes with an entry. -/
def rigRecords (n : Nat) (held : List (List Byte)) : State := rig.modCtx 0 (fun x => { x with cqCount := n, heldRecs := held })
def rec0 : List Byte := List.replicate 32 1
def rigMail (fw v : Nat) : State := { rig with mail := [(fw, { entries := [⟨BitVec.ofNat 64 v, 0, 0, 1, 0⟩] })] }

/-- A context that is being destroyed has one record held and nothing else left. -/
def rigGoing : State := (rigRecords 0 [rec0]).modCtx 0 (fun x => { x with destroying := true })
/-- A group's entry, of the incarnation that runs or of another. -/
def rigNote (inc : Nat) : State := { rig with mail := [(3, { entries := [⟨7, 0, inc, 0, 0⟩] })] }

theorem witness_CompletionAndMail :
    (((rigRecords 0 [rec0]).ctx 0).heldRecs = [rec0] ∧ (rigRecords 0 [rec0]).cqFull 0 = false ∧
      (rigRecords 4096 []).cqFull 0 = true ∧ (rigRecords 4095 []).cqFull 0 = false ∧
      ((rigRecords 4095 []).ctx 0).heldRecs = [] ∧ ((rigRecords 0 [rec0]).ctx 0).destroying = false ∧
      (rig.ctx 0).desc % 4096 = 0 ∧ rig.noRoute (rig.ctx 0).desc = false ∧ (rig.ctx 0).heldRecs = []) ∧
    ((rigRecords 4095 []).devWrite 0 (0x100000 + 32 * 4095) rec0).2.toOption = some () ∧
    (∀ s ∈ [rigRecords 0 [rec0], rigGoing], (s.devWrite 0 0x100000 rec0).2.toOption = some () ∧ s.cqFull 0 = false) ∧
    ((rigGoing.ctx 0).destroying = true ∧ (rigGoing.ctx 0).kills = [] ∧ (rigGoing.ctx 0).held = none ∧
      (rigGoing.ctx 0).reclaims = []) ∧
    ((rigMail 3 0x10000).mail.get Mailbox.none 3).entries = [⟨0x10000, 0, 0, 1, 0⟩] ∧
    rig.bootStat = 1 ∧ ((rigMail 7 5).mail.get Mailbox.none 7).entries = [⟨5, 0, 0, 1, 0⟩] ∧
    (∀ n ∈ [0, 1], ((rigNote n).mail.get Mailbox.none 3).entries = [⟨7, 0, n, 0, 0⟩]) ∧ (rig.ctx 0).inc ≠ 1 := by decide +kernel

/-- Two contexts of which the second has no slice; a team asked to stop, saved, or in a handler too long. -/
def rigSlices : State := { rig with ctxs := [(0, ctx0), (1, { ctx0 with running := false })] }
def rigPreempt (tx : Bool) : State := (if tx then rigTx else rig).modTeam 0 (fun t => { t with preempt := true })
def rigSaved : State :=
  { rig with teams := [(0, { team0 with saved := true, savedIn := [(0, 0, 64)] })], groups := [(0, { group0 with resident := false })]
             launches := [(0, { live := true, kernel := kernel0, teams := 1, admitted := 1 })] }
/-- Every slot of the core's vault holds a save of a team of a context. -/
def rigSlots (ctx : Nat) : State :=
  { rigPreempt false with teams := [(0, { team0 with preempt := true }),
      (1, { team0 with groups := [], saved := true, ctx := ctx, savedIn := (List.range (rig.core 0).slots).map (fun k => (0, k, 64)) })] }
def rigOverrun : State := (rigPreempt false).modGroup 0 (fun g => { g with gsw := 0x800000, maskedIssues := 65537 })

theorem witness_Preemption :
    (∀ s ∈ [rig, rigSlices], (s.ctx 0).used = true ∧ (s.ctx 0).running = true ∧ (s.ctx 0).midPacket = false) ∧
    rig.ctxs.filter (fun p => p.1 != 0 && p.2.used) = [] ∧
    (rigSlices.ctxs.filter (fun p => p.1 != 0 && p.2.used)).find? (fun p => !p.2.running) = some (1, { ctx0 with running := false }) ∧
    (∀ b ∈ [true, false], let s := rigPreempt b
      let tm := s.team 0
      tm.live = true ∧ tm.preempt = true ∧ tm.saved = false ∧ tm.groups = [0] ∧ (s.ctx tm.ctx).isOpen = true ∧
      (s.ctx tm.ctx).inc = tm.inc ∧ (∀ k ∈ tm.groups, s.drained (s.group k) = true) ∧
      s.cores.any (fun x => x.2.queue.any (fun e => e.team == 0)) = false ∧ tm.scout = none ∧
      ((s.group 0).lane 0).tx.isSome = b) ∧
    (((rigPreempt false).core 0).slots ≠ 0 ∧ (rigPreempt false).slotTeams 0 0 = [] ∧
      (((rigPreempt false).modCore 0 (fun x => { x with slots := 0 })).core 0).slots = 0) ∧
    ((∀ s ∈ [rigSlots 0, rigSlots 1], (s.team 0).preempt = true ∧ s.drained (s.group 0) = true ∧
        ∀ k < (s.core 0).slots, s.slotTeams 0 k ≠ []) ∧
      (∀ k < ((rigSlots 0).core 0).slots, (∀ p ∈ (rigSlots 0).slotTeams 0 k, p.2.ctx = 0 ∧ p.2.inc = 0) ∧
        (rigSlots 0).slotUse 0 k + (rigSlots 0).saveSize 0 0 ≤ 2097152) ∧
      ∀ k < ((rigSlots 1).core 0).slots, ∃ p ∈ (rigSlots 1).slotTeams 0 k, p.2.ctx ≠ 0) ∧
    (rigSaved.restorePlan 0 5 = some [20] ∧ (rigSaved.team 0).groups.Nodup ∧ (rigSaved.team 0).holdsAcc = true ∧
      (rigSaved.team 0).cluster = false ∧ rigSaved.unended 0 = [0]) ∧
    ((rigOverrun.team 0).live = true ∧ (rigOverrun.team 0).preempt = true ∧ (rigOverrun.group 0).tm = true ∧
      (rigOverrun.group 0).wait ≠ .killed ∧ 65536 < (rigOverrun.group 0).maskedIssues) := by
  refine ⟨by decide +kernel, by decide +kernel, by decide +kernel, by decide +kernel, by decide +kernel, by decide +kernel,
    by decide +kernel, by decide +kernel⟩

/-- A move of tile 16 to tile 17 that has completed `n` steps, asked for by group 0. -/
def move0 (n : Nat) : MoveRec := ⟨0, 0, 0, 0x40000000, 0x40010000, 0x100000, 0x110000, n, some 0, false, false⟩
def rigMoving (n : Nat) : State :=
  { rig with moving := [move0 n], groups := [(0, { group0 with pend := [moveEntry 0 [(0, 0)] (.s 1) 0x40000000] })] }

theorem witness_TileMoves : rig.policyMay 0 0x40000000 0x40020000 = true ∧
    (∀ n ∈ [1, 3, 5], (rigMoving n).moveAt 0 n = some (move0 n) ∧ (rigMoving n).l1 = [] ∧ (rigMoving n).l2 = []) ∧
    (rigMoving 3).Canonical ∧
    (((rigMoving 5).group 0).pend = [] ++ moveEntry 0 [(0, 0)] (.s 1) 0x40000000 :: [] ∧ (moveEntry 0 [(0, 0)] (.s 1) 0x40000000).held = true ∧ (moveEntry 0 [(0, 0)] (.s 1) 0x40000000).sweep = none ∧
      (moveEntry 0 [(0, 0)] (.s 1) 0x40000000).tag = (move0 5).f ∧ (move0 5).group = some 0) ∧
    (rig.markAt 0 0x40040000 = some 0x40030000 ∧ (rig.markAt 0 0x40030000).isSome = true ∧
      (rig.follow 0 3 0x40030000).1 / 65536 = 0x40000000 / 65536) := by
  refine ⟨by decide +kernel, by decide +kernel, ?_, by decide +kernel, by decide +kernel⟩
  show Memory.wf (rigMoving 3).mem = true
  decide +kernel

/-- Slot 0 of the call ring asks for a service, with the request word of lane 0. -/
def rigAsk (svc a : Nat) : State :=
  { rig with
    ctxs := [(0, { ctx0 with slots := [(0, { used := true, svc := svc, act := [0], req := [BitVec.ofNat 64 a] })] })]
    mem := words (tables ++ dataWords ++ [(0x40020280, 1)]) }

theorem witness_FirmwareServices :
    (∀ p ∈ [(1110, 0x40040000), (1110, 0x40030000), (1110, 0), (1111, 0x40030008), (1111, 0), (1100, 0x4000), (1100, 4),
      (1101, 0x4000)], provided 1023 p.1 = true ∧ (rigAsk p.1 p.2).asks 0 0 p.1 = true ∧ (rigAsk p.1 p.2).askWord 0 0 = p.2) ∧
    (∀ p ∈ [(1024, 0x700), (1536, 0x4300)], (rigAsk p.1 p.2).asks 0 0 p.1 = true) ∧
    (rig.markAt 0 0x40040000).isSome = true ∧ (rig.markAt 0 0x40030000).isSome = true ∧ rig.markAt 0 0 = none ∧
    (∃ u, (rigAsk 1100 0x4000).exportEstates 0 0x4000 = (u, 0)) ∧ (∃ u, (rigAsk 1100 4).exportEstates 0 4 = (u, 2)) ∧
    (∃ u, (rigAsk 1101 0x4000).importEstates 0 0 0x4000 = (u, 3)) ∧ (∃ u, (rigAsk 1536 0x4300).attest 0 0x4300 = (u, 0)) ∧
    (List.replicate 32 (0 : Byte)).length = 32 ∧ rig.meas.length = 256 :=
  ⟨by decide +kernel, by decide +kernel, by decide +kernel, by decide +kernel, by decide +kernel, pair_of (by decide +kernel),
    pair_of (by decide +kernel), pair_of (by decide +kernel), pair_of (by decide +kernel), by decide +kernel, by decide +kernel⟩

/-- An armed trigger that a write has fired, and a sieve window of two entries. -/
def trig0 : Trigger := { live := true, armed := true, record := leBytes 16 0x2100 ++ leBytes 40 1, fired := [2 ^ 63] }
def rigTrig : State := { rig with triggers := [(0, trig0)] }
def sieve0 (seq : Nat) (armed : Bool) : Sieve :=
  { base := 0x10000, pages := [(0, 0x40010000)], armReq := true, armed := armed, seq := seq, len := 2, k := 1, sum := 0x8000,
    written := List.range 8 }
def rigSieve (w : Sieve) : State := { rig with sieves := [(0, w)] }

theorem witness_SievesAndTriggers :
    (provided 1023 1000 = true ∧ (rigAsk 1000 0x4100).asks 0 0 1000 = true ∧
      (∃ u, (rigAsk 1000 0x4100).armTrigger 0 0x4100 = (u, 0)) ∧ ∃ u, (rigAsk 1000 4).armTrigger 0 4 = (u, 3)) ∧
    ((rigTrig.triggers.get Trigger.none 0) = trig0 ∧ trig0.fired = 2 ^ 63 :: [] ∧ trig0.phnum = 65535 ∧
      (∃ u, { rigTrig with triggers := rigTrig.triggers.set Trigger.none 0 { trig0 with fired := [], live := false } }.kernelAt 0
        (BitVec.ofNat 64 (field trig0.record 0 8)) = (u, some kernel0))) ∧
    (((rigSieve (sieve0 0 false)).sieves.get Sieve.none 0).armReq = true ∧
      (∃ h, (rigSieve (sieve0 0 false)).sieveBytes (sieve0 0 false) 0 64 = some h ∧ field h 0x18 4 = 9 ∧ sieveHeaderOk h = true) ∧
      (rig.sumPlace 0 0x8000).2.isSome = true) ∧
    ((sieve0 9 true).full = true ∧ (rigSieve (sieve0 9 true)).sieveBytes (sieve0 9 true) 4096 8 = some (List.replicate 8 0)) ∧
    (∃ x ∈ [0x7FC00000, 0x3F800000], (FVal.ofBits .f32 x).isNan = false ∧ x < 2 ^ 32) :=
  ⟨⟨by decide +kernel, by decide +kernel, pair_of (by decide +kernel), pair_of (by decide +kernel)⟩,
    ⟨by decide +kernel, by decide +kernel, by decide +kernel, pair_of (by decide +kernel)⟩,
    ⟨by decide +kernel, ⟨_, rfl, by decide +kernel, by decide +kernel⟩, by decide +kernel⟩,
    ⟨by decide +kernel, by decide +kernel⟩, by decide +kernel⟩

/-! #### Kills, errors, debugging, the host -/

/-- A context with a kill taken, whose sequence numbers are `k` and `r`; and one whose kill waits for wrap-around. -/
def rigKill (k r : Nat) : State := rig.modCtx 0 (fun x => { x with kills := [⟨4, 0⟩, ⟨5, 0⟩], kseq := k, rseq := r })
def rigHeld (k r : Nat) : State := rig.modCtx 0 (fun x => { x with held := some (2, []), kseq := k, rseq := r })

theorem witness_Kills : (∀ p ∈ [(4094, 0), (4095, 0)], let x := (rigKill p.1 p.2).ctx 0
      x.kills = [⟨4, 0⟩, ⟨5, 0⟩] ∧ x.used = true ∧ x.held = none ∧ x.kseq = p.1 ∧ x.rseq = p.2) ∧
    (4094 + 1 ≤ 0 + 4095 ∧ ¬(4095 + 1 ≤ 0 + 4095)) ∧
    (((rigHeld 4096 1).ctx 0).held = some (2, []) ∧ ((rigHeld 4096 1).ctx 0).kseq ≤ ((rigHeld 4096 1).ctx 0).rseq + 4095) := by
  decide +kernel

/-- Old incarnations to reclaim, and a team that is to be seated again on another core. -/
def rigReclaim (rs : List (Nat × Nat)) (d : Bool) : State := rig.modCtx 0 (fun x => { x with reclaims := rs, destroying := d })
def rigAgain : State :=
  { rigLaunch with
    launches := [(0, { live := true, kernel := { kernel0 with nargs := 2 }, args := 0x3000, teams := 1, admitted := 1 })]
    teams := [(0, { live := true, relaunched := true, wids := (List.range 16).map (BitVec.ofNat 64), args := [0x2100, 0] })] }

theorem witness_ReclaimAndRelaunch :
    takeOrphan ((rigReclaim [(3, 0), (4, 2)] false).ctx 0).reclaims = some [(3, 0), (4, 1)] ∧
    (∀ d ∈ [true, false], let x := (rigReclaim [(3, 0)] d).ctx 0
      x.reclaims = [(3, 0)] ∧ x.used = true ∧ x.destroying = d ∧ x.kills = [] ∧ x.held = none ∧ x.heldRecs = [] ∧
      (rigReclaim [(3, 0)] d).estates = []) ∧
    (((rigReclaim [(3, 0)] true).modCtx 0 (fun x => { x with heldRecs := [rec0] })).ctx 0).heldRecs ≠ [] ∧
    (rigAgain.mayRelaunch 0 9 = true ∧ rigAgain.plan (rigAgain.launch 0).kernel (List.range 1) 9 = some [36]) := by decide +kernel

/-- A die with corrected errors of way 3 noted, a bad region, and a team marked `.relaunch`. -/
def rigErr (n : Nat) : State := rig.modDie 0 (fun d => { d with corrected := [(3, List.replicate n 0)] })
def rigBad : State := { rig with regionErrs := [(40, 16)], due := [40], frameProt := [(1, some 1)], mem := [] }
/-- The same of way 3 of core 0's L1. -/
def rigErr1 (n : Nat) : State := rig.modCore 0 (fun x => { x with l1Errs := [(3, List.replicate n 0)] })
def rigRelaunch (r d : Bool) : State := rig.modTeam 0 (fun t => { t with relaunch := r, relaunched := d })

theorem witness_Errors : ((rigLines.l1Copies 0 lineNo).any (fun l => l.dirty != 0) = true ∧
      (rig.l1Copies 0 lineNo).all (fun l => l.dirty == 0) = true ∧ rigLines.l1InWay 0 (wayOf (rigLines.l1Copies 0 lineNo) 3) = [lineNo]) ∧
    (rigLines.l2Line 0 lineNo).dirty ≠ 0 ∧ 0 ∈ rig.workOn 0 ∧
    (∀ n ∈ [6, 7], ((((rigErr n).die 0).corrected.get [] (0 * 16 + 3)).filter (fun t =>
      decide ((rigErr n).steps < t + 2 ^ 36))).length = n ∧
      ((((rigErr1 n).core 0).l1Errs.get [] 3).filter (fun t => decide ((rigErr1 n).steps < t + 2 ^ 36))).length = n) ∧
    (rigBad.corrects 40 = true ∧ rigBad.bootStat = 1 ∧ (rig.partUse 3).1 < 16 ∧
      (((rig.modCore 0 (fun x => { x with partsOut := [3] })).core 0).partsOut = [3])) ∧
    isFar (lineNo * 128) = false ∧
    (rigBad.mustRetire 40 = true ∧ regionRun rigBad.allLeaves 40 = (40 * 65536, 65536) ∧ 
      rigBad.maySpare rigBad.allLeaves (40 * 65536) (50 * 65536) 65536 = true ∧ rigBad.moving = []) ∧
    (∀ p ∈ [(true, false), (false, false), (true, true)], (rigRelaunch p.1 p.2).alive 0 = true ∧
      ((rigRelaunch p.1 p.2).team 0).relaunch = p.1 ∧ ((rigRelaunch p.1 p.2).team 0).relaunched = p.2) := by decide +kernel

/-- Context 0 allows debugging; partition 0 is stopped, with lane 0 of its group stopped and its group stepped. -/
def rigDebug : State := { rig with ctxs := [(0, { ctx0 with debug := true })] }
def rigStopped : State :=
  { rigDebug with
    steps := 5
    groups := [(0, { group0 with gsw := 0x400000, dbgStop := true, lanes := [(0, { lst := .parked, dbgStop := some .waiting, dbgPart := 0 })] })]
    parts := [(0, { stopped := true, period := 64, sampleNext := 0 })] }

/-- The context has a trace buffer; the firmware has not booted. -/
def rigTraced : State := rigStopped.modCtx 0 (fun x => { x with trace := 0x6000, traceLen := 64 })
def rigUnbooted : State := { rigStopped with bootStat := 2 }

theorem witness_DebugEvents : ((rigDebug.part 0).stopped = false ∧
      (∀ g ∈ rigDebug.residents 0, rigDebug.debugOk g.2.ctx = true ∧ g.2.scout = false) ∧ rigDebug.residents 0 = [(0, group0)]) ∧
    ((rigStopped.part 0).stopped = true ∧ (∀ g ∈ rigStopped.residents 0, rigStopped.group g.1 = g.2) ∧
      (rigStopped.group 0).resident = true ∧ rigStopped.bootStat = 1 ∧ (rigStopped.part (rigStopped.group 0).part).stopped = true ∧
      ((rigStopped.group 0).lane 1).lst = .running ∧ ((rigStopped.group 0).lane 0).dbgStop.isSome = true) ∧
    (rigStopped.debugOk 0 = true ∧ rig.debugOk 0 = false ∧
      ((rig.modPart 0 (fun p => { p with stopped := true })).part 0).stopped = true) ∧
    ((rigStopped.group 0).ss = true ∧ (rigStopped.group 0).dbgStop = true ∧ (rigStopped.group 0).records = [] ∧
      (rigStopped.group 0).wait.unwritten = false ∧ rigStopped.stepEvents.contains 0 = false) ∧
    ((rigStopped.part 0).period ≠ 0 ∧ (rigStopped.part 0).sampleNext ≤ rigStopped.steps ∧ rigStopped.moving = []) ∧
    (rigTraced.sampleOf 0 = some 0 ∧ (rigTraced.ctx 0).traceLen.toNat / 32 ≠ 0 ∧ (rigTraced.part 0).period ≠ 0 ∧
      (rigTraced.part 0).sampleNext ≤ rigTraced.steps ∧ rigTraced.bootStat = 1) ∧
    ((rigUnbooted.part (rigUnbooted.group 0).part).stopped = true ∧ (rigUnbooted.group 0).resident = true ∧ rigUnbooted.bootStat ≠ 1) ∧
    ((rigDebug.ctx 0).debug = true ∧ (rigDebug.ctx 0).used = true ∧ rigDebug.ssn ≤ 1 ∧ rigDebug.bootStat = 1 ∧ rigDebug.snaps = []) := by
  decide +kernel

/-- A confidential context whose shared region is the first 64 KiB of its host window. -/
def rigConf : State := { rig with ctxs := [(0, { ctx0 with conf := true, hroLen := 0x10000 })] }

/-- Context 1's descriptor alone in memory. -/
def rigNew : State := { rig with mem := words [(8, 0x9000), (0x9088, 50)] }

/-- Its ROOT maps a page of HBM above the 1 TiB that there is. -/
def rigTables : State :=
  { rig with mem := words [(8, 0x9000), (0x9088, 50), (0x9000, 0xA000), (0xA000, 0xB003), (0xB000, 0xC003), (0xC000, 0xA00001004000001D)] }
/-- The state in which CTX_CREATE looks at the tables of context 1. -/
def createdBy (s : State) : State :=
  { s with ctxs := s.ctxs.set Context.none 1 (contextOf 0x9000 (s.ownBytes 0x9000 4096)), ctxStat := 0 }

theorem bad_tables : (createdBy rigTables).badTables 1 = true := by
  let e : W64 := 0xA00001004000001D
  have leaf : (0xC000, 0, e) ∈ (createdBy rigTables).leafEntries 4 0xA000 0 := by
    simp only [State.leafEntries]
    refine List.mem_flatMap.2 ⟨0, List.mem_range.2 (by decide), ?_⟩
    rw [show Entry.read (3 + 1) ((createdBy rigTables).ownWord (0xA000 + 8 * 0)) = .table 0xB000 by decide +kernel]
    refine List.mem_flatMap.2 ⟨0, List.mem_range.2 (by decide), ?_⟩
    rw [show Entry.read (2 + 1) ((createdBy rigTables).ownWord (0xB000 + 8 * 0)) = .table 0xC000 by decide +kernel]
    refine List.mem_flatMap.2 ⟨0, List.mem_range.2 (by decide), ?_⟩
    rw [show Entry.read (1 + 1) ((createdBy rigTables).ownWord (0xC000 + 8 * 0)) = .leaf e by decide +kernel]
    exact List.mem_singleton.2 rfl
  have mem : (1, 0xC000, 0, e) ∈ (createdBy rigTables).allLeaves := by
    refine List.mem_flatMap.2 ⟨(1, (createdBy rigTables).ctx 1), by decide +kernel, List.mem_map.2 ⟨(0xC000, 0, e), ?_, rfl⟩⟩
    rw [show ((createdBy rigTables).ctx 1).root.toNat = 0xA000 by decide +kernel]
    exact leaf
  have no : (createdBy rigTables).refusesMap e = true := by decide +kernel
  simp only [State.badTables, Bool.or_eq_true]
  exact .inr (List.any_eq_true.2 ⟨_, mem, by rw [no]; rfl⟩)

def bootW : Boot := { meas := List.replicate 256 1, vaults := [(255, 1, 1048576)], domain := 3, routes := [] }

theorem witness_HostControl : (State.reset.featWritten = false ∧ State.reset.ctxStat ≠ 1 ∧ rig.featWritten = true ∧
      rig.brdWritten = false) ∧
    (wctlEn 0 = false ∧ rigDebug.debugOk (wctlCtx 1) = true) ∧
    (rigNew.bootStat = 1 ∧ rigNew.ctxStat ≠ 1 ∧ rigNew.createStatus 1 = (0, 0x9000) ∧ rigNew.createStatus 0 = (4, 0) ∧
      rigNew.createStatus 2 = (2, 0)) ∧
    (rigTables.createStatus 1 = (0, 0x9000) ∧ (createdBy rigTables).badTables 1 = true) ∧
    (createdBy rigNew).badTables 1 = false ∧ State.reset.bootStat ≠ 1 ∧
    ((rig.ctx 0).inHro 0x700 4 false = false ∧ (rig.ctx 0).inHro 0x700 8 false = false ∧ (rig.ctx 0).conf = false ∧
      (rigConf.ctx 0).conf = true ∧ (rigConf.ctx 0).inHro 0x700 4 true = true ∧ (rigConf.ctx 0).inHro 0x700 4 false = true ∧
      (rigConf.ctx 0).inHro 0x10000 4 true = false) ∧
    ((rig.writeBy 0 (fun s a m hit => s.devWalk 0 .write a m hit) 0x700 [1, 2, 3, 4]).2.toOption = some () ∧
      ((rig.modCtx 0 (fun x => { x with hwin := 0x80000000 })).writeBy 0 (fun s a m hit => s.devWalk 0 .write a m hit) 0x80000000 [1]).2.toOption =
        none ∧
      (rig.readBy 0 (fun s a m hit => s.devWalk 0 .read a m hit) 0x700 4).2.toOption = some [0, 0, 0, 0] ∧
      ((rig.modCtx 0 (fun x => { x with hwin := 0x80000000 })).readBy 0 (fun s a m hit => s.devWalk 0 .read a m hit) 0x80000000 1).2.toOption =
        none ∧
      (rig.devWalk 0 .rw 0x700 8).2.toOption = some 0x40000700 ∧ (rig.devWalk 0 .rw 0x700 8).1.poisoned 0x40000700 = false) ∧
    ((0x40000700 : Nat) < 2 ^ 51 ∧ rig.featAcc.testBit 7 = true ∧ (rig.ctx 0).inc = 0 ∧ rig.hasRange 0x40000700 8 = true ∧
      rig.hasRange (2 ^ 40) 8 = false ∧ rig.tileMoves 0x40000700 = false ∧
      (∀ k < 8, rig.poisoned (0x40000700 + k) = false) ∧ (rig.ctx 1).used = false) ∧
    rig.portsDown.contains 23 = false ∧ (State.reset.bootStat = 0 ∧ bootW.meas.length = 256 ∧
      bootW.vaults = [(255, 1, 1048576)]) ∧
    ([(0x5300, (0x290000000013000D : W64))].any (fun w => w.1 % 8 != 0 || !isHbm w.1 || rig.refusesMap w.2) = false ∧
      ({ rig with mem := [] } : State).protClash [(0x5300, 0x290000000013000D)] = false ∧
      ({ rig with mem := [] } : State).txHolds (({ rig with mem := [] } : State).unmaps [(0x5300, 0x290000000013000D)]) = false) := by
  refine ⟨?_, ?_, ?_, ⟨?_, bad_tables⟩, ?_, ?_, ?_, ⟨?_, ?_, ?_, ?_, ?_⟩, ?_, ?_, ?_, ?_⟩ <;> decide +kernel

/-! #### The step, refusal, the invariant -/

/-- An addition stored where the next step fetches. -/
def addI : Instr := .add .s32 false c ⟨.v 1 .plain, .v 2 .plain, .imm 7⟩
def placed (i : Instr) : State := State.reset.withFetchWord 96 (encode i)

theorem witness_StepRunsDecoded :
    ((placed addI).clock.urgent = none ∧ (placed addI).moves = [.issue 0]) ∧
    (rig.clock.urgent = none ∧ rig.moves = [] ∧ ({ rig with steps := 5 } : State).clock.steps % 6 = 0 ∧
      ({ rig with steps := 5 } : State).clock.issueTurn = some 0) ∧
    (∀ bs ∈ [encodeBytes addI, List.replicate 12 0xFF], let s := State.reset.placeWord bs
      let v := s.ringWaits 0
      v.pick 0 = some 0 ∧ (v.group 0).issuePc = some 0 ∧ (∃ u, v.fetch (v.group 0).core (v.group 0).ctx 0 (v.group 0).scout ((v.group 0).fetched 0) =
        (u, .bytes bs)) ∧ (v.group 0).scout = false) ∧
    (decodeBytes 64 (encodeBytes addI)).toOption = some addI ∧ (decodeBytes 64 (List.replicate 12 0xFF)).toOption = none := by
  refine ⟨by decide +kernel, by decide +kernel, fun bs hbs => ?_, by decide +kernel, by decide +kernel⟩
  simp only [List.mem_cons, List.not_mem_nil, or_false] at hbs
  rcases hbs with rfl | rfl
  · exact ⟨by decide +kernel, by decide +kernel, pair_of (by decide +kernel), by decide +kernel⟩
  · exact ⟨by decide +kernel, by decide +kernel, pair_of (by decide +kernel), by decide +kernel⟩

theorem witness_DecodeEncode : (Instr.add .s32 false c (vvv 255 0 1)).wf 64 = true := by decide +kernel

/-- The matrix role alone may not issue a load; a feature is not accepted; a register is not allocated; and a
result is on its way to `v2` under HC. -/
def rigRole : State := rig.modGroup 0 (fun g => { g with role := .matrix })
def rigHc : State := rig.modGroup 0 (fun g => { g with gsw := 0x200000, pend := [{ late none with writes := [(.vec 0 2, none)] }] })
def ldI : Instr := .ld .s32 c ⟨.v 4 .plain, .v 2 .plain, .imm 0⟩

theorem witness_RefusedInstructions :
    (∀ p ∈ [(rigRole, ldI, 1), (({ rig with featAcc := 0 } : State), .estq c ⟨.v 1 .plain, .imm 3, .none⟩, 2), (rig.modGroup 0 (fun g => { g with alloc := 8 }),
      Instr.add .s32 false c (vvv 8 0 0), 3)], let g := p.1.group p.1.cur
      p.2.1.isEvent = false ∧ g.issuePc = some 0 ∧ g.scout = false ∧ calmB p.1 = true ∧ p.1.gateCheck g p.2.1 = some p.2.2) ∧
    (let g := rigHc.group 0
     g.issuePc = some 0 ∧ g.scout = false ∧ rigHc.gateCheck g addI = none ∧ g.hc = true ∧
       (∀ m ∈ g.atMin 0, (guardUnits c m).any g.pending = false) ∧ (∀ m ∈ g.atMin 0, (g.lane m).tx = none) ∧
       0 ∈ g.active addI 0 ∧ (sources addI g (g.active addI 0) 0).any g.pending = true) := by decide +kernel

theorem witness_CanonicalKept : State.reset.Canonical ∧ rig.Canonical ∧ ∃ t, step (placed addI) = .next t := by
  refine ⟨by show Memory.wf _ = true; decide +kernel, by show Memory.wf _ = true; decide +kernel, ?_⟩
  have h : (match step (placed addI) with
    | .next _ => true
    | _ => false) = true := by decide +kernel
  split at h
  · next t ht => exact ⟨t, ht⟩
  · cases h

/-! ### Effects that the spec works out, or worked out by hand from its rules -/

/-- The state after an instruction that answers one. -/
def after (i : Instr) (s : State) : State := match exec i s with
  | .next t => t
  | _ => s
def setV (r x : Nat) (s : State) : State := s.modLane 0 0 (fun l => l.setV r (BitVec.ofNat 32 x))
/-- Register `r` of lane 0 of the current group. -/
def v0 (s : State) (r : Nat) : Nat := (((s.group 0).lane 0).vreg r).toNat

/-- R120: 2^31 − 1 plus 1 wraps, and is clamped with SAT under `.sat`; the source is the destination. -/
theorem test_add_wraps : v0 (after (.add .s32 false c ⟨.v 2 .plain, .v 2 .plain, .imm 1⟩) (setV 2 0x7FFFFFFF rig)) 2 = 0x80000000 ∧
    (let t := after (.add .s32 true c ⟨.v 2 .plain, .v 2 .plain, .imm 1⟩) (setV 2 0x7FFFFFFF rig)
     v0 t 2 = 0x7FFFFFFF ∧ (t.group 0).gsw = 32) := by decide +kernel

/-- R121: −7 divided by 2 is −3 with remainder −1. -/
theorem test_div_truncates : v0 (after (.div .s32 c ⟨.v 1 .plain, .v 2 .plain, .imm 2⟩) (setV 2 0xFFFFFFF9 rig)) 1 = 0xFFFFFFFD ∧
    v0 (after (.rem .s32 c ⟨.v 1 .plain, .v 2 .plain, .imm 2⟩) (setV 2 0xFFFFFFF9 rig)) 1 = 0xFFFFFFFF := by decide +kernel

/-- R123: a shift by the width or more gives zero, or the sign. -/
theorem test_shift_whole_width : v0 (after (.shl .s32 c ⟨.v 1 .plain, .v 2 .plain, .imm 32⟩) (setV 2 0x80000001 rig)) 1 = 0 ∧
    v0 (after (.shr .s32 c ⟨.v 1 .plain, .v 2 .plain, .imm 40⟩) (setV 2 0x80000001 rig)) 1 = 0xFFFFFFFF := by decide +kernel

/-- spec/08, the worked `fma`: v3 = v4 = 1 + 2^−23 and v9 = −1. -/
theorem test_fma_worked :
    (let t := after (.fma false .f32 .rz c ⟨.v 9 .plain, .v 3 .neg, .v 4 .plain⟩)
       (setV 9 0xBF800000 (setV 4 0x3F800001 (setV 3 0x3F800001 rig)))
     v0 t 9 = 0xC0000001 ∧ (t.group 0).gsw.getLsbD 0 = true) ∧
    (fMa .f32 .rn false 0xBF800001 0x3F800001 0xBF800000).bits = 0xC0000001 ∧
    (fMa .f32 .rd false 0xBF800001 0x3F800001 0xBF800000).bits = 0xC0000002 := by decide +kernel

/-- R50, the table of draws. -/
theorem test_draws :
    let x : Core := { avail := 2 }
    x.draw 32 = some { avail := 1, credit := 96 } ∧ { x with avail := 1, credit := 96 }.draw 32 = some { avail := 1, credit := 64 } ∧
    { x with avail := 1, credit := 64 }.draw 96 = some { avail := 0, credit := 96 } ∧
    { x with avail := 0, credit := 96 }.draw 120 = none := by decide +kernel

/-- R85, the example of a chunk: 2^24, 1, 1 and five zeros sum exactly; and R76, the scale of column 77. -/
theorem test_array_examples :
    let e := fun (n : Nat) => FVal.ofBits .f32 n
    (mmaElem ((e 0x4B800000, e 0x3F800000) :: List.replicate 2 (e 0x3F800000, e 0x3F800000) ++ List.replicate 5 (e 0, e 0)) 0).bits =
      0x4B800001 ∧
    ({ width := 32, lanes := [(13, { v := [(50, 7)] })] } : Group).scaleEntry 40 2 77 = 7 := by decide +kernel

/-- R189, the example of a spill: lane 3 of a width-16 group, with its segment at 0x3_0000_0000. -/
theorem test_spill_places : ({ width := 16, seg := 0x300000000 } : Group).stackAddr 0 3 = 0x300000018 ∧
    ({ width := 16, seg := 0x300000000 } : Group).stackAddr 1 3 = 0x300000098 := by decide +kernel

/-- spec/22, the walk worked through: a movable tile's entry, its address, and the entry it forwards by. -/
theorem test_entries_worked : Entry.read 0 0x2F2000123450000D = .leaf 0x2F2000123450000D ∧ pteMov 0x2F2000123450000D = true ∧
    leafPa 0x2F2000123450000D 0x200000040 = 0x1234500040 ∧ pteProt 0x2F2000123450000D = 1 ∧
    Entry.read 0 0x2010000040007001 = .fwd 0x400070000 := by decide +kernel

/-- R149: a byte is extended by its size; R238: the core reads what its store left, and the owning point does not. -/
theorem test_store_then_load :
    let s := after (.stRel .tem .z32 c ⟨.s 4, .s 2, .imm 112⟩) (rig.modGroup 0 (fun g => g.setS 4 0x80FF))
    s.coreByte 0 0 0x40000070 = 0xFF ∧ s.coreByte 0 0 0x40000071 = 0x80 ∧ s.ownByte 0x40000070 = 0 ∧
    ((loadUnits .s8 (.s 5) 0 [0xFF]).map Prod.snd = [0xFFFFFFFFFFFFFFFF] ∧ (loadUnits .z8 (.s 5) 0 [0xFF]).map Prod.snd = [0xFF]) := by
  decide +kernel

/-- R140: `rotu` by 1 gives lane 0 the register of the last lane. -/
theorem test_rotu : v0 (after (.xlane .rotu false c ⟨.v 1 .plain, .v 2 .plain, .imm 1⟩)
    (rig.modLane 0 15 (fun l => l.setV 2 9))) 1 = 9 := by decide +kernel

/-- R204, R62: `trap 5` parks with cause 8 and detail 0x85 at its place. -/
theorem test_trap : (((after (.trap c ⟨.none, .imm 5, .none⟩) rig).group 0).lane 3).lst = .parked ∧
    (((after (.trap c ⟨.none, .imm 5, .none⟩) rig).group 0).lane 3).cause = 0x858 := by decide +kernel

/-- R93: a step fetches and runs the instruction at the issue address. -/
theorem test_first_step : (match step (placed addI) with
    | .next t => v0 t 1 == 7 && decide (((t.group 0).lane 63).pc = 12)
    | _ => false) = true := by decide +kernel

end Sys2Proof.Tests
end

section
/-! PROOF. Integer arithmetic, products and quotients (R118 to R121): the values of integer types, the elements of a
result and its SAT flag, and from them the two statements of O1 and O2. -/

namespace Sys2Proof

/-! ### Widths (R74, R112, R118) -/

theorem IntTy.regs_eq (t : IntTy) : t.regs = 1 ∨ t.regs = 2 := by
  unfold IntTy.regs
  split
  · exact .inr rfl
  · exact .inl rfl

theorem IntTy.bits_mul_slots (t : IntTy) : t.bits * t.slots = 32 * t.regs := by cases t <;> rfl

/-- An element of a wide type fills its registers. -/
theorem IntTy.bits_of_wide {t : IntTy} (h : t.wide = true) : t.bits = 32 * t.regs := by
  revert h
  cases t <;> decide

/-! ### The values of an integer type (R73) -/

theorem IntTy.two_pow_bits (t : IntTy) : 2 ^ t.bits = 2 * 2 ^ (t.bits - 1) :=
  (mul_pow_sub_one (by cases t <;> decide) 2).symm

/-- A type has as many values as words of its width. -/
theorem IntTy.hi_eq (t : IntTy) : t.hi = t.lo + (2 ^ t.bits : Nat) - 1 := by
  rw [IntTy.hi, IntTy.lo, t.two_pow_bits]
  split <;> push_cast <;> ring

/-- A range begins at 0, or is that of two's complement. -/
theorem IntTy.lo_eq (t : IntTy) : t.lo = if t.signed then -(t.hi + 1) else 0 := by
  unfold IntTy.lo IntTy.hi
  cases t.signed <;> simp

theorem IntTy.hi_nonneg (t : IntTy) : 0 ≤ t.hi := by cases t <;> decide

theorem IntTy.val_range (t : IntTy) (x : Nat) : t.lo ≤ t.val x ∧ t.val x ≤ t.hi := by
  have hp := t.two_pow_bits
  have hx := Nat.mod_lt x (Nat.two_pow_pos t.bits)
  rw [hp] at hx
  unfold IntTy.lo IntTy.hi IntTy.val
  rw [hp]
  generalize 2 ^ (t.bits - 1) = p at *
  cases t.signed <;> simp only [Bool.true_and, Bool.false_and, Bool.false_eq_true, decide_eq_true_eq, if_true, if_false]
  · omega
  · split <;> omega

theorem IntTy.val_modEq (t : IntTy) (x : Nat) : t.val x ≡ x [ZMOD (2 ^ t.bits : Nat)] := by
  simp only [IntTy.val, Int.ModEq]
  split <;> simp

@[simp] theorem IntTy.val_mod (t : IntTy) (x : Nat) : t.val (x % 2 ^ t.bits) = t.val x := by
  simp [IntTy.val]

theorem IntTy.wrap_cast (t : IntTy) (v : Int) : (t.wrap v : Int) = v % (2 ^ t.bits : Nat) :=
  Int.toNat_of_nonneg (Int.emod_nonneg _ (by positivity))

theorem IntTy.wrap_lt (t : IntTy) (v : Int) : t.wrap v < 2 ^ t.bits := by
  have h : (t.wrap v : Int) < (2 ^ t.bits : Nat) := t.wrap_cast v ▸ Int.emod_lt_of_pos _ (by positivity)
  exact_mod_cast h

theorem IntTy.wrap_neg_one (t : IntTy) : t.wrap (-1) = 2 ^ t.bits - 1 := by cases t <;> rfl

/-- What is read of a wrapped integer agrees with it in the low bits (R120). -/
theorem IntTy.val_wrap_modEq (t : IntTy) (v : Int) : t.val (t.wrap v) ≡ v [ZMOD (2 ^ t.bits : Nat)] :=
  (t.val_modEq _).trans (by rw [t.wrap_cast]; exact Int.mod_modEq _ _)

/-- An integer in the range of a type is read back from its low bits, since no other one of the range has them. -/
theorem IntTy.val_wrap (t : IntTy) {v : Int} (hv : t.lo ≤ v ∧ v ≤ t.hi) : t.val (t.wrap v) = v := by
  have hr := t.hi_eq
  have hw := t.val_range (t.wrap v)
  have hd : |t.val (t.wrap v) - v| < (2 ^ t.bits : Nat) := abs_lt.mpr ⟨by omega, by omega⟩
  exact sub_eq_zero.mp (Int.eq_zero_of_abs_lt_dvd (t.val_wrap_modEq v).symm.dvd hd)

/-- The exact product of two values of a type, over the number of its words, is in the type's range. -/
theorem IntTy.product_range (t : IntTy) {x y : Int} (hx : t.lo ≤ x ∧ x ≤ t.hi) (hy : t.lo ≤ y ∧ y ≤ t.hi) :
    t.lo * (2 ^ t.bits : Nat) ≤ x * y ∧ x * y < (t.hi + 1) * (2 ^ t.bits : Nat) := by
  have hh := t.hi_nonneg
  have hl := t.lo_eq
  have hn : ((2 ^ t.bits : Nat) : Int) = t.hi + 1 - t.lo := by rw [t.hi_eq]; ring
  rw [hn]
  split at hl <;> rw [hl] at hx hy ⊢
  · have h : |x * y| ≤ (t.hi + 1) * (t.hi + 1) := by
      rw [abs_mul]
      exact mul_le_mul (abs_le.mpr ⟨hx.1, by omega⟩) (abs_le.mpr ⟨hy.1, by omega⟩) (abs_nonneg y) (by omega)
    obtain ⟨h1, h2⟩ := abs_le.mp h
    constructor <;> nlinarith
  · constructor
    · rw [zero_mul]
      exact mul_nonneg hx.1 hy.1
    · nlinarith [hx.1, hx.2, hy.1, hy.2]

/-- A quotient of two values of a type is in its range, but for a division by 0 and that of the least value by −1
(R121). -/
theorem IntTy.tdiv_range (t : IntTy) {x y : Int} (hx : t.lo ≤ x ∧ x ≤ t.hi) (hy : t.lo ≤ y)
    (h0 : y ≠ 0) (hc : ¬(t.signed = true ∧ x = t.lo ∧ y = -1)) : t.lo ≤ x.tdiv y ∧ x.tdiv y ≤ t.hi := by
  have hq : (x.tdiv y).natAbs = x.natAbs / y.natAbs := Int.natAbs_tdiv x y
  have hl := t.lo_eq
  split at hl
  case isTrue hs =>
    rcases eq_or_ne y 1 with rfl | h1
    · rwa [Int.tdiv_one]
    rcases eq_or_ne y (-1) with rfl | h2
    · have : x ≠ t.lo := fun h => hc ⟨hs, h, rfl⟩
      rw [Int.tdiv_neg, Int.tdiv_one]
      omega
    · have : x.natAbs / y.natAbs ≤ x.natAbs / 2 := Nat.div_le_div_left (by omega) (by omega)
      omega
  case isFalse =>
    have h1 : 0 ≤ x.tdiv y := Int.tdiv_nonneg (by omega) (by omega)
    have h2 : x.tdiv y ≤ x := Int.tdiv_le_self y (by omega)
    omega

/-- A remainder stands between 0 and the dividend, so that it is in the range of a type (R121). -/
theorem IntTy.tmod_range (t : IntTy) {x : Int} (hx : t.lo ≤ x ∧ x ≤ t.hi) (y : Int) :
    t.lo ≤ x.tmod y ∧ x.tmod y ≤ t.hi := by
  have hh := t.hi_nonneg
  have hl := t.lo_eq
  have ha : (x.tmod y).natAbs ≤ x.natAbs := (Int.natAbs_tmod x y).trans_le (Nat.mod_le _ _)
  have hp := Int.tmod_nonneg (a := x) y
  have hn := Int.tmod_nonneg (a := -x) y
  rw [Int.neg_tmod] at hn
  split at hl <;> omega

end Sys2Proof

namespace Sys2Proof.Machine

/-! ### The elements of a result (R74, R117) -/

theorem joinElems_lt (w : Nat) (xs : List Nat) (h : ∀ x ∈ xs, x < 2 ^ w) : joinElems w xs < 2 ^ (w * xs.length) := by
  induction xs with
  | nil => simp [joinElems]
  | cons x xs ih =>
    obtain ⟨hx, hxs⟩ := List.forall_mem_cons.mp h
    have hj := ih hxs
    calc x + 2 ^ w * joinElems w xs
        < 2 ^ w * (joinElems w xs + 1) := by rw [mul_add_one]; omega
      _ ≤ 2 ^ w * 2 ^ (w * xs.length) := Nat.mul_le_mul_left _ hj
      _ = 2 ^ (w * (x :: xs).length) := by rw [← pow_add, List.length_cons, mul_add_one, add_comm]

/-- Each element of a joined result stands in its slot. -/
theorem joinElems_slot (w : Nat) (xs : List Nat) (h : ∀ x ∈ xs, x < 2 ^ w) (j : Nat) (hj : j < xs.length) :
    joinElems w xs / 2 ^ (w * j) % 2 ^ w = xs[j] := by
  induction xs generalizing j with
  | nil => simp at hj
  | cons x xs ih =>
    obtain ⟨hx, hxs⟩ := List.forall_mem_cons.mp h
    cases j with
    | zero => simp [joinElems, Nat.mod_eq_of_lt hx]
    | succ j =>
      have hd : joinElems w (x :: xs) / 2 ^ w = joinElems w xs := by
        rw [joinElems, Nat.add_mul_div_left _ _ (Nat.two_pow_pos w), Nat.div_eq_of_lt hx, zero_add]
      rw [mul_add_one, add_comm, pow_add, ← Nat.div_div_eq_div_mul, hd]
      exact ih hxs j (by simpa using hj)

/-- The element operations of a result stand in its slots. -/
theorem elemwise_slot (t : IntTy) (f : Nat → Res) (hf : ∀ j, (f j).bits < 2 ^ t.bits) {j : Nat} (hj : j < t.slots) :
    (elemwise t f).bits % 2 ^ (32 * t.regs) / 2 ^ (t.bits * j) % 2 ^ t.bits = (f j).bits := by
  have hb : ∀ x ∈ ((List.range t.slots).map f).map Res.bits, x < 2 ^ t.bits := by
    simp only [List.mem_map]
    rintro _ ⟨_, ⟨k, _, rfl⟩, rfl⟩
    exact hf k
  have hlt := joinElems_lt _ _ hb
  rw [List.length_map, List.length_map, List.length_range, IntTy.bits_mul_slots] at hlt
  rw [elemwise, joinRes, Nat.mod_eq_of_lt hlt, joinElems_slot _ _ hb j (by simpa using hj)]
  simp

/-! ### Narrowing and SAT (R120) -/

theorem narrow_bits (t : IntTy) (sat : Bool) (v : Int) :
    (narrow t sat v).bits = t.wrap (if sat then max t.lo (min t.hi v) else v) := by
  have h := t.hi_eq
  have hp := Nat.two_pow_pos t.bits
  cases sat
  · rfl
  · simp only [narrow, clampTo, if_true]
    split
    · rw [min_eq_left (by omega), max_eq_right (by omega)]
    · split
      · rw [min_eq_right (by omega), max_eq_left (by omega)]
      · rw [min_eq_right (by omega), max_eq_right (by omega)]

theorem narrow_flags (t : IntTy) (sat : Bool) (v : Int) :
    (narrow t sat v).flags = { sat := sat && (decide (v < t.lo) || decide (t.hi < v)) } := by
  cases sat
  · rfl
  · simp only [narrow, clampTo, if_true]
    split
    · simp [*]
    · split <;> simp [*]

/-- Operations that raise SAT or nothing raise it together when one of them does. -/
theorem foldl_or_sat {f : Nat → Res} {b : Nat → Bool} (hf : ∀ j, (f j).flags = { sat := b j }) (js : List Nat) (a : Bool) :
    (js.map f).foldl (fun x r => x.or r.flags) { sat := a } = ({ sat := a || js.any b } : Flags) := by
  induction js generalizing a with
  | nil => simp
  | cons j js ih =>
    rw [List.map_cons, List.foldl_cons, hf j]
    exact (ih (a || b j)).trans (by simp [Bool.or_assoc])

/-- The flags of a result whose elements are narrowed. -/
theorem elemwise_narrow_mask (t : IntTy) (sat : Bool) (e : Nat → Int) :
    (elemwise t (fun j => narrow t sat (e j))).flags.mask = satMask t sat e := by
  have h := foldl_or_sat (fun j => narrow_flags t sat (e j)) (List.range t.slots) false
  rw [elemwise, joinRes, h, satMask]
  cases sat <;> simp [Flags.mask]

/-- The elements of a result whose elements are narrowed. -/
theorem elemwise_narrowed (t : IntTy) (sat : Bool) (e : Nat → Int) :
    Narrowed t sat e ((elemwise t (fun j => narrow t sat (e j))).bits % 2 ^ (32 * t.regs)) := by
  intro j hj
  have hb : ∀ k, (narrow t sat (e k)).bits < 2 ^ t.bits := fun k => by rw [narrow_bits]; exact t.wrap_lt _
  rw [intElem, elemwise_slot t _ hb hj, narrow_bits]
  have hh := t.hi_eq
  have hp := Nat.two_pow_pos t.bits
  cases sat
  · exact Int.emod_eq_emod_iff_emod_sub_eq_zero.mp (t.val_wrap_modEq (e j))
  · exact t.val_wrap ⟨le_max_left _ _, max_le (by omega) (min_le_left _ _)⟩

/-! ### Instructions on elements (R119, R120) -/

@[simp] theorem State.issued_srcVal (s : State) (i : Instr) (pc : W64) (l : Nat) (t : IntTy) (o : Opnd) (j : Nat) :
    srcVal t o ((s.issued i pc).group s.cur) l j = srcVal t o (s.group s.cur) l j := by
  simp [srcVal]

@[simp] theorem State.issued_wholeVal (s : State) (i : Instr) (pc : W64) (l : Nat) (t : IntTy) (o : Opnd) :
    wholeVal t o ((s.issued i pc).group s.cur) l = wholeVal t o (s.group s.cur) l := by
  simp [wholeVal]

/-- An instruction whose elements are narrowed integers gives them, with SAT. -/
theorem gives_narrowed {i : Instr} {t : IntTy} {sat : Bool} {e : Group → Nat → Nat → Int}
    (he : ∀ s, exec i s = perform i s (fun x u => u.alu x i.ops.d t.regs t.signed
      (fun g l => elemwise t (fun j => narrow t sat (e g l j)))))
    (hd : Accept.isReg i.shape.d = true)
    (hv : ∀ (s : State) pc l j, e ((s.issued i pc).group s.cur) l j = e (s.group s.cur) l j) :
    Gives i t.regs t.signed (fun g l => satMask t sat (e g l)) (fun g l x => Narrowed t sat (e g l) x) :=
  (gives_of_alu he (fun _ _ => rfl) t.regs_eq hd (fun s pc l => by simp only [hv])).imp
    (fun g l => elemwise_narrow_mask t sat (e g l)) (fun g l _ hx => hx ▸ elemwise_narrowed t sat (e g l))

theorem arith2_of_arith {i : Instr} {t : IntTy} {sat : Bool} {f : Int → Int → Int}
    (he : ∀ s, exec i s = perform i s (fun x u => u.alu x i.ops.d t.regs t.signed (arith t sat i.ops f)))
    (hd : Accept.isReg i.shape.d = true) : Arith2 i t sat f :=
  gives_narrowed he hd (fun _ _ _ _ => by simp only [State.issued_srcVal])

theorem arith1_of_arith1 {i : Instr} {t : IntTy} {sat : Bool} {f : Int → Int}
    (he : ∀ s, exec i s = perform i s (fun x u => u.alu x i.ops.d t.regs t.signed (arith1 t sat i.ops f)))
    (hd : Accept.isReg i.shape.d = true) : Arith1 i t sat f :=
  gives_narrowed he hd (fun _ _ _ _ => by simp only [State.issued_srcVal])

/-- Settles O1: each instruction computes narrowed elements of the exact values of its sources. -/
theorem integerArithmetic : Obligations.IntegerArithmetic := fun t sat _ _ =>
  ⟨arith2_of_arith (fun _ => rfl) rfl, arith2_of_arith (fun _ => rfl) rfl, arith2_of_arith (fun _ => rfl) rfl,
    gives_narrowed (fun _ => rfl) rfl (fun _ _ _ _ => by simp only [State.issued_srcVal]),
    arith2_of_arith (fun _ => rfl) rfl, arith2_of_arith (fun _ => rfl) rfl,
    arith1_of_arith1 (fun _ => rfl) rfl, arith1_of_arith1 (fun _ => rfl) rfl⟩

/-! ### Instructions on whole words (R121) -/

/-- What holds of an instruction where it is well formed holds: no other one issues. -/
theorem Gives.of_wf {i : Instr} {n : Nat} {signed : Bool} {fl : Group → Nat → Nat} {ok : Group → Nat → Nat → Prop}
    (h : ∀ w, i.wf w = true → Gives i n signed fl ok) : Gives i n signed fl ok :=
  fun s pc hi => h _ hi.wf s pc hi

/-- An instruction that computes a word for each lane and raises no flag gives it. -/
theorem givesPlain_of_alu {i : Instr} {n : Nat} {signed : Bool} {val : Group → Nat → Nat} {ok : Group → Nat → Nat → Prop}
    (he : ∀ s, exec i s = perform i s (fun x u => u.alu x i.ops.d n signed (fun g l => plainRes (val g l))))
    (hn : n = 1 ∨ n = 2) (hd : Accept.isReg i.shape.d = true)
    (hv : ∀ (s : State) pc l, val ((s.issued i pc).group s.cur) l = val (s.group s.cur) l)
    (hk : ∀ w, i.wf w = true → ∀ g l, ok g l (val g l % 2 ^ (32 * n))) : GivesPlain i n signed ok :=
  Gives.of_wf fun w hw =>
    (gives_of_alu he (fun _ _ => rfl) hn hd (fun s pc l => by rw [hv])).imp (fun _ _ => rfl)
      (fun g l _ hx => hx ▸ hk w hw g l)

theorem wholeVal_range (t : IntTy) (o : Opnd) (g : Group) (l : Nat) : t.lo ≤ wholeVal t o g l ∧ wholeVal t o g l ≤ t.hi :=
  t.val_range _

/-- The high half is the product without its low word (R121). -/
theorem mulHigh_spec (t : IntTy) {x y : Int} (hx : t.lo ≤ x ∧ x ≤ t.hi) (hy : t.lo ≤ y ∧ y ≤ t.hi) :
    ∃ low < 2 ^ t.bits, x * y = t.val (mulHigh t x y) * (2 ^ t.bits : Nat) + (low : Nat) := by
  have hN : (0 : Int) < (2 ^ t.bits : Nat) := by positivity
  obtain ⟨h1, h2⟩ := t.product_range hx hy
  have hr : t.lo ≤ x * y / (2 ^ t.bits : Nat) ∧ x * y / (2 ^ t.bits : Nat) ≤ t.hi :=
    ⟨(Int.le_ediv_iff_mul_le hN).mpr h1, Int.lt_add_one_iff.mp ((Int.ediv_lt_iff_lt_mul hN).mpr h2)⟩
  refine ⟨t.wrap (x * y), t.wrap_lt _, ?_⟩
  rw [mulHigh, t.val_wrap hr, t.wrap_cast, Int.ediv_mul_add_emod]

theorem mulHigh_lt (t : IntTy) (x y : Int) : mulHigh t x y < 2 ^ t.bits := t.wrap_lt _

theorem divide_lt (t : IntTy) (x y : Int) : divide t x y < 2 ^ t.bits := by
  unfold divide
  split_ifs <;> exact t.wrap_lt _

theorem remainder_lt (t : IntTy) (x y : Int) : remainder t x y < 2 ^ t.bits := by
  unfold remainder
  split_ifs
  exacts [t.wrap_lt _, Nat.two_pow_pos _, t.wrap_lt _]

/-- The rows of R121 for a quotient. -/
theorem divide_spec (t : IntTy) {x y : Int} (hx : t.lo ≤ x ∧ x ≤ t.hi) (hy : t.lo ≤ y ∧ y ≤ t.hi) :
    if y = 0 then divide t x y % 2 ^ t.bits = 2 ^ t.bits - 1
    else if t.signed = true ∧ x = t.lo ∧ y = -1 then t.val (divide t x y) = t.lo
    else t.val (divide t x y) = x.tdiv y := by
  rw [Nat.mod_eq_of_lt (divide_lt t x y)]
  unfold divide
  split_ifs with h0 hc
  · exact t.wrap_neg_one
  · exact t.val_wrap ⟨le_rfl, hc.2.1 ▸ hx.2⟩
  · exact t.val_wrap (t.tdiv_range hx hy.1 h0 hc)

/-- The rows of R121 for a remainder. -/
theorem remainder_spec (t : IntTy) {x y : Int} (hx : t.lo ≤ x ∧ x ≤ t.hi) :
    if y = 0 then t.val (remainder t x y) = x
    else if t.signed = true ∧ x = t.lo ∧ y = -1 then remainder t x y = 0
    else t.val (remainder t x y) = x - y * x.tdiv y := by
  unfold remainder
  split_ifs
  · exact t.val_wrap hx
  · rfl
  · rw [← Int.tmod_def]
    exact t.val_wrap (t.tmod_range hx y)

/-- A product of two 32-bit values is a 64-bit value of the same signedness (R121). -/
theorem val_wide_product {t : IntTy} (ht : t.bits = 32) {x y : Int} (hx : t.lo ≤ x ∧ x ≤ t.hi) (hy : t.lo ≤ y ∧ y ≤ t.hi) :
    IntTy.val (if t.signed then .s64 else .z64) (IntTy.wrap .z64 (x * y)) = x * y := by
  obtain ⟨h1, h2⟩ := t.product_range hx hy
  cases t with
  | s32 => exact IntTy.val_wrap .s64 ⟨h1, Int.lt_add_one_iff.mp h2⟩
  | z32 => exact IntTy.val_wrap .z64 ⟨h1, Int.lt_add_one_iff.mp h2⟩
  | _ => exact absurd ht (by decide)

/-- An instruction that computes a word of a wide type from two whole sources, and raises no flag, gives it. -/
theorem givesPlain_of_words {i : Instr} {t : IntTy} {f : Int → Int → Nat} {ok : Group → Nat → Nat → Prop}
    (he : ∀ s, exec i s = perform i s (fun x u => u.alu x i.ops.d t.regs t.signed
      (fun g l => plainRes (f (wholeVal t i.ops.a g l) (wholeVal t i.ops.b g l)))))
    (hd : Accept.isReg i.shape.d = true) (hc : ∀ w, i.crossOk w = (t.wide && i.ops.scalarFormOk))
    (hf : ∀ x y, f x y < 2 ^ t.bits) (hk : ∀ g l, ok g l (f (wholeVal t i.ops.a g l) (wholeVal t i.ops.b g l))) :
    GivesPlain i t.regs t.signed ok := by
  refine givesPlain_of_alu he t.regs_eq hd (fun s pc l => by simp only [State.issued_wholeVal]) fun w hw g l => ?_
  have hx := (hc w).symm.trans (Laws.wf_cross hw)
  rw [← IntTy.bits_of_wide (Bool.and_eq_true_iff.mp hx).1, Nat.mod_eq_of_lt (hf _ _)]
  exact hk g l

theorem execMulhi_eq (t : IntTy) (c : Ctl) (o : Ops) (s : State) :
    exec (.mulhi t c o) s = perform (.mulhi t c o) s (fun x u => u.alu x o.d t.regs t.signed
      (fun g l => plainRes (mulHigh t (wholeVal t o.a g l) (wholeVal t o.b g l)))) := by
  show execMulhi t c o s = _
  simp only [execMulhi, IntTy.val_mod, wholeVal]

theorem mulw_givesPlain (t : IntTy) (c : Ctl) (o : Ops) :
    GivesPlain (.mulw t c o) 2 t.signed (fun g l v =>
      IntTy.val (if t.signed then .s64 else .z64) v = wholeVal t o.a g l * wholeVal t o.b g l) := by
  refine givesPlain_of_alu (fun _ => rfl) (.inr rfl) rfl (fun _ _ _ => by simp only [State.issued_srcInt]) fun w hw g l => ?_
  have ht : t.bits = 32 := beq_iff_eq.mp (Bool.and_eq_true_iff.mp (Laws.wf_cross hw)).1
  rw [Nat.mod_eq_of_lt (show IntTy.wrap .z64 _ < 2 ^ (32 * 2) from IntTy.wrap_lt .z64 _)]
  exact val_wide_product ht (wholeVal_range ..) (wholeVal_range ..)

/-- Settles O2: each instruction computes one word from its whole sources, and that word meets the row of R121. -/
theorem productsAndQuotients : Obligations.ProductsAndQuotients := fun t c o =>
  ⟨givesPlain_of_words (execMulhi_eq t c o) rfl (fun _ => rfl) (mulHigh_lt t)
      (fun _ _ => mulHigh_spec t (wholeVal_range ..) (wholeVal_range ..)),
    mulw_givesPlain t c o,
    givesPlain_of_words (fun _ => rfl) rfl (fun _ => rfl) (divide_lt t)
      (fun _ _ => divide_spec t (wholeVal_range ..) (wholeVal_range ..)),
    givesPlain_of_words (fun _ => rfl) rfl (fun _ => rfl) (remainder_lt t)
      (fun _ _ => remainder_spec t (wholeVal_range ..))⟩

end Sys2Proof.Machine
end

section
/-! PROOF. Traps and handler entry (R204, R326 to R329): a cause that lanes outside a transaction take, the stores of a
group by the device, which change no group, the group at its handler, and from them the statement O28. -/

namespace Sys2Proof.Machine

/-! ### What the store of a trap frame leaves alone: the groups -/

theorem State.group_of_groups {s t : State} (h : t.groups = s.groups) (k : Nat) : t.group k = s.group k := by
  unfold State.group; rw [h]

/-- A fold of an operation that leaves the groups alone leaves them alone. -/
@[simp] theorem State.foldl_groups {α : Type} {f : State → α → State} (hf : ∀ s a, (f s a).groups = s.groups)
    (l : List α) (s : State) : (l.foldl f s).groups = s.groups := by
  induction l generalizing s with
  | nil => rfl
  | cons a l ih => exact (ih (f s a)).trans (hf s a)

@[simp] theorem State.ite_groups {p : Prop} [Decidable p] (a b : State) :
    (if p then a else b).groups = if p then a.groups else b.groups := apply_ite State.groups p a b

/-! #### Memory below the caches -/

@[simp] theorem State.tick_groups (s : State) : s.tick.groups = s.groups := rfl
@[simp] theorem State.setL1_groups (s : State) (c l v) : (s.setL1 c l v).groups = s.groups := rfl
@[simp] theorem State.setL2_groups (s : State) (d l v) : (s.setL2 d l v).groups = s.groups := rfl
@[simp] theorem State.putMem_groups (s : State) (key pa b) : (s.putMem key pa b).groups = s.groups := rfl
@[simp] theorem State.dropWrite_groups (s : State) (pa) : (s.dropWrite pa).groups = s.groups := rfl
@[simp] theorem State.arrive_groups (s : State) (d c p w) : (s.arrive d c p w).groups = s.groups := rfl
@[simp] theorem State.modTeam_groups (s : State) (k f) : (s.modTeam k f).groups = s.groups := rfl
@[simp] theorem State.overQuota_groups (s : State) (c t l m) : (s.overQuota c t l m).groups = s.groups := rfl
@[simp] theorem State.quotaPut_groups (s : State) (c t l w j bs arr) :
    (s.quotaPut c t l w j bs arr).groups = s.groups := rfl

@[simp] theorem State.unpoison_groups (s : State) (pa) : (s.unpoison pa).groups = s.groups := by
  unfold State.unpoison; split <;> rfl
@[simp] theorem State.sieveWrite_groups (s : State) (m pa n) : (s.sieveWrite m pa n).groups = s.groups := by
  unfold State.sieveWrite; split <;> rfl
@[simp] theorem State.triggerWrite_groups (s : State) (pa bs) : (s.triggerWrite pa bs).groups = s.groups := by
  unfold State.triggerWrite; split <;> rfl
@[simp] theorem State.arriveAt_groups (s : State) (c va pa) : (s.arriveAt c va pa).groups = s.groups := by
  unfold State.arriveAt
  exact State.foldl_groups (fun _ _ => State.arrive_groups ..) _ s
@[simp] theorem State.homeToMem_groups (s : State) (d l) : (s.homeToMem d l).groups = s.groups := by
  unfold State.homeToMem
  dsimp only
  rw [State.setL2_groups]
  exact State.foldl_groups (fun _ _ => State.putMem_groups ..) _ s

/-! #### The L2 -/

@[simp] theorem State.ownPutByte_groups (s : State) (c pa b) : (s.ownPutByte c pa b).groups = s.groups := by
  unfold State.ownPutByte
  dsimp only
  split
  · split <;> simp
  · simp
@[simp] theorem State.evictL2_groups (s : State) (d l) : (s.evictL2 d l).groups = s.groups := by
  simp [State.evictL2]
@[simp] theorem State.takeWay_groups (s : State) (d c l) : (s.takeWay d c l).1.groups = s.groups := by
  unfold State.takeWay
  dsimp only
  split
  · rfl
  · split
    · rfl
    · split <;> simp
@[simp] theorem State.ownWriteByte_groups (s : State) (c pa b) : (s.ownWriteByte c pa b).groups = s.groups := by
  unfold State.ownWriteByte
  dsimp only
  split
  · split
    all_goals
      next hw =>
      have h := congrArg (fun p => p.1.groups) hw
      simpa using h.symm
  · simp
@[simp] theorem State.ownWrite_groups (s : State) (c m pa bs) : (s.ownWrite c m pa bs).groups = s.groups := by
  simp [State.ownWrite]
@[simp] theorem State.toOwner_groups (s : State) (c l bs arr) : (s.toOwner c l bs arr).groups = s.groups := by
  simp [State.toOwner]
@[simp] theorem State.flushVisitor_groups (s : State) (d l) : (s.flushVisitor d l).groups = s.groups := by
  simp [State.flushVisitor]
@[simp] theorem State.sysWrite_groups (s : State) (pa bs key) : (s.sysWrite pa bs key).groups = s.groups := by
  simp [State.sysWrite]

/-! #### The L1 -/

@[simp] theorem State.flushL1_groups (s : State) (c l far) : (s.flushL1 c l far).groups = s.groups := by
  unfold State.flushL1
  extract_lets ln die pa s1 near p s2 v s3 w _ _ s4
  have h2 : s2.groups = s.groups := by
    unfold s2 p
    split <;> simp [s1]
  have h3 : s3.groups = s.groups := by simp [s3, h2]
  have h4 : s4.groups = s.groups := by simp [s4, h2, h3]
  split
  · rfl
  · split <;> simp [h3, h4]
@[simp] theorem State.endRelaunch_groups (s : State) (t) : (s.endRelaunch t).groups = s.groups := by
  simp [State.endRelaunch]
@[simp] theorem State.evictL1_groups (s : State) (c l) : (s.evictL1 c l).groups = s.groups := by
  simp [State.evictL1]
@[simp] theorem State.l1Room_groups (s : State) (c l b) : (s.l1Room c l b).1.groups = s.groups := by
  unfold State.l1Room
  dsimp only
  split
  · rfl
  · split
    · rfl
    · split
      · rfl
      · split <;> simp
@[simp] theorem State.gather_groups (s : State) (c l) : (s.gather c l).groups = s.groups := by
  simp [State.gather]
@[simp] theorem State.ownLine_groups (s : State) (c x l) : (s.ownLine c x l).groups = s.groups := by
  simp [State.ownLine]
@[simp] theorem State.l1Write_groups (s : State) (c x t pa bs arr) : (s.l1Write c x t pa bs arr).groups = s.groups := by
  unfold State.l1Write
  dsimp only
  split <;> simp

/-! #### Translation -/

@[simp] theorem State.tlbAdd_groups (s : State) (e) : (s.tlbAdd e).groups = s.groups := rfl
@[simp] theorem State.hitMark_groups (s : State) (c va) : (s.hitMark c va).groups = s.groups := rfl
@[simp] theorem State.putEntries_groups (s : State) (ws) : (s.putEntries ws).groups = s.groups := by
  simp [State.putEntries]
@[simp] theorem State.remap_groups (s : State) (ws) : (s.remap ws).groups = s.groups := by
  simp [State.remap, State.reframe, State.purge, State.confirmed]
@[simp] theorem State.pageIn_groups (s : State) (c va) : (s.pageIn c va).1.groups = s.groups := by
  unfold State.pageIn
  dsimp only
  split
  · split <;> simp
  · split <;> rfl
@[simp] theorem State.lookup_groups (s : State) (c x va f) : (s.lookup c x va f).1.groups = s.groups := by
  unfold State.lookup
  dsimp only
  split
  · rfl
  · split
    · rfl
    · split <;> simp
@[simp] theorem State.chase_groups (s : State) (c x need n b fuel va) :
    (s.chase c x need n b fuel va).1.groups = s.groups := by
  induction fuel generalizing s va with
  | zero =>
    unfold State.chase
    dsimp only
    split
    · simp [apply_ite Prod.fst]
    · simp
    · simp
  | succ fuel ih =>
    unfold State.chase
    dsimp only
    split
    · simp [apply_ite Prod.fst]
    · simp [ih]
    · simp
@[simp] theorem State.translate_groups (s : State) (c x need va n b) :
    (s.translate c x need va n b).1.groups = s.groups := by
  unfold State.translate
  split <;> simp

/-! #### The store -/

/-- A frame's pages are translated in turn, each made present where the Memory core can, and its bytes are then written:
none of it changes a group. -/
theorem State.groupStore_groups (s : State) (k va : Nat) (bs : List Byte) :
    (s.groupStore k va bs).1.groups = s.groups := by
  unfold State.groupStore
  extract_lets g r
  have hr : r.1.groups = s.groups := by
    refine List.foldlRecOn (pieces va bs.length) _
      (motive := fun acc : State × Option (List (Nat × Nat × Nat)) => acc.1.groups = s.groups) rfl fun acc hacc p _ => ?_
    obtain ⟨u, _ | ps⟩ := acc
    · exact hacc
    · dsimp only
      split
      all_goals
        next ht =>
        refine (congrArg (fun q => q.1.groups) ht).symm.trans ((State.translate_groups ..).trans (.trans ?_ hacc))
        split
        · exact State.pageIn_groups ..
        · rfl
  clear_value r
  obtain ⟨u, _ | ps⟩ := r
  · exact hr
  · simpa using hr

/-! ### Causes of lanes without a transaction (R30, R62) -/

/-- A lane parked at an instruction with a cause. -/
def Lane.parked (l : Lane) (pc : W64) (code detail : Nat) (addr : W64) : Lane :=
  { l with
    lst := .parked
    pc := pc
    cause := BitVec.ofNat 32 (code + 16 * detail)
    addr := addr
    dbgStop := none }

theorem Lane.parked_parkedAt (l : Lane) (pc : W64) (code detail : Nat) (addr : W64) :
    (l.parked pc code detail addr).ParkedAt pc code detail addr := ⟨rfl, rfl, rfl, rfl⟩

theorem State.fault_noTx {s : State} {x : Issue} {i : Nat} (hs : (s.group x.g).scout = false)
    (ht : ((s.group x.g).lane i).tx = none) (code detail : Nat) (addr : W64) :
    s.fault x i code detail addr = s.modLane x.g i (fun l => l.parked x.pc code detail addr) := by
  unfold State.fault
  rw [hs, ht]
  rfl

/-- Lanes of a group that is no scout, without a transaction, all park. -/
theorem State.faultAll_noTx {x : Issue} {is : List Nat} {s : State} (hs : (s.group x.g).scout = false)
    (ht : ∀ i ∈ is, ((s.group x.g).lane i).tx = none) (code detail : Nat) (addr : W64) :
    s.faultAll x is code detail addr =
      is.foldl (fun s i => s.modLane x.g i (fun l => l.parked x.pc code detail addr)) s := by
  unfold State.faultAll
  induction is generalizing s with
  | nil => rfl
  | cons i is ih =>
    rw [List.foldl_cons, List.foldl_cons, State.fault_noTx hs (ht i List.mem_cons_self)]
    have hg : (s.modLane x.g i (fun l => l.parked x.pc code detail addr)).group x.g =
      (s.group x.g).modLane i (fun l => l.parked x.pc code detail addr) := State.modGroup_group_self ..
    refine ih ?_ fun j hj => ?_
    · rw [hg]; exact hs
    · rw [hg, Group.modLane_lane]
      split
      · next hji => exact hji ▸ ht j (List.mem_cons_of_mem _ hj)
      · exact ht j (List.mem_cons_of_mem _ hj)

theorem OnlyGroup.foldl_modLane {s u : State} (h : OnlyGroup s u) (f : Lane → Lane) (is : List Nat) :
    OnlyGroup s (is.foldl (fun v i => v.modLane s.cur i f) u) := by
  induction is generalizing u with
  | nil => exact h
  | cons i is ih => exact ih (h.modGroup _)

/-! ### `trap` (R204) -/

theorem State.issued_sregs (s : State) (i : Instr) (pc : W64) :
    ((s.issued i pc).group s.cur).sregs = (s.group s.cur).sregs := by
  obtain ⟨_, _, _, hg, -⟩ := s.issued_group i pc
  rw [hg]; rfl

/-- Where `trap` issues outside a transaction, its active lanes park with cause 8. -/
theorem exec_trap {c : Ctl} {o : Ops} {s : State} {pc : W64} {n : Nat} (h : Issues s (.trap c o) pc)
    (ht : s.noTx (.trap c o) pc) (ho : o.a = .imm (n : Nat)) :
    exec (.trap c o) s = .next (((s.group s.cur).active (.trap c o) pc).foldl
      (fun u i => u.modLane s.cur i (fun l => l.parked pc 8 (0x80 + n) 0)) (s.issued (.trap c o) pc)) := by
  show execTrap c o s = _
  unfold execTrap
  rw [perform_issues h, ho]
  refine congrArg Host.Outcome.next ?_
  exact State.faultAll_noTx (x := s.issueOf (.trap c o) pc) ((s.issued_scout _ pc).trans h.body)
    (fun i hi => (s.issued_tx _ pc i).trans (ht i hi)) 8 (0x80 + n) 0

/-- `trap` changes nothing of its group but its lanes: the active ones are parked, the rest of the minimum has gone on. -/
theorem trap_parks (c : Ctl) (o : Ops) (s : State) (pc : W64) (n : Nat) (h : Issues s (.trap c o) pc)
    (ht : s.noTx (.trap c o) pc) (ho : o.a = .imm (n : Nat)) :
    ∃ t, exec (.trap c o) s = .next t ∧ OnlyGroup s t ∧ (t.group s.cur).pend = (s.group s.cur).pend ∧
      (t.group s.cur).sregs = (s.group s.cur).sregs ∧
      ∀ l, ((t.group s.cur).lane l).v = ((s.group s.cur).lane l).v ∧
        ((t.group s.cur).lane l).p = ((s.group s.cur).lane l).p ∧
        (l ∈ (s.group s.cur).active (.trap c o) pc → ((t.group s.cur).lane l).ParkedAt pc 8 (0x80 + n) 0) ∧
        (l ∉ (s.group s.cur).atMin pc → (t.group s.cur).lane l = (s.group s.cur).lane l) := by
  have hsub := (s.group s.cur).active_sub (.trap c o) pc
  obtain ⟨gs, he, -, ls, hg, hl⟩ := State.foldl_modLane (fun l => l.parked pc 8 (0x80 + n) 0) s.cur
    ((s.group s.cur).active (.trap c o) pc) ((s.group s.cur).active_nodup _ _) (s.issued (.trap c o) pc)
  refine ⟨_, exec_trap h ht ho, (s.issued_only _ pc).foldl_modLane _ _, ?_, ?_, fun l => ?_⟩
  all_goals rw [he]
  · exact (congrArg Group.pend hg).trans (s.issued_pend _ pc)
  · exact (congrArg Group.sregs hg).trans (s.issued_sregs _ pc)
  · have hlane : (({ s.issued (.trap c o) pc with groups := gs } : State).group s.cur).lane l = _ :=
      (congrArg (fun g => Group.lane g l) hg).trans (hl l)
    rw [hlane, s.issued_lane]
    by_cases ha : l ∈ (s.group s.cur).active (.trap c o) pc
    · rw [if_pos ha, if_pos (hsub l ha)]
      exact ⟨rfl, rfl, fun _ => Lane.parked_parkedAt .., fun hm => absurd (hsub l ha) hm⟩
    · rw [if_neg ha]
      split
      · next hm => exact ⟨rfl, rfl, fun h => absurd h ha, fun h => absurd hm h⟩
      · exact ⟨rfl, rfl, fun h => absurd h ha, fun _ => rfl⟩

/-! ### The group at its handler (R328) -/

/-- What a change of every lane of a list without repeats does to a group, when lanes that meet a test are left out. -/
theorem Group.foldl_modLane_unless (p : Lane → Prop) [DecidablePred p] (f : Lane → Lane) (is : List Nat)
    (hn : is.Nodup) (g : Group) :
    ∃ ls, is.foldl (fun h i => if p (h.lane i) then h else h.modLane i f) g = { g with lanes := ls } ∧
      ∀ j, FMap.get Lane.birth ls j = if j ∈ is ∧ ¬p (g.lane j) then f (g.lane j) else g.lane j := by
  induction is generalizing g with
  | nil => exact ⟨g.lanes, rfl, fun j => by simp [Group.lane]⟩
  | cons i is ih =>
    rw [List.nodup_cons] at hn
    rw [List.foldl_cons]
    by_cases hp : p (g.lane i)
    · obtain ⟨ls, he, hl⟩ := ih hn.2 g
      refine ⟨ls, by rw [if_pos hp, he], fun j => ?_⟩
      rw [hl j]
      by_cases hj : j = i
      · subst hj; simp [hp]
      · simp [hj]
    · obtain ⟨ls, he, hl⟩ := ih hn.2 (g.modLane i f)
      refine ⟨ls, by rw [if_neg hp, he]; rfl, fun j => ?_⟩
      rw [hl j, Group.modLane_lane]
      by_cases hj : j = i
      · subst hj; simp [hn.1, hp]
      · simp [hj]

theorem Group.setTm_tm (g : Group) : (g.setTm true).tm = true := by
  simp [Group.setTm, Group.tm]

/-- The group at its handler: TM is set, `s62` is the frame, the image is kept, and the lanes run at the handler. -/
theorem Group.toHandler_spec (g : Group) (handler : W64) (now : Nat) :
    (g.toHandler handler now).tm = true ∧ (g.toHandler handler now).sreg 62 = g.frame ∧
      (g.toHandler handler now).handler = some g.image ∧
      ∀ l < g.width, if (g.lane l).lst = .exited then (g.toHandler handler now).lane l = g.lane l
        else ((g.toHandler handler now).lane l).lst = .running ∧ ((g.toHandler handler now).lane l).pc = handler := by
  unfold Group.toHandler
  extract_lets g0 g1
  obtain ⟨ls, he, hl⟩ := Group.foldl_modLane_unless (fun l => l.lst = .exited)
    (fun l => { l with lst := .running, pc := handler, dbgStop := none }) g.ids List.nodup_range g1
  rw [he]
  refine ⟨Group.setTm_tm _, Group.setS_sreg_self .., rfl, fun l hw => ?_⟩
  have hlane : ({ g1 with lanes := ls } : Group).lane l = _ := hl l
  have hid : l ∈ g.ids := List.mem_range.mpr hw
  have h1 : g1.lane l = g.lane l := rfl
  rw [hlane, h1]
  split
  · next hx => rw [if_neg fun h => h.2 hx]
  · next hx => rw [if_pos ⟨hid, hx⟩]; exact ⟨rfl, rfl⟩

/-! ### Handler entry (R323, R326, R328, R329) -/

/-- A group that wants its handler, with no result on its way, enters it where its partition runs and its frame stays. -/
theorem exec_handlerEntry {k : Nat} {s : State} (hw : (s.group k).wantsHandler = true) (hp : (s.group k).pend = [])
    (hc : s.current (s.group k) = true) (hs : (s.part (s.group k).part).stopped = false)
    (hm : s.rangeMoves (s.group k).ctx (s.group k).frame.toNat (64 + 32 * (s.group k).width) = false) :
    exec (.handlerEntry k) s = .next (s.enterHandler k) := by
  show execHandlerEntry k s = _
  simp [execHandlerEntry, hw, hp, hc, hs, hm]

/-- A fault in the handler asks for the kill of the context for reason 3 (R329). -/
theorem State.enterHandler_masked {s : State} {k : Nat} (h : (s.group k).tm = true) :
    s.enterHandler k = (s.modGroup k (fun g => { g with rejoin := false, wait := .killed })).wantKill
      (s.group k).ctx 3 (s.group k).causeImage := if_pos h

/-- Without a handler the team ends as one failed item (R326). -/
theorem State.enterHandler_noHandler {s : State} {k : Nat} (ht : (s.group k).tm = false)
    (hh : (s.ctx (s.group k).ctx).handler = 0) :
    s.enterHandler k = s.failTeam (s.group k).team (s.group k).causeImage := by
  unfold State.enterHandler
  simp only [ht, hh, Bool.false_eq_true, if_false, if_true]

/-- Once the frame is written, the group as it was enters its handler: the store has changed no group (R328). -/
theorem State.enterHandler_stored {s u : State} {k : Nat} (ht : (s.group k).tm = false)
    (hh : (s.ctx (s.group k).ctx).handler ≠ 0)
    (hu : s.groupStore k (s.group k).frame.toNat ((s.group k).trapFrame (if (s.group k).rejoin then 2 else 1)) = (u, true)) :
    (s.enterHandler k).group k = (s.group k).toHandler (s.ctx (s.group k).ctx).handler u.steps := by
  have hg : u.group k = s.group k :=
    State.group_of_groups ((congrArg (fun p => p.1.groups) hu).symm.trans (s.groupStore_groups ..)) k
  unfold State.enterHandler
  simp only [ht, hh, hu, Bool.false_eq_true, if_false, State.modGroup_group_self, hg]

/-- Settles O28: the active lanes of a `trap` take its cause, since none has a transaction to validate; and a handler entry
is one of three cases, of which the last finds the group as it was, because the store of the frame changes no group. -/
theorem trapEntry : Obligations.TrapEntry := by
  refine ⟨trap_parks, fun k s hw hp hc hs hm =>
    ⟨_, exec_handlerEntry hw hp hc hs hm, fun ht => ?_, fun ht hh => State.enterHandler_noHandler ht hh, fun u ht hh hu => ?_⟩⟩
  · rw [State.enterHandler_masked ht]
    simp [State.wantKill]
  · rw [State.enterHandler_stored ht hh hu]
    exact (s.group k).toHandler_spec _ _

end Sys2Proof.Machine
end
